-- ==== Sys2Proof/Word.lean ====
section
/-!
DEFINITION. The words of show memory and of the links, and the numbers that name the part's items
(spec 00 §6: words of 32 bits, halves of 16, bytes of 8; slots 0–11, lamps L0–L95, voice channels V0–V7,
drives D0–D23, inputs T0–T31, bays B0–B15, links A and B, twelve drive addresses a link).
-/

namespace Sys2Proof

/-- A 32-bit memory word. -/
abbrev Word := BitVec 32
/-- A 16-bit half. -/
abbrev Half := BitVec 16
/-- An 8-bit byte. -/
abbrev Byte := BitVec 8
/-- Four byte enables, bit `i` for byte `i` of the word (R175). -/
abbrev Enables := BitVec 4
/-- The number of a word of show memory: its byte address divided by 4 (24-bit byte addresses). -/
abbrev WordNo := BitVec 22

abbrev SlotId := Fin 12
abbrev LampId := Fin 96
abbrev VoiceId := Fin 8
abbrev DriveId := Fin 24
abbrev InputId := Fin 32
abbrev BayId := Fin 16
/-- Link 0 is A, link 1 is B. -/
abbrev LinkId := Fin 2
/-- Drive address `a + 1` of a link, for `a` in 0–11 (addresses 1–12). -/
abbrev AddrId := Fin 12

/-- The least significant byte `i` (0–3) of a word. -/
def Word.byte (w : Word) (i : Nat) : Byte := (w >>> (8 * i)).setWidth 8

/-- A word from its four bytes, lowest address first (little-endian, spec 00 §6). -/
def Word.ofBytes (b0 b1 b2 b3 : Byte) : Word := b3 ++ b2 ++ b1 ++ b0

/-- A word with the byte values (taken mod 256) of four numbers, lowest first. -/
def Word.ofNats (n0 n1 n2 n3 : Nat) : Word :=
  Word.ofBytes (BitVec.ofNat 8 n0) (BitVec.ofNat 8 n1) (BitVec.ofNat 8 n2) (BitVec.ofNat 8 n3)

/-- `old` with the bytes that `be` enables replaced by those of `new`. -/
def Word.merge (old new : Word) (be : Enables) : Word :=
  Word.ofBytes (if be.getLsbD 0 then new.byte 0 else old.byte 0) (if be.getLsbD 1 then new.byte 1 else old.byte 1)
    (if be.getLsbD 2 then new.byte 2 else old.byte 2) (if be.getLsbD 3 then new.byte 3 else old.byte 3)

end Sys2Proof
end

