-- ==== Sys2Proof/Syntax.lean ====
section
/-!
DEFINITION. The commands of the SP24: one constructor for each row of spec/opcode_table.json, in the table's order. No row has
bits of its own. An operand names the slot, channel, lamp, input, link, address or drive the event is about, or carries what comes in
from outside (a host cycle's data, a character of a link, a pin's level). A request row has no operand: the part reads the request record from
show memory (R195; log 12).
-/

namespace Sys2Proof

/-- The reads the loader makes after the map is validated (R180). -/
inductive LoadTable where
  | trigger | bay | lampHouse | drive
deriving DecidableEq, Repr

/-- The two levels of a link pair (R117). -/
inductive Level where
  | dominant | recessive
deriving DecidableEq, Repr

/-- A character received on a link pair (R117): the levels behind its start bit, data bit 0 first, then parity and stop. -/
structure RxChar where
  levels : Vector Level 10
deriving DecidableEq, Repr

inductive Instr where
  | powerOnReset
  | resetLineAsserted
  | resetLineReleased
  | hostRead (word : WordNo)
  | heldReadEnd
  | hostReadGrant
  | hostWrite (word : WordNo) (data : Word) (be : Enables)
  | loadWordWrite (data : Word) (be : Enables)
  | requestProduceIndexWrite (data : Word) (be : Enables)
  | noticeConsumeIndexWrite (data : Word) (be : Enables)
  | lampHouseTableWrite (lamp : LampId) (data : Word) (be : Enables)
  | postingLands
  /-- `grants` of the header's four grants of 8 words are made; the fourth completes the read (R178; log 22). -/
  | mapHeaderRead (grants : Nat)
  /-- One grant of 8 words of a table (R180; log 22). -/
  | tableRead (table : LoadTable)
  /-- The character sent came back as `ch`, or, with `none`, not in time (R137). -/
  | loopbackCheck (link : LinkId) (ch : Option RxChar)
  | enterLive
  | requestIndexRead
  /-- The raw level of the STOP line becomes high or low (active low, R165). -/
  | stopRawChange (high : Bool)
  | stopFilterSettle
  | triggerRawChange (input : InputId) (high : Bool)
  | triggerFilterSettle (input : InputId)
  | dwellTimerExpiry (input : InputId)
  | cooldownTimerExpiry (input : InputId)
  | indicatorAlternationStep (input : InputId)
  | offerVerdict
  | definitionReadReturn (slot : SlotId)
  | cueCheckRead (slot : SlotId)
  | claimWaitTimerExpiry (slot : SlotId)
  | cueRecordArrives (slot : SlotId)
  | offsetTimerExpiry (slot : SlotId)
  | waitTimerExpiry (slot : SlotId)
  | runLimitTimerExpiry (slot : SlotId)
  | lampFrameStart
  | lampFadeEnd (lamp : LampId)
  | directoryReadReturn (voice : VoiceId)
  | burstArrives (voice : VoiceId)
  | sampleTime (voice : VoiceId)
  | voiceFadeEnd (voice : VoiceId)
  | pairStartBit (link : LinkId)
  | quietWaitEnd (link : LinkId)
  | serviceLineChange (link : LinkId) (pulled : Bool)
  | arbitrationLost (link : LinkId)
  | pairDriveFault (link : LinkId)
  | frameSent (link : LinkId)
  | replyCharacter (link : LinkId) (ch : RxChar)
  | replyTimeout (link : LinkId)
  | probeTimerExpiry (link : LinkId) (addr : AddrId)
  | retryTimerExpiry (drive : DriveId)
  | settleTimerExpiry (drive : DriveId)
  | startScene
  | stopScene
  | stopBay
  | hold
  | release
  | guardBaySet
  | guardBayClear
  | armTrigger
  | disarmTrigger
  | driveServiceHome
  | driveServiceSense
  | driveServiceClear
  | resetShow
  | resetShowDrainEnd
  | unknownKind
  | noticeDrain
deriving DecidableEq, Repr

end Sys2Proof
end

