-- ==== Sys2Proof/Decode.lean ====
section
/-!
DEFINITION. No row of spec/opcode_table.json gives bits (98_reader.md: 65 rows unread, none with fixed bits), so no word spells a command.
-/

namespace Sys2Proof

/-- The command a word spells by the table's bits: none of the rows gives any. -/
def decodeTableWord (_nbits _w : Nat) : Option Instr := none

end Sys2Proof
end

