-- ==== Sys2Proof/Config.lean ====
section
/-!
DEFINITION. What the part fixes (times, capacities, signatures) and the values the spec leaves open.
-/

namespace Sys2Proof.Config

/-! Time. One tick of the model is 0.25 µs, the largest unit in which the sample times of 62.5 and 31.25 µs (R106) and the
bit time of 4 µs (R117) are whole (DESIGN CHOICE, log 1). -/

/-- Ticks in `n` microseconds. -/
def us (n : Nat) : Nat := 4 * n
/-- Ticks in `n` milliseconds. -/
def ms (n : Nat) : Nat := 4000 * n
/-- Ticks in `n` seconds. -/
def sec (n : Nat) : Nat := 4000000 * n

/-- The quiet wait before every frame (R126). -/
def quietWait : Nat := ms 2
/-- One character of 11 bits at 250,000 bits/s (R117). -/
def charTime : Nat := us 44
/-- A SELECT frame of five characters (R118). -/
def frameTime : Nat := us 220
/-- The reply timer (R127). -/
def replyTime : Nat := ms 5
/-- The probe timer after a failed probe or a loss (R131, R136). -/
def probeTime : Nat := ms 2000
/-- The BUSY retry timer (R149). -/
def retryTime : Nat := ms 100
/-- The STOP line's filter (R165). -/
def stopFilter : Nat := ms 10
/-- The phases of an alternating demand (R74). -/
def alternation : Nat := ms 250
/-- The fade of a channel stop at an ENDING (R30). -/
def endingFade : Nat := 250
/-- The slot clock stops here, in ms (R3). -/
def clockMax : Nat := 4294967295

/-! Capacities. -/

/-- Postings the buffer holds (R187). -/
def postingCap : Nat := 32
/-- Entries of the admission queue (R68). -/
def queueCap : Nat := 16
/-- Transactions of a link controller's queue (R132). -/
def linkQueueCap : Nat := 16
/-- FIFO marks, in words (R101). -/
def fifoUrgent : Nat := 32
def fifoLow : Nat := 96
def fifoHigh : Nat := 224
/-- Words of a burst (R101). -/
def burstWords : Nat := 8
/-- Host grants in a row while classes 4 to 7 wait (R183). -/
def hostRun : Nat := 8

/-- "SP24": signature of the map, data of the load word, identity of the mirror (R177, R178, section 11.7). -/
def signature : Word := 0x34325053#32

/-- What a byte of show memory that nothing has written reads as (DESIGN CHOICE, unsafe: log 4). -/
def emptyByte : Byte := 0#8

/-! Free values: the spec gives the effect and not the value. No proof can see what they are. -/

/-- Debounce time in ms of a trigger entry whose debounce code is not one of the four (taken with role NONE, and still
filtered "with the debounce of its entry": R54, R55; log 17). -/
opaque freeDebounce : Byte → Nat
/-- Whether high is the active level of an entry whose active level code is neither 0 nor 1 (section 11.3; log 17). -/
opaque freeActiveHigh : Byte → Bool
/-- Target level mirrored while HELD for a lamp whose bay is above 15, which "has no safe level" (R78, R95; log 18). -/
opaque freeSafeLevel : Nat → BitVec 10

end Sys2Proof.Config
end

