-- ==== Sys2Proof/Machine/State.lean ====
section
/-!
DEFINITION. The state of the SP24 as plain data: everything the spec names, block by block, and the queue of commands. `State.mem`
is show memory, `State.chip` the part, `State.pending` the commands that wait.
-/

namespace Sys2Proof.Machine

/-! ## Outcomes that are no next state -/

/-- Why the machine stops. The spec gives the SP24 no machine fault (INVENTORY, Faults). -/
inductive Fault where
  /-- Raised by nobody: every event of the table has an effect or none. Safe. -/
  | outOfModel
deriving DecidableEq, Repr

/-- Why a command has no meaning. -/
inductive Refusal where
  /-- Raised by an arm of `exec` whose row has no meaning yet. Safe: the run ends. No arm raises it now. -/
  | notModelled (mnemonic : String)
deriving DecidableEq, Repr

/-! ## Show memory -/

/-- Show memory: (byte address, byte), addresses strictly rising, no byte equal to what an unlisted address reads as (log 4). -/
abbrev Memory := List Host.Cell

/-- Addresses rise strictly from `lo` on, stay below 2^24, and no listed byte is the empty byte. -/
def Memory.wfFrom : Nat → Memory → Bool
  | _, [] => true
  | lo, (a, b) :: m => lo ≤ a && a < 16777216 && b != Config.emptyByte && Memory.wfFrom (a + 1) m

/-- The canonical form. -/
def Memory.wf (m : Memory) : Bool := Memory.wfFrom 0 m

/-! ## Timers -/

/-- A timer: the ticks that remain, or stopped. A frozen timer keeps its remaining time (spec 00 §6). -/
abbrev Timer := Option Nat

/-! ## Port (09) -/

/-- R176. -/
inductive Mode where
  | transparent | loading | live | held
deriving DecidableEq, Repr

/-- A region of the show map: base and length in bytes (R179). -/
structure Region where
  base : Nat
  len : Nat
deriving DecidableEq, Repr

/-- A fence span: first and last byte (R185). -/
structure Span where
  first : Nat
  last : Nat
deriving DecidableEq, Repr

/-- A posting (R187). `mirror`: it is to a word of the state mirror, and coalesces (R188). -/
structure Posting where
  word : Nat
  data : Word
  mask : Enables
  mirror : Bool
deriving DecidableEq, Repr

/-- The two producers that may wait for room in the posting buffer (R187). -/
inductive Producer where
  | noticeUnit | requestUnit
deriving DecidableEq, Repr

/-- The host cycle taken and not yet acknowledged (R175). -/
inductive HostCycle where
  /-- a write that waits for the bus -/
  | write (word : WordNo) (data : Word) (be : Enables)
  /-- a read: held on that many more landings (R190), or, with `none`, asking for the bus -/
  | read (word : WordNo) (hold : Option Nat)
deriving DecidableEq, Repr

/-- Who may ask for the memory bus (R181). Cue and scene fetches: 0–11 the slots, 12 the trigger unit. -/
inductive Requester where
  | clip (v : VoiceId)
  | drain
  | host
  | cue (k : Fin 13)
  | loader
deriving DecidableEq, Repr

structure Port where
  mode : Mode
  /-- the RESET line is asserted -/
  resetLine : Bool
  /-- the region decoder; `none`: empty (R184) -/
  decoder : Option (Vector Region 12)
  sceneSpan : Vector (Option Span) 12
  cueSpan : Vector (Option Span) 12
  clipSpan : Vector (Option Span) 8
  posts : List Posting
  /-- postings the notice unit, then the request unit, has still to create (R187) -/
  noticeBacklog : List Posting
  requestBacklog : List Posting
  /-- who waits for room, the one that began first at the head (R187) -/
  waiting : List Producer
  hostCount : Nat
  clipPtr : VoiceId
  /-- 0–11 the slots, 12 the trigger unit (R182) -/
  cuePtr : Fin 13
  /-- the requester the arbiter granted the bus to, whose memory cycle may be running (R181; log 5) -/
  bus : Option Requester
  fencedFirst : Option Nat
  fencedCount : Nat
  host : Option HostCycle
  readData : Word
  /-- step 8 of a RESET SHOW is in progress (R192, R201) -/
  resetDrain : Bool
deriving DecidableEq, Repr

/-- The loader's progress (R178, R180). -/
inductive LoadPhase where
  | off | header | tables
deriving DecidableEq, Repr

structure Loader where
  phase : LoadPhase
  /-- header words read so far, in address order -/
  words : List Word
  /-- grants made of each table -/
  trigger : Nat
  bay : Nat
  lamp : Nat
  drive : Nat
deriving DecidableEq, Repr

/-! ## Request unit and notice unit (10) -/

structure RequestUnit where
  produce : Nat
  consume : Nat
  /-- a START SCENE request waits for its verdict (R195) -/
  inHand : Bool
  /-- the read of R194 is outstanding -/
  indexRead : Bool
  /-- captures taken while it is outstanding, oldest first (R194) -/
  captures : List (Word × Enables)
  /-- the consume index is kept across a RESET SHOW (R194) -/
  keepConsume : Bool
  /-- step 1 of a RESET SHOW is done, and step 2 waits until every posting made before it is in the buffer (R201, R203; log 27) -/
  resetWait : Bool
deriving DecidableEq, Repr

/-- R28, with the two kinds of CUE FAULT. -/
inductive Cause where
  | normal | stopped | restarted | runLimit | claimTimeout | claimRefused | sceneUndefined | sceneInvalid | clipMissing
  | moveRejected | modelFault | guardAbort | waitTimeout
deriving DecidableEq, Repr

/-- R26. -/
structure EndFlags where
  waitExpired : Bool
  markMissed : Bool
  underrun : Bool
  faultDuring : Bool
deriving DecidableEq, Repr

inductive Origin where
  | trigger (input : InputId)
  | request (tag : Half)
deriving DecidableEq, Repr

/-- The four sense bytes of a drive (R122). -/
structure Sense where
  b0 : Byte
  b1 : Byte
  b2 : Byte
  b3 : Byte
deriving DecidableEq, Repr

/-- The six drive states (R143). -/
inductive DriveState where
  | offline | idle | starting | moving | halting | faulted
deriving DecidableEq, Repr

/-- The three fault reasons (R143). -/
inductive FaultReason where
  | sense | busyTimeout | settleTimeout
deriving DecidableEq, Repr

/-- Why an offer is refused (R64). -/
inductive Dropped where
  | ignored | queueFull | undefinedScene
deriving DecidableEq, Repr

/-- What a SCENE ENDED notice carries (R33). -/
structure SceneEnd where
  scene : Nat
  origin : Option Origin
  cause : Cause
  flags : EndFlags
  issued : Nat
  failing : Option Nat
  clockMs : Nat
  fault : Option (DriveId × Sense)
deriving DecidableEq, Repr

/-- The hold causes as MODE CHANGE and the mirror show them (section 11.2). -/
structure CauseBits where
  line : Bool
  request : Bool
  unsettled : Bool
deriving DecidableEq, Repr

/-- A notice's kind with what it carries (section 11.5). `settled`: `none` unsettled, `some a` settled active or inactive. -/
inductive NoticeBody where
  | modeChange (mode : Mode) (causes : CauseBits) (stop : Option Bool)
  | badIndex (which : Nat) (candidate : Word)
  | fencedWrite (first count : Nat)
  | linkFailed (a b : Bool) (link : LinkId) (pos : Nat)
  | sceneNote (cue clockMs : Nat)
  | sceneEnded (e : SceneEnd)
  | triggerDropped (input : InputId) (scene : Nat) (reason : Dropped)
  | guardChange (input : InputId) (bay : BayId) (settled : Option Bool)
  | driveOnline (drive : DriveId) (id0 id1 : Byte)
  | driveAttention (drive : DriveId)
  | driveOffline (drive : DriveId) (link : LinkId) (addr : AddrId) (left : DriveState)
  | driveFault (drive : DriveId) (reason : FaultReason) (sense : Option Sense) (owner : Option SlotId)
  | underrun (voice : VoiceId) (clip : Nat) (owner : Option SlotId) (play count : Nat)
deriving DecidableEq, Repr

/-- A pending notice (R202). -/
structure Notice where
  body : NoticeBody
  merged : Nat
deriving DecidableEq, Repr

structure NoticeUnit where
  sources : Vector (Option Notice) 77
  pointer : Fin 77
  produce : Nat
  consume : Nat
deriving DecidableEq, Repr

/-! ## Scene engine (01) -/

/-- R3. -/
inductive SlotState where
  | free | checking | claiming | timing | waiting | ending
deriving DecidableEq, Repr

inductive Policy where
  | ignore | queueOne | restart
deriving DecidableEq, Repr

/-- A slot's copy of a definition (R1), its lists without the empty entries. -/
structure SceneDef where
  firstCue : Nat
  cueCount : Nat
  bay : BayId
  priority : Nat
  policy : Policy
  runLimit : Nat
  cooldown : Nat
  claimWait : Nat
  voices : Nat
  lamps : List LampId
  drives : List DriveId
deriving DecidableEq, Repr

/-- A cue record's fields by place (section 11.3); bytes 10–15 are not read. -/
structure CueRec where
  kind : Byte
  flags : Byte
  offset : Half
  b4 : Byte
  b5 : Byte
  h6 : Half
  h8 : Half
deriving DecidableEq, Repr

/-- The current cue: its index, its record once it has arrived, and whether it has been issued. -/
structure CurrentCue where
  index : Nat
  record : Option CueRec
  issued : Bool
deriving DecidableEq, Repr

/-- The next cue: its index, and its record once it has arrived (R12). -/
structure NextCue where
  index : Nat
  record : Option CueRec
deriving DecidableEq, Repr

/-- R14. A voice index is 0 or 1, a mark 0–3 for marks 1–4. -/
inductive WaitCond where
  | clipEntry (v : Fin 2)
  | clipEnd (v : Fin 2)
  | moveAccept (d : DriveId)
  | moveSettle (d : DriveId)
  | guard (b : BayId)
  /-- SETTLE set by a MOVE before issue, no timer -/
  | settleBefore (d : DriveId)
  | mark (v : Fin 2) (m : Fin 4)
  /-- SETTLE set by a WAIT -/
  | settle (d : DriveId)
  | input (t : InputId) (active : Bool)
deriving DecidableEq, Repr

/-- A record of the slot lamp table (R3). -/
structure LampWant where
  lamp : LampId
  level : Nat
  fade : Nat
deriving DecidableEq, Repr

/-- An entry of the halted-move table (R20); `answered`: the halt was answered and the MOVE waits to be issued again. -/
structure HaltedMove where
  drive : DriveId
  cue : Nat
  answered : Bool
deriving DecidableEq, Repr

/-- The MOVE a slot last issued to a drive: what R19 and R20 need to name and repeat it (log 14). -/
structure IssuedMove where
  drive : DriveId
  cue : Nat
  record : CueRec
deriving DecidableEq, Repr

/-- A slot context (R3). The timers hold ticks; `offset` counts up from the cue's starting point (R13). -/
structure Slot where
  state : SlotState
  scene : Nat
  defn : Option SceneDef
  origin : Option Origin
  admissionBay : Option Nat
  current : Option CurrentCue
  next : Option NextCue
  clock : Nat
  offset : Option Nat
  waitTimer : Timer
  claimTimer : Timer
  runTimer : Timer
  cond : Option WaitCond
  loop : Option (Nat × Nat)
  voice0 : Option VoiceId
  voice1 : Option VoiceId
  lamps : List LampWant
  halted : List HaltedMove
  cause : Option Cause
  flags : EndFlags
  failing : Option Nat
  issued : Nat
  fault : Option (DriveId × Sense)
  /-- implied state (log 14): MOVEs issued, cue indices of LOOP cues the check has passed, first review still to come -/
  moves : List IssuedMove
  checkLoops : List Nat
  firstReview : Bool
deriving DecidableEq, Repr

/-- What a slot reads through the arbiter (R6, R7, R12). -/
inductive FetchKind where
  | definition
  | check (index : Nat)
  | run (index : Nat)
deriving DecidableEq, Repr

/-- A slot's read at the arbiter, whether it is abandoned, and the read that follows an abandoned one (log 15). -/
structure SlotFetch where
  cur : Option (FetchKind × Bool)
  next : Option FetchKind
deriving DecidableEq, Repr

/-! ## Claim table (02) -/

/-- R34. -/
structure LampClaim where
  owner : Option SlotId
  shadow : Option SlotId
  reservation : Option SlotId
deriving DecidableEq, Repr

/-- R34. -/
structure Claim where
  owner : Option SlotId
  reservation : Option SlotId
deriving DecidableEq, Repr

structure ClaimTable where
  lamps : Vector LampClaim 96
  voices : Vector Claim 8
  drives : Vector Claim 24
  /-- the claim waiting list, head first (R36) -/
  waiting : List SlotId
deriving DecidableEq, Repr

/-! ## Trigger unit (03) -/

inductive Role where
  | none | start | guard
deriving DecidableEq, Repr

/-- A trigger record as taken (R54). Debounce and dwell in ms. -/
structure TriggerEntry where
  role : Role
  activeHigh : Bool
  debounce : Nat
  dwellMode : Bool
  dwell : Nat
  scene : Fin 64
  bay : BayId
  lamp : Option LampId
  level : Nat
  armed : Bool
deriving DecidableEq, Repr

inductive InputState where
  | disarmed | armed | dwelling | spent | cooldown
deriving DecidableEq, Repr

structure Input where
  entry : TriggerEntry
  /-- raw level: high or low -/
  raw : Bool
  /-- the raw level the filter has settled on, or unsettled (R56) -/
  settled : Option Bool
  /-- the filter runs (from the table's read on, R55) -/
  running : Bool
  /-- time until the raw level has stayed for the debounce time -/
  filter : Timer
  state : InputState
  disarmPending : Bool
  offerOut : Bool
  dwell : Timer
  cooldown : Timer
  /-- the alternation's phase: at the level, or at 0 (R74) -/
  phaseOn : Bool
  alt : Timer
deriving DecidableEq, Repr

/-- R68. -/
structure QueueEntry where
  scene : Fin 64
  origin : Origin
  seq : BitVec 16
  bay : Nat
  cooldown : Nat
deriving DecidableEq, Repr

structure Offer where
  scene : Fin 64
  origin : Origin
deriving DecidableEq, Repr

structure TriggerUnit where
  inputs : Vector Input 32
  queue : List QueueEntry
  seq : BitVec 16
  offers : List Offer
  /-- the read of a discarded offer has not returned (R63) -/
  staleRead : Bool
deriving DecidableEq, Repr

/-! ## Lamp unit (04) -/

/-- R76, R89, R90. -/
inductive Demand where
  | none
  | steady (level : Nat)
  | alternating (level : Nat) (phaseOn : Bool)
deriving DecidableEq, Repr

/-- A fade (R84): `dur` in ms, `elapsed` in ticks. -/
structure LampFade where
  start : Nat
  target : Nat
  dur : Nat
  elapsed : Nat
deriving DecidableEq, Repr

/-- What an output does in the present frame (R81, R82): active for `onTime` µs at the high or low level. -/
inductive LampOutput where
  | undriven
  | driven (activeLow : Bool) (onTime : Nat)
deriving DecidableEq, Repr

/-- A lamp record (R76). `level` is the momentary level while no fade runs. -/
structure Lamp where
  copy : Option Word
  ownerLevel : Nat
  demand : Demand
  fade : Option LampFade
  level : Nat
  output : LampOutput
deriving DecidableEq, Repr

/-- A bay copy (R76): safe level, restore fade in ms. -/
structure BayCopy where
  safe : Nat
  restore : Nat
deriving DecidableEq, Repr

structure LampUnit where
  lamps : Vector Lamp 96
  bays : Vector BayCopy 16
  /-- frame period in µs -/
  period : Nat
  /-- ticks to the next frame start; stopped: no frames run -/
  frame : Timer
deriving DecidableEq, Repr

/-! ## Narration unit (05) -/

inductive ChannelState where
  | idle | priming | playing | starved | fading | paused
deriving DecidableEq, Repr

/-- A clip directory entry as read and found valid (R96, R97). -/
structure ClipEntry where
  base : Nat
  len : Nat
  rate32 : Bool
  markCount : Nat
  marks : Vector Nat 4
deriving DecidableEq, Repr

/-- A gain fade (R110): `dur` in ms, `elapsed` in ticks. -/
structure GainFade where
  start : Nat
  dur : Nat
  elapsed : Nat
deriving DecidableEq, Repr

/-- A burst in flight (R103). -/
structure Burst where
  first : Nat
  count : Nat
  abandoned : Bool
deriving DecidableEq, Repr

/-- A directory read (R99). `replaced`: a second SPEAK has taken its place and the entry must be read again. `abandoned`: by RESET SHOW. -/
structure DirRead where
  clip : Nat
  volume : Nat
  stopPending : Bool
  replaced : Bool
  abandoned : Bool
deriving DecidableEq, Repr

/-- A channel record (R98). -/
structure Channel where
  state : ChannelState
  clip : Option Nat
  copy : Option ClipEntry
  volume : Nat
  fade : Option GainFade
  fetchPos : Nat
  playPos : Nat
  fifo : List Word
  filling : Bool
  burst : Option Burst
  dirRead : Option DirRead
  marks : Vector Bool 4
  underruns : Nat
  lsbFirst : Bool
  /-- the second sample of the word being output (R106) -/
  held : Option Half
  /-- the output runs at 32,000 samples/s (R114) -/
  rate32 : Bool
  /-- ticks to the next sample time -/
  sample : Nat
  /-- the sample of the last frame sent -/
  out : Half
  /-- the bits of that frame in the order the data line carries them (R114) -/
  frame : Vector Bool 16
  /-- the waiting request is urgent (R104) -/
  urgent : Bool
deriving DecidableEq, Repr

/-! ## Link controllers (06) -/

inductive Command where
  | goto | home | cycle | halt | poll | sense | identify | clear
deriving DecidableEq, Repr

/-- Who made a transaction (R124); `reset`: a HALT of R139. -/
inductive Maker where
  | move | halt | service | poll | probe | reset
deriving DecidableEq, Repr

structure Txn where
  addr : AddrId
  cmd : Command
  arg : Half
  maker : Maker
deriving DecidableEq, Repr

/-- The STATUS flags of a reply (R121); bit 7 is ignored. -/
structure Status where
  accepted : Bool
  settled : Bool
  busy : Bool
  fault : Bool
  attention : Bool
  halted : Bool
  more : Bool
deriving DecidableEq, Repr

/-- The current transaction (R124). -/
structure Current where
  txn : Txn
  /-- its frame step: command, or sense (R130) -/
  senseStep : Bool
  failed : Nat
  /-- an attempt of its command frame was sent to its last character (R133) -/
  sent : Bool
  /-- the command's STATUS and identity bytes, kept over the sense step (R129) -/
  status : Option Status
  identity : Option (Byte × Byte)
  /-- sense bytes kept from a spoiled command (R130) -/
  kept : Option Sense
deriving DecidableEq, Repr

structure AddrRec where
  configured : Bool
  present : Bool
  probe : Timer
  /-- the probe timer has expired and the probe is still to be sent -/
  due : Bool
deriving DecidableEq, Repr

inductive LinkState where
  | failed | quietWait | sending | awaitReply | lost | idle
deriving DecidableEq, Repr

/-- The loopback check of this LOADING (R137). -/
inductive Loopback where
  | notRun | running (pos : Nat) | done
deriving DecidableEq, Repr

structure Link where
  state : LinkState
  queue : List Txn
  current : Option Current
  addrs : Vector AddrRec 12
  /-- an address 1–12, or 0 -/
  lastPolled : Nat
  pollAgain : Option AddrId
  /-- ticks until the pair has been quiet for 2 ms -/
  quiet : Nat
  frame : Timer
  reply : Timer
  /-- the characters of the reply received so far -/
  rx : List Byte
  service : Bool
  /-- R139: the addresses that still get their HALT; `none`: no reset in progress -/
  resetting : Option (List AddrId)
  loopback : Loopback
deriving DecidableEq, Repr

/-- The reports of R129. -/
inductive LinkReport where
  | done (cmd : Command) (st : Status) (sense : Option Sense) (identity : Option (Byte × Byte))
  | polled (st : Status) (sense : Option Sense)
  | online (id0 id1 : Byte) (sense : Option Sense)
  | offline
  | withdrawn (cmd : Command)
  | halting (cmd : Command)
  | refused (cmd : Command)
deriving DecidableEq, Repr

/-! ## Drive and guard unit (07) -/

inductive MoveCode where
  | goto | home | cycle
deriving DecidableEq, Repr

/-- A move being carried (R143), made by a slot or by a service request. -/
structure Move where
  code : MoveCode
  arg : Half
  service : Bool
deriving DecidableEq, Repr

inductive HaltCause where
  | guard | ending | settleTimeout
deriving DecidableEq, Repr

inductive ServiceCmd where
  | sense | clear
deriving DecidableEq, Repr

/-- A drive table entry: its five fields as read (section 11.3), and whether it was taken as enabled (R142, R143). -/
structure DriveEntry where
  linkField : Byte
  addrField : Byte
  bayField : Byte
  settleField : Byte
  enableField : Byte
  enabled : Bool
deriving DecidableEq, Repr

structure Drive where
  entry : DriveEntry
  state : DriveState
  move : Option Move
  /-- the move's or service command's transaction is with the controller -/
  atLink : Bool
  retry : Timer
  settle : Timer
  windowExpired : Bool
  /-- a motion end polled early, with its HALTED flag (R151) -/
  keptEnd : Option Bool
  accepted : Bool
  haltCause : Option HaltCause
  service : Option ServiceCmd
  reason : Option FaultReason
  sense : Option Sense
  position : Nat
  identity : Option (Byte × Byte)
deriving DecidableEq, Repr

structure Bay where
  hostGuard : Bool
  guarded : Bool
  input : Bool
  host : Bool
  hold : Bool
deriving DecidableEq, Repr

/-! ## Hold control (08) -/

/-- R166. -/
inductive LineCause where
  | absent | settled | unsettled
deriving DecidableEq, Repr

structure Hold where
  line : LineCause
  request : Bool
  /-- STOP line: the raw level is high (no stop) -/
  raw : Bool
  /-- the settled raw level, or unsettled (R165) -/
  settled : Option Bool
  filter : Timer
deriving DecidableEq, Repr

/-! ## Signals between blocks -/

/-- What the drive and guard unit tells an owner slot (R158). -/
inductive DriveReport where
  | accepted
  /-- the move settled; `halted`: with HALTED -/
  | settled (halted : Bool)
  | halted
  | withdrawn
  | guardHalting
  | rejected (sense : Sense)
  /-- FAULTED, OFFLINE or a settle timeout, with the stored sense (R27) -/
  | fault (sense : Option Sense)
  | changed
deriving DecidableEq, Repr

/-- Why a channel became IDLE (R111). -/
inductive IdleWhy where
  | clipEnd | stop
deriving DecidableEq, Repr

/-- What the narration unit tells an owner slot (R99, R107, R108, R109, R111). -/
inductive VoiceReport where
  | started | missing | underrun
  | mark (m : Fin 4)
  | idle (why : IdleWhy)
deriving DecidableEq, Repr

/-- A report under way between two blocks within one step (log 7). -/
inductive Signal where
  | link (l : LinkId) (a : AddrId) (r : LinkReport)
  | drive (i : SlotId) (d : DriveId) (r : DriveReport)
  /-- a change of the drive's state, told to every slot that waits for it (R158) -/
  | driveState (d : DriveId)
  /-- the kept end is taken as the end of the move just accepted (R151) -/
  | keptEnd (d : DriveId)
  | voice (i : SlotId) (v : VoiceId) (r : VoiceReport)
  /-- R160, steps 2 and 3 -/
  | bay (b : BayId)
  | bayMirror (b : BayId)
  | input (t : InputId)
deriving DecidableEq, Repr

/-! ## The part and the machine -/

structure Chip where
  port : Port
  loader : Loader
  req : RequestUnit
  notice : NoticeUnit
  slots : Vector Slot 12
  fetch : Vector SlotFetch 12
  claims : ClaimTable
  trig : TriggerUnit
  lamp : LampUnit
  voices : Vector Channel 8
  links : Vector Link 2
  drives : Vector Drive 24
  bays : Vector Bay 16
  /-- the value each GUARD input has handed to its bay (R159) -/
  guardIn : Vector (Option (BayId × Bool)) 32
  hold : Hold
  signals : List Signal
deriving DecidableEq, Repr

structure State where
  mem : Memory
  chip : Chip
  pending : List Instr
deriving DecidableEq, Repr

/-! ## Reset values -/

/-- No ending flag set. -/
def EndFlags.clear : EndFlags := ⟨false, false, false, false⟩

/-- The values of a FREE slot (R3). -/
def Slot.free : Slot where
  state := .free
  scene := 0
  defn := none
  origin := none
  admissionBay := none
  current := none
  next := none
  clock := 0
  offset := none
  waitTimer := none
  claimTimer := none
  runTimer := none
  cond := none
  loop := none
  voice0 := none
  voice1 := none
  lamps := []
  halted := []
  cause := none
  flags := .clear
  failing := none
  issued := 0
  fault := none
  moves := []
  checkLoops := []
  firstReview := false

/-- R191. The arbiter's pointers stand at V7 and the trigger unit; LOADING begins when reset ends. -/
def Port.reset : Port where
  mode := .loading
  resetLine := false
  decoder := none
  sceneSpan := Vector.replicate 12 none
  cueSpan := Vector.replicate 12 none
  clipSpan := Vector.replicate 8 none
  posts := []
  noticeBacklog := []
  requestBacklog := []
  waiting := []
  hostCount := 0
  clipPtr := 7
  cuePtr := 12
  bus := none
  fencedFirst := none
  fencedCount := 0
  host := none
  readData := 0#32
  resetDrain := false

/-- The loader idle. -/
def Loader.idle : Loader := ⟨.off, [], 0, 0, 0, 0⟩
/-- The loader at the start of LOADING (R178). -/
def Loader.start : Loader := ⟨.header, [], 0, 0, 0, 0⟩

/-- R195: no request in hand; the indices are set at the entry to LIVE (R194; log 9). -/
def RequestUnit.reset : RequestUnit := ⟨0, 0, false, false, [], false, false⟩

/-- R204. -/
def NoticeUnit.reset : NoticeUnit := ⟨Vector.replicate 77 none, 76, 0, 0⟩

/-- R53. -/
def ClaimTable.empty : ClaimTable :=
  ⟨Vector.replicate 96 ⟨none, none, none⟩, Vector.replicate 8 ⟨none, none⟩, Vector.replicate 24 ⟨none, none⟩, []⟩

/-- An empty trigger record, acting as role NONE (R55). What its other fields hold while it is empty is the model's choice: active level low, debounce
0, PRESS, dwell 0, scene and bay 0, no lamp, level 0, not armed (log 9). -/
def TriggerEntry.empty : TriggerEntry := ⟨.none, false, 0, false, 0, 0, 0, none, 0, false⟩

/-- An input after reset (R55). Its raw level, low, and its START state, DISARMED, are the model's choice (log 9). -/
def Input.reset : Input :=
  ⟨.empty, false, none, false, none, .disarmed, false, false, none, none, false, none⟩

/-- R55. -/
def TriggerUnit.reset : TriggerUnit := ⟨Vector.replicate 32 .reset, [], 0#16, [], false⟩

/-- R76, after power-on reset. -/
def Lamp.reset : Lamp := ⟨none, 0, .none, none, 0, .undriven⟩

/-- R76. The bay copies are empty and the frames stopped. What a copy and the period hold until they are read is the model's choice: safe level 0,
restore fade 0, period 256 (log 9). -/
def LampUnit.reset : LampUnit := ⟨Vector.replicate 96 .reset, Vector.replicate 16 ⟨0, 0⟩, 256, none⟩

/-- R98, R115. -/
def Channel.reset : Channel where
  state := .idle
  clip := none
  copy := none
  volume := 0
  fade := none
  fetchPos := 0
  playPos := 0
  fifo := []
  filling := false
  burst := none
  dirRead := none
  marks := Vector.replicate 4 false
  underruns := 0
  lsbFirst := false
  held := none
  rate32 := false
  sample := 250
  out := 0#16
  frame := Vector.replicate 16 false
  urgent := false

/-- R124. -/
def Link.reset : Link where
  state := .idle
  queue := []
  current := none
  addrs := Vector.replicate 12 ⟨false, false, none, false⟩
  lastPolled := 0
  pollAgain := none
  quiet := Config.quietWait
  frame := none
  reply := none
  rx := []
  service := false
  resetting := none
  loopback := .notRun

/-- R143. -/
def Drive.reset : Drive where
  entry := ⟨0#8, 0#8, 0#8, 0#8, 0#8, false⟩
  state := .offline
  move := none
  atLink := false
  retry := none
  settle := none
  windowExpired := false
  keptEnd := none
  accepted := false
  haltCause := none
  service := none
  reason := none
  sense := none
  position := 0
  identity := none

/-- R159. -/
def Bay.reset : Bay := ⟨false, false, false, false, false⟩

/-- R166: no cause, filter unsettled and timing from the end of power-on reset (R165), raw level high (log 9). -/
def Hold.reset : Hold := ⟨.absent, false, true, none, some Config.stopFilter⟩

/-- The part right after power-on reset: LOADING has begun with the read of the map header (R176, R178). -/
def Chip.reset : Chip where
  port := .reset
  loader := .start
  req := .reset
  notice := .reset
  slots := Vector.replicate 12 .free
  fetch := Vector.replicate 12 ⟨none, none⟩
  claims := .empty
  trig := .reset
  lamp := .reset
  voices := Vector.replicate 8 .reset
  links := Vector.replicate 2 .reset
  drives := Vector.replicate 24 .reset
  bays := Vector.replicate 16 .reset
  guardIn := Vector.replicate 32 none
  hold := .reset
  signals := []

/-- The machine right after power-on reset: nothing in memory, no command waiting, and the bus granted to the loader, which alone asks for it (R178, R181). -/
def State.reset : State := ⟨[], { Chip.reset with port := { Port.reset with bus := some .loader } }, []⟩

end Sys2Proof.Machine
end

