-- ==== Sys2Proof/Machine/Ops.lean ====
section
/-!
DEFINITION. The named operations: fixed-size tables, show memory, the parts of the chip, signals, timers and the passing of time.
-/

namespace Sys2Proof.Machine

/-! ## Tables of a fixed number of like things -/

/-- `v` with its entry `i` changed by `f`. -/
def updAt {α : Type} {n : Nat} (v : Vector α n) (i : Fin n) (f : α → α) : Vector α n := v.set i (f v[i])

/-- `f` on every entry. -/
def mapAll {α β : Type} {n : Nat} (f : α → β) (v : Vector α n) : Vector β n := ⟨⟨v.toList.map f⟩, by simp⟩

/-- The table whose entry `i` is `f i`. -/
def tabulate {α : Type} (n : Nat) (f : Fin n → α) : Vector α n := ⟨⟨(List.finRange n).map f⟩, by simp⟩

/-- `f` for every index in rising order. -/
def forAll {α : Type} (n : Nat) (f : Fin n → α → α) (a : α) : α := (List.finRange n).foldl (fun a i => f i a) a

/-- The indices for which `p` holds, in rising order. -/
def indices {n : Nat} (p : Fin n → Bool) : List (Fin n) := (List.finRange n).filter p

/-- `x` as an index below `n`, if it is one. -/
def finOf? (n x : Nat) : Option (Fin n) := if h : x < n then some ⟨x, h⟩ else none

/-- The first index after `ptr` that `p` holds for, counting up and then from 0, `ptr` itself last: one turn of a round-robin. -/
def roundRobin {n : Nat} (ptr : Fin n) (p : Fin n → Bool) : Option (Fin n) :=
  ((indices fun i => ptr < i) ++ (indices fun i => i ≤ ptr)).find? p

/-! ## Show memory -/

/-- The byte at address `a`; an unlisted address reads as the empty byte (log 4). -/
def Memory.byte : Memory → Nat → Byte
  | [], _ => Config.emptyByte
  | (a, b) :: m, x => if a = x then b else Memory.byte m x

/-- `v` in front, unless it is what an unlisted address reads as. -/
def Memory.cons (x : Nat) (v : Byte) (m : Memory) : Memory := if v = Config.emptyByte then m else (x, v) :: m

/-- Memory with byte `v` at address `x`, in canonical form. -/
def Memory.set : Memory → Nat → Byte → Memory
  | [], x, v => Memory.cons x v []
  | (a, b) :: m, x, v =>
    if x < a then Memory.cons x v ((a, b) :: m)
    else if x = a then Memory.cons x v m
    else (a, b) :: Memory.set m x v

/-- The word at word number `w`, little-endian. -/
def Memory.word (m : Memory) (w : Nat) : Word :=
  Word.ofBytes (m.byte (4 * w)) (m.byte (4 * w + 1)) (m.byte (4 * w + 2)) (m.byte (4 * w + 3))

/-- One byte of a masked write: written if the address exists and bit `i` of the mask is set. -/
def Memory.setByte (w : Nat) (data : Word) (be : Enables) (m : Memory) (i : Nat) : Memory :=
  if be.getLsbD i ∧ 4 * w + i < 16777216 then m.set (4 * w + i) (data.byte i) else m

/-- Memory with the bytes of `data` that `be` enables written at word `w`. -/
def Memory.write (m : Memory) (w : Nat) (data : Word) (be : Enables) : Memory :=
  [0, 1, 2, 3].foldl (Memory.setByte w data be) m

/-- An unsigned byte, half and word of a record (R207), little-endian. -/
def Memory.nat8 (m : Memory) (a : Nat) : Nat := (m.byte a).toNat
def Memory.half (m : Memory) (a : Nat) : Half := m.byte (a + 1) ++ m.byte a
def Memory.nat16 (m : Memory) (a : Nat) : Nat := (m.half a).toNat
def Memory.nat32 (m : Memory) (a : Nat) : Nat :=
  (Word.ofBytes (m.byte a) (m.byte (a + 1)) (m.byte (a + 2)) (m.byte (a + 3))).toNat

/-! ## Parts of the chip -/

def Chip.modPort (f : Port → Port) (c : Chip) : Chip := { c with port := f c.port }
def Chip.modLoader (f : Loader → Loader) (c : Chip) : Chip := { c with loader := f c.loader }
def Chip.modReq (f : RequestUnit → RequestUnit) (c : Chip) : Chip := { c with req := f c.req }
def Chip.modNotice (f : NoticeUnit → NoticeUnit) (c : Chip) : Chip := { c with notice := f c.notice }
def Chip.modSlot (i : SlotId) (f : Slot → Slot) (c : Chip) : Chip := { c with slots := updAt c.slots i f }
def Chip.modFetch (i : SlotId) (f : SlotFetch → SlotFetch) (c : Chip) : Chip := { c with fetch := updAt c.fetch i f }
def Chip.modClaims (f : ClaimTable → ClaimTable) (c : Chip) : Chip := { c with claims := f c.claims }
def Chip.modTrig (f : TriggerUnit → TriggerUnit) (c : Chip) : Chip := { c with trig := f c.trig }
def Chip.modInput (t : InputId) (f : Input → Input) (c : Chip) : Chip :=
  c.modTrig fun u => { u with inputs := updAt u.inputs t f }
def Chip.modLampUnit (f : LampUnit → LampUnit) (c : Chip) : Chip := { c with lamp := f c.lamp }
def Chip.modLamp (l : LampId) (f : Lamp → Lamp) (c : Chip) : Chip :=
  c.modLampUnit fun u => { u with lamps := updAt u.lamps l f }
def Chip.modVoice (v : VoiceId) (f : Channel → Channel) (c : Chip) : Chip := { c with voices := updAt c.voices v f }
def Chip.modLink (l : LinkId) (f : Link → Link) (c : Chip) : Chip := { c with links := updAt c.links l f }
def Chip.modDrive (d : DriveId) (f : Drive → Drive) (c : Chip) : Chip := { c with drives := updAt c.drives d f }
def Chip.modBay (b : BayId) (f : Bay → Bay) (c : Chip) : Chip := { c with bays := updAt c.bays b f }
def Chip.modHold (f : Hold → Hold) (c : Chip) : Chip := { c with hold := f c.hold }

/-- A report is under way to another block (log 7). -/
def Chip.signal (x : Signal) (c : Chip) : Chip := { c with signals := c.signals ++ [x] }
def Chip.signalAll (xs : List Signal) (c : Chip) : Chip := { c with signals := c.signals ++ xs }

/-! ## What the blocks are told by the port -/

def Chip.isHeld (c : Chip) : Bool := c.port.mode == .held
def Chip.isLive (c : Chip) : Bool := c.port.mode == .live
/-- LIVE or HELD. -/
def Chip.running (c : Chip) : Bool := c.port.mode == .live || c.port.mode == .held

/-- Claim records hold each owner once; the lamp, narration and drive units read it there (R34; log 13). -/
def Chip.lampOwner (l : LampId) (c : Chip) : Option SlotId := c.claims.lamps[l].owner
def Chip.voiceOwner (v : VoiceId) (c : Chip) : Option SlotId := c.claims.voices[v].owner
def Chip.driveOwner (d : DriveId) (c : Chip) : Option SlotId := c.claims.drives[d].owner

/-- Base address of region `k` of the decoder, 0 while it is empty. -/
def Chip.base (k : Fin 12) (c : Chip) : Nat := match c.port.decoder with
  | some r => r[k].base
  | none => 0

/-- Length in bytes of region `k`, 0 while the decoder is empty. -/
def Chip.regionLen (k : Fin 12) (c : Chip) : Nat := match c.port.decoder with
  | some r => r[k].len
  | none => 0

/-! ## A slot's reads (R6, R7, R12; log 15) -/

/-- The slot asks for a read; behind an abandoned one still at the arbiter it waits. -/
def Chip.requestFetch (i : SlotId) (k : FetchKind) : Chip → Chip :=
  Chip.modFetch i fun f => if f.cur.isNone then ⟨some (k, false), none⟩ else { f with next := some k }

/-- The slot's outstanding read is abandoned: the memory cycle is still made, its data are discarded. -/
def Chip.abandonFetch (i : SlotId) : Chip → Chip :=
  Chip.modFetch i fun f => ⟨f.cur.map fun x => (x.1, true), none⟩

/-- The slot's read has returned; the one that waited behind it goes to the arbiter. -/
def Chip.fetchDone (i : SlotId) : Chip → Chip :=
  Chip.modFetch i fun f => ⟨f.next.map fun k => (k, false), none⟩

/-! ## Passing of time -/

/-- A running timer after `dt` ticks; it stops at 0 and stays expired until its expiry is taken. -/
def Timer.tick (dt : Nat) (t : Timer) : Timer := t.map (· - dt)

/-- A timer that runs only under a condition. -/
def Timer.tickIf (run : Bool) (dt : Nat) (t : Timer) : Timer := if run then t.tick dt else t

/-- A slot's timers and clock over `dt` ticks outside HELD (R13, R22, R25, R48). -/
def Slot.advance (dt : Nat) (s : Slot) : Slot :=
  let timed := s.state == .timing || s.state == .waiting
  { s with
    clock := if timed || s.state == .ending then s.clock + dt else s.clock
    offset := if s.state == .timing then s.offset.map (· + dt) else s.offset
    waitTimer := s.waitTimer.tickIf (s.state == .waiting) dt
    claimTimer := s.claimTimer.tickIf (s.state == .claiming) dt
    runTimer := s.runTimer.tickIf timed dt }

def Input.advance (dt : Nat) (t : Input) : Input :=
  { t with filter := t.filter.tick dt, dwell := t.dwell.tick dt, cooldown := t.cooldown.tick dt, alt := t.alt.tick dt }

/-- A fade's time runs outside HELD (R91). -/
def Lamp.advance (dt : Nat) (l : Lamp) : Lamp := { l with fade := l.fade.map fun f => { f with elapsed := f.elapsed + dt } }

def Channel.advance (dt : Nat) (ch : Channel) : Channel :=
  { ch with sample := ch.sample - dt, fade := ch.fade.map fun f => { f with elapsed := f.elapsed + dt } }

def AddrRec.advance (dt : Nat) (a : AddrRec) : AddrRec := { a with probe := a.probe.tick dt }

def Link.advance (dt : Nat) (l : Link) : Link :=
  { l with quiet := l.quiet - dt, frame := l.frame.tick dt, reply := l.reply.tick dt, addrs := mapAll (·.advance dt) l.addrs }

def Drive.advance (dt : Nat) (d : Drive) : Drive := { d with retry := d.retry.tick dt, settle := d.settle.tick dt }

/-- `dt` ticks pass. While HELD the slot timers and the lamp fades are frozen (R13, R91); all else runs on (R71, R141, R163, R165). -/
def Chip.advance (dt : Nat) (c : Chip) : Chip :=
  { c with
    slots := if c.isHeld then c.slots else mapAll (·.advance dt) c.slots
    trig := { c.trig with inputs := mapAll (·.advance dt) c.trig.inputs }
    lamp := { c.lamp with
      lamps := if c.isHeld then c.lamp.lamps else mapAll (·.advance dt) c.lamp.lamps
      frame := c.lamp.frame.tick dt }
    voices := mapAll (·.advance dt) c.voices
    links := mapAll (·.advance dt) c.links
    drives := mapAll (·.advance dt) c.drives
    hold := { c.hold with filter := c.hold.filter.tick dt } }

/-- The slot clock in ms, which stops at its maximum (R3). -/
def Slot.clockMs (s : Slot) : Nat := min Config.clockMax (s.clock / Config.ms 1)

end Sys2Proof.Machine
end

