-- ==== Sys2Proof/Machine/Flags.lean ====
section
/-!
DEFINITION. The flag bytes and the code tables of Record Formats (sections 11.2, 11.4, 11.5, 11.8).
-/

namespace Sys2Proof

/-! ## The levels of a link pair (R117, R127) -/

/-- A 1 is recessive, a 0 dominant. -/
def Level.ofBit (b : Bool) : Level := if b then .recessive else .dominant

/-- The level of a pair, from what each station does to it: any that drives dominant makes it dominant, and with none it rests recessive. -/
def Level.onPair (stations : List Level) : Level := if stations.contains .dominant then .dominant else .recessive

/-- The number of 1s among bits 0 to 7. -/
def onesOf (b : Byte) : Nat := (List.range 8).countP fun k => b.getLsbD k

/-- The 11 levels of a character: start, data from the least significant bit on, parity, stop. -/
def charLevels (b : Byte) : List Level :=
  .dominant :: (List.range 8).map (fun k => Level.ofBit (b.getLsbD k)) ++ [Level.ofBit (onesOf b % 2 == 0), .recessive]

/-- The character as a receiver takes it when it comes as sent. -/
def RxChar.sent (b : Byte) : RxChar := ⟨Machine.tabulate 10 fun k => (charLevels b).getD (k.val + 1) .recessive⟩

/-- The character's eight data bits. -/
def RxChar.data (c : RxChar) : Byte :=
  (List.finRange 8).foldl (fun b k => if c.levels[k] = .recessive then b ||| 1#8 <<< k.val else b) 0#8

/-- No parity error: the 1s among data and parity bit are odd in number. -/
def RxChar.parityOk (c : RxChar) : Bool := (onesOf c.data + if c.levels[8] = .recessive then 1 else 0) % 2 == 1

/-- No framing error: the stop bit is recessive. -/
def RxChar.framingOk (c : RxChar) : Bool := c.levels[9] == .recessive

/-- What a controller finds when it compares the level on the pair with the level it drives (R127). -/
inductive BitCheck where
  | agree
  /-- another station holds the pair: the row ARBITRATION_LOST -/
  | lost
  /-- the pair or its driver is at fault: the row PAIR_DRIVE_FAULT -/
  | fault
deriving DecidableEq, Repr

def bitCheck (driven found : Level) : BitCheck :=
  match driven, found with
  | .recessive, .dominant => .lost
  | .dominant, .recessive => .fault
  | .dominant, .dominant | .recessive, .recessive => .agree

end Sys2Proof

namespace Sys2Proof.Machine

/-- Bit `i` of the number is `b`. -/
def bitNat (b : Bool) (i : Nat) : Nat := if b then 2 ^ i else 0

/-- The STATUS character (section 11.8); bit 7 is ignored. -/
def Status.ofByte (b : Byte) : Status :=
  ⟨b.getLsbD 0, b.getLsbD 1, b.getLsbD 2, b.getLsbD 3, b.getLsbD 4, b.getLsbD 5, b.getLsbD 6⟩

/-- CHECK ERROR, bit 2 of sense byte 0 (section 11.8). -/
def Sense.checkError (s : Sense) : Bool := s.b0.getLsbD 2
/-- A flag of byte 0 other than CHECK ERROR: bits 0, 1, 3, 4 and 5 (section 11.8). -/
def Sense.others (s : Sense) : Bool := s.b0 &&& 0x3B#8 != 0#8
/-- Bytes 1 and 2, high byte first (R122). -/
def Sense.position (s : Sense) : Nat := (s.b1 ++ s.b2).toNat
def Sense.zero : Sense := ⟨0#8, 0#8, 0#8, 0#8⟩

/-- Link command codes (section 11.8). -/
def Command.code : Command → Byte
  | .goto => 0x21#8 | .home => 0x22#8 | .cycle => 0x23#8 | .halt => 0x30#8 | .poll => 0x40#8 | .sense => 0x41#8
  | .identify => 0x42#8 | .clear => 0x50#8

/-- GOTO, HOME or CYCLE. -/
def Command.isMove : Command → Bool
  | .goto => true | .home => true | .cycle => true | .halt => false | .poll => false | .sense => false
  | .identify => false | .clear => false

def MoveCode.command : MoveCode → Command
  | .goto => .goto | .home => .home | .cycle => .cycle

/-- The five characters of the SELECT frame of a transaction's step (R118). -/
def Txn.frame (t : Txn) (senseStep : Bool) : List Byte :=
  let cmd := if senseStep then Command.sense else t.cmd
  let arg : Half := if cmd.isMove then t.arg else 0#16
  let a : Byte := BitVec.ofNat 8 (t.addr.val + 1)
  let hi := (arg >>> 8).setWidth 8
  let lo := arg.setWidth 8
  [a, cmd.code, hi, lo, a + cmd.code + hi + lo]

/-- The level the pair is driven with at each bit of the frame, its characters one after another (R117, R118). -/
def Txn.levels (t : Txn) (senseStep : Bool) : List Level := (t.frame senseStep).flatMap charLevels

def Mode.code : Mode → Nat
  | .transparent => 0 | .loading => 1 | .live => 2 | .held => 3

def SlotState.code : SlotState → Nat
  | .free => 0 | .checking => 1 | .claiming => 2 | .timing => 3 | .waiting => 4 | .ending => 5

def DriveState.code : DriveState → Nat
  | .offline => 0 | .idle => 1 | .starting => 2 | .moving => 3 | .halting => 4 | .faulted => 5

def ChannelState.code : ChannelState → Nat
  | .idle => 0 | .priming => 1 | .playing => 2 | .starved => 3 | .fading => 4 | .paused => 5

/-- A trigger's state or role code. -/
def Input.code (t : Input) : Nat := match t.entry.role, t.state with
  | .none, _ => 5 | .guard, _ => 6
  | .start, .disarmed => 0 | .start, .armed => 1 | .start, .dwelling => 2 | .start, .spent => 3 | .start, .cooldown => 4

/-- Settled active or inactive by the entry's active level, or unsettled (R56). -/
def Input.level (t : Input) : Option Bool := t.settled.map (· == t.entry.activeHigh)

/-- Settled level codes. -/
def levelCode : Option Bool → Nat
  | none => 0 | some false => 1 | some true => 2

def Cause.code : Cause → Nat
  | .normal => 1 | .stopped => 2 | .restarted => 3 | .runLimit => 4 | .claimTimeout => 5 | .claimRefused => 6
  | .sceneUndefined => 7 | .sceneInvalid => 8 | .clipMissing => 9 | .moveRejected => 10 | .modelFault => 11
  | .guardAbort => 12 | .waitTimeout => 13

def EndFlags.bits (f : EndFlags) : Nat :=
  bitNat f.waitExpired 4 + bitNat f.markMissed 5 + bitNat f.underrun 6 + bitNat f.faultDuring 7

def Dropped.code : Dropped → Nat
  | .ignored => 1 | .queueFull => 2 | .undefinedScene => 3

def FaultReason.code : FaultReason → Nat
  | .sense => 1 | .busyTimeout => 2 | .settleTimeout => 3

/-- Reply status codes (section 11.2). -/
inductive Reply where
  | done | accepted | queued | ignored | queueFull | undefinedScene | notFound | lineActive | owned | offline | guarded | busy
  | badArgument | unknownKind
deriving DecidableEq, Repr

def Reply.code : Reply → Nat
  | .done => 1 | .accepted => 2 | .queued => 3 | .ignored => 4 | .queueFull => 5 | .undefinedScene => 6 | .notFound => 7
  | .lineActive => 8 | .owned => 9 | .offline => 10 | .guarded => 11 | .busy => 12 | .badArgument => 13 | .unknownKind => 14

def Dropped.reply : Dropped → Reply
  | .ignored => .ignored | .queueFull => .queueFull | .undefinedScene => .undefinedScene

/-- The hold causes as shown to the host (R174, section 11.2). -/
def Hold.causes (h : Hold) : CauseBits := ⟨h.line != .absent, h.request, h.line == .unsettled⟩

def CauseBits.bits (b : CauseBits) : Nat := bitNat b.line 0 + bitNat b.request 1 + bitNat b.unsettled 2

/-- The STOP line's settled level: active is low (R165). -/
def Hold.level (h : Hold) : Option Bool := h.settled.map (!·)

/-- A bay's guard causes (section 11.7), bit 0 INPUT, bit 1 HOST, bit 2 HOLD. -/
def Bay.causeBits (b : Bay) : Nat := bitNat b.input 0 + bitNat b.host 1 + bitNat b.hold 2

end Sys2Proof.Machine
end

