-- ==== Sys2Proof/Machine/Operands.lean ====
section
/-!
DEFINITION. The records the part reads in show memory, field by field (Record Formats, R207), and the tests their chapters apply.
-/

namespace Sys2Proof.Machine

/-! ## Scene definition (section 11.3, R1, R2) -/

/-- The fields of a scene definition as read. -/
structure RawScene where
  valid : Bool
  priority : Nat
  bay : Nat
  policy : Nat
  firstCue : Nat
  cueCount : Nat
  runLimit : Nat
  cooldown : Nat
  claimWait : Nat
  voices : Nat
  lamps : List Nat
  drives : List Nat
deriving DecidableEq, Repr

def parseScene (m : Memory) (a : Nat) : RawScene where
  valid := (m.byte a).getLsbD 0
  priority := m.nat8 (a + 1)
  bay := m.nat8 (a + 2)
  policy := m.nat8 (a + 3)
  firstCue := m.nat16 (a + 4)
  cueCount := m.nat16 (a + 6)
  runLimit := m.nat16 (a + 8)
  cooldown := m.nat16 (a + 10)
  claimWait := m.nat8 (a + 12)
  voices := m.nat8 (a + 13)
  lamps := (List.range 8).map fun k => m.nat8 (a + 16 + k)
  drives := (List.range 4).map fun k => m.nat8 (a + 24 + k)

/-- The non-empty entries of a claim list (0xFF is empty). -/
def claimEntries (xs : List Nat) : List Nat := xs.filter (· != 255)

/-- A policy code taken as read: a code that is none of the three is IGNORE (R64). -/
def policyOfCode : Nat → Policy
  | 1 => .queueOne
  | 2 => .restart
  | _ => .ignore

/-- The tests of R2; `cueRecords` is the number of records the cue store holds. -/
def RawScene.ok (cueRecords : Nat) (r : RawScene) : Bool :=
  r.valid && r.firstCue ≤ 4095 && 1 ≤ r.cueCount && r.cueCount ≤ 256 && r.firstCue + r.cueCount ≤ cueRecords
  && r.bay ≤ 15 && r.priority ≤ 3 && r.policy ≤ 2
  && r.runLimit ≤ 3600 && r.cooldown ≤ 600 && r.claimWait ≤ 60 && r.voices ≤ 2
  && (claimEntries r.lamps).all (· < 96) && (claimEntries r.drives).all (· < 24)
  && decide (claimEntries r.lamps).Nodup && decide (claimEntries r.drives).Nodup

/-- The slot's copy of a definition that passes R2. -/
def RawScene.accept (cueRecords : Nat) (r : RawScene) : Option SceneDef :=
  match finOf? 16 r.bay with
  | some bay =>
    if r.ok cueRecords then
      some
        { firstCue := r.firstCue
          cueCount := r.cueCount
          bay := bay
          priority := r.priority
          policy := policyOfCode r.policy
          runLimit := r.runLimit
          cooldown := r.cooldown
          claimWait := r.claimWait
          voices := r.voices
          lamps := (claimEntries r.lamps).filterMap (finOf? 96)
          drives := (claimEntries r.drives).filterMap (finOf? 24) }
    else none
  | none => none

/-! ## Cue record (section 11.3, R7) -/

def parseCue (m : Memory) (a : Nat) : CueRec where
  kind := m.byte a
  flags := m.byte (a + 1)
  offset := m.half (a + 2)
  b4 := m.byte (a + 4)
  b5 := m.byte (a + 5)
  h6 := m.half (a + 6)
  h8 := m.half (a + 8)

def CueRec.link (r : CueRec) : Bool := r.flags.getLsbD 0
def CueRec.note (r : CueRec) : Bool := r.flags.getLsbD 1
def CueRec.await (r : CueRec) : Bool := r.flags.getLsbD 2
def CueRec.resume (r : CueRec) : Bool := r.flags.getLsbD 3
def CueRec.strict (r : CueRec) : Bool := r.flags.getLsbD 4
/-- Byte 6 of the record. -/
def CueRec.byte6 (r : CueRec) : Byte := r.h6.setWidth 8

/-- What a cue does, by its kind and parameters. -/
inductive CueOp where
  | lamp (l : LampId) (level fade : Nat)
  | speak (v : Fin 2) (clip volume : Nat)
  | hush (v : Fin 2) (fade : Nat)
  | move (d : DriveId) (code : MoveCode) (arg : Half)
  /-- WAIT; the timeout in ms -/
  | wait (cond : WaitCond) (timeout : Nat)
  | loop (rel count : Nat)
deriving DecidableEq, Repr

def moveCodeOf : Nat → Option MoveCode
  | 1 => some .goto
  | 2 => some .home
  | 3 => some .cycle
  | _ => none

/-- The awaited level of an INPUT condition: 0 inactive, 1 active. -/
def levelOf : Nat → Option Bool
  | 0 => some false
  | 1 => some true
  | _ => none

/-- The condition of a WAIT: 1 MARK, 2 SETTLE, 3 INPUT, each with its operands in range. -/
def waitCondOf (r : CueRec) : Option WaitCond :=
  match r.b4.toNat with
  | 1 => match finOf? 2 r.b5.toNat, finOf? 4 (r.byte6.toNat - 1) with
    | some v, some k => if r.byte6.toNat = 0 then none else some (.mark v k)
    | _, _ => none
  | 2 => (finOf? 24 r.b5.toNat).map .settle
  | 3 => match finOf? 32 r.b5.toNat, levelOf r.byte6.toNat with
    | some t, some lv => some (.input t lv)
    | _, _ => none
  | _ => none

/-- What the record says, or none for a record no cue check passes. -/
def CueRec.op (r : CueRec) : Option CueOp :=
  match r.kind.toNat with
  | 1 => (finOf? 96 r.b4.toNat).map fun l => .lamp l r.h6.toNat r.h8.toNat
  | 2 => (finOf? 2 r.b4.toNat).map fun v => .speak v r.b5.toNat r.byte6.toNat
  | 3 => (finOf? 2 r.b4.toNat).map fun v => .hush v r.h6.toNat
  | 4 => match finOf? 24 r.b4.toNat, moveCodeOf r.b5.toNat with
    | some d, some k => some (.move d k r.h6)
    | _, _ => none
  | 5 => (waitCondOf r).map fun k => .wait k r.h8.toNat
  | 6 => some (.loop r.b4.toNat r.b5.toNat)
  | _ => none

/-- A WAIT condition's operands belong to the scene (R7). -/
def waitFits (d : SceneDef) : WaitCond → Bool
  | .mark v _ => v.val < d.voices
  | .settle x => d.drives.contains x
  | .input _ _ => true
  | .clipEntry _ | .clipEnd _ | .moveAccept _ | .moveSettle _ | .guard _ | .settleBefore _ => false

/-- The tests of R7 on the cue at index `k`, where `loops` are the indices of the LOOP cues before it: the cue passes. -/
def cuePasses (d : SceneDef) (k : Nat) (loops : List Nat) (r : CueRec) : Bool :=
  (match r.op with
    | some (.lamp l level fade) => d.lamps.contains l && level ≤ 1023 && fade ≤ 60000
    | some (.speak v _ _) => v.val < d.voices
    | some (.hush v fade) => v.val < d.voices && fade ≤ 10000
    | some (.move x _ _) => d.drives.contains x
    | some (.wait cond _) => waitFits d cond
    | some (.loop rel count) => rel != 0 && rel ≤ k && count != 0 && !loops.any (fun j => k - rel ≤ j && j < k)
    | none => false)
  && !(k + 1 == d.cueCount && r.link)

/-! ## Lamp house entry and bay entry (section 11.3, R77, R78) -/

/-- House level; a level above 1023 is taken as 1023 (R78). -/
def houseLevel (w : Word) : Nat := min 1023 (w.setWidth 16).toNat
/-- The lamp's bay, if it is 0–15 (R78). -/
def houseBay (w : Word) : Option BayId := finOf? 16 (w.byte 2).toNat
/-- Polarity: active low. -/
def houseActiveLow (w : Word) : Bool := (w.byte 3).getLsbD 0
def houseEnable (w : Word) : Bool := (w.byte 3).getLsbD 1

/-- A bay entry, its values limited (R77). -/
def bayCopyOf (w : Word) : BayCopy := ⟨min 1023 (w.setWidth 16).toNat, min 10000 (w >>> 16).toNat⟩

/-! ## Trigger entry (section 11.3, R54) -/

/-- The four debounce codes. -/
def debounceOf (b : Byte) : Option Nat :=
  match b.toNat with
  | 0 => some 10
  | 1 => some 20
  | 2 => some 40
  | 3 => some 80
  | _ => none

/-- Active level: 0 low, 1 high; any other code is a free value (log 17). -/
def activeHighOf (b : Byte) : Bool :=
  match b.toNat with
  | 0 => false
  | 1 => true
  | _ => Config.freeActiveHigh b

/-- The indicator lamp field: a lamp, none (0xFF), or (outer none) a bad value. -/
def indicatorOf (n : Nat) : Option (Option LampId) := if n = 255 then some none else (finOf? 96 n).map some

/-- The role the entry is taken with (R54). -/
def takenRole (m : Memory) (a : Nat) : Role :=
  let dwell := m.nat8 (a + 4)
  if (debounceOf (m.byte (a + 2))).isNone then .none
  else match m.nat8 a with
    | 1 =>
      if m.nat8 (a + 3) ≤ 1 && m.nat8 (a + 5) ≤ 63 && (indicatorOf (m.nat8 (a + 7))).isSome && m.nat16 (a + 8) ≤ 1023
        && (m.nat8 (a + 3) == 0 || (1 ≤ dwell && dwell ≤ 20)) then .start else .none
    | 2 => if m.nat8 (a + 6) ≤ 15 then .guard else .none
    | _ => .none

def parseTrigger (m : Memory) (a : Nat) : TriggerEntry where
  role := takenRole m a
  activeHigh := activeHighOf (m.byte (a + 1))
  debounce := (debounceOf (m.byte (a + 2))).getD (Config.freeDebounce (m.byte (a + 2)))
  dwellMode := m.nat8 (a + 3) == 1
  dwell := 500 * m.nat8 (a + 4)
  scene := (finOf? 64 (m.nat8 (a + 5))).getD 0
  bay := (finOf? 16 (m.nat8 (a + 6))).getD 0
  lamp := (indicatorOf (m.nat8 (a + 7))).getD none
  level := m.nat16 (a + 8)
  armed := (m.byte (a + 10)).getLsbD 0

/-! ## Drive entry (section 11.3, R142) -/

/-- The entry's link, address and bay, where they are in range, as they are in every entry taken as enabled. -/
def DriveEntry.link (e : DriveEntry) : LinkId := (finOf? 2 e.linkField.toNat).getD 0
def DriveEntry.addr (e : DriveEntry) : AddrId := (finOf? 12 (e.addrField.toNat - 1)).getD 0
def DriveEntry.bay (e : DriveEntry) : BayId := (finOf? 16 e.bayField.toNat).getD 0
/-- The settle timeout in units of 0.1 s. -/
def DriveEntry.settle (e : DriveEntry) : Nat := e.settleField.toNat

/-- The enable field says yes, and link, address, bay and settle timeout are in range (R142). -/
def DriveEntry.inRange (e : DriveEntry) : Bool :=
  e.enableField.getLsbD 0 && e.linkField.toNat ≤ 1 && 1 ≤ e.addrField.toNat && e.addrField.toNat ≤ 12 && e.bayField.toNat ≤ 15
  && 1 ≤ e.settleField.toNat

/-- The two entries are of the same link and address. -/
def DriveEntry.clashes (e f : DriveEntry) : Bool := e.link == f.link && e.addr == f.addr

/-- A drive entry; `earlier` are the lower-numbered entries. Taken as enabled when R142's tests hold. -/
def parseDrive (earlier : List DriveEntry) (m : Memory) (a : Nat) : DriveEntry :=
  let e : DriveEntry := ⟨m.byte a, m.byte (a + 1), m.byte (a + 2), m.byte (a + 3), m.byte (a + 4), false⟩
  { e with enabled := e.inRange && !earlier.any fun f => f.enabled && f.clashes e }

/-! ## Clip directory entry (section 11.3, R96, R97) -/

/-- The entry at `a`, if it is valid; `base` and `len` are the clip data region's. -/
def parseClip (base len : Nat) (m : Memory) (a : Nat) : Option ClipEntry :=
  let e : ClipEntry :=
    { base := m.nat32 (a + 4)
      len := m.nat32 (a + 8)
      rate32 := m.nat8 (a + 1) == 1
      markCount := m.nat8 (a + 2)
      marks := ⟨#[m.nat32 (a + 12), m.nat32 (a + 16), m.nat32 (a + 20), m.nat32 (a + 24)], rfl⟩ }
  let ok := (m.byte a).getLsbD 0 && m.nat8 (a + 1) ≤ 1 && e.base % 4 == 0 && 1 ≤ e.len && e.len ≤ 4194304
    && base ≤ e.base && e.base + 4 * e.len ≤ base + len && e.markCount ≤ 4
    && (List.finRange 4).all fun k => e.markCount ≤ k.val || e.marks[k] < e.len
  if ok then some e else none

/-! ## Show map header (section 11.1, R178, R179) -/

/-- The numbers of the regions, in the order of the descriptors. -/
def rControl : Fin 12 := 0
def rRequests : Fin 12 := 1
def rNotices : Fin 12 := 2
def rMirror : Fin 12 := 3
def rScenes : Fin 12 := 4
def rCues : Fin 12 := 5
def rClips : Fin 12 := 6
def rClipData : Fin 12 := 7
def rLampHouse : Fin 12 := 8
def rBays : Fin 12 := 9
def rTriggers : Fin 12 := 10
def rDrives : Fin 12 := 11

/-- The table of lengths of R179. -/
def lengthOk (k : Fin 12) (len : Nat) : Bool :=
  match k.val with
  | 0 => len == 16
  | 1 => len == 512
  | 2 => len == 1024
  | 3 => len == 1024
  | 4 => len == 2048
  | 5 => len % 16 == 0 && 16 ≤ len && len ≤ 65536
  | 6 => len == 8192
  | 7 => len % 16 == 0 && 16 ≤ len
  | 8 => len == 384
  | 9 => len == 64
  | 10 => len == 512
  | _ => len == 192

/-- A descriptor passes R179. -/
def Region.ok (k : Fin 12) (r : Region) : Bool :=
  r.base % 16 == 0 && r.base + r.len ≤ 16777216 && lengthOk k r.len

/-- Two ranges share a byte. -/
def Region.overlaps (a b : Region) : Bool := a.base < b.base + b.len && b.base < a.base + a.len

/-- Word `i` of the header. -/
def headerWord (ws : List Word) (i : Nat) : Word := ws.getD i 0#32

def headerRegions (ws : List Word) : Vector Region 12 :=
  tabulate 12 fun k => ⟨(headerWord ws (8 + 2 * k.val)).toNat, (headerWord ws (9 + 2 * k.val)).toNat⟩

/-- The four tests of R178. -/
def headerOk (ws : List Word) : Bool :=
  let rs := headerRegions ws
  headerWord ws 0 == Config.signature && headerWord ws 2 == 1#32
  && (List.finRange 12).all (fun k => rs[k].ok k)
  && (List.finRange 12).all (fun k => !rs[k].overlaps ⟨0, 128⟩
    && (List.finRange 12).all fun j => j == k || !rs[k].overlaps rs[j])

/-- Lamp frame period in µs, limited to 256–4,096 (R77). -/
def headerPeriod (ws : List Word) : Nat := max 256 (min 4096 ((headerWord ws 3).setWidth 16).toNat)

/-- Channel `v` sends the least significant bit first (section 11.1). -/
def headerLsbFirst (ws : List Word) (v : VoiceId) : Bool := ((headerWord ws 3).byte 2).getLsbD v.val

/-! ## Request record (section 11.2) -/

structure Request where
  kind : Byte
  flags : Byte
  tag : Half
  arg1 : Byte
  arg2 : Byte
  arg3 : Half
deriving DecidableEq, Repr

def parseRequest (m : Memory) (a : Nat) : Request where
  kind := m.byte a
  flags := m.byte (a + 1)
  tag := m.half (a + 2)
  arg1 := m.byte (a + 4)
  arg2 := m.byte (a + 5)
  arg3 := m.half (a + 6)

end Sys2Proof.Machine
end

