-- ==== Sys2Proof/Machine/Postings.lean ====
section
/-!
DEFINITION. The posting buffer (R187, R188, R189): creating a posting, waiting for room, coalescing, cancelling, landing.
-/

namespace Sys2Proof.Machine

/-- A mirror posting to the same word (R188). -/
def Posting.coalesces (x p : Posting) : Bool := x.mirror && p.mirror && p.word == x.word

/-- `x` merged into the pending posting `p` in place (R188). -/
def Posting.absorb (p x : Posting) : Posting := { p with data := p.data.merge x.data x.mask, mask := p.mask ||| x.mask }

/-- The buffer with `x` created: merged into a pending mirror posting of its word, or appended if there is room (R187, R188). -/
def createPosting (ps : List Posting) (x : Posting) : Option (List Posting) :=
  if ps.any x.coalesces then some (ps.map fun p => if x.coalesces p then p.absorb x else p)
  else if ps.length < Config.postingCap then some (ps ++ [x])
  else none

def Port.backlog (p : Port) : Producer → List Posting
  | .noticeUnit => p.noticeBacklog
  | .requestUnit => p.requestBacklog

def Port.setBacklog (p : Port) (who : Producer) (xs : List Posting) : Port :=
  match who with
  | .noticeUnit => { p with noticeBacklog := xs }
  | .requestUnit => { p with requestBacklog := xs }

/-- A producer makes a posting: created at once if it waits for none of its earlier ones and there is room, else it waits (R187). -/
def Port.post (who : Producer) (x : Posting) (p : Port) : Port :=
  if (p.backlog who).isEmpty then
    match createPosting p.posts x with
    | some ps => { p with posts := ps }
    | none => { p.setBacklog who [x] with waiting := p.waiting ++ [who] }
  else p.setBacklog who (p.backlog who ++ [x])

/-- The next posting of the producer needs no entry of its own. -/
def Port.nextCoalesces (p : Port) (who : Producer) : Bool :=
  match p.backlog who with
  | [] => false
  | x :: _ => p.posts.any x.coalesces

/-- Producers that wait take the entries there are, the one that began to wait first ahead; after an entry a producer with more to
create begins to wait anew (R187; log 23). The number bounds the postings created. -/
def Port.pump : Nat → Port → Port
  | 0, p => p
  | n + 1, p =>
    match p.waiting with
    | [] => p
    | who :: rest =>
      match p.backlog who with
      | [] => Port.pump n { p with waiting := rest }
      | x :: xs =>
        match createPosting p.posts x with
        | none => p
        | some ps =>
          let q := { p.setBacklog who xs with posts := ps }
          if xs.isEmpty then Port.pump n { q with waiting := rest }
          else if q.nextCoalesces who then Port.pump n q
          else Port.pump n { q with waiting := rest ++ [who] }

/-- Every producer that can create a posting has done so. -/
def Port.settlePostings (p : Port) : Port :=
  p.pump (p.noticeBacklog.length + p.requestBacklog.length + p.waiting.length)

/-- A granted host write takes its bytes out of every pending posting to the word; one left without a byte leaves (R189). -/
def cancelPostings (ps : List Posting) (w : Nat) (be : Enables) : List Posting :=
  (ps.map fun p => if p.word == w then { p with mask := p.mask &&& ~~~be } else p).filter fun p => !(p.word == w && p.mask == 0#4)

/-- The number of postings pending for a word. -/
def pendingFor (ps : List Posting) (w : Nat) : Nat := ps.countP (·.word == w)

/-- A held read waits for one landing fewer when a posting to its word lands (R190). -/
def HostCycle.landed (w : Nat) : HostCycle → HostCycle
  | .read x (some k) => .read x (some (if x.toNat = w then k - 1 else k))
  | c => c

/-- A posting of the notice unit to word `w` outside the mirror. -/
def Chip.postNotice (w : Nat) (data : Word) : Chip → Chip :=
  Chip.modPort (Port.post .noticeUnit ⟨w, data, 0xF#4, false⟩)

/-- A posting of the request unit. -/
def Chip.postRequest (w : Nat) (data : Word) : Chip → Chip :=
  Chip.modPort (Port.post .requestUnit ⟨w, data, 0xF#4, false⟩)

/-- Word `k` of the control block. -/
def Chip.controlWord (k : Nat) (c : Chip) : Nat := c.base rControl / 4 + k

end Sys2Proof.Machine
end

