-- ==== Sys2Proof/Machine/Notices.lean ====
section
/-!
DEFINITION. Notices: their encoding (section 11.5, 11.6, R208, R209), their ranks and merging at the 77 sources (R202).
-/

namespace Sys2Proof.Machine

/-! ## Encoding -/

/-- A notice's kind code, qualifier and payload words (section 11.5). -/
structure NoticeCode where
  kind : Nat
  qualifier : Nat
  w1 : Word
  w2 : Word
  w3 : Word
deriving DecidableEq, Repr

/-- A slot field: 0xFF for none (R208). -/
def slotByte (i : Option SlotId) : Nat := match i with
  | some x => x.val
  | none => 255

/-- The low and high byte of a half. -/
def lo8 (n : Nat) : Nat := n % 256
def hi8 (n : Nat) : Nat := n / 256 % 256

/-- Causes whose SCENE ENDED carries the failing cue index (R33, R209). -/
def Cause.carriesFailing : Cause → Bool
  | .sceneInvalid => true | .clipMissing => true | .moveRejected => true | .guardAbort => true | .waitTimeout => true
  | .normal => false | .stopped => false | .restarted => false | .runLimit => false | .claimTimeout => false
  | .claimRefused => false | .sceneUndefined => false | .modelFault => false

/-- Payload bytes 0–3 of SCENE ENDED: scene, origin kind, fault drive, origin (section 11.6). -/
def SceneEnd.word1 (e : SceneEnd) : Word :=
  let kind := match e.origin with
    | some (.request _) => 64
    | _ => 0
  let src := match e.origin with
    | some (.trigger t) => t.val
    | some (.request tag) => tag.toNat
    | none => 0
  match e.fault with
  | some (d, _) => Word.ofNats (e.scene % 64 + kind + 128) d.val (lo8 src) (hi8 src)
  | none => Word.ofNats (e.scene % 64 + kind) 0 (lo8 src) (hi8 src)

/-- Payload bytes 4–11 of SCENE ENDED: cues issued, failing cue, slot clock, sense byte 0 (section 11.6). -/
def SceneEnd.word2 (e : SceneEnd) : Word :=
  let failing := if e.cause.carriesFailing then e.failing.getD 0 else 0
  Word.ofNats (lo8 e.issued) (hi8 e.issued) failing (lo8 e.clockMs)

def SceneEnd.word3 (e : SceneEnd) : Word :=
  let s := match e.fault with
    | some (_, x) => x.b0.toNat
    | none => 0
  Word.ofNats (e.clockMs / 256) (e.clockMs / 65536) (e.clockMs / 16777216) s

def NoticeBody.encode : NoticeBody → NoticeCode
  | .modeChange mode causes stop => ⟨1, mode.code, Word.ofNats causes.bits (levelCode stop) 0 0, 0#32, 0#32⟩
  | .badIndex which cand => ⟨2, which, cand, 0#32, 0#32⟩
  | .fencedWrite first count => ⟨3, 0, BitVec.ofNat 32 first, Word.ofNats (lo8 count) (hi8 count) 0 0, 0#32⟩
  | .linkFailed a b link pos => ⟨4, bitNat a 0 + bitNat b 1, Word.ofNats link.val pos 0 0, 0#32, 0#32⟩
  | .sceneNote cue clock => ⟨5, 0, Word.ofNats cue 0 0 0, BitVec.ofNat 32 clock, 0#32⟩
  | .sceneEnded e => ⟨6, e.cause.code + e.flags.bits, e.word1, e.word2, e.word3⟩
  | .triggerDropped t scene reason => ⟨7, reason.code, Word.ofNats t.val scene 0 0, 0#32, 0#32⟩
  | .guardChange t bay lv => ⟨8, 0, Word.ofNats t.val bay.val (levelCode lv) 0, 0#32, 0#32⟩
  | .driveOnline d i0 i1 => ⟨9, 0, Word.ofNats d.val i0.toNat i1.toNat 0, 0#32, 0#32⟩
  | .driveAttention d => ⟨10, 0, Word.ofNats d.val 0 0 0, 0#32, 0#32⟩
  | .driveOffline d link addr left => ⟨11, 0, Word.ofNats d.val link.val (addr.val + 1) left.code, 0#32, 0#32⟩
  | .driveFault d reason sense owner => match sense with
    | some s => ⟨12, reason.code, Word.ofNats d.val 1 s.b0.toNat s.b1.toNat, Word.ofNats s.b2.toNat s.b3.toNat (slotByte owner) 0, 0#32⟩
    | none => ⟨12, reason.code, Word.ofNats d.val 0 0 0, Word.ofNats 0 0 (slotByte owner) 0, 0#32⟩
  | .underrun v clip owner play count =>
    ⟨13, 0, Word.ofNats v.val clip (slotByte owner) 0, BitVec.ofNat 32 play, Word.ofNats (lo8 count) (hi8 count) 0 0⟩

/-- Word 0 of a notice record: source, kind, merged count, qualifier. -/
def Notice.head (src : Fin 77) (n : Notice) : Word :=
  Word.ofNats src.val n.body.encode.kind n.merged n.body.encode.qualifier

/-! ## Sources, ranks, merging -/

/-- Rank at the source: a kind of higher rank is not replaced by one of lower rank (section 10.5). -/
def NoticeBody.rank : NoticeBody → Nat
  | .linkFailed _ _ _ _ => 4 | .fencedWrite _ _ => 3 | .badIndex _ _ => 2 | .modeChange _ _ _ => 1
  | .sceneEnded _ => 2 | .sceneNote _ _ => 1
  | .triggerDropped _ _ _ => 1 | .guardChange _ _ _ => 1
  | .driveFault _ _ _ _ => 4 | .driveOffline _ _ _ _ => 3 | .driveAttention _ => 2 | .driveOnline _ _ _ => 1
  | .underrun _ _ _ _ _ => 1

/-- The device, a slot's, an input's, a drive's and a channel's source (section 10.5). -/
def srcDevice : Fin 77 := 0
def srcSlot (i : SlotId) : Fin 77 := ⟨1 + i.val, by omega⟩
def srcInput (t : InputId) : Fin 77 := ⟨13 + t.val, by omega⟩
def srcDrive (d : DriveId) : Fin 77 := ⟨45 + d.val, by omega⟩
def srcVoice (v : VoiceId) : Fin 77 := ⟨69 + v.val, by omega⟩

/-- What a source holds after a notice is handed to it (R202). -/
def mergeNotice (old : Option Notice) (b : NoticeBody) : Notice :=
  match old with
  | none => ⟨b, 0⟩
  | some n => ⟨if n.body.rank ≤ b.rank then b else n.body, min 255 (n.merged + 1)⟩

/-- A block hands a notice to a source. From step 7 of a RESET SHOW to LOADING it is dropped (R201), and in TRANSPARENT none is handed (R202). -/
def Chip.hand (src : Fin 77) (b : NoticeBody) (c : Chip) : Chip :=
  if c.port.resetDrain || c.port.mode == .transparent then c
  else c.modNotice fun n => { n with sources := updAt n.sources src fun old => some (mergeNotice old b) }

end Sys2Proof.Machine
end

