-- ==== Sys2Proof/Machine/Levels.lean ====
section
/-!
DEFINITION. What a lamp's record says of its level: fades, momentary level, source, target and shown level (R76, R83, R84, R91).
-/

namespace Sys2Proof.Machine

/-- Microseconds of the fade that have passed, at most its duration (R84, "t taken to the microsecond"). -/
def LampFade.time (f : LampFade) : Nat := min (f.elapsed / Config.us 1) (f.dur * 1000)

/-- The level the fade stands at, the fraction dropped from the amount travelled (R84). -/
def LampFade.value (f : LampFade) : Nat :=
  if f.dur = 0 then f.target
  else if f.start ≤ f.target then f.start + (f.target - f.start) * f.time / (f.dur * 1000)
  else f.start - (f.start - f.target) * f.time / (f.dur * 1000)

/-- Ticks left to the fade's end. -/
def LampFade.left (f : LampFade) : Nat := Config.ms f.dur - f.elapsed

/-- The momentary level (R76). -/
def Lamp.momentary (l : Lamp) : Nat := match l.fade with
  | some f => f.value
  | none => l.level

/-- Source of a lamp (R83); none until its entry is read (R76). -/
inductive Source where
  | none | house | indicator | owner | held
deriving DecidableEq, Repr

/-- The source codes of section 11.7. The mirror is written from LIVE on, when every lamp has a source. -/
def Source.code : Source → Nat
  | .none => 0 | .house => 0 | .indicator => 1 | .owner => 2 | .held => 3

/-- The underlying source: the one that would hold outside HELD (R76, R83). -/
def Chip.underlying (l : LampId) (c : Chip) : Source :=
  if c.lamp.lamps[l].copy.isNone then .none
  else if (c.lampOwner l).isSome then .owner
  else if c.lamp.lamps[l].demand == .none then .house
  else .indicator

/-- The level a demand asks for: for an alternating one, its phase (R76). -/
def Demand.level : Demand → Nat
  | .none => 0
  | .steady lv => lv
  | .alternating lv on => if on then lv else 0

/-- The level a demand shows in the mirror and takes at a restore fade: the indicator level, not the phase (R88, R95). -/
def Demand.indicatorLevel : Demand → Nat
  | .none => 0
  | .steady lv => lv
  | .alternating lv _ => lv

/-- The lamp's bay (R76, R78). -/
def Lamp.bay (l : Lamp) : Option BayId := match l.copy with
  | some w => houseBay w
  | none => none

/-- The level a lamp's house entry asks for, 0 while the copy is empty. -/
def Lamp.house (l : Lamp) : Nat := match l.copy with
  | some w => houseLevel w
  | none => 0

/-- The target level of the underlying source; an alternating demand's indicator level (R76, R88). -/
def Chip.underlyingTarget (l : LampId) (c : Chip) : Nat :=
  match c.underlying l with
  | .owner => c.lamp.lamps[l].ownerLevel
  | .indicator => c.lamp.lamps[l].demand.indicatorLevel
  | .house => c.lamp.lamps[l].house
  | .none | .held => 0

/-- The safe level of the lamp's bay, if it has one (R78). -/
def Chip.safeLevel (l : LampId) (c : Chip) : Option Nat := c.lamp.lamps[l].bay.map fun b => c.lamp.bays[b].safe

/-- The restore fade of the lamp's bay; at once for a lamp without a bay (R78). -/
def Chip.restoreFade (l : LampId) (c : Chip) : Nat := match c.lamp.lamps[l].bay with
  | some b => c.lamp.bays[b].restore
  | none => 0

/-- The lamp's source (R76, R83). -/
def Chip.source (l : LampId) (c : Chip) : Source :=
  if c.isHeld && c.lamp.lamps[l].copy.isSome then .held else c.underlying l

/-- The target level of the lamp's source, as the mirror shows it (R95). A lamp without a bay has no safe level: a free value (log 18). -/
def Chip.target (l : LampId) (c : Chip) : Nat :=
  if c.isHeld then (c.safeLevel l).getD (Config.freeSafeLevel l.val).toNat else c.underlyingTarget l

/-- The lamp acts as disabled (R78, R80). -/
def Lamp.disabled (l : Lamp) : Bool := match l.copy with
  | some w => !houseEnable w || (houseBay w).isNone
  | none => true

/-- The level the output is modulated with at the next frame start (R76, R91). -/
def Chip.shown (l : LampId) (c : Chip) : Nat :=
  if c.isHeld then (c.safeLevel l).getD 0 else c.lamp.lamps[l].momentary

/-- On-time in µs: shown level × frame period / 1023, rounded down (R81). -/
def onTime (level period : Nat) : Nat := level * period / 1023

end Sys2Proof.Machine
end

