-- ==== Sys2Proof/Machine/Mirror.lean ====
section
/-!
DEFINITION. The state mirror (R205, section 11.7). Each function hands one entry's update with the values the entry has at that
moment. A mirror word is written whole (R208; log 20).
-/

namespace Sys2Proof.Machine

/-- A word of the mirror: its number in the mirror, and its value. -/
abbrev MirrorWord := Nat × Word

def Chip.mDevice (c : Chip) : MirrorWord :=
  (2, Word.ofNats c.port.mode.code c.hold.causes.bits c.trig.queue.length 0)

/-- The slot's current cue index, 0 for none (R208). -/
def Slot.cueIndex (s : Slot) : Nat := match s.current with
  | some x => x.index
  | none => 0

def Chip.mSlot (i : SlotId) (c : Chip) : List MirrorWord :=
  [(4 + 2 * i.val, Word.ofNats c.slots[i].state.code c.slots[i].scene c.slots[i].cueIndex 0),
   (5 + 2 * i.val, BitVec.ofNat 32 c.slots[i].clockMs)]

def Chip.mDrive (d : DriveId) (c : Chip) : MirrorWord :=
  (28 + d.val, Word.ofNats c.drives[d].state.code 0 (lo8 c.drives[d].position) (hi8 c.drives[d].position))

def Chip.mVoice (v : VoiceId) (c : Chip) : MirrorWord :=
  (52 + v.val, Word.ofNats c.voices[v].state.code (c.voices[v].clip.getD 0) (lo8 c.voices[v].underruns) (hi8 c.voices[v].underruns))

def Chip.mInput (t : InputId) (c : Chip) : MirrorWord :=
  (60 + t.val, Word.ofNats c.trig.inputs[t].code (bitNat c.trig.inputs[t].disarmPending 0) (levelCode c.trig.inputs[t].level) 0)

def Chip.mLamp (l : LampId) (c : Chip) : MirrorWord :=
  (92 + l.val, Word.ofNats (c.source l).code 0 (lo8 (c.target l)) (hi8 (c.target l)))

def Chip.mBay (b : BayId) (c : Chip) : MirrorWord :=
  (188 + b.val, Word.ofNats (bitNat c.bays[b].guarded 0) c.bays[b].causeBits 0 0)

/-- Every word of the mirror the part keeps, in map order, which is the order of the updates at the entry to LIVE; R180 and R205 give none (the model's choice:
log 65). The word at offset 0x00C belongs to no entry and is not among them (the model's choice beside R205 and R208: log 66). -/
def Chip.mirrorImage (c : Chip) : List MirrorWord :=
  [(0, Config.signature), (1, 1#32), c.mDevice]
  ++ (List.finRange 12).flatMap (fun i => c.mSlot i)
  ++ (List.finRange 24).map (fun d => c.mDrive d)
  ++ (List.finRange 8).map (fun v => c.mVoice v)
  ++ (List.finRange 32).map (fun t => c.mInput t)
  ++ (List.finRange 96).map (fun l => c.mLamp l)
  ++ (List.finRange 16).map (fun b => c.mBay b)

/-- The notice unit creates the posting of one mirror word. Updates are posted in LIVE and HELD, and not from step 7 of a RESET
SHOW on (R201, R205). -/
def Chip.mirror (x : MirrorWord) (c : Chip) : Chip :=
  if c.running && !c.port.resetDrain then
    c.modPort (Port.post .noticeUnit ⟨c.base rMirror / 4 + x.1, x.2, 0xF#4, true⟩)
  else c

def Chip.mirrorAll (xs : List MirrorWord) (c : Chip) : Chip := xs.foldl (fun c x => c.mirror x) c

def Chip.mirrorDevice (c : Chip) : Chip := c.mirror c.mDevice
def Chip.mirrorSlot (i : SlotId) (c : Chip) : Chip := c.mirrorAll (c.mSlot i)
def Chip.mirrorDrive (d : DriveId) (c : Chip) : Chip := c.mirror (c.mDrive d)
def Chip.mirrorVoice (v : VoiceId) (c : Chip) : Chip := c.mirror (c.mVoice v)
def Chip.mirrorInput (t : InputId) (c : Chip) : Chip := c.mirror (c.mInput t)
def Chip.mirrorLamp (l : LampId) (c : Chip) : Chip := c.mirror (c.mLamp l)
def Chip.mirrorBay (b : BayId) (c : Chip) : Chip := c.mirror (c.mBay b)

end Sys2Proof.Machine
end

