-- ==== Sys2Proof/Machine/Lamps.lean ====
section
/-!
DEFINITION. The lamp unit (04): fades, changes of owner and demand, capture of the house table, the hold, resets.
-/

namespace Sys2Proof.Machine

/-- The lamp stands at a level with no fade. -/
def Lamp.setLevel (lv : Nat) (l : Lamp) : Lamp := { l with level := lv, fade := none }

/-- A fade of `dur` ms from the momentary level to `tgt` starts; of duration 0, or to the level it starts at, it ends at once (R84, R85). -/
def Lamp.startFade (tgt dur : Nat) (l : Lamp) : Lamp :=
  if dur = 0 ∨ l.momentary = tgt then l.setLevel tgt
  else { l with fade := some ⟨l.momentary, tgt, dur, 0⟩ }

/-- The lamp fades to its source's target over the restore fade, and its new source and target are mirrored (R88, R89, R95). -/
def Chip.restoreLamp (l : LampId) (c : Chip) : Chip :=
  (c.modLamp l (Lamp.startFade (c.underlyingTarget l) (c.restoreFade l))).mirrorLamp l

/-! ## Owner (R86, R87, R88) -/

/-- A grant of the lamp stops its fade at the momentary level, which becomes the owner level (R86). -/
def Lamp.grant (l : Lamp) : Lamp := { l.setLevel l.momentary with ownerLevel := l.momentary }

/-- A LAMP cue of the owner: owner level and fade (R87). None reaches the unit while HELD (R92). -/
def Chip.lampCue (l : LampId) (lv fade : Nat) (c : Chip) : Chip :=
  (c.modLamp l fun x => { x with ownerLevel := lv }.startFade lv fade).mirrorLamp l

/-- The released lamp passes to its former shadow at that slot's level, or (`none`) to its next source; while HELD with no fade (R88, R92). -/
def Chip.lampReleased (l : LampId) (shadowLevel : Option Nat) (c : Chip) : Chip :=
  let c := match shadowLevel with
    | some lv => c.modLamp l fun x => { x with ownerLevel := lv }
    | none => c
  if c.isHeld then c else c.restoreLamp l

/-! ## Indicator demand (R89, R90) -/

/-- The lamp's level at a change of demand while its source is INDICATOR or HOUSE: at once where an alternation begins or becomes steady. From the
alternation of one input to that of another, which R89 does not list, it takes the new phase's level at once, and is mirrored if the indicator level
differs (the model's choice: log 49). -/
def Chip.demandShown (l : LampId) (old new : Demand) (c : Chip) : Chip :=
  match old, new with
  | .alternating a _, .alternating b _ =>
    let c := c.modLamp l (Lamp.setLevel new.level)
    if a = b then c else c.mirrorLamp l
  | _, .alternating _ _ => (c.modLamp l (Lamp.setLevel new.level)).mirrorLamp l
  | .alternating _ _, .steady _ => (c.modLamp l (Lamp.setLevel new.level)).mirrorLamp l
  | _, _ => c.restoreLamp l

/-- The trigger unit hands the lamp a demand (R89, R90); with an owner, while HELD, or before the lamp's entry is read, only the demand
changes (R77, R89, R92). -/
def Chip.lampDemand (l : LampId) (new : Demand) (c : Chip) : Chip :=
  let old := c.lamp.lamps[l].demand
  if old = new then c
  else
    let c := c.modLamp l fun x => { x with demand := new }
    if (c.lampOwner l).isSome || c.isHeld || c.lamp.lamps[l].copy.isNone then c else c.demandShown l old new

/-! ## House table (R77, R79, R80) -/

/-- A house entry as read in LOADING: the copy, and the level of the lamp's source at once (R77). -/
def Chip.lampEntryRead (l : LampId) (w : Word) (c : Chip) : Chip :=
  let c := c.modLamp l fun x => { x with copy := some w }
  (c.modLamp l (Lamp.setLevel (if c.underlying l == .indicator then c.lamp.lamps[l].demand.level else c.underlyingTarget l))).mirrorLamp l

/-- A captured write of the lamp's entry, byte for byte (R79); a new house level acts if the lamp's source is HOUSE (R80). While HELD a change
of the safe level or of the underlying target is mirrored (R92, R95). -/
def Chip.lampCapture (l : LampId) (data : Word) (be : Enables) (c : Chip) : Chip :=
  match c.lamp.lamps[l].copy with
  | none => c
  | some old =>
    let new := old.merge data be
    let safe := c.safeLevel l
    let target := c.underlyingTarget l
    let c := c.modLamp l fun x => { x with copy := some new }
    if c.isHeld then (if c.safeLevel l = safe ∧ c.underlyingTarget l = target then c else c.mirrorLamp l)
    else if houseLevel old ≠ houseLevel new ∧ c.underlying l = .house then c.restoreLamp l
    else c

/-! ## Frames and fade ends (R81, R84) -/

/-- The output of a lamp over the frame that starts now (R81). -/
def Chip.frameOutput (l : LampId) (c : Chip) : LampOutput :=
  match c.lamp.lamps[l].copy with
  | none => .undriven
  | some w => .driven (houseActiveLow w) (if c.lamp.lamps[l].disabled then 0 else onTime (c.shown l) c.lamp.period)

/-- A frame starts (R81). -/
def Chip.lampFrame (c : Chip) : Chip :=
  c.modLampUnit fun u =>
    { u with
      lamps := tabulate 96 fun l => { u.lamps[l] with output := c.frameOutput l }
      frame := some (Config.us u.period) }

/-- The fade has reached its duration (R84, R95). -/
def Chip.lampFadeDone (l : LampId) (target : Nat) (c : Chip) : Chip := (c.modLamp l (Lamp.setLevel target)).mirrorLamp l

/-! ## The hold (R91, R93) -/

/-- Entry to HELD: every lamp shows its bay's safe level; the fades stand frozen, because their time stops (R91, R95). The
lamps' mirror updates come by rising lamp number, an order the spec leaves open (the model's choice: log 54). -/
def Chip.lampsEnterHeld (c : Chip) : Chip := forAll 96 (fun l c => c.mirrorLamp l) c

/-- Leaving HELD: from the safe level to the source's target over the restore fade (R93). -/
def Chip.lampLeaveHeld (l : LampId) (c : Chip) : Chip :=
  match c.lamp.lamps[l].copy with
  | none => c
  | some _ =>
    let from_ := (c.safeLevel l).getD (c.underlyingTarget l)
    (c.modLamp l (Lamp.setLevel from_)).restoreLamp l

/-- The lamps leave HELD by rising lamp number, an order R93 leaves open (the model's choice: log 54). -/
def Chip.lampsLeaveHeld (c : Chip) : Chip := forAll 96 Chip.lampLeaveHeld c

/-! ## Resets (R82, R94) -/

/-- RESET SHOW, step 5 (R94). -/
def Lamp.resetShow (l : Lamp) : Lamp := { l.setLevel l.house with ownerLevel := 0, demand := .none }

/-- A LOADING that fails leaves every lamp undriven, with the power-on values (R82). -/
def LampUnit.undriven (u : LampUnit) : LampUnit := { u with lamps := Vector.replicate 96 .reset, frame := none }

end Sys2Proof.Machine
end

