-- ==== Sys2Proof/Machine/Triggers.lean ====
section
/-!
DEFINITION. The trigger unit (03): states of the START inputs, indicator demands, firing, scene ends, arming.
-/

namespace Sys2Proof.Machine

/-! ## Indicator demands (R74) -/

/-- The demand an input has for its indicator lamp (R74). -/
def Input.demand (t : Input) : Demand :=
  match t.entry.role, t.state with
  | .start, .armed => .steady t.entry.level
  | .start, .dwelling => .alternating t.entry.level t.phaseOn
  | _, _ => .none

/-- The demand of the lowest-numbered START input naming the lamp that has one (R74). -/
def Chip.demandFor (l : LampId) (c : Chip) : Demand :=
  match (List.finRange 32).find? fun t => c.trig.inputs[t].entry.lamp == some l && c.trig.inputs[t].demand != .none with
  | some t => c.trig.inputs[t].demand
  | none => .none

/-- The trigger unit hands an input's indicator lamp the demand it now has. -/
def Chip.refreshDemand (t : InputId) (c : Chip) : Chip :=
  match c.trig.inputs[t].entry.lamp with
  | some l => c.lampDemand l (c.demandFor l)
  | none => c

/-! ## States of a START input -/

/-- The input enters a state: the alternation runs only in DWELLING, starting at the level; the demand and the mirror follow (R74, R75). The mirror update of
the indicator lamp (R95) is handed before the input's own (R75), an order the spec leaves open (the model's choice: log 69). -/
def Chip.enterInput (t : InputId) (st : InputState) (c : Chip) : Chip :=
  ((c.modInput t fun x =>
      { x with
        state := st
        phaseOn := st == .dwelling
        alt := if st == .dwelling then some Config.alternation else none
        dwell := if st == .dwelling then some (Config.ms x.entry.dwell) else none
        cooldown := if st == .cooldown then x.cooldown else none }).refreshDemand t).mirrorInput t

/-- START inputs fire and enter DWELLING only in LIVE, and not from step 6 of a RESET SHOW on (R62, R201; log 26). -/
def Chip.mayFire (c : Chip) : Bool := c.isLive && !c.port.resetDrain

/-- R61: an ARMED DWELL input that is settled active, with no offer outstanding, enters DWELLING. -/
def Chip.timeAnew (t : InputId) (c : Chip) : Chip :=
  let x := c.trig.inputs[t]
  if c.mayFire && x.entry.role == .start && x.state == .armed && x.entry.dwellMode && x.level == some true && !x.offerOut then
    c.enterInput t .dwelling
  else c

/-- The input enters ARMED from DISARMED, SPENT or COOLDOWN, and R61 applies. -/
def Chip.enterArmed (t : InputId) (c : Chip) : Chip := (c.enterInput t .armed).timeAnew t

/-- The input fires: its offer is outstanding and reaches the unit (R59, R60, R63). -/
def Chip.fire (t : InputId) (c : Chip) : Chip :=
  (c.modInput t fun x => { x with offerOut := true }).modTrig fun u =>
    { u with offers := u.offers ++ [⟨u.inputs[t].entry.scene, .trigger t⟩] }

/-- The dwell timer has expired: DWELLING is left for ARMED and the input fires (R60). -/
def Chip.dwellFire (t : InputId) (c : Chip) : Chip := (c.enterInput t .armed).fire t

/-- A settled change of a START input (R59, R60). -/
def Chip.startSettled (t : InputId) (c : Chip) : Chip :=
  let x := c.trig.inputs[t]
  if x.level == some true then
    if c.mayFire && x.state == .armed && !x.offerOut then
      if x.entry.dwellMode then c.enterInput t .dwelling else c.fire t
    else c
  else if x.state == .dwelling then c.enterInput t .armed
  else c

/-- On entry to HELD every DWELLING input returns to ARMED (R62). -/
def Chip.stopDwelling (t : InputId) (c : Chip) : Chip :=
  if c.trig.inputs[t].state == .dwelling then c.enterInput t .armed else c

/-! ## Scene end (R70) -/

/-- The scene end of an instance reaches its SPENT input with a cooldown in s (R70). -/
def Chip.sceneEnd (t : InputId) (cooldown : Nat) (c : Chip) : Chip :=
  let x := c.trig.inputs[t]
  if x.state != .spent then c
  else if x.disarmPending then (c.modInput t fun x => { x with disarmPending := false }).enterInput t .disarmed
  else if cooldown = 0 then c.enterArmed t
  else (c.modInput t fun x => { x with cooldown := some (Config.sec cooldown) }).enterInput t .cooldown

/-- The scene end of an instance of any origin: only a trigger hears of it. -/
def Chip.sceneEndOf (o : Option Origin) (cooldown : Nat) (c : Chip) : Chip :=
  match o with
  | some (.trigger t) => c.sceneEnd t cooldown
  | _ => c

/-! ## Arming and disarming (R72, R73) -/

/-- ARM TRIGGER on a START input (R72). -/
def Chip.arm (t : InputId) (c : Chip) : Chip :=
  let x := c.trig.inputs[t]
  if x.state == .disarmed then c.enterArmed t
  else if x.disarmPending then (c.modInput t fun x => { x with disarmPending := false }).mirrorInput t
  else c

/-- DISARM TRIGGER on a START input (R73). The mirror takes an update only where disarm-pending changes (R75). -/
def Chip.disarm (t : InputId) (c : Chip) : Chip :=
  let x := c.trig.inputs[t]
  if x.state == .disarmed then c
  else if x.state == .spent || x.offerOut then
    if x.disarmPending then c else (c.modInput t fun x => { x with disarmPending := true }).mirrorInput t
  else c.enterInput t .disarmed

/-! ## Queue (R68, R69) -/

/-- Entries that match leave the queue in order; a trigger-origin entry hands its input the scene end with the entry's cooldown (R65, R69).
The queue's new depth is mirrored when it changes (R68). Several scene ends reach their inputs oldest entry first, and after that update, an order R65, R68
and R69 leave open (the model's choice: log 54). -/
def Chip.removeEntries (p : QueueEntry → Bool) (c : Chip) : Chip :=
  let gone := c.trig.queue.filter p
  if gone.isEmpty then c
  else
    let c := (c.modTrig fun u => { u with queue := u.queue.filter fun e => !p e }).mirrorDevice
    gone.foldl (fun c e => c.sceneEndOf (some e.origin) e.cooldown) c

/-- A new entry at the tail, with the counter's value as its sequence number (R68). -/
def Chip.appendEntry (scene : Fin 64) (o : Origin) (bay cooldown : Nat) (c : Chip) : Chip :=
  (c.modTrig fun u => { u with queue := u.queue ++ [⟨scene, o, u.seq, bay, cooldown⟩], seq := u.seq + 1#16 }).mirrorDevice

/-! ## Reset (R55) -/

/-- An input starts again from its reset state; its pin keeps its level. -/
def Input.restart (t : Input) : Input := { Input.reset with raw := t.raw }

/-- The trigger unit's reset state; the pins keep their levels, a discarded offer's read stays at the arbiter (R55, R63). -/
def TriggerUnit.restart (u : TriggerUnit) : TriggerUnit :=
  { TriggerUnit.reset with inputs := mapAll Input.restart u.inputs, staleRead := u.staleRead || !u.offers.isEmpty }

/-- The input's state emptied by a RESET SHOW (R55, R70): no timer, no flag, and no instance; the state is DISARMED (log 26). -/
def Input.emptied (x : Input) : Input :=
  { x with
    state := .disarmed
    disarmPending := false
    offerOut := false
    dwell := none
    cooldown := none
    phaseOn := false
    alt := none }

/-- RESET SHOW, step 6 (R55, R70, R201). -/
def TriggerUnit.resetShow (u : TriggerUnit) : TriggerUnit :=
  { u with
    inputs := mapAll Input.emptied u.inputs
    queue := []
    offers := []
    staleRead := u.staleRead || !u.offers.isEmpty }

end Sys2Proof.Machine
end

