-- ==== Sys2Proof/Machine/Claims.lean ====
section
/-!
DEFINITION. The claim table (02): waiting list, review, grant, reservation, release; and the ways a slot becomes FREE
(R29, R32), which it shares with the scene engine.
-/

namespace Sys2Proof.Machine

/-! ## A slot's definition -/

def Slot.priority (s : Slot) : Nat := match s.defn with
  | some d => d.priority
  | none => 0

def Slot.claimLamps (s : Slot) : List LampId := match s.defn with
  | some d => d.lamps
  | none => []

def Slot.claimDrives (s : Slot) : List DriveId := match s.defn with
  | some d => d.drives
  | none => []

def Slot.voicesNeeded (s : Slot) : Nat := match s.defn with
  | some d => d.voices
  | none => 0

def Slot.claimWait (s : Slot) : Nat := match s.defn with
  | some d => d.claimWait
  | none => 0

/-- The cooldown handed over with the scene end: the copy's, and 0 where no copy was made (R29, R70). R29 says so for SCENE UNDEFINED; for a slot STOPPED
or RESTARTED in CHECKING before its copy it is the model's choice (log 47). -/
def Slot.cooldown (s : Slot) : Nat := match s.defn with
  | some d => d.cooldown
  | none => 0

/-! ## A slot becomes FREE -/

/-- The slot's two fence spans are removed (R185). -/
def Port.unfence (i : SlotId) (p : Port) : Port :=
  { p with sceneSpan := updAt p.sceneSpan i fun _ => none, cueSpan := updAt p.cueSpan i fun _ => none }

/-- What the slot's SCENE ENDED carries (R33). -/
def Slot.sceneEnd (s : Slot) : SceneEnd :=
  ⟨s.scene, s.origin, s.cause.getD .normal, s.flags, s.issued, s.failing, s.clockMs, s.fault⟩

/-- Steps 2 to 5 of R29 and R32: fence spans, SCENE ENDED, hand-off to the trigger, FREE values, mirror. A read still outstanding is abandoned. -/
def Chip.freeSlot (i : SlotId) (c : Chip) : Chip :=
  let s := c.slots[i]
  (((((c.modPort (Port.unfence i)).hand (srcSlot i) (.sceneEnded s.sceneEnd)).sceneEndOf s.origin s.cooldown).modSlot i
    fun _ => .free).abandonFetch i).mirrorSlot i

/-! ## Reservations and the list (R36, R37, R46, R47) -/

def unreserve (i : SlotId) (r : Option SlotId) : Option SlotId := if r = some i then none else r

/-- Every reservation of the slot is dropped (R47). -/
def ClaimTable.drop (i : SlotId) (t : ClaimTable) : ClaimTable :=
  { t with
    lamps := mapAll (fun r => { r with reservation := unreserve i r.reservation }) t.lamps
    voices := mapAll (fun r => { r with reservation := unreserve i r.reservation }) t.voices
    drives := mapAll (fun r => { r with reservation := unreserve i r.reservation }) t.drives }

/-- The slot leaves the list and its reservations are dropped (R37, R47). -/
def ClaimTable.leave (i : SlotId) (t : ClaimTable) : ClaimTable := { t.drop i with waiting := t.waiting.filter (· != i) }

/-- `i` after every waiter of equal or higher priority, before the first of lower (R36). -/
def insertWaiter (prio : SlotId → Nat) (i : SlotId) : List SlotId → List SlotId
  | [] => [i]
  | w :: ws => if prio w < prio i then i :: w :: ws else w :: insertWaiter prio i ws

/-- A slot enters the list; a head it is put ahead of loses its reservations (R36, R47). -/
def Chip.joinList (i : SlotId) (c : Chip) : Chip :=
  let prio := fun w : SlotId => c.slots[w].priority
  let t := c.claims
  let t := match t.waiting with
    | h :: _ => if prio h < prio i then t.drop h else t
    | [] => t
  { c with claims := { t with waiting := insertWaiter prio i t.waiting } }

/-! ## Grantability (R40, R41, R42) -/

/-- The lamp's owner may be preempted by the waiter (R40). -/
def Chip.preemptible (l : LampId) (i : SlotId) (c : Chip) : Bool :=
  match c.claims.lamps[l].owner with
  | some o => c.slots[o].priority == 0 && c.claims.lamps[l].shadow.isNone && 1 ≤ c.slots[i].priority
  | none => false

/-- A reservation that does not stand in the way of slot `i`. -/
def freeFor (i : SlotId) (r : Option SlotId) : Bool := r == none || r == some i

def Chip.lampAvailable (i : SlotId) (c : Chip) (l : LampId) : Bool :=
  freeFor i c.claims.lamps[l].reservation && (c.claims.lamps[l].owner.isNone || c.preemptible l i)

def Chip.driveAvailable (i : SlotId) (c : Chip) (d : DriveId) : Bool :=
  c.claims.drives[d].owner.isNone && freeFor i c.claims.drives[d].reservation
  && c.drives[d].state == .idle && c.drives[d].service.isNone

def Chip.voiceAvailable (i : SlotId) (c : Chip) (v : VoiceId) : Bool :=
  c.claims.voices[v].owner.isNone && freeFor i c.claims.voices[v].reservation

/-- The channels the waiter would take: the lowest-numbered available ones (R45). -/
def Chip.voicesToTake (i : SlotId) (c : Chip) : List VoiceId :=
  (indices (c.voiceAvailable i)).take c.slots[i].voicesNeeded

/-- R42. -/
def Chip.grantable (i : SlotId) (c : Chip) : Bool :=
  c.slots[i].claimLamps.all (c.lampAvailable i) && c.slots[i].claimDrives.all (c.driveAvailable i)
  && (c.voicesToTake i).length == c.slots[i].voicesNeeded

/-! ## Grant (R43, R44, R45) -/

/-- A lamp is taken: a free one is owned, a preempted one leaves its owner as shadow; it stands at its momentary level (R44, R86). -/
def Chip.takeLamp (i : SlotId) (l : LampId) (c : Chip) : Chip :=
  let lv := c.lamp.lamps[l].momentary
  let c := c.modClaims fun t => { t with
    lamps := updAt t.lamps l fun r => ⟨some i, if r.owner.isSome then r.owner else r.shadow, none⟩ }
  ((c.modLamp l Lamp.grant).modSlot i fun s => { s with lamps := s.lamps ++ [⟨l, lv, 0⟩] }).mirrorLamp l

def Chip.takeDrive (i : SlotId) (d : DriveId) (c : Chip) : Chip :=
  c.modClaims fun t => { t with drives := updAt t.drives d fun _ => ⟨some i, none⟩ }

def Chip.takeVoice (i : SlotId) (v : VoiceId) (c : Chip) : Chip :=
  c.modClaims fun t => { t with voices := updAt t.voices v fun _ => ⟨some i, none⟩ }

/-- The slot's voice indices after the grant (R45). -/
def Slot.setVoices (vs : List VoiceId) (s : Slot) : Slot := { s with voice0 := vs[0]?, voice1 := vs[1]? }

/-- The slot enters TIMING with cue 0: clock 0, run limit armed, cue 0 asked for, its offset counting from the grant (R11). -/
def Slot.start (s : Slot) : Slot :=
  let limit := match s.defn with
    | some d => d.runLimit
    | none => 0
  { s with
    state := .timing
    current := some ⟨0, none, false⟩
    next := none
    clock := 0
    offset := some 0
    claimTimer := none
    runTimer := if limit = 0 then none else some (Config.sec limit)
    firstReview := false }

/-- A grant, in one step (R43). The lamps are taken in the order of the claim list, and their mirror updates come before the slot's, an order R43 and R44 leave
open (the model's choice: log 54). -/
def Chip.grant (i : SlotId) (c : Chip) : Chip :=
  let vs := c.voicesToTake i
  let c := c.slots[i].claimLamps.foldl (fun c l => c.takeLamp i l) c
  let c := c.slots[i].claimDrives.foldl (fun c d => c.takeDrive i d) c
  let c := vs.foldl (fun c v => c.takeVoice i v) c
  let c := c.modClaims (ClaimTable.leave i)
  (((c.modSlot i (Slot.setVoices vs)).modSlot i Slot.start).requestFetch i (.run 0)).mirrorSlot i

/-! ## Refusal and reservation (R46, R49) -/

/-- A waiter with limit 0 that is not grantable at its first review ends as CLAIM REFUSED, with no review of its own (R39, R49). It is FREE before the walk
goes on to the next waiter, where R29 has its steps 2 to 5 behind the review and R39 has that review be this walk (the model's choice: log 58). -/
def Chip.refuse (i : SlotId) (c : Chip) : Chip :=
  ((c.modClaims (ClaimTable.leave i)).modSlot i fun s => { s with cause := some .claimRefused }).freeSlot i

def Chip.reserveLamp (i : SlotId) (l : LampId) (c : Chip) : Chip :=
  if c.claims.lamps[l].reservation.isNone && (c.claims.lamps[l].owner.isNone || c.preemptible l i) then
    c.modClaims fun t => { t with lamps := updAt t.lamps l fun r => { r with reservation := some i } }
  else c

def Chip.reserveDrive (i : SlotId) (d : DriveId) (c : Chip) : Chip :=
  if c.claims.drives[d].reservation.isNone && c.claims.drives[d].owner.isNone then
    c.modClaims fun t => { t with drives := updAt t.drives d fun r => { r with reservation := some i } }
  else c

/-- Free unreserved channels, lowest first, until the reserved ones number the voices needed (R46). -/
def Chip.reserveVoices (i : SlotId) (c : Chip) : Chip :=
  let mine := (indices fun v : VoiceId => c.claims.voices[v].reservation == some i).length
  let more := (indices fun v : VoiceId => c.claims.voices[v].owner.isNone && c.claims.voices[v].reservation.isNone).take
    (c.slots[i].voicesNeeded - mine)
  more.foldl (fun c v => c.modClaims fun t => { t with voices := updAt t.voices v fun r => { r with reservation := some i } }) c

/-- The head reserves what it can of its claim set (R46). -/
def Chip.reserve (i : SlotId) (c : Chip) : Chip :=
  let c := c.slots[i].claimLamps.foldl (fun c l => c.reserveLamp i l) c
  let c := c.slots[i].claimDrives.foldl (fun c d => c.reserveDrive i d) c
  c.reserveVoices i

/-! ## Review (R39) -/

/-- The walk over the waiters of the list; `head`: a waiter that stays has been met, so this one is not the head (R39). -/
def Chip.walk : List SlotId → Bool → Chip → Chip
  | [], _, c => c
  | i :: ws, head, c =>
    if c.grantable i then Chip.walk ws head (c.grant i)
    else if c.slots[i].claimWait = 0 && c.slots[i].firstReview then Chip.walk ws head (c.refuse i)
    else
      let c := c.modSlot i fun s => { s with firstReview := false }
      Chip.walk ws true (if head then c else c.reserve i)

/-- A review of the waiting list (R38, R39). -/
def Chip.review (c : Chip) : Chip := Chip.walk c.claims.waiting false c

/-- The slot enters CLAIMING: it joins the list, its claim wait timer is armed, and the list is reviewed (R8, R36, R48). -/
def Chip.enterClaiming (i : SlotId) (c : Chip) : Chip :=
  let c := c.modSlot i fun s =>
    { s with
      state := .claiming
      checkLoops := []
      firstReview := true
      claimTimer := if s.claimWait = 0 then none else some (Config.sec s.claimWait) }
  ((c.mirrorSlot i).joinList i).review

/-- A slot ends in CHECKING or CLAIMING, with no ENDING (R29). -/
def Chip.endEarly (i : SlotId) (cause : Cause) (c : Chip) : Chip :=
  let c := c.modSlot i fun s => { s with cause := some cause }
  let c := if c.claims.waiting.contains i then (c.modClaims (ClaimTable.leave i)).review else c
  c.freeSlot i

/-! ## Release (R51, R52) -/

/-- The level a slot's lamp table holds for a lamp. -/
def Slot.wanted (s : Slot) (l : LampId) : Nat := match s.lamps.find? (·.lamp == l) with
  | some w => w.level
  | none => 0

/-- A lamp record in which the slot appears is released (R51). -/
def Chip.releaseLamp (i : SlotId) (l : LampId) (c : Chip) : Chip :=
  let r := c.claims.lamps[l]
  if r.owner = some i then
    let c := c.modClaims fun t => { t with lamps := updAt t.lamps l fun r => { r with owner := r.shadow, shadow := none } }
    c.lampReleased l (r.shadow.map fun o => c.slots[o].wanted l)
  else if r.shadow = some i then
    c.modClaims fun t => { t with lamps := updAt t.lamps l fun r => { r with shadow := none } }
  else c

/-- A drive's or a channel's record with the slot's ownership given up (R52). -/
def Claim.release (i : SlotId) (r : Claim) : Claim := if r.owner = some i then { r with owner := none } else r

/-- All claims of the slot are released in one step (R51, R52). Its lamps are restored by rising lamp number, an order R51 leaves open (the model's choice:
log 54). -/
def Chip.releaseClaims (i : SlotId) (c : Chip) : Chip :=
  let c := forAll 96 (fun l c => c.releaseLamp i l) c
  c.modClaims fun t => { t with drives := mapAll (Claim.release i) t.drives, voices := mapAll (Claim.release i) t.voices }

/-- ENDING is complete (R32): release, review, and the slot becomes FREE. -/
def Chip.releaseSlot (i : SlotId) (c : Chip) : Chip := ((c.releaseClaims i).review).freeSlot i

end Sys2Proof.Machine
end

