-- ==== Sys2Proof/Machine/Narration.lean ====
section
/-!
DEFINITION. The narration unit (05): starting a clip, FIFO and fetching, playing, volume and fades, stops, the hold.
-/

namespace Sys2Proof.Machine

/-- Reports go to the owner the channel holds at that moment (R98). -/
def Chip.tellVoice (v : VoiceId) (r : VoiceReport) (c : Chip) : Chip := match c.voiceOwner v with
  | some i => c.signal (.voice i v r)
  | none => c

/-- Ticks between sample times (R106). -/
def samplePeriod (rate32 : Bool) : Nat := if rate32 then 125 else 250

/-! ## Gain (R110) -/

/-- The fade's gain, rounded toward its start (R110). -/
def GainFade.value (f : GainFade) : Nat := f.start - f.start * min f.elapsed (Config.ms f.dur) / Config.ms f.dur

/-- The gain in force: the volume, or in FADING the fade's momentary gain (R110). -/
def Channel.gain (ch : Channel) : Nat :=
  match ch.state, ch.fade with
  | .fading, some f => f.value
  | _, _ => ch.volume

/-- sample × gain / 255, rounded toward zero (R110). -/
def scaleSample (s : Half) (gain : Nat) : Half := BitVec.ofInt 16 ((s.toInt * (gain : Int)).tdiv 255)

/-! ## IDLE (R111) -/

/-- The channel's record on entry to IDLE (R111). -/
def Channel.idled (ch : Channel) : Channel :=
  { ch with
    state := .idle
    burst := ch.burst.map fun b => { b with abandoned := true }
    filling := false
    fifo := []
    clip := none
    copy := none
    marks := Vector.replicate 4 false
    fade := none
    held := none }

/-- Entry to IDLE, by clip end or by stop: record, fence span, report (R111). -/
def Chip.voiceIdle (v : VoiceId) (why : IdleWhy) (c : Chip) : Chip :=
  (((c.modVoice v Channel.idled).modPort fun p => { p with clipSpan := updAt p.clipSpan v fun _ => none }).tellVoice v (.idle why)).mirrorVoice v

/-! ## Asking for a fetch (R102, R104) -/

/-- The length of the clip on the channel in words, 0 with none (R96). -/
def Channel.length (ch : Channel) : Nat := match ch.copy with
  | some e => e.len
  | none => 0

/-- The channel asks for a burst of up to 8 words when it fills, nothing is in flight or being read, clip words remain, and the level
stays below the high mark (R101, R102). A clip's first burst is asked for as the clip takes the channel (R100), every other at the end of a step (log 8). -/
def Channel.askBurst (ch : Channel) : Channel :=
  if ch.filling && ch.burst.isNone && ch.dirRead.isNone && ch.fetchPos < ch.length && ch.fifo.length < Config.fifoHigh then
    let n := min Config.burstWords (ch.length - ch.fetchPos)
    { ch with
      burst := some ⟨ch.fetchPos, n, false⟩
      fetchPos := ch.fetchPos + n
      filling := ch.fetchPos + n != ch.length }
  else ch

/-- A request of the channel waits at the arbiter: a burst, or, with none in flight, a directory read (R99, R103). -/
def Channel.requests (ch : Channel) : Bool := ch.burst.isSome || ch.dirRead.isSome

/-- A waiting request is urgent once the level is 32 or below, and stays so (R104; log 16). -/
def Channel.markUrgent (ch : Channel) : Channel :=
  { ch with urgent := ch.requests && (ch.urgent || ch.fifo.length ≤ Config.fifoUrgent) }

/-- The channel asks for a burst if it may, and its waiting request turns urgent if it must (R102, R104). -/
def Channel.settle (ch : Channel) : Channel := ch.askBurst.markUrgent

/-! ## Starting a clip (R99, R100) -/

/-- A SPEAK of the owner: a directory read is recorded; one already outstanding takes the new clip and is read again (R99). A stop pending on the
replaced read goes with it (the model's choice: log 50). -/
def Chip.speak (v : VoiceId) (clip volume : Nat) : Chip → Chip :=
  Chip.modVoice v fun ch => { ch with dirRead := some ⟨clip, volume, false, ch.dirRead.isSome, false⟩ }

/-- The channel with a valid entry taken, before it asks for its first burst (R100). -/
def Channel.take (e : ClipEntry) (d : DirRead) (ch : Channel) : Channel :=
  { ch with
    state := .priming
    clip := some d.clip
    copy := some e
    volume := d.volume
    fade := none
    fetchPos := 0
    playPos := 0
    fifo := []
    filling := true
    burst := ch.burst.map fun b => { b with abandoned := true }
    marks := Vector.replicate 4 false
    held := none }

/-- A valid entry takes the channel: cut, new clip, fence, PRIMING with the first burst asked for; with a stop pending it leaves for IDLE at once, and that
burst is abandoned (R100, R111). -/
def Chip.takeClip (v : VoiceId) (e : ClipEntry) (d : DirRead) (c : Chip) : Chip :=
  let c := c.modVoice v (Channel.take e d)
  let c := c.modPort fun p => { p with clipSpan := updAt p.clipSpan v fun _ => some ⟨e.base, e.base + 4 * e.len - 1⟩ }
  let c := ((c.modVoice v Channel.settle).tellVoice v .started).mirrorVoice v
  if d.stopPending then c.voiceIdle v .stop else c

/-- The directory read's data return (R99). -/
def Chip.dirReturn (v : VoiceId) (d : DirRead) (e : Option ClipEntry) (c : Chip) : Chip :=
  if d.abandoned then c.modVoice v fun ch => { ch with dirRead := none }
  else if d.replaced then c.modVoice v fun ch => { ch with dirRead := some { d with replaced := false } }
  else
    let c := c.modVoice v fun ch => { ch with dirRead := none }
    match e with
    | none => c.tellVoice v .missing
    | some e => c.takeClip v e d

/-! ## The arrival of a burst (R103, R105) -/

/-- The channel enters PLAYING: its output takes the clip's rate (R114; log 28). A clip stopped before it reached PLAYING leaves the rate as it was, so that
the rate of an IDLE channel is that of its last clip to have played (the model's choice: log 55). -/
def Channel.play (ch : Channel) : Channel :=
  let r := match ch.copy with
    | some e => e.rate32
    | none => ch.rate32
  { ch with state := .playing, rate32 := r, sample := min ch.sample (samplePeriod r) }

/-- Priming is over: the FIFO has reached the high mark, or the clip is fully fetched (R105). -/
def Channel.primed (ch : Channel) : Bool :=
  ch.state == .priming && (Config.fifoHigh ≤ ch.fifo.length || (ch.fetchPos == ch.length && ch.burst.isNone))

/-- A burst's data join the FIFO (R103, R102). -/
def Channel.receive (ws : List Word) (ch : Channel) : Channel :=
  let fifo := ch.fifo ++ ws
  { ch with
    fifo := fifo
    burst := none
    urgent := false
    filling := ch.filling && fifo.length < Config.fifoHigh }

/-- The data of the channel's burst arrive (R103, R105, R107). -/
def Chip.burstReturn (v : VoiceId) (b : Burst) (ws : List Word) (c : Chip) : Chip :=
  if b.abandoned then c.modVoice v fun ch => { ch with burst := none, urgent := false }
  else
    let c := c.modVoice v (Channel.receive ws)
    if c.voices[v].state == .starved then (c.modVoice v Channel.play).mirrorVoice v
    else if c.voices[v].primed then
      if c.isHeld then (c.modVoice v fun ch => { ch with state := .paused, filling := true }).mirrorVoice v
      else (c.modVoice v Channel.play).mirrorVoice v
    else c

/-! ## Playing (R106 to R109) -/

/-- The 16 bits of a frame in the order the data line carries them: from the most or from the least significant bit on (R114). -/
def frameBits (lsbFirst : Bool) (s : Half) : Vector Bool 16 := tabulate 16 fun k => s.getLsbD (if lsbFirst then k.val else 15 - k.val)

/-- A frame carries this sample; the next sample time is one period off (R114). -/
def Channel.send (s : Half) (ch : Channel) : Channel :=
  { ch with out := s, frame := frameBits ch.lsbFirst s, sample := samplePeriod ch.rate32 }

/-- The marks at word offset `p` that have not passed yet (R108). -/
def Channel.marksAt (ch : Channel) (p : Nat) : List (Fin 4) :=
  match ch.copy with
  | some e => indices fun k : Fin 4 => k.val < e.markCount && e.marks[k] == p && !ch.marks[k]
  | none => []

/-- The first sample of the word at the head of the FIFO is output (R106). -/
def Channel.playWord (w : Word) (rest : List Word) (ch : Channel) : Channel :=
  { (ch.send (scaleSample (w.setWidth 16) ch.gain)) with
    fifo := rest
    playPos := ch.playPos + 1
    held := some ((w >>> 16).setWidth 16)
    filling := ch.filling || rest.length ≤ Config.fifoLow }

/-- The marks at the word just output become passed and are reported, each (R108), by rising mark number, an order R108 leaves open (the model's choice:
log 54). -/
def Chip.passMarks (v : VoiceId) (ks : List (Fin 4)) (c : Chip) : Chip :=
  ks.foldl (fun c k => (c.modVoice v fun ch => { ch with marks := updAt ch.marks k fun _ => true }).tellVoice v (.mark k)) c

/-- Entry to STARVED: count, UNDERRUN notice, report (R107). -/
def Chip.starve (v : VoiceId) (c : Chip) : Chip :=
  let c := c.modVoice v fun ch => { ch.send 0#16 with state := .starved, underruns := min 65535 (ch.underruns + 1) }
  let ch := c.voices[v]
  ((c.hand (srcVoice v) (.underrun v (ch.clip.getD 0) (c.voiceOwner v) ch.playPos ch.underruns)).tellVoice v .underrun).mirrorVoice v

/-- A sample time of a channel that plays (PLAYING or FADING) and holds no second sample (R106, R109, R111). -/
def Chip.firstSample (v : VoiceId) (c : Chip) : Chip :=
  let ch := c.voices[v]
  match ch.fifo with
  | w :: rest => (c.modVoice v (Channel.playWord w rest)).passMarks v (ch.marksAt ch.playPos)
  | [] =>
    if ch.playPos < ch.length then
      if ch.state == .playing then c.starve v else c.modVoice v (Channel.send 0#16)
    else (c.modVoice v (Channel.send 0#16)).voiceIdle v .clipEnd

/-- A sample time of the channel (R106, R114). Outside PLAYING and FADING the frame carries the sample 0. -/
def Chip.sampleAt (v : VoiceId) (c : Chip) : Chip :=
  let ch := c.voices[v]
  if ch.state == .playing || ch.state == .fading then
    match ch.held with
    | some s => c.modVoice v fun ch => { ch.send (scaleSample s ch.gain) with held := none }
    | none => c.firstSample v
  else c.modVoice v (Channel.send 0#16)

/-! ## Stops (R111) -/

/-- FADING from the gain now in force over `fade` ms (R111). -/
def Channel.fadeOut (fade : Nat) (ch : Channel) : Channel := { ch with state := .fading, fade := some ⟨ch.gain, fade, 0⟩ }

/-- A stop reaches the channel by its state (R111); one from an ENDING also waits for an outstanding directory read. -/
def Chip.voiceStop (v : VoiceId) (fade : Nat) (ending : Bool) (c : Chip) : Chip :=
  let c := if ending then c.modVoice v fun ch => { ch with dirRead := ch.dirRead.map fun d => { d with stopPending := true } } else c
  match c.voices[v].state with
  | .idle => c
  | .priming | .paused => c.voiceIdle v .stop
  | .playing | .starved => if fade = 0 then c.voiceIdle v .stop else (c.modVoice v (Channel.fadeOut fade)).mirrorVoice v
  | .fading => if fade = 0 then c.voiceIdle v .stop else c.modVoice v (Channel.fadeOut fade)

/-! ## The hold (R112, R113) and RESET SHOW (R115) -/

def Chip.voiceEnterHeld (v : VoiceId) (c : Chip) : Chip :=
  let st := c.voices[v].state
  if st == .playing || st == .starved then (c.modVoice v fun ch => { ch with state := .paused, filling := true }).mirrorVoice v else c

def Chip.voiceLeaveHeld (v : VoiceId) (c : Chip) : Chip :=
  if c.voices[v].state == .paused then (c.modVoice v Channel.play).mirrorVoice v else c

/-- RESET SHOW, step 4: the record's reset values, the first bit and the output rate kept, reads in flight abandoned (R98, R103, R115; log 15). -/
def Channel.resetShow (ch : Channel) : Channel :=
  { Channel.reset with
    burst := ch.burst.map fun b => { b with abandoned := true }
    dirRead := ch.dirRead.map fun d => { d with abandoned := true }
    lsbFirst := ch.lsbFirst
    rate32 := ch.rate32
    sample := ch.sample
    out := ch.out
    frame := ch.frame
    urgent := ch.urgent }

end Sys2Proof.Machine
end

