-- ==== Sys2Proof/Machine/Links.lean ====
section
/-!
DEFINITION. The model link controllers (06): queue, HALTs, quiet waits, frames, replies, sense step, failed attempts, polls, probes, the
loopback check, the reset sequence.
-/

namespace Sys2Proof.Machine

/-- A controller, and the reports it has made, oldest first (R129). -/
structure LinkStep where
  link : Link
  reports : List (AddrId × LinkReport)
deriving DecidableEq, Repr

def LinkStep.silent (k : Link) : LinkStep := ⟨k, []⟩

/-- A controller acts and hands its reports to the drive and guard unit in the order it makes them (R129). -/
def Chip.runLink (l : LinkId) (f : Link → LinkStep) (c : Chip) : Chip :=
  let r := f c.links[l]
  (c.modLink l fun _ => r.link).signalAll (r.reports.map fun x => .link l x.1 x.2)

def Link.modAddr (a : AddrId) (f : AddrRec → AddrRec) (k : Link) : Link := { k with addrs := updAt k.addrs a f }

def Link.present (k : Link) (a : AddrId) : Bool := k.addrs[a].present

/-- The command of the current frame step (R124). -/
def Current.command (x : Current) : Command := if x.senseStep then .sense else x.txn.cmd

/-- The transaction becomes current, with no failed attempt (R131). -/
def Current.begin (t : Txn) : Current := ⟨t, false, 0, false, none, none, none⟩

/-! ## The queue (R132, R133, R134) -/

/-- A transaction other than a HALT is handed to the controller (R132, R134). -/
def Link.hand (t : Txn) (k : Link) : LinkStep :=
  if !k.present t.addr then ⟨k, [(t.addr, .offline)]⟩
  else if k.queue.length < Config.linkQueueCap then .silent { k with queue := k.queue ++ [t] }
  else ⟨k, [(t.addr, .refused t.cmd)]⟩

/-- A HALT of the queue: it stands ahead of every other transaction (R132). -/
def Txn.isHalt (t : Txn) : Bool := t.cmd == .halt

/-- The queue with its newest transaction that is no HALT taken out, and that transaction (R132). -/
def dropNewest (q : List Txn) : Option (Txn × List Txn) :=
  match (q.filter fun t => !t.isHalt).getLast? with
  | some t => some (t, q.filter Txn.isHalt ++ (q.filter fun t => !t.isHalt).dropLast)
  | none => none

/-- The HALT at the tail of the HALTs. -/
def insertHalt (h : Txn) (q : List Txn) : List Txn := q.filter Txn.isHalt ++ h :: q.filter fun t => !t.isHalt

/-- A HALT joins, in a full queue in place of the newest other transaction (R132). -/
def Link.joinHalt (h : Txn) (k : Link) : LinkStep :=
  if k.queue.length < Config.linkQueueCap then .silent { k with queue := insertHalt h k.queue }
  else match dropNewest k.queue with
    | some (t, q) => ⟨{ k with queue := insertHalt h q }, [(t.addr, .refused t.cmd)]⟩
    | none => .silent { k with queue := insertHalt h k.queue }

/-- A move as current transaction turned in place into a HALT, its failed attempts kept (R133). -/
def Current.turned (x : Current) : Current := { x with txn := ⟨x.txn.addr, .halt, 0#16, .halt⟩ }

/-- The current transaction is a move for the address, outside its sense step. So a move whose SENSE frame fails is not turned into its queued HALT, and the
SENSE is sent again (R130; the model's choice between R130 and R131 with R133 and R155: log 60). -/
def Current.isMoveFor (a : AddrId) (x : Current) : Bool := x.txn.cmd.isMove && x.txn.addr == a && !x.senseStep

/-- The current transaction withdrawn: nothing is left to send again. The state it leaves, QUIET-WAIT from LOST too, is the model's choice (log 51). -/
def Link.withdrawn (k : Link) : Link := { k with current := none, state := .quietWait }

/-- What a HALT meets in the current transaction (R133, rows 3 to 6). -/
def Link.haltCurrent (h : Txn) (k : Link) : LinkStep :=
  match k.current with
  | some x =>
    if x.isMoveFor h.addr && (k.state == .quietWait || k.state == .lost) then
      if x.sent then ⟨{ k with current := some x.turned }, [(h.addr, .halting x.txn.cmd)]⟩
      else ⟨k.withdrawn, [(h.addr, .withdrawn x.txn.cmd)]⟩
    else k.joinHalt h
  | none => k.joinHalt h

/-- The controller holds a HALT for the address, queued or current (R133). -/
def Link.holdsHalt (a : AddrId) (k : Link) : Bool :=
  k.queue.any (fun t => t.isHalt && t.addr == a)
  || match k.current with
    | some x => x.txn.isHalt && x.txn.addr == a
    | none => false

/-- The queued move for the address (R133). -/
def queuedMove (a : AddrId) (t : Txn) : Bool := t.cmd.isMove && t.addr == a

/-- The queued moves for the address removed, each reported WITHDRAWN (R133). A drive has at most one. -/
def Link.withdrawQueued (a : AddrId) (k : Link) : LinkStep :=
  ⟨{ k with queue := k.queue.filter fun t => !queuedMove a t }, (k.queue.filter (queuedMove a)).map fun t => (a, .withdrawn t.cmd)⟩

/-- A HALT reaches the controller (R133, R134). A queued move goes even where a HALT for its drive is held already (R159; log 46). -/
def Link.halt (a : AddrId) (maker : Maker) (k : Link) : LinkStep :=
  if !k.present a then ⟨k, [(a, .offline)]⟩
  else if k.queue.any (queuedMove a) then k.withdrawQueued a
  else if k.holdsHalt a then .silent k
  else k.haltCurrent ⟨a, .halt, 0#16, maker⟩

/-- The controller holds a move for the address, queued or current (R133, R159). -/
def Link.holdsMove (a : AddrId) (k : Link) : Bool :=
  k.queue.any (queuedMove a)
  || match k.current with
    | some x => queuedMove a x.txn
    | none => false

/-! ## Work and the choice (R125, R135) -/

/-- A configured address that is not present and whose probe timer has expired. -/
def AddrRec.probeDue (r : AddrRec) : Bool := r.configured && !r.present && r.due

/-- A poll could be made. -/
def Link.pollable (k : Link) : Bool := k.service && (List.finRange 12).any k.present

def Link.hasWork (k : Link) : Bool :=
  k.current.isSome || !k.queue.isEmpty || (List.finRange 12).any (fun a => k.addrs[a].probeDue) || k.pollable

/-- Addresses in the order a poll looks: from last polled + 1 to 12, then from 1 (R135). -/
def pollOrder (last : Nat) : List AddrId := (indices fun a : AddrId => last ≤ a.val) ++ indices fun a : AddrId => a.val < last

/-- The address the next poll goes to (R135). -/
def Link.pollAddr (k : Link) : Option AddrId :=
  match k.pollAgain with
  | some a => if k.present a then some a else (pollOrder k.lastPolled).find? k.present
  | none => (pollOrder k.lastPolled).find? k.present

/-- A frame of the current transaction starts, from its first character; the part drives the pair, which is not quiet before the frame's end
(R117, R118, R126). -/
def Link.send (x : Current) (k : Link) : Link :=
  { k with current := some x, state := .sending, frame := some Config.frameTime, quiet := Config.frameTime + Config.quietWait }

/-- The choice of R125 from its second line on, and the frame of what is chosen. -/
def Link.choose (k : Link) : Link :=
  match k.queue with
  | t :: q => { k with queue := q }.send (.begin t)
  | [] =>
    match (List.finRange 12).find? fun a => k.addrs[a].probeDue with
    | some a => (k.modAddr a fun r => { r with due := false }).send (.begin ⟨a, .identify, 0#16, .probe⟩)
    | none =>
      match k.pollAddr with
      | some a =>
        if k.service then
          { k with lastPolled := a.val + 1, pollAgain := none }.send (.begin ⟨a, .poll, 0#16, .poll⟩)
        else { k with state := .idle }
      | none => { k with state := .idle }

/-- A HALT for the address waits in the queue. -/
def Link.haltQueued (a : AddrId) (k : Link) : Bool := k.queue.any fun t => t.isHalt && t.addr == a

/-- The current transaction's frame is sent, again or for the first time. A move whose HALT has joined meanwhile is turned into that HALT after a failed
attempt (R133); after a lost arbitration it is turned only where its drive's bay is guarded (R159), and else sent once more with the HALT behind it
(R127, R133; log 25). -/
def Link.sendCurrent (guarded : Bool) (x : Current) (k : Link) : LinkStep :=
  if x.isMoveFor x.txn.addr && k.haltQueued x.txn.addr && (guarded || k.state != .lost) then
    ⟨{ k with queue := k.queue.filter fun t => !(t.isHalt && t.addr == x.txn.addr) }.send x.turned, [(x.txn.addr, .halting x.txn.cmd)]⟩
  else .silent (k.send x)

/-! ## The reset sequence (R139) -/

/-- Steps 4 and 5 (R139). -/
def Link.resetDone (k : Link) : Link :=
  { k with
    state := if k.state == .failed then .failed else .idle
    current := none
    addrs := mapAll (fun r => { r with present := false, probe := none, due := false }) k.addrs
    lastPolled := 0
    pollAgain := none
    resetting := none }

/-- The sequence goes on after a transaction has ended: the next HALT waits for quiet, or steps 4 and 5 follow (R139). -/
def Link.resetNext (k : Link) : Link :=
  let k := { k with current := none, frame := none, reply := none, rx := [] }
  if k.resetting == some [] || k.resetting == none then k.resetDone else { k with state := .quietWait }

/-- A RESET SHOW reaches the controller (R139, steps 1 and 2). The addresses that get a HALT are those present now: what ends the transaction found under way
makes no address present and none not present (the model's choice: log 67). -/
def Link.beginReset (k : Link) : Link :=
  let k := { k with queue := [], resetting := some (indices k.present) }
  if k.state == .failed then k.resetDone
  else if k.state == .sending || k.state == .awaitReply then k
  else k.resetNext

/-! ## Quiet (R126, R127) -/

/-- 2 ms of quiet have passed in QUIET-WAIT or LOST (R125, R126, R127); `guarded` says whether the current transaction's drive stands in a guarded bay. -/
def Link.quietEnd (guarded : Bool) (k : Link) : LinkStep :=
  match k.state, k.current, k.resetting with
  | .lost, some x, none | .quietWait, some x, none => k.sendCurrent guarded x
  | .lost, some x, some _ | .quietWait, some x, some _ => .silent (k.send x)
  | .quietWait, none, some (a :: rest) => .silent ({ k with resetting := some rest }.send (.begin ⟨a, .halt, 0#16, .reset⟩))
  | .quietWait, none, some [] => .silent k.resetDone
  | .quietWait, none, none => .silent k.choose
  | _, _, _ => .silent k

/-- A character of another station has begun: the measure starts again behind its end (R117, R126; log 24). -/
def Link.startBit (k : Link) : Link := { k with quiet := Config.charTime + Config.quietWait }

/-! ## Failed attempts (R131) -/

/-- The address's probe timer is armed with 2,000 ms (R131, R136). -/
def Link.armProbe (a : AddrId) : Link → Link := Link.modAddr a fun r => { r with probe := some Config.probeTime, due := false }

/-- The current transaction is given up (R131). -/
def Link.giveUp (x : Current) (k : Link) : LinkStep :=
  let k := { k with current := none }.armProbe x.txn.addr
  if x.txn.maker == .probe then .silent k
  else
    let k := k.modAddr x.txn.addr fun r => { r with present := false }
    ⟨{ k with queue := k.queue.filter fun t => t.addr != x.txn.addr }, [(x.txn.addr, .offline)]⟩

/-- A failed attempt of the current transaction is counted (R131); a HALT of the reset sequence makes no other (R139). -/
def Link.failed (x : Current) (k : Link) : LinkStep :=
  if k.resetting.isSome then .silent k.resetNext
  else
    let k := { k with state := .quietWait, frame := none, reply := none, rx := [] }
    if x.txn.maker == .probe || 2 ≤ x.failed then k.giveUp x
    else .silent { k with current := some { x with failed := x.failed + 1 } }

/-- The frame has been sent to its last stop bit (R127). -/
def Link.frameSent (k : Link) : Link :=
  { k with
    state := .awaitReply
    frame := none
    reply := some Config.replyTime
    rx := []
    quiet := Config.quietWait
    current := k.current.map fun x => { x with sent := x.sent || !x.senseStep } }

/-- Another station's dominant bit is found (R127); the transaction a RESET SHOW found in SENDING ends with it (R139). -/
def Link.arbitrationLost (k : Link) : Link :=
  let k := { k.startBit with state := .lost, frame := none }
  match k.current, k.resetting with
  | some x, some _ => if x.txn.maker == .reset then k else k.resetNext
  | _, _ => k

/-! ## Completion (R129, R130, R135, R136) -/

/-- The bytes and flags of a report with the sense bytes kept from a spoiled command frame (R130): of a kept byte 0 its flags but CHECK ERROR, bits 0, 1
and 3 to 5 (section 11.8). -/
def withKept (kept : Option Sense) (st : Status) (sense : Option Sense) : Status × Option Sense :=
  match kept, sense with
  | none, _ => (st, sense)
  | some k, none => ({ st with fault := true }, some k)
  | some k, some s => (st, some { s with b0 := s.b0 ||| (k.b0 &&& 0x3B#8) })

/-- The report of a completed transaction, and what the controller takes from it. -/
def Link.report (x : Current) (st : Status) (sense : Option Sense) (identity : Option (Byte × Byte)) (k : Link) : LinkStep :=
  let a := x.txn.addr
  match x.txn.maker with
  | .poll => ⟨{ k with pollAgain := if st.more then some a else k.pollAgain }, [(a, .polled st sense)]⟩
  | .probe =>
    match identity with
    | some (i0, i1) => ⟨k.modAddr a fun r => { r with present := true, probe := none, due := false }, [(a, .online i0 i1 sense)]⟩
    | none => .silent k
  | .move | .halt | .service | .reset => ⟨k, [(a, .done x.txn.cmd st sense identity)]⟩

/-- The transaction is complete (R129). A probe complete without ACCEPTED is a failed attempt (R136). -/
def Link.complete (x : Current) (st : Status) (sense : Option Sense) (identity : Option (Byte × Byte)) (k : Link) : LinkStep :=
  if x.txn.maker == .probe && !st.accepted then k.failed x
  else
    let r := withKept x.kept st sense
    { k with current := none, state := .idle, reply := none, rx := [] }.report x r.1 r.2 identity

/-- The sense step's reply is acted on (R130). -/
def Link.senseResult (x : Current) (st : Status) (s : Sense) (k : Link) : LinkStep :=
  if s.checkError && !st.accepted then
    k.failed { x with senseStep := false, status := none, identity := none, kept := if s.others then some s else x.kept }
  else if s.checkError && !s.others then k.complete x { st with fault := false } none x.identity
  else k.complete x st (some s) x.identity

/-- The first four bytes after ECHO and STATUS, as sense bytes. -/
def senseOf (rx : List Byte) : Sense := ⟨rx.getD 2 0#8, rx.getD 3 0#8, rx.getD 4 0#8, rx.getD 5 0#8⟩

/-- A complete reply (R129): a sense step begins, or the transaction completes. -/
def Link.replied (x : Current) (rx : List Byte) (k : Link) : LinkStep :=
  let st := Status.ofByte (rx.getD 1 0#8)
  let identity := if x.txn.cmd == .identify && st.accepted then some (rx.getD 2 0#8, rx.getD 3 0#8) else none
  if k.resetting.isSome then .silent k.resetNext
  else if x.senseStep then
    match x.status with
    | some cs => k.senseResult x cs (senseOf rx)
    | none => k.complete x st (some (senseOf rx)) none
  else if st.fault && x.txn.cmd != .sense then
    .silent { k with
      state := .quietWait
      reply := none
      rx := []
      current := some { x with senseStep := true, status := some st, identity := identity } }
  else k.complete x st (if x.txn.cmd == .sense then some (senseOf rx) else none) identity

/-! ## Reply characters (R119, R128) -/

/-- The reply's length (R119). -/
def replyLength (cmd : Command) (st : Status) : Nat :=
  match cmd with
  | .sense => if st.accepted then 7 else 3
  | .identify => if st.accepted then 5 else 3
  | .goto | .home | .cycle | .halt | .poll | .clear => 3

/-- A STATUS that fails the attempt (R128). -/
def statusBad (cmd : Command) (st : Status) : Bool :=
  (st.accepted && st.busy)
  || match cmd with
    | .poll | .halt | .identify => !st.accepted && !st.fault
    | .sense => !st.accepted
    | .goto | .home | .cycle | .clear => !st.accepted && !st.busy && !st.fault

/-- The reply's characters so far fail the attempt at their last one (R128). -/
def replyBad (a : AddrId) (cmd : Command) (rx : List Byte) : Bool :=
  let n := rx.length
  let st := Status.ofByte (rx.getD 1 0#8)
  if n = 1 then rx.getD 0 0#8 != BitVec.ofNat 8 (a.val + 1)
  else if n = 2 then statusBad cmd st
  else n == replyLength cmd st && rx.getD (n - 1) 0#8 != rx.dropLast.foldl (· + ·) 0#8

/-- The check character has been received. -/
def replyWhole (cmd : Command) (rx : List Byte) : Bool :=
  2 ≤ rx.length && replyLength cmd (Status.ofByte (rx.getD 1 0#8)) ≤ rx.length

/-- A character is received in AWAIT-REPLY (R128). -/
def Link.take (ch : RxChar) (x : Current) (k : Link) : LinkStep :=
  let rx := k.rx ++ [ch.data]
  if !ch.parityOk || !ch.framingOk || replyBad x.txn.addr x.command rx then k.failed x
  else if replyWhole x.command rx then k.replied x rx
  else .silent { k with rx := rx }

/-- A character ends on the pair: the quiet time is measured from its end; in AWAIT-REPLY it is taken (R117, R126, R128). -/
def Link.character (ch : RxChar) (k : Link) : LinkStep :=
  let k := { k with quiet := Config.quietWait }
  match k.state, k.current with
  | .awaitReply, some x => k.take ch x
  | _, _ => .silent k

/-- The current transaction, if the controller is in the state: a failed attempt of it (R127, R128). -/
def Link.failIn (st : LinkState) (k : Link) : LinkStep :=
  match k.current with
  | some x => if k.state == st then k.failed x else .silent k
  | none => .silent k

/-! ## Loopback (R137) and the links of a LOADING -/

/-- The character sent at a position of the loopback check. -/
def loopChar (pos : Nat) : Byte :=
  match pos with
  | 0 => 0xA5#8
  | 1 => 0x5A#8
  | 2 => 0x0F#8
  | _ => 0xF0#8

def Link.configured (k : Link) : Bool := (List.finRange 12).any fun a => k.addrs[a].configured

/-- The position of the character the check waits for, if the check still goes on: it begins once the link's reset sequence is over (R139). -/
def Link.loopPos (k : Link) : Option Nat :=
  if !k.configured || k.resetting.isSome then none
  else match k.loopback with
    | .notRun => some 0
    | .running p => some p
    | .done => none

/-- The character came back with the same data, no parity error and no framing error, in time (R137). -/
def loopOk (pos : Nat) : Option RxChar → Bool
  | some ch => ch.data == loopChar pos && ch.parityOk && ch.framingOk
  | none => false

/-- The link's check failed in this LOADING. -/
def Link.failedCheck (k : Link) : Bool := k.state == .failed && k.loopback == .done

/-- The character at `pos` of the check is judged (R137). -/
def Chip.loopStep (l : LinkId) (pos : Nat) (ch : Option RxChar) (c : Chip) : Chip :=
  if loopOk pos ch then
    c.modLink l fun k => if pos = 3 then { k with state := .idle, loopback := .done } else { k with loopback := .running (pos + 1) }
  else
    let c := c.modLink l fun k => { k with state := .failed, loopback := .done }
    c.hand srcDevice (.linkFailed c.links[0].failedCheck c.links[1].failedCheck l pos)

/-- The controller's checks, if it has any, are over (R137, R180). -/
def Link.ready (k : Link) : Bool := k.resetting.isNone && k.loopPos.isNone

/-- The configured addresses are told (R124, R142). -/
def Link.configure (l : LinkId) (entries : List DriveEntry) (k : Link) : Link :=
  { k with addrs := tabulate 12 fun a =>
    { k.addrs[a] with configured := entries.any fun e => e.enabled && e.link == l && e.addr == a } }

/-- At the entry to LIVE from LOADING every configured address's probe timer is armed with 0 ms, on a link not FAILED (R136, R138). -/
def Link.armProbes (k : Link) : Link :=
  if k.state == .failed then k
  else { k with addrs := mapAll (fun r => if r.configured then { r with probe := some 0, due := false } else r) k.addrs }

/-- A controller of a part left TRANSPARENT: IDLE, or FAILED until a check is run again, with no configured address, and what is left of a reset sequence
is over, so that its pair is not driven (R138, R140; log 29). The pair is quiet from the end of a frame cut short there (R117; log 24). -/
def Link.unconfigure (k : Link) : Link :=
  { Link.reset with
    state := if k.state == .failed then .failed else .idle
    quiet := if k.state == .sending then Config.quietWait else k.quiet
    service := k.service
    loopback := k.loopback }

/-- The record after power-on reset and the RESET line; the SERVICE line keeps its level (R124, R140). -/
def Link.restart (k : Link) : Link := { Link.reset with service := k.service }

end Sys2Proof.Machine
end

