-- ==== Sys2Proof/Machine/Drives.lean ====
section
/-!
DEFINITION. The drive and guard unit (07): what it takes from the controllers' reports, moves, halts, service commands, bay guards.
-/

namespace Sys2Proof.Machine

/-! ## What others are told -/

/-- The owner the drive has at this moment is told (R158). -/
def Chip.tellDrive (d : DriveId) (r : DriveReport) (c : Chip) : Chip := match c.driveOwner d with
  | some i => c.signal (.drive i d r)
  | none => c

/-- An unowned IDLE drive is handed to the claim table as newly available (R38). -/
def Chip.offerDrive (d : DriveId) (c : Chip) : Chip :=
  if (c.driveOwner d).isNone && c.drives[d].state == .idle then c.review else c

/-- The drive enters a state: mirror, owner, and the slots that wait for the drive learn of a change (R158, R162). -/
def Chip.driveTo (d : DriveId) (st : DriveState) (c : Chip) : Chip :=
  if c.drives[d].state = st then c
  else (((c.modDrive d fun x => { x with state := st }).mirrorDrive d).tellDrive d .changed).signal (.driveState d)

/-- The drive's position from bytes 1 and 2 of sense bytes that reach the unit (R145, R162). -/
def Chip.takePosition (d : DriveId) (s : Option Sense) (c : Chip) : Chip :=
  match s with
  | some s =>
    if c.drives[d].position = s.position then c
    else (c.modDrive d fun x => { x with position := s.position }).mirrorDrive d
  | none => c

/-- The DRIVE FAULT notice of the drive as it stands (R162). -/
def Chip.handFault (d : DriveId) (c : Chip) : Chip :=
  c.hand (srcDrive d) (.driveFault d (c.drives[d].reason.getD .sense) c.drives[d].sense (c.driveOwner d))

/-! ## Parts of the record -/

/-- The move is dropped or cleared, and with it kept end and move accepted (R151). -/
def Drive.dropMove (x : Drive) : Drive := { x with move := none, atLink := false, keptEnd := none, accepted := false }

/-- Both timers stop, and what they measured is over. -/
def Drive.stopTimers (x : Drive) : Drive := { x with retry := none, settle := none, windowExpired := false }

/-- The drive's settle timeout in ticks (section 11.3: steps of 0.1 s). -/
def DriveEntry.settleTime (e : DriveEntry) : Nat := Config.ms (100 * e.settle)

/-- A window of the drive's settle timeout begins (R147, R148, R153, R161). -/
def Drive.openWindow (x : Drive) : Drive := { x with settle := some x.entry.settleTime, windowExpired := false }

/-- A report's sense bytes become the stored sense. -/
def Drive.store (s : Option Sense) (x : Drive) : Drive := { x with sense := if s.isSome then s else x.sense }

/-- The drive enters FAULTED for a reason, with or without new sense; `tell` is what its owner is told (R149, R150, R152, R154, R156). The window of an IDLE
drive is its service command's, and one that has expired stays so: a BUSY or REFUSED that follows is not retried (R161; log 35). -/
def Chip.enterFault (d : DriveId) (why : FaultReason) (s : Option Sense) (tell : Option Sense → Option DriveReport) (c : Chip) : Chip :=
  let c := c.modDrive d fun x =>
    { (x.store s).dropMove.stopTimers with reason := some why, haltCause := none, windowExpired := x.state == .idle && x.windowExpired }
  let st := c.drives[d].sense
  let c := match tell st with
    | some r => c.tellDrive d r
    | none => c
  (c.driveTo d .faulted).handFault d

/-- The owner is told that its drive is FAULTED, or had a settle timeout, with the stored sense (R158). -/
def tellFault (s : Option Sense) : Option DriveReport := some (.fault s)

/-- The owner is told nothing: it was told already (R156). -/
def tellNothing (_ : Option Sense) : Option DriveReport := none

/-- The owner is told that its move was rejected, with the sense (R150). -/
def tellRejected (s : Option Sense) : Option DriveReport := some (.rejected (s.getD Sense.zero))

/-- The drive ends its move or halt in IDLE (R151, R153, R154); `r` is told to its owner, and an unowned drive is newly available. -/
def Chip.endMove (d : DriveId) (r : DriveReport) (c : Chip) : Chip :=
  let c := c.modDrive d fun x => { x.dropMove.stopTimers with haltCause := none }
  (((c.tellDrive d r).driveTo d .idle).offerDrive d)

/-! ## Handing to the controllers -/

/-- The drive's move goes to its controller (R147, R149). -/
def Chip.handMove (d : DriveId) (c : Chip) : Chip :=
  let x := c.drives[d]
  match x.move with
  | some mv =>
    (c.modDrive d fun x => { x with atLink := true }).runLink x.entry.link (Link.hand ⟨x.entry.addr, mv.code.command, mv.arg, .move⟩)
  | none => c

def ServiceCmd.command : ServiceCmd → Command
  | .sense => .sense | .clear => .clear

/-- The drive's service command goes to its controller (R161). -/
def Chip.handService (d : DriveId) (c : Chip) : Chip :=
  let x := c.drives[d]
  match x.service with
  | some k =>
    (c.modDrive d fun x => { x with atLink := true }).runLink x.entry.link (Link.hand ⟨x.entry.addr, k.command, 0#16, .service⟩)
  | none => c

/-- A HALT for the drive's address goes to its controller (R153). -/
def Chip.handHalt (d : DriveId) (c : Chip) : Chip := c.runLink c.drives[d].entry.link (Link.halt c.drives[d].entry.addr .halt)

/-- A move is handed for the drive (R147). A drive OFFLINE or FAULTED answers at once. -/
def Chip.driveMove (d : DriveId) (mv : Move) (c : Chip) : Chip :=
  match c.drives[d].state with
  | .idle =>
    ((c.modDrive d fun x => { x.dropMove.stopTimers.openWindow with move := some mv }).driveTo d .starting).handMove d
  | .offline | .faulted => c.tellDrive d (.fault c.drives[d].sense)
  | .starting | .moving | .halting => c

/-! ## Halting (R153) -/

/-- The HALT of a drive with a move at the link or in motion (R153). -/
def Chip.halting (d : DriveId) (why : HaltCause) (c : Chip) : Chip :=
  let c := c.modDrive d fun x => { x.openWindow with haltCause := some why, retry := none }
  let c := if why = .guard then c.tellDrive d .guardHalting else c
  (c.driveTo d .halting).handHalt d

/-- A halt is called for the drive (R153). -/
def Chip.driveHalt (d : DriveId) (why : HaltCause) (c : Chip) : Chip :=
  match c.drives[d].state with
  | .starting => if c.drives[d].atLink then c.halting d why else c.endMove d .withdrawn
  | .moving => c.halting d why
  | .halting | .idle | .faulted | .offline => c

/-! ## Reports about a move (R148 to R151, R154) -/

/-- The motion end of a drive by its state (R151). -/
def Chip.motionEnd (d : DriveId) (halted : Bool) (c : Chip) : Chip :=
  let x := c.drives[d]
  match x.state with
  | .moving => c.endMove d (.settled halted)
  | .halting =>
    if x.haltCause = some .settleTimeout then c.enterFault d .settleTimeout none tellNothing
    else c.endMove d (if halted then .halted else .settled false)
  | .starting => if x.atLink then c.modDrive d fun x => { x with keptEnd := some halted } else c
  | .idle | .faulted | .offline => c

/-- The move was taken by a drive that holds an older fault: FAULTED, and a HALT for the motion it began (R148; log 34). -/
def Chip.acceptedFaulty (d : DriveId) (s : Option Sense) (c : Chip) : Chip := (c.enterFault d .sense s tellFault).handHalt d

/-- A DONE of the move with ACCEPTED in STARTING (R148). A kept end is taken as its end once the move's acceptance has been taken (R151). -/
def Chip.moveAccepted (d : DriveId) (c : Chip) : Chip :=
  let kept := c.drives[d].keptEnd
  let c := c.modDrive d fun x => { x.openWindow with accepted := true, atLink := false }
  let c := (c.tellDrive d .accepted).driveTo d .moving
  if kept.isSome then c.signal (.keptEnd d) else c

/-- The kept end is taken as the end of the move just accepted (R151). -/
def Chip.takeKeptEnd (d : DriveId) (c : Chip) : Chip :=
  match c.drives[d].keptEnd with
  | some h => (c.modDrive d fun x => { x with keptEnd := none }).motionEnd d h
  | none => c

/-- A BUSY or REFUSED of the move in STARTING (R149). -/
def Chip.moveBusy (d : DriveId) (c : Chip) : Chip :=
  if c.drives[d].windowExpired then c.enterFault d .busyTimeout none tellFault
  else c.modDrive d fun x => { x with atLink := false, keptEnd := none, retry := some Config.retryTime }

/-- The move of a HALTING drive was not taken, or was turned into the HALT: it is no longer at the link, and a kept end is discarded (R151, R154). -/
def Chip.moveGone (d : DriveId) : Chip → Chip := Chip.modDrive d fun x => { x with atLink := false, keptEnd := none }

/-- A DONE of the drive's move (R148, R149, R150, R154; log 34). An ACCEPTED in HALTING with a kept end leaves the drive HALTING, and the kept end is not
taken (the model's choice between R151 and R154: log 53). -/
def Chip.moveDone (d : DriveId) (st : Status) (s : Option Sense) (c : Chip) : Chip :=
  match c.drives[d].state with
  | .starting =>
    if st.accepted then (if st.fault then c.acceptedFaulty d s else c.moveAccepted d)
    else if st.fault then c.enterFault d .sense s tellRejected
    else c.moveBusy d
  | .halting =>
    if st.accepted then (if st.fault then c.acceptedFaulty d s else c.modDrive d fun x => { x with accepted := true, atLink := false })
    else if st.fault then c.enterFault d .sense s tellRejected
    else c.moveGone d
  | .idle | .moving | .faulted | .offline => c

/-- A REFUSED for the move (R149, R154). -/
def Chip.moveRefused (d : DriveId) (c : Chip) : Chip :=
  match c.drives[d].state with
  | .starting => c.moveBusy d
  | .halting => c.moveGone d
  | .idle | .moving | .faulted | .offline => c

/-- A HALTING report (R154). -/
def Chip.moveTurned (d : DriveId) (c : Chip) : Chip := if c.drives[d].state == .halting then c.moveGone d else c

/-- A fault reported otherwise than by the DONE of a move (R152). -/
def Chip.faultReport (d : DriveId) (s : Option Sense) (c : Chip) : Chip :=
  match c.drives[d].state with
  | .idle | .starting | .moving | .halting => c.enterFault d .sense s tellFault
  | .faulted => (c.modDrive d fun x => x.store s).handFault d
  | .offline => c

/-- A DONE of a HALT (R152, R154). One that carries FAULT is taken as R152 gives, behind a move refused in HALTING too, where R154 has the HALT's later answer
without effect (the model's choice between the two: log 68). -/
def Chip.haltDone (d : DriveId) (st : Status) (s : Option Sense) (c : Chip) : Chip :=
  let x := c.drives[d]
  if st.fault then c.faultReport d s
  else if x.state == .halting && st.accepted && st.settled then
    if x.haltCause = some .settleTimeout then c.enterFault d .settleTimeout none tellNothing
    else c.endMove d (if x.accepted then .settled false else .halted)
  else c

/-- A WITHDRAWN of the move in HALTING (R154). -/
def Chip.moveWithdrawn (d : DriveId) (c : Chip) : Chip :=
  if c.drives[d].state == .halting then c.endMove d .withdrawn else c

/-! ## Service commands (R161) -/

/-- The service command is over: its field is cleared, and an unowned IDLE drive is newly available (R161). -/
def Chip.serviceOver (d : DriveId) (c : Chip) : Chip :=
  (c.modDrive d fun x => { x.stopTimers with service := none, atLink := false }).offerDrive d

/-- The service command ends without a DONE (R161). -/
def Chip.serviceLost (d : DriveId) (c : Chip) : Chip :=
  let x := c.drives[d]
  let c :=
    if x.service = some .clear ∧ x.state = .faulted then (c.modDrive d fun x => { x with reason := some .busyTimeout }).handFault d
    else c
  c.serviceOver d

/-- A BUSY or REFUSED of the service command (R149, R161). Where a fault has stopped the timer of its window (R152), it is retried every 100 ms with no window
running (the model's choice: log 63). -/
def Chip.serviceBusy (d : DriveId) (c : Chip) : Chip :=
  if c.drives[d].service.isNone then c
  else if c.drives[d].windowExpired then c.serviceLost d
  else c.modDrive d fun x => { x with atLink := false, retry := some Config.retryTime }

/-- The DONE of a SENSE (R161). -/
def Chip.senseDone (d : DriveId) (st : Status) (s : Sense) (c : Chip) : Chip :=
  (if st.fault && s.others then c.faultReport d (some s) else c).serviceOver d

/-- An accepted CLEAR without FAULT (R161). -/
def Chip.clearTaken (d : DriveId) (c : Chip) : Chip :=
  let x := c.drives[d]
  if x.state == .faulted then
    let id := x.identity.getD (0#8, 0#8)
    ((c.modDrive d fun x => { x with reason := none, sense := none }).driveTo d .idle).hand (srcDrive d) (.driveOnline d id.1 id.2)
  else c

/-- The DONE of a CLEAR (R161). With FAULT and BUSY both set and no ACCEPTED it is taken as a FAULT, and there is no retry (the model's choice within R161:
log 61). -/
def Chip.clearDone (d : DriveId) (st : Status) (s : Option Sense) (c : Chip) : Chip :=
  if st.fault then (c.faultReport d s).serviceOver d
  else if st.accepted then (c.clearTaken d).serviceOver d
  else c.serviceBusy d

/-- A DONE of a service command. -/
def Chip.serviceDone (d : DriveId) (cmd : Command) (st : Status) (s : Option Sense) (c : Chip) : Chip :=
  if c.drives[d].service.isNone then c
  else match cmd, s with
    | .sense, some s => c.senseDone d st s
    | .sense, none => c.serviceBusy d
    | _, _ => c.clearDone d st s

/-! ## Coming and going (R146, R157) -/

/-- The owner is told of a fault a report carries, with its sense (R27, R158). -/
def Chip.tellSense (d : DriveId) (s : Option Sense) (c : Chip) : Chip := if s.isSome then c.tellDrive d (.fault s) else c

/-- An ONLINE report (R146). With sense bytes the drive enters FAULTED, which is reported to its owner, a slot in ENDING (R27, R31, R152; log 70). -/
def Chip.driveOnline (d : DriveId) (i0 i1 : Byte) (s : Option Sense) (c : Chip) : Chip :=
  if c.drives[d].state != .offline then c
  else
    let c := c.modDrive d fun x => { x with identity := some (i0, i1), sense := s, reason := s.map fun _ => .sense }
    let c := ((c.tellSense d s).driveTo d (if s.isSome then .faulted else .idle)).hand (srcDrive d) (.driveOnline d i0 i1)
    if s.isSome then c.handFault d else c.offerDrive d

/-- An OFFLINE report (R157). -/
def Chip.driveOffline (d : DriveId) (c : Chip) : Chip :=
  let x := c.drives[d]
  if x.state == .offline then c
  else
    let c := c.modDrive d fun x => { x.dropMove.stopTimers with haltCause := none, service := none }
    (((c.tellDrive d (.fault x.sense)).driveTo d .offline).hand (srcDrive d) (.driveOffline d x.entry.link x.entry.addr x.state))

/-! ## Reports of the controllers (R145) -/

/-- A POLLED report (R151, R152): a fault is taken, and then its SETTLED is not. -/
def Chip.polled (d : DriveId) (st : Status) (s : Option Sense) (c : Chip) : Chip :=
  if c.drives[d].state == .offline then c
  else
    let c := if st.fault then c.faultReport d s else if st.settled then c.motionEnd d st.halted else c
    if st.attention then c.hand (srcDrive d) (.driveAttention d) else c

/-- A DONE report, by its command. -/
def Chip.driveDone (d : DriveId) (cmd : Command) (st : Status) (s : Option Sense) (c : Chip) : Chip :=
  match cmd with
  | .goto | .home | .cycle => c.moveDone d st s
  | .halt => c.haltDone d st s
  | .sense | .clear => c.serviceDone d cmd st s
  | .poll | .identify => c

/-- A REFUSED report, by its command (R132). -/
def Chip.driveRefused (d : DriveId) (cmd : Command) (c : Chip) : Chip :=
  match cmd with
  | .goto | .home | .cycle => c.moveRefused d
  | .sense | .clear => c.serviceBusy d
  | .halt | .poll | .identify => c

/-- The sense bytes a report carries. -/
def LinkReport.sense : LinkReport → Option Sense
  | .done _ _ s _ | .polled _ s | .online _ _ s => s
  | .offline | .withdrawn _ | .halting _ | .refused _ => none

/-- A report about a drive, after its position (R145). -/
def Chip.driveReport (d : DriveId) (r : LinkReport) (c : Chip) : Chip :=
  match r with
  | .done cmd st s _ => c.driveDone d cmd st s
  | .polled st s => c.polled d st s
  | .online i0 i1 s => c.driveOnline d i0 i1 s
  | .offline => c.driveOffline d
  | .withdrawn _ => c.moveWithdrawn d
  | .halting _ => c.moveTurned d
  | .refused cmd => c.driveRefused d cmd

/-- The enabled drive with the link and address (R145). -/
def Chip.driveAt (l : LinkId) (a : AddrId) (c : Chip) : Option DriveId :=
  (List.finRange 24).find? fun d => c.drives[d].entry.enabled && c.drives[d].entry.link == l && c.drives[d].entry.addr == a

/-- A report of a controller is taken; one for an address no enabled drive holds is dropped (R145). -/
def Chip.linkReport (l : LinkId) (a : AddrId) (r : LinkReport) (c : Chip) : Chip :=
  match c.driveAt l a with
  | some d => (c.takePosition d r.sense).driveReport d r
  | none => c

/-! ## Timers (R149, R154, R156, R161) -/

/-- The settle timer has expired, by the drive's state. -/
def Chip.settleExpired (d : DriveId) (c : Chip) : Chip :=
  let x := c.drives[d]
  let c := c.modDrive d fun x => { x with settle := none }
  match x.state with
  | .starting =>
    if x.atLink then c.modDrive d fun x => { x with windowExpired := true }
    else c.enterFault d .busyTimeout none tellFault
  | .moving => (c.driveHalt d .settleTimeout).tellDrive d (.fault x.sense)
  | .halting => c.enterFault d .settleTimeout none (if x.haltCause = some .settleTimeout then tellNothing else tellFault)
  | .idle | .faulted =>
    if x.service.isNone then c
    else if x.atLink then c.modDrive d fun x => { x with windowExpired := true }
    else c.serviceLost d
  | .offline => c

/-- The retry timer has expired: the same move or service command is handed again (R149, R161). -/
def Chip.retryExpired (d : DriveId) (c : Chip) : Chip :=
  let c := c.modDrive d fun x => { x with retry := none }
  if c.drives[d].move.isSome then c.handMove d else c.handService d

/-! ## Bay guards (R159, R160) -/

/-- Some GUARD input of the bay is true (R159). -/
def Chip.inputGuard (b : BayId) (c : Chip) : Bool := (List.finRange 32).any fun t => c.guardIn[t] == some (b, true)

/-- The bay's record with its causes and its guarded state worked out anew (R159). -/
def Chip.bayNow (b : BayId) (c : Chip) : Bay :=
  let x := c.bays[b]
  let input := c.inputGuard b
  { x with guarded := input || x.hostGuard || c.isHeld, input := input, host := x.hostGuard, hold := c.isHeld }

/-- A move that a FAULTED drive has left at its controller (R152) is called back with a HALT, so that no frame of it goes out while the bay is guarded
(R159). Nothing is done at the drive (R153). That the HALT is the means is the model's reading (log 52). -/
def Chip.recallMove (d : DriveId) (c : Chip) : Chip :=
  if c.drives[d].state == .faulted && c.links[c.drives[d].entry.link].holdsMove c.drives[d].entry.addr then c.handHalt d else c

/-- What the bay's guard does at one of its drives (R159, R160). -/
def Chip.guardDrive (d : DriveId) (c : Chip) : Chip := (c.driveHalt d .guard).recallMove d

/-- Every STARTING or MOVING drive of the bay is halted, and no move of a FAULTED one goes out (R159, R160), by rising drive number, an order the spec leaves
open (the model's choice: log 54). -/
def Chip.haltBay (b : BayId) (c : Chip) : Chip :=
  forAll 24 (fun d c => if c.drives[d].entry.enabled && c.drives[d].entry.bay == b then c.guardDrive d else c) c

/-- A source of the bay has changed: its guarded state is worked out, and R160's steps follow. Step 1, the halts, is done here; steps 2 and 3 are reports taken
at the end of the step, so that they come after the reply of the request that made the change, an order R160 and R199 leave open (the model's choice: log 71). -/
def Chip.bayWork (b : BayId) (c : Chip) : Chip :=
  let old := c.bays[b]
  let new := c.bayNow b
  let c := c.modBay b fun _ => new
  if old = new then c
  else if old.guarded = new.guarded then c.mirrorBay b
  else (if new.guarded then c.haltBay b else c).signalAll [.bay b, .bayMirror b]

/-- The drive of the controller's current transaction stands in a guarded bay (R159). -/
def Chip.currentGuarded (l : LinkId) (c : Chip) : Bool :=
  match c.links[l].current with
  | some x =>
    match c.driveAt l x.txn.addr with
    | some d => c.bays[c.drives[d].entry.bay].guarded
    | none => false
  | none => false

/-! ## Table and resets (R142, R164) -/

/-- Entry `d` of the drive table is read (R142). -/
def Chip.driveEntryRead (m : Memory) (d : DriveId) (c : Chip) : Chip :=
  let earlier := (indices fun e : DriveId => e < d).map fun e => c.drives[e].entry
  c.modDrive d fun x => { x with entry := parseDrive earlier m (c.base rDrives + 8 * d.val) }

/-- The drive table has been read: each controller is told its configured addresses (R142). -/
def Chip.drivesRead (c : Chip) : Chip :=
  let es := (List.finRange 24).map fun d => c.drives[d].entry
  { c with links := tabulate 2 fun l => c.links[l].configure l es }

/-- RESET SHOW at a drive: every field but the entry at its reset value (R164). -/
def Drive.resetShow (x : Drive) : Drive := { Drive.reset with entry := x.entry }

end Sys2Proof.Machine
end

