-- ==== Sys2Proof/Machine/Scenes.lean ====
section
/-!
DEFINITION. The scene engine (01): issue and completion of cues, waits, halted moves, endings, what the blocks report to a slot, and
admission.
-/

namespace Sys2Proof.Machine

/-! ## Small parts of a slot -/

/-- TIMING or WAITING. -/
def Slot.runs (s : Slot) : Bool := s.state == .timing || s.state == .waiting

/-- The record of the current cue, once it has arrived. -/
def Slot.record (s : Slot) : Option CueRec := match s.current with
  | some x => x.record
  | none => none

/-- The current cue has been issued (R13). -/
def Slot.isIssued (s : Slot) : Bool := match s.current with
  | some x => x.issued
  | none => false

/-- The channel of a voice index (R45). -/
def Slot.voice (s : Slot) (v : Fin 2) : Option VoiceId := if v = 0 then s.voice0 else s.voice1

/-- The voice index at which the slot has a channel. -/
def Slot.voiceIndex (s : Slot) (v : VoiceId) : Option (Fin 2) :=
  if s.voice0 = some v then some 0 else if s.voice1 = some v then some 1 else none

/-- The slot enters a state, mirrored if it changes (R3). -/
def Chip.slotTo (i : SlotId) (st : SlotState) (c : Chip) : Chip :=
  if c.slots[i].state = st then c else (c.modSlot i fun s => { s with state := st }).mirrorSlot i

/-- The slot waits on a condition (R14). -/
def Chip.waitOn (i : SlotId) (k : WaitCond) (c : Chip) : Chip := (c.modSlot i fun s => { s with cond := some k }).slotTo i .waiting

/-- STARTING, MOVING or HALTING. -/
def DriveState.busy : DriveState → Bool
  | .starting => true | .moving => true | .halting => true | .offline => false | .idle => false | .faulted => false

def Chip.driveBusy (d : DriveId) (c : Chip) : Bool := c.drives[d].state.busy
def Chip.bayGuarded (b : BayId) (c : Chip) : Bool := c.bays[b].guarded
def Chip.driveBay (d : DriveId) (c : Chip) : BayId := c.drives[d].entry.bay

/-! ## Ending (R29 to R32) -/

/-- The drives the slot owns. -/
def Chip.ownedDrives (i : SlotId) (c : Chip) : List DriveId := indices fun d : DriveId => c.driveOwner d == some i

/-- No owned drive is STARTING, MOVING or HALTING, and every granted channel is IDLE (R32). -/
def Chip.endingComplete (i : SlotId) (c : Chip) : Bool :=
  (c.ownedDrives i).all (fun d => !c.driveBusy d)
  && [c.slots[i].voice0, c.slots[i].voice1].all fun v => match v with
    | some v => c.voices[v].state == .idle
    | none => true

/-- The test of R32. -/
def Chip.endingTest (i : SlotId) (c : Chip) : Chip :=
  if c.slots[i].state == .ending && c.endingComplete i then c.releaseSlot i else c

/-- The slot's record on entry to ENDING (R30). -/
def Slot.ending (cause : Cause) (s : Slot) : Slot :=
  { s with
    cause := some cause
    offset := none
    waitTimer := none
    runTimer := none
    current := none
    next := none
    cond := none
    halted := []
    moves := [] }

/-- A channel of the slot is stopped for its ENDING (R30, R111). -/
def Chip.endVoice (v : Option VoiceId) (c : Chip) : Chip := match v with
  | some v => c.voiceStop v Config.endingFade true
  | none => c

/-- A slot in TIMING or WAITING takes a cause and enters ENDING (R30). Its channels are stopped by rising voice index and its drives
halted by rising drive number, orders R30 leaves open (the model's choice: log 54). The slot's mirror update comes ahead of theirs (log 69). -/
def Chip.enterEnding (i : SlotId) (cause : Cause) (c : Chip) : Chip :=
  let c := (((c.modSlot i (Slot.ending cause)).abandonFetch i).slotTo i .ending)
  let c := (c.endVoice c.slots[i].voice0).endVoice c.slots[i].voice1
  let c := if cause = .normal then c else (c.ownedDrives i).foldl (fun c d => c.driveHalt d .ending) c
  c.endingTest i

/-- A cause reaches a slot in whatever state it is (R28, R31). -/
def Chip.endSlot (i : SlotId) (cause : Cause) (c : Chip) : Chip :=
  match c.slots[i].state with
  | .checking | .claiming => c.endEarly i cause
  | .timing | .waiting => c.enterEnding i cause
  | .ending | .free => c

/-- The slot ends with a failing cue index. -/
def Chip.failSlot (i : SlotId) (cause : Cause) (cue : Nat) (c : Chip) : Chip :=
  (c.modSlot i fun s => { s with failing := some cue }).endSlot i cause

/-! ## Completion (R24) -/

/-- The slot with the next cue as its current cue, its offset counting from now (R12, R24). -/
def Slot.goOn (s : Slot) : Slot :=
  { s with
    current := s.next.map fun x => ⟨x.index, x.record, false⟩
    next := none
    offset := some 0
    waitTimer := none
    cond := none }

/-- The current cue, of this record, completes; `jumps`: it is a LOOP that jumps (R24). -/
def Chip.completeCue (i : SlotId) (r : CueRec) (jumps : Bool) (c : Chip) : Chip :=
  let s := c.slots[i]
  let c := if r.note then c.hand (srcSlot i) (.sceneNote s.cueIndex s.clockMs) else c
  if !r.link && !jumps then c.enterEnding i .normal
  else (c.modSlot i Slot.goOn).slotTo i .timing

/-! ## Issue (R13, R15 to R23) -/

/-- The cue has been issued: counted, its offset stopped, the following cue's record asked for, the mirror updated (R3, R12, R13), ahead of the entry of the
lamp, channel or drive that the cue acts on, an order the spec leaves open (the model's choice: log 69). -/
def Chip.markIssued (i : SlotId) (following : Option Nat) (c : Chip) : Chip :=
  let c := c.modSlot i fun s =>
    { s with
      current := s.current.map fun x => { x with issued := true }
      offset := none
      issued := min 65535 (s.issued + 1)
      next := following.map fun k => ⟨k, none⟩ }
  let c := match following with
    | some k => c.requestFetch i (.run k)
    | none => c
  c.mirrorSlot i

/-- The cue after the current one by its LINK (R12). -/
def Slot.linked (s : Slot) (r : CueRec) : Option Nat := if r.link then some (s.cueIndex + 1) else none

/-- A LAMP cue (R15). -/
def Chip.issueLamp (i : SlotId) (r : CueRec) (l : LampId) (level fade : Nat) (c : Chip) : Chip :=
  let c := c.modSlot i fun s =>
    { s with lamps := s.lamps.map fun w => if w.lamp = l then { w with level := level, fade := fade } else w }
  let c := if c.lampOwner l == some i && !c.isHeld then c.lampCue l level fade else c
  c.completeCue i r false

/-- A SPEAK cue (R16). -/
def Chip.issueSpeak (i : SlotId) (v : Fin 2) (clip volume : Nat) (c : Chip) : Chip :=
  let c := c.waitOn i (.clipEntry v)
  match c.slots[i].voice v with
  | some ch => c.speak ch clip volume
  | none => c

/-- A HUSH cue (R17). -/
def Chip.issueHush (i : SlotId) (r : CueRec) (v : Fin 2) (fade : Nat) (c : Chip) : Chip :=
  let c := match c.slots[i].voice v with
    | some ch => c.voiceStop ch fade false
    | none => c
  c.completeCue i r false

/-- How a MARK condition stands when it is set (R21). -/
inductive MarkAnswer where
  | passed | missed | wait
deriving DecidableEq, Repr

def Chip.askMark (i : SlotId) (v : Fin 2) (m : Fin 4) (c : Chip) : MarkAnswer :=
  match c.slots[i].voice v with
  | some ch => if c.voices[ch].marks[m] then .passed else if c.voices[ch].state == .idle then .missed else .wait
  | none => .missed

/-- The MARK MISSED flag is set (R21, R26). -/
def Chip.flagMarkMissed (i : SlotId) : Chip → Chip :=
  Chip.modSlot i fun s => { s with flags := { s.flags with markMissed := true } }

/-- An input's settled level is the one awaited (R14). -/
def Chip.inputIs (t : InputId) (lv : Bool) (c : Chip) : Bool := c.trig.inputs[t].level == some lv

/-- A WAIT cue: the condition is tested, and otherwise awaited with the timer (R14, R21). -/
def Chip.issueWait (i : SlotId) (r : CueRec) (k : WaitCond) (timeout : Nat) (c : Chip) : Chip :=
  let held := (c.modSlot i fun s => { s with waitTimer := if timeout = 0 then none else some (Config.ms timeout) }).waitOn i k
  match k with
  | .mark v m =>
    match c.askMark i v m with
    | .passed => c.completeCue i r false
    | .missed => (c.flagMarkMissed i).completeCue i r false
    | .wait => held
  | .settle d => if c.driveBusy d then held else c.completeCue i r false
  | .input t lv => if c.inputIs t lv then c.completeCue i r false else held
  | .clipEntry _ | .clipEnd _ | .moveAccept _ | .moveSettle _ | .guard _ | .settleBefore _ => held

/-- The loop register a LOOP of this cue and count finds: loaded if it does not hold the cue (R23). -/
def Slot.loopCount (s : Slot) (count : Nat) : Nat := match s.loop with
  | some (k, n) => if k = s.cueIndex then n else count
  | none => count

/-- A LOOP cue (R12, R23). -/
def Chip.issueLoop (i : SlotId) (r : CueRec) (rel count : Nat) (c : Chip) : Chip :=
  let s := c.slots[i]
  match s.loopCount count with
  | 0 => ((c.modSlot i fun s => { s with loop := none }).markIssued i (s.linked r)).completeCue i r false
  | n + 1 =>
    ((c.modSlot i fun s => { s with loop := some (s.cueIndex, n) }).markIssued i (some (s.cueIndex - rel))).completeCue i r true

/-- The MOVE is handed to the drive unit: halted-move entry cleared, the condition of R19 set (R18, R19). -/
def Chip.handCueMove (i : SlotId) (cue : Nat) (r : CueRec) (d : DriveId) (k : MoveCode) (arg : Half) (c : Chip) : Chip :=
  let c := c.modSlot i fun s =>
    { s with
      halted := s.halted.filter fun h => h.drive != d
      moves := ⟨d, cue, r⟩ :: s.moves.filter fun m => m.drive != d }
  c.driveMove d ⟨k, arg, false⟩

/-- The current MOVE cue is issued, or, halted before, issued again (R18, R19, R20). Issued again it counts no second time (R18), and the mirror is updated
as at each issue (R3, R13, R205; log 57). -/
def Chip.issueMove (i : SlotId) (r : CueRec) (d : DriveId) (k : MoveCode) (arg : Half) (c : Chip) : Chip :=
  let s := c.slots[i]
  let c := if s.isIssued then c.mirrorSlot i else c.markIssued i (s.linked r)
  let c := c.waitOn i (if r.await then .moveSettle d else .moveAccept d)
  c.handCueMove i s.cueIndex r d k arg

/-- The tests before issue of the current MOVE cue (R18). -/
def Chip.moveTests (i : SlotId) (r : CueRec) (d : DriveId) (k : MoveCode) (arg : Half) (c : Chip) : Chip :=
  if c.bayGuarded (c.driveBay d) then c.waitOn i (.guard (c.driveBay d))
  else if c.driveBusy d then c.waitOn i (.settleBefore d)
  else c.issueMove i r d k arg

/-- The tests before issue of the current cue, if it is a MOVE, are made (again). -/
def Chip.retryMove (i : SlotId) (c : Chip) : Chip :=
  match c.slots[i].record with
  | some r => match r.op with
    | some (.move d k arg) => c.moveTests i r d k arg
    | _ => c
  | none => c

/-- The due cue, of this record, is issued or tested (R13, R15 to R23; log 30). -/
def Chip.issueCue (i : SlotId) (r : CueRec) (c : Chip) : Chip :=
  let following := c.slots[i].linked r
  match r.op with
  | some (.lamp l level fade) => (c.markIssued i following).issueLamp i r l level fade
  | some (.speak v clip volume) => (c.markIssued i following).issueSpeak i v clip volume
  | some (.hush v fade) => (c.markIssued i following).issueHush i r v fade
  | some (.move d k arg) => c.moveTests i r d k arg
  | some (.wait k timeout) => (c.markIssued i following).issueWait i r k timeout
  | some (.loop rel count) => c.issueLoop i r rel count
  | none => (c.markIssued i following).completeCue i r false

/-- The slot's current cue is due: its record, and its offset reached (R13). -/
def Slot.dueCue (s : Slot) : Option CueRec :=
  match s.state, s.current, s.offset with
  | .timing, some ⟨_, some r, false⟩, some e => if Config.ms r.offset.toNat ≤ e then some r else none
  | _, _, _ => none

/-- A due cue is issued on the event that makes the last of R13's conditions true. -/
def Chip.tryIssue (i : SlotId) (c : Chip) : Chip :=
  if c.isHeld then c
  else match c.slots[i].dueCue with
    | some r => c.issueCue i r
    | none => c

/-- The awaited cue completes, and the next is issued if it is due already (R13, R24). -/
def Chip.completeWait (i : SlotId) (c : Chip) : Chip :=
  match c.slots[i].record with
  | some r => (c.completeCue i r false).tryIssue i
  | none => c

/-! ## Halted moves (R20) -/

/-- The MOVE the slot last issued to the drive. -/
def Slot.moveTo (s : Slot) (d : DriveId) : Option IssuedMove := s.moves.find? fun m => m.drive == d

def Slot.haltedAt (s : Slot) (d : DriveId) : Option HaltedMove := s.halted.find? fun h => h.drive == d

/-- The slot records its move of the drive as halted (R20). -/
def Slot.recordHalt (d : DriveId) (s : Slot) : Slot :=
  match s.moveTo d with
  | some m => { s with halted := ⟨d, m.cue, false⟩ :: s.halted.filter fun h => h.drive != d }
  | none => s

/-- The entry is cleared (R20). -/
def Slot.clearHalt (d : DriveId) (s : Slot) : Slot := { s with halted := s.halted.filter fun h => h.drive != d }

/-- The halt has been answered: the entry waits for the MOVE to be issued again. -/
def Slot.answerHalt (d : DriveId) (s : Slot) : Slot :=
  { s with halted := s.halted.map fun h => if h.drive = d then { h with answered := true } else h }

/-- The halted cue is the slot's current, issued cue (R20). -/
def Slot.isCurrent (s : Slot) (cue : Nat) : Bool := match s.current with
  | some x => x.issued && x.index == cue
  | none => false

/-- A halted MOVE of a cue completed earlier is issued again once the bay is clear and the drive IDLE (R20), with an update of the mirror (log 57). -/
def Chip.tryResume (i : SlotId) (d : DriveId) (c : Chip) : Chip :=
  let s := c.slots[i]
  match s.haltedAt d, s.moveTo d with
  | some h, some m =>
    if s.runs && h.answered && !s.isCurrent h.cue && !c.bayGuarded (c.driveBay d) && c.drives[d].state == .idle then
      match m.record.op with
      | some (.move _ k arg) => (c.mirrorSlot i).handCueMove i m.cue m.record d k arg
      | _ => c
    else c
  | _, _ => c

/-- A halt of the drive's move has been answered with the motion halted, or the move was withdrawn (R20). A due MOVE that waits for this drive
goes before the halted one; a WAIT on the drive's SETTLE comes after it, and goes on waiting where the halted move is issued again at once (the model's
choice: log 48). -/
def Chip.haltAnswered (i : SlotId) (d : DriveId) (m : IssuedMove) (c : Chip) : Chip :=
  let s := c.slots[i]
  if !m.record.resume then c.failSlot i .guardAbort m.cue
  else
    let c := c.modSlot i (Slot.answerHalt d)
    if s.isCurrent m.cue then
      let c := c.waitOn i (.guard (c.driveBay d))
      if c.bayGuarded (c.driveBay d) then c else c.retryMove i
    else (if s.cond = some (.settleBefore d) ∧ c.driveBusy d = false then c.retryMove i else c).tryResume i d

/-! ## Reports of the drive unit (R19, R20, R27, R31) -/

/-- A settled report: the entry is cleared and the awaited MOVE completes (R19, R20). So does a MOVE still on MOVE ACCEPT, whose acceptance was told to
nobody because its drive took it in HALTING (R154, R158): R20 says that the move counts as settled, and that the cue completes is the model's choice
(log 48). -/
def Chip.slotSettled (i : SlotId) (d : DriveId) (c : Chip) : Chip :=
  let k := c.slots[i].cond
  let c := c.modSlot i (Slot.clearHalt d)
  if k = some (.moveSettle d) ∨ k = some (.moveAccept d) then c.completeWait i else c

/-- A report of the motion halted: by the guard if there is an entry, else as settled (R19, R20). -/
def Chip.slotHalted (i : SlotId) (d : DriveId) (c : Chip) : Chip :=
  match c.slots[i].haltedAt d, c.slots[i].moveTo d with
  | some _, some m => c.haltAnswered i d m
  | _, _ => c.slotSettled i d

/-- The slot takes the fault drive and ends (R19, R27). -/
def Chip.slotFault (i : SlotId) (d : DriveId) (s : Sense) (cause : Cause) (c : Chip) : Chip :=
  (c.modSlot i fun x => { x with fault := some (d, s) }).endSlot i cause

/-- The move was rejected (R19). -/
def Chip.slotRejected (i : SlotId) (d : DriveId) (s : Sense) (c : Chip) : Chip :=
  let c := match c.slots[i].moveTo d with
    | some m => c.modSlot i fun x => { x with failing := some m.cue }
    | none => c
  c.slotFault i d s .moveRejected

/-- A report about a drive reaches a slot in TIMING or WAITING. -/
def Chip.driveToRunning (i : SlotId) (d : DriveId) (r : DriveReport) (c : Chip) : Chip :=
  match r with
  | .accepted => if c.slots[i].cond = some (.moveAccept d) then c.completeWait i else c
  | .settled halted => if halted then c.slotHalted i d else c.slotSettled i d
  | .guardHalting => c.modSlot i (Slot.recordHalt d)
  | .halted => c.slotHalted i d
  | .withdrawn => (c.modSlot i (Slot.recordHalt d)).slotHalted i d
  | .rejected s => c.slotRejected i d s
  | .fault s => c.slotFault i d (s.getD Sense.zero) .modelFault
  | .changed => c

/-- FAULT DURING ENDING, and the fault drive if there is none yet (R31). -/
def Slot.endingFault (d : DriveId) (s : Sense) (x : Slot) : Slot :=
  { x with flags := { x.flags with faultDuring := true }, fault := if x.fault.isSome then x.fault else some (d, s) }

/-- A report about a drive reaches a slot in ENDING (R31, R32). -/
def Chip.driveToEnding (i : SlotId) (d : DriveId) (r : DriveReport) (c : Chip) : Chip :=
  let c := match r with
    | .rejected s => c.modSlot i (Slot.endingFault d s)
    | .fault s => c.modSlot i (Slot.endingFault d (s.getD Sense.zero))
    | .accepted | .settled _ | .halted | .withdrawn | .guardHalting | .changed => c
  c.endingTest i

/-- A report of the drive unit reaches a slot (R158). -/
def Chip.driveToSlot (i : SlotId) (d : DriveId) (r : DriveReport) (c : Chip) : Chip :=
  match c.slots[i].state with
  | .timing | .waiting => c.driveToRunning i d r
  | .ending => c.driveToEnding i d r
  | .free | .checking | .claiming => c

/-- A slot learns of a change of a drive's state (R14, R20, R158). -/
def Chip.driveStateToSlot (d : DriveId) (i : SlotId) (c : Chip) : Chip :=
  let k := c.slots[i].cond
  let c :=
    if c.driveBusy d then c
    else if k = some (.settleBefore d) then c.retryMove i
    else if k = some (.settle d) then c.completeWait i
    else c
  c.tryResume i d

/-- A slot learns of a change of a bay's guarded state (R14, R20, R160). Several halted MOVEs that wait for the bay are issued again by rising slot and, in a
slot, by rising drive, an order R20 leaves open (the model's choice: log 54). -/
def Chip.bayToSlot (b : BayId) (i : SlotId) (c : Chip) : Chip :=
  if c.bayGuarded b then c
  else
    let c := if c.slots[i].cond = some (.guard b) then c.retryMove i else c
    forAll 24 (fun d c => if c.driveBay d == b then c.tryResume i d else c) c

/-! ## Reports of the narration unit (R16, R21, R26, R31) -/

/-- The directory read of the slot's SPEAK was answered with a valid entry (R16). -/
def Chip.clipStarted (i : SlotId) (v : Fin 2) (c : Chip) : Chip :=
  match c.slots[i].record with
  | some r => if r.await then c.waitOn i (.clipEnd v) else c.completeWait i
  | none => c

/-- A report about the channel at voice index `v` reaches a slot in TIMING or WAITING; `cond` is what the slot waits on. -/
def Chip.voiceToRunning (i : SlotId) (v : Fin 2) (r : VoiceReport) (c : Chip) : Chip :=
  match r, c.slots[i].cond with
  | .started, some (.clipEntry w) => if w = v then c.clipStarted i v else c
  | .missing, some (.clipEntry w) => if w = v then c.failSlot i .clipMissing c.slots[i].cueIndex else c
  | .idle _, some (.clipEnd w) => if w = v then c.completeWait i else c
  | .idle _, some (.mark w _) => if w = v then (c.flagMarkMissed i).completeWait i else c
  | .mark m, some (.mark w k) => if w = v ∧ k = m then c.completeWait i else c
  | _, _ => c

/-- NARRATION UNDERRUN (R26). -/
def Chip.flagUnderrun (i : SlotId) : Chip → Chip :=
  Chip.modSlot i fun s => { s with flags := { s.flags with underrun := true } }

/-- A report of the narration unit reaches a slot. -/
def Chip.voiceToSlot (i : SlotId) (v : VoiceId) (r : VoiceReport) (c : Chip) : Chip :=
  match c.slots[i].voiceIndex v with
  | none => c
  | some w =>
    let c := if r = .underrun then c.flagUnderrun i else c
    match c.slots[i].state with
    | .timing | .waiting => c.voiceToRunning i w r
    | .ending => c.endingTest i
    | .free | .checking | .claiming => c

/-- A slot learns of an input's settled level (R14). -/
def Chip.inputToSlot (t : InputId) (i : SlotId) (c : Chip) : Chip :=
  match c.slots[i].cond with
  | some (.input u lv) => if u = t && c.inputIs t lv then c.completeWait i else c
  | _ => c

/-! ## Timers (R22, R25) -/

/-- The wait timer has expired (R22). -/
def Chip.waitExpired (i : SlotId) (c : Chip) : Chip :=
  match c.slots[i].record with
  | some r =>
    if r.strict then c.failSlot i .waitTimeout c.slots[i].cueIndex
    else (c.modSlot i fun s => { s with flags := { s.flags with waitExpired := true } }).completeWait i
  | none => c

/-! ## Admission, definition and cues as read (R5, R6, R7, R8, R12) -/

/-- The slot as the queue's head enters it (R5). -/
def Slot.admitOne (e : QueueEntry) : Slot :=
  { Slot.free with state := .checking, scene := e.scene.val, origin := some e.origin, admissionBay := some e.bay }

/-- Address of a scene's definition. -/
def Chip.sceneAddr (n : Nat) (c : Chip) : Nat := c.base rScenes + 32 * n

/-- Address of a cue record by its index in the cue store. -/
def Chip.cueAddr (n : Nat) (c : Chip) : Nat := c.base rCues + 16 * n

/-- The queue's head takes a slot (R5, R6). The queue's new depth is mirrored before the slot, an order the spec leaves open (the model's choice: log 69). -/
def Chip.admitOne (i : SlotId) (e : QueueEntry) (c : Chip) : Chip :=
  let a := c.sceneAddr e.scene.val
  let c := (c.modTrig fun u => { u with queue := u.queue.tail }).mirrorDevice
  let c := (c.modSlot i fun _ => Slot.admitOne e).modPort fun p => { p with sceneSpan := updAt p.sceneSpan i fun _ => some ⟨a, a + 31⟩ }
  (c.requestFetch i .definition).mirrorSlot i

/-- Admissions take place as long as the device is LIVE, a slot is FREE and the queue is not empty (R5). The number bounds them. -/
def Chip.admitAll : Nat → Chip → Chip
  | 0, c => c
  | n + 1, c =>
    match c.trig.queue, (List.finRange 12).find? fun i => c.slots[i].state == .free with
    | e :: _, some i => if c.isLive then Chip.admitAll n (c.admitOne i e) else c
    | _, _ => c

/-- The definition read returns: `d` is the copy, if it passes (R6). -/
def Chip.definitionReturn (i : SlotId) (d : Option SceneDef) (c : Chip) : Chip :=
  match d with
  | none => c.endEarly i .sceneUndefined
  | some d =>
    let a := c.cueAddr d.firstCue
    let c := c.modSlot i fun s => { s with defn := some d, checkLoops := [] }
    let c := c.modPort fun p => { p with cueSpan := updAt p.cueSpan i fun _ => some ⟨a, a + 16 * d.cueCount - 1⟩ }
    c.requestFetch i (.check 0)

/-- The record is a LOOP (R7). -/
def CueRec.isLoop (r : CueRec) : Bool := match r.op with
  | some (.loop _ _) => true
  | _ => false

/-- A record of the cue check returns (R7, R8). -/
def Chip.checkReturn (i : SlotId) (k : Nat) (r : CueRec) (c : Chip) : Chip :=
  match c.slots[i].defn with
  | none => c
  | some d =>
    if cuePasses d k c.slots[i].checkLoops r then
      if k + 1 = d.cueCount then c.enterClaiming i
      else (c.modSlot i fun s => { s with checkLoops := if r.isLoop then k :: s.checkLoops else s.checkLoops }).requestFetch i (.check (k + 1))
    else c.failSlot i .sceneInvalid k

/-- A record fetched during the run: the current cue's if that one still waits for it, else the next cue's (R12). -/
def Slot.recordArrives (k : Nat) (r : CueRec) (s : Slot) : Slot :=
  match s.current with
  | some ⟨j, none, b⟩ => if j = k then { s with current := some ⟨j, some r, b⟩ } else s
  | _ => { s with next := s.next.map fun x => if x.index = k then { x with record := some r } else x }

/-- The record arrives; a cue already due is issued (R12, R13). -/
def Chip.recordReturn (i : SlotId) (k : Nat) (r : CueRec) (c : Chip) : Chip := (c.modSlot i (Slot.recordArrives k r)).tryIssue i

/-- Address of the record at a cue index of the slot's scene. -/
def Chip.slotCueAddr (i : SlotId) (k : Nat) (c : Chip) : Nat :=
  match c.slots[i].defn with
  | some d => c.cueAddr (d.firstCue + k)
  | none => c.cueAddr k

end Sys2Proof.Machine
end

