-- ==== Sys2Proof/Machine/Arbiter.lean ====
section
/-!
DEFINITION. The memory arbiter (R181, R182, R183) and the region decoder and fence as a host write meets them (R184, R185, R186).
-/

namespace Sys2Proof.Machine

/-! ## Who waits -/

/-- The channel's clip fetch waits, urgent or not. -/
def Chip.clipWaits (urgent : Bool) (c : Chip) (v : VoiceId) : Bool := c.voices[v].requests && c.voices[v].urgent == urgent

/-- The slot's fetch, or the trigger unit's offer read, waits. -/
def Chip.cueWaits (c : Chip) (k : Fin 13) : Bool :=
  match finOf? 12 k.val with
  | some i => c.fetch[i].cur.isSome
  | none => !c.trig.offers.isEmpty || c.trig.staleRead

/-- The grants each table takes, of 8 words each (R180). -/
def tableGrants : LoadTable → Nat
  | .trigger => 16 | .bay => 2 | .lampHouse => 12 | .drive => 6

/-- The grants the loader has made of a table. -/
def Loader.made (l : Loader) : LoadTable → Nat
  | .trigger => l.trigger | .bay => l.bay | .lampHouse => l.lamp | .drive => l.drive

/-- The table is still being read; the lamp house table follows the bay table (R77, R180). -/
def Loader.wants (l : Loader) (t : LoadTable) : Bool :=
  l.phase == .tables && l.made t < tableGrants t && (t != .lampHouse || l.bay == tableGrants .bay)

/-- The request unit may take the record at its consume index (R195); none after a RESET SHOW until LIVE (R201). -/
def Chip.mayTake (c : Chip) : Bool :=
  c.running && !c.port.resetDrain && !c.req.resetWait && !c.req.inHand && !c.req.indexRead && c.req.produce != c.req.consume
  && c.port.requestBacklog.isEmpty

/-- A loader fetch waits: of the loader, or, outside LOADING, of the request unit (R181, R194, R195). -/
def Chip.loaderWaits (c : Chip) : Bool :=
  c.loader.phase == .header || c.loader.wants .trigger || c.loader.wants .bay || c.loader.wants .lampHouse || c.loader.wants .drive
  || c.req.indexRead || c.mayTake

/-- A host read is held on a pending posting (R190). -/
def HostCycle.isHeld : HostCycle → Bool
  | .read _ (some k) => 0 < k
  | .read _ none => false
  | .write _ _ _ => false

/-- The host cycle asks for the bus: a held read does so from the moment the last posting it waits for has landed (R190). -/
def HostCycle.asks (h : HostCycle) : Bool := !h.isHeld

def Port.hostAsks (p : Port) : Bool := match p.host with
  | some h => h.asks
  | none => false

def Port.readHeld (p : Port) : Bool := match p.host with
  | some h => h.isHeld
  | none => false

/-- The drain is pressed (R181). -/
def Port.pressed (p : Port) : Bool := p.posts.length == Config.postingCap || p.readHeld || p.resetDrain

/-! ## The choice (R182, R183) -/

/-- The first waiting channel of a clip class. -/
def Chip.clipChoice (urgent : Bool) (c : Chip) : Option Requester := (roundRobin c.port.clipPtr (c.clipWaits urgent)).map .clip

/-- The choice among classes 4 to 7. -/
def Chip.lowChoice (c : Chip) : Option Requester :=
  (c.clipChoice false).or (((roundRobin c.port.cuePtr c.cueWaits).map .cue).or
    (if c.loaderWaits then some .loader
     else if !c.port.posts.isEmpty && !c.port.pressed then some .drain
     else none))

/-- Whom the arbiter grants the free bus now. While the RESET line is asserted nobody asks (R176, R191). -/
def Chip.choice (c : Chip) : Option Requester :=
  if c.port.resetLine then none
  else (c.clipChoice true).or (
    if !c.port.posts.isEmpty && c.port.pressed then some .drain
    else if c.port.hostAsks && !(c.port.hostCount == Config.hostRun && c.lowChoice.isSome) then some .host
    else c.lowChoice)

/-- The bus is granted: the pointers and the count move at this moment, by who waits now (R182, R183). -/
def Chip.grantBus (r : Requester) (c : Chip) : Chip :=
  let count := if c.lowChoice.isSome then min Config.hostRun (c.port.hostCount + 1) else 0
  c.modPort fun p =>
    match r with
    | .clip v => { p with bus := some r, clipPtr := v, hostCount := 0 }
    | .cue k => { p with bus := some r, cuePtr := k, hostCount := 0 }
    | .host => { p with bus := some r, hostCount := count }
    | .drain | .loader => { p with bus := some r, hostCount := 0 }

/-- The requester's memory cycle is over, and the bus free again: it was granted the bus before, or is granted it now. -/
def Chip.granted (r : Requester) (c : Chip) : Chip :=
  (if c.port.bus = some r then c else c.grantBus r).modPort fun p => { p with bus := none }

/-- The requester waits for the bus. -/
def Chip.waits (c : Chip) : Requester → Bool
  | .clip v => c.voices[v].requests
  | .drain => !c.port.posts.isEmpty
  | .host => c.port.hostAsks
  | .cue k => c.cueWaits k
  | .loader => c.loaderWaits

/-- It is the requester's turn: it was granted the bus and its cycle runs, or the bus is free and the arbiter grants it now. A granted transfer runs to
its end before another is chosen (R181; log 5). -/
def Chip.turn (r : Requester) (c : Chip) : Bool :=
  !c.port.resetLine && (c.port.bus == some r || (c.port.bus.isNone && c.choice == some r))

/-- The transfer of a requester is made, if it is its turn; else nothing happens (log 3, log 5). -/
def Chip.onGrant (r : Requester) (f : Chip → Chip) (c : Chip) : Chip := if c.turn r then f (c.granted r) else c

/-- The host cycle is a write. -/
def Port.hostWrites (p : Port) : Bool := match p.host with
  | some (.write _ _ _) => true
  | _ => false

/-- The requester a free bus goes to. A host write is judged at its grant and made at once (R175; log 6), so that it never holds the bus over a step. -/
def Chip.chosen (c : Chip) : Option Requester :=
  if c.choice = some .host ∧ c.port.hostWrites = true then none else c.choice

/-- The requester that has the bus and still waits keeps it. -/
def Chip.busKept (c : Chip) : Bool := match c.port.bus with
  | some r => c.waits r
  | none => false

/-- A free bus is granted, and a granted one kept (R181). -/
def Chip.arbitrate (c : Chip) : Chip :=
  if c.busKept then c
  else match c.chosen with
    | some r => c.grantBus r
    | none => c.modPort fun p => { p with bus := none }

/-! ## The fence (R185, R186) -/

/-- A span holds a byte of the word. -/
def Span.touches (w : Nat) (x : Span) : Bool := (List.range 4).any fun k => x.first ≤ 4 * w + k && 4 * w + k ≤ x.last

/-- Every installed span. -/
def Port.spans (p : Port) : List Span :=
  p.sceneSpan.toList.filterMap id ++ p.cueSpan.toList.filterMap id ++ p.clipSpan.toList.filterMap id

/-- The word lies within an installed span (R186). -/
def Port.fenced (p : Port) (w : Nat) : Bool := p.spans.any (Span.touches w)

/-- A fenced write at the port (R186). -/
def Port.countFenced (w : Nat) (p : Port) : Port :=
  match p.fencedFirst with
  | none => { p with fencedFirst := some (4 * w), fencedCount := 1 }
  | some _ => { p with fencedCount := min 65535 (p.fencedCount + 1) }

/-- The fenced-write record is cleared (R186). -/
def Port.clearFenced (p : Port) : Port := { p with fencedFirst := none, fencedCount := 0 }

/-- A fenced host write: acknowledged, counted, reported (R186). -/
def Chip.fencedWrite (w : Nat) (c : Chip) : Chip :=
  let c := c.modPort (Port.countFenced w)
  c.hand srcDevice (.fencedWrite (c.port.fencedFirst.getD 0) c.port.fencedCount)

/-- The lamp whose house entry the word is (R79, R184). -/
def Chip.lampOfWord (w : Nat) (c : Chip) : Option LampId :=
  if c.regionLen rLampHouse = 0 || w < c.base rLampHouse / 4 then none else finOf? 96 (w - c.base rLampHouse / 4)

/-- The word is word `k` of the control block (R184). -/
def Chip.isControl (k w : Nat) (c : Chip) : Bool := c.port.decoder.isSome && w == c.controlWord k

end Sys2Proof.Machine
end

