-- ==== Sys2Proof/Machine/Holds.lean ====
section
/-!
DEFINITION. Hold control (08): the causes, entry to HELD and leaving it with what every block does, the STOP line.
-/

namespace Sys2Proof.Machine

/-- The MODE CHANGE notice of the mode as it stands (R174). -/
def Chip.handModeChange (c : Chip) : Chip := c.hand srcDevice (.modeChange c.port.mode c.hold.causes c.hold.level)

/-- Every bay's guarded state is worked out anew. Where many bays become guarded at once, their drives are halted by rising bay and, in a bay, by rising drive
number, an order R160, R163 and R171 leave open (the model's choice: log 54). -/
def Chip.allBays (c : Chip) : Chip := forAll 16 Chip.bayWork c

/-- The device enters HELD, and every block takes the entry (R171, R62, R91, R112, R163). The order of the blocks, which
shows in the order of the postings alone (R171), is the model's choice (log 54). -/
def Chip.enterHeld (c : Chip) : Chip :=
  let c := ((c.modPort fun p => { p with mode := .held }).handModeChange).mirrorDevice
  let c := forAll 8 Chip.voiceEnterHeld c.lampsEnterHeld
  (forAll 32 Chip.stopDwelling c).allBays

/-- The device leaves HELD, and every block takes the leaving (R172, R61, R93, R113, R163, R13). Due cues are issued by rising slot, and all of them before a
MOVE that waits for a bay is taken up again, by rising bay, slot and drive: an order R13, R20 and R172 leave open (the model's choice: log 54). -/
def Chip.leaveHeld (c : Chip) : Chip :=
  let c := ((c.modPort fun p => { p with mode := .live }).handModeChange).mirrorDevice
  let c := forAll 8 Chip.voiceLeaveHeld c.lampsLeaveHeld
  forAll 12 Chip.tryIssue (forAll 32 Chip.timeAnew c).allBays

/-- The two causes take new values; with the first the device enters HELD, with the last gone it leaves (R166, R167 to R170). -/
def Chip.setCauses (line : LineCause) (request : Bool) (c : Chip) : Chip :=
  if c.hold.line = line ∧ c.hold.request = request then c
  else
    let c := c.modHold fun h => { h with line := line, request := request }
    let present := line != .absent || request
    if present && c.isLive then c.enterHeld
    else if !present && c.isHeld then c.leaveHeld
    else c.mirrorDevice

/-- The LINE cause as the settled level forms or clears it, in LIVE or HELD (R167, R168). A line that settles active in step 8 of a RESET SHOW forms it too,
and the device is HELD until step 9, where R173 has the port show LIVE (the model's choice: log 56). -/
def Chip.lineSettled (active : Bool) (c : Chip) : Chip :=
  if !c.running then c
  else if active then c.setCauses .settled true
  else c.setCauses .absent c.hold.request

/-- The raw level changes: the filter times it anew (R165). -/
def Hold.rawChange (high : Bool) (h : Hold) : Hold :=
  if h.raw = high then h
  else { h with raw := high, filter := if h.settled = some high then none else some Config.stopFilter }

/-- The filter takes the raw level (R165). -/
def Chip.stopSettles (c : Chip) : Chip :=
  let high := c.hold.raw
  (c.modHold fun h => { h with settled := some high, filter := none }).lineSettled !high

/-- The LINE cause at the entry to LIVE from LOADING (R167). -/
def Chip.lineAtLive (c : Chip) : Chip :=
  match c.hold.level with
  | some true => c.setCauses .settled true
  | some false => c
  | none => c.setCauses .unsettled c.hold.request

end Sys2Proof.Machine
end

