-- ==== Sys2Proof/Machine/Requests.lean ====
section
/-!
DEFINITION. The request unit (R193 to R200), the admission offers (R63 to R67), the requests' effects (R161, R169, R170, R197 to R199) and the
notice drain (R203).
-/

namespace Sys2Proof.Machine

/-! ## Taking and answering (R195, R196, R208) -/

/-- Address of the record at the consume index. -/
def Chip.recordAddr (c : Chip) : Nat := c.base rRequests + 16 * c.req.consume

/-- The record at the consume index. -/
def Chip.recordNow (m : Memory) (c : Chip) : Request := parseRequest m c.recordAddr

/-- The reply word (section 11.2). -/
def replyWord (r : Reply) (detail : Nat) : Word := Word.ofNats r.code 0 (lo8 detail) (hi8 detail)

/-- The reply word and then the advanced consume index are posted (R195). -/
def Chip.answer (r : Reply) (detail : Nat) (c : Chip) : Chip :=
  let next := (c.req.consume + 1) % 32
  let c := c.postRequest (c.recordAddr / 4 + 3) (replyWord r detail)
  (c.postRequest (c.controlWord 1) (BitVec.ofNat 32 next)).modReq fun q => { q with consume := next, inHand := false }

/-- The record is read in the loader class, and performed if it is of the row's kind (R195; log 12). -/
def Chip.take (m : Memory) (fits : Request → Bool) (f : Request → Chip → Chip) (c : Chip) : Chip :=
  if c.mayTake && fits (c.recordNow m) then c.onGrant .loader (f (c.recordNow m)) else c

/-! ## Offers (R63 to R67) -/

/-- The scene has an instance in the queue, or in a slot of such a state (R64). -/
def Chip.sceneIn (scene : Fin 64) (p : SlotState → Bool) (c : Chip) : Bool :=
  c.trig.queue.any (fun e => e.scene == scene) || c.slots.toList.any fun s => s.scene == scene.val && p s.state

/-- Not FREE. -/
def SlotState.taken : SlotState → Bool
  | .free => false | .checking => true | .claiming => true | .timing => true | .waiting => true | .ending => true

/-- CHECKING or CLAIMING. -/
def SlotState.early : SlotState → Bool
  | .checking => true | .claiming => true | .free => false | .timing => false | .waiting => false | .ending => false

/-- TIMING or WAITING. -/
def SlotState.late : SlotState → Bool
  | .timing => true | .waiting => true | .free => false | .checking => false | .claiming => false | .ending => false

/-- The policy refuses the offer (R64). -/
def Chip.policyRefuses (scene : Fin 64) (p : Policy) (c : Chip) : Bool :=
  match p with
  | .ignore => c.sceneIn scene SlotState.taken
  | .queueOne => c.sceneIn scene SlotState.early
  | .restart => false

/-- Entries the queue would still hold (R64). -/
def Chip.queueAfter (scene : Fin 64) (p : Policy) (c : Chip) : Nat :=
  if p = .restart then (c.trig.queue.filter fun e => e.scene != scene).length else c.trig.queue.length

/-- Why the offer is refused, if it is (R64). -/
def Chip.refusal (scene : Fin 64) (r : RawScene) (c : Chip) : Option Dropped :=
  if !r.valid then some .undefinedScene
  else if c.policyRefuses scene (policyOfCode r.policy) then some .ignored
  else if Config.queueCap ≤ c.queueAfter scene (policyOfCode r.policy) then some .queueFull
  else none

/-- Slots of the scene in such a state end as RESTARTED (R65), by rising slot number, an order R65 leaves open (the model's choice: log 54). -/
def Chip.restartSlots (scene : Fin 64) (p : SlotState → Bool) (c : Chip) : Chip :=
  forAll 12 (fun i c => if c.slots[i].scene == scene.val && p c.slots[i].state then c.endSlot i .restarted else c) c

/-- An accepted RESTART offer ends every instance in flight, queue first (R65). -/
def Chip.restart (scene : Fin 64) (c : Chip) : Chip :=
  ((c.removeEntries fun e => e.scene == scene).restartSlots scene SlotState.early).restartSlots scene SlotState.late

/-- The offer is accepted: the removals of a RESTART, then the new entry (R64, R65, R68). -/
def Chip.acceptOffer (o : Offer) (r : RawScene) (c : Chip) : Chip :=
  (if policyOfCode r.policy = .restart then c.restart o.scene else c).appendEntry o.scene o.origin r.bay r.cooldown

/-- A refusal reaches a START input (R66). -/
def Chip.inputRefused (t : InputId) (scene : Fin 64) (why : Dropped) (c : Chip) : Chip :=
  let c :=
    if c.trig.inputs[t].disarmPending then (c.modInput t fun x => { x with disarmPending := false }).enterInput t .disarmed else c
  c.hand (srcInput t) (.triggerDropped t scene.val why)

/-- The verdict reaches the offer's origin (R66, R67). -/
def Chip.verdict (o : Offer) (why : Option Dropped) (seq : BitVec 16) (c : Chip) : Chip :=
  match o.origin, why with
  | .trigger t, none => (c.modInput t fun x => { x with offerOut := false }).enterInput t .spent
  | .trigger t, some w => (c.modInput t fun x => { x with offerOut := false }).inputRefused t o.scene w
  | .request _, none => c.answer .accepted seq.toNat
  | .request _, some w => c.answer w.reply 0

/-- The offer is judged against the definition as read (R64). The queue's new depth is mirrored before the input of an accepted offer is SPENT, an order the
spec leaves open (the model's choice: log 69). -/
def Chip.judge (o : Offer) (r : RawScene) (c : Chip) : Chip :=
  let why := c.refusal o.scene r
  let seq := c.trig.seq
  let c := if why.isNone then c.acceptOffer o r else c
  c.verdict o why seq

/-- The trigger unit's read returns: a discarded offer's is dropped, else the first offer is judged (R63). -/
def Chip.offerReturn (m : Memory) (c : Chip) : Chip :=
  if c.trig.staleRead then c.modTrig fun u => { u with staleRead := false }
  else match c.trig.offers with
    | [] => c
    | o :: os => (c.modTrig fun u => { u with offers := os }).judge o (parseScene m (c.sceneAddr o.scene.val))

/-- START SCENE (R197). -/
def Chip.startSceneRequest (r : Request) (c : Chip) : Chip :=
  match finOf? 64 r.arg1.toNat with
  | some scene =>
    (c.modReq fun q => { q with inHand := true }).modTrig fun u => { u with offers := u.offers ++ [⟨scene, .request r.tag⟩] }
  | none => c.answer .badArgument 0

/-! ## Stops (R69, R198) -/

/-- The bay the slot's instance answers to (R198). -/
def Slot.bay (s : Slot) : Option Nat := match s.defn with
  | some d => some d.bay.val
  | none => s.admissionBay

/-- One slot of a stop: ended and counted if it matches (R198). -/
def stopSlot (p : Slot → Bool) (i : SlotId) (x : Nat × Chip) : Nat × Chip :=
  let s := x.2.slots[i]
  if p s && (s.state.early || s.state.late) then (x.1 + 1, x.2.endSlot i .stopped) else x

/-- A stop: queue entries first, then slots in order; the reply counts both (R198). -/
def Chip.stop (q : QueueEntry → Bool) (p : Slot → Bool) (c : Chip) : Chip :=
  let removed := (c.trig.queue.filter q).length
  let r := (List.finRange 12).foldl (fun x i => stopSlot p i x) (0, c.removeEntries q)
  if removed + r.1 = 0 then r.2.answer .notFound 0 else r.2.answer .done (removed + r.1)

/-- STOP SCENE (R198). -/
def Chip.stopSceneRequest (r : Request) (c : Chip) : Chip :=
  let n := r.arg1.toNat
  if 63 < n then c.answer .badArgument 0 else c.stop (fun e => e.scene.val == n) fun s => s.scene == n

/-- STOP BAY (R198). -/
def Chip.stopBayRequest (r : Request) (c : Chip) : Chip :=
  let n := r.arg1.toNat
  if 15 < n then c.answer .badArgument 0 else c.stop (fun e => e.bay == n) fun s => s.bay == some n

/-! ## Hold, guard, triggers (R72, R73, R169, R170, R199) -/

/-- HOLD (R169). The reply is posted before the slots are told of the bays' change and the bays are mirrored (the model's choice: log 71). -/
def Chip.holdRequest (c : Chip) : Chip :=
  let c := c.setCauses c.hold.line true
  c.answer .done c.hold.causes.bits

/-- RELEASE (R170). The reply is posted before the slots are told of the bays' change and the bays are mirrored (the model's choice: log 71). -/
def Chip.releaseRequest (c : Chip) : Chip :=
  if c.hold.line != .absent then c.answer .lineActive c.hold.causes.bits
  else
    let c := c.setCauses .absent false
    c.answer .done c.hold.causes.bits

/-- The detail of a GUARD BAY reply (section 11.2). -/
def Bay.detail (b : Bay) : Nat := bitNat b.guarded 0 + 2 * b.causeBits

/-- GUARD BAY with its code, `none` where it is neither SET nor CLEAR (R199). The halts come before the reply; the slots are told and the bay is mirrored after
it (the model's choice: log 71). -/
def Chip.guardBayRequest (r : Request) (code : Option Bool) (c : Chip) : Chip :=
  match finOf? 16 r.arg1.toNat, code with
  | some b, some on =>
    let c := (c.modBay b fun x => { x with hostGuard := on }).bayWork b
    c.answer .done c.bays[b].detail
  | _, _ => c.answer .badArgument 0

/-- The detail of an ARM or DISARM reply (section 11.2). -/
def Input.detail (t : Input) : Nat := t.code + bitNat t.disarmPending 8

/-- ARM or DISARM TRIGGER, `f` what it does to a START input (R72, R73, R199). -/
def Chip.armRequest (r : Request) (f : InputId → Chip → Chip) (c : Chip) : Chip :=
  match finOf? 32 r.arg1.toNat with
  | some t =>
    if c.trig.inputs[t].entry.role == .start then
      let c := f t c
      c.answer .done c.trig.inputs[t].detail
    else c.answer .badArgument 0
  | none => c.answer .badArgument 0

/-! ## Drive service (R161) -/

/-- The three service codes. -/
inductive ServiceCode where
  | home | sense | clear
deriving DecidableEq, Repr

/-- Judgement 5 of R161: the command does not fit the drive. -/
def Drive.misfit (k : ServiceCode) (x : Drive) : Bool :=
  (match k with
    | .home => x.state != .idle
    | .sense => false
    | .clear => x.state != .idle && x.state != .faulted)
  || x.service.isSome || x.move.isSome

/-- Detail of a refusal by judgements 2 to 4: the state of a drive that is neither IDLE nor FAULTED (R199). -/
def Drive.refusalDetail (x : Drive) : Nat := if x.state == .idle || x.state == .faulted then 0 else x.state.code

/-- The judgement of a service command: the reply and its detail (R161). -/
def Chip.judgeService (d : DriveId) (k : ServiceCode) (c : Chip) : Reply × Nat :=
  let x := c.drives[d]
  if (c.driveOwner d).isSome then (.owned, x.refusalDetail)
  else if x.state == .offline then (.offline, x.refusalDetail)
  else if k = .home ∧ c.bayGuarded x.entry.bay then (.guarded, x.refusalDetail)
  else if x.misfit k then (.badArgument, x.state.code)
  else (.queued, 0)

/-- A SENSE or CLEAR begins: the service window opens and the command is handed (R161). -/
def Chip.startService (d : DriveId) (k : ServiceCmd) (c : Chip) : Chip :=
  (c.modDrive d fun x => { x.openWindow with service := some k, retry := none }).handService d

/-- A command judged QUEUED is carried (R161). -/
def Chip.carryService (d : DriveId) (k : ServiceCode) (arg : Half) (c : Chip) : Chip :=
  match k with
  | .home => c.driveMove d ⟨.home, arg, true⟩
  | .sense => c.startService d .sense
  | .clear => c.startService d .clear

/-- DRIVE SERVICE with its code, `none` where it is none of the three (R161, R199). -/
def Chip.serviceRequest (r : Request) (code : Option ServiceCode) (c : Chip) : Chip :=
  match finOf? 24 r.arg1.toNat, code with
  | some d, some k =>
    let j := c.judgeService d k
    (if j.1 = .queued then c.carryService d k r.arg3 else c).answer j.1 j.2
  | _, _ => c.answer .badArgument 0

/-! ## RESET SHOW (R200, R201) -/

/-- Slots not FREE plus the queue depth (R200). -/
def Chip.showLoad (c : Chip) : Nat := (c.slots.toList.filter fun s => s.state != .free).length + c.trig.queue.length

/-- Steps 2 to 6 of a RESET SHOW. -/
def Chip.clearShow (c : Chip) : Chip :=
  { c with
    links := mapAll Link.beginReset c.links
    drives := mapAll Drive.resetShow c.drives
    slots := Vector.replicate 12 .free
    fetch := mapAll (fun f => ⟨f.cur.map fun x => (x.1, true), none⟩) c.fetch
    claims := .empty
    voices := mapAll Channel.resetShow c.voices
    lamp := { c.lamp with lamps := mapAll Lamp.resetShow c.lamp.lamps }
    trig := c.trig.resetShow
    port := { c.port with
      sceneSpan := Vector.replicate 12 none
      cueSpan := Vector.replicate 12 none
      clipSpan := Vector.replicate 8 none } }

/-- The mirror words of `c` that differ from those of `old`, in map order (log 69). -/
def mirrorChanges (old c : Chip) : List MirrorWord :=
  (c.mirrorImage.zip old.mirrorImage).filterMap fun x => if x.1 = x.2 then none else some x.1

/-- The notice unit creates no posting from step 7 of a RESET SHOW on: what still waits for room, an update of steps 2 to 6, is dropped (R201; log 27). -/
def Port.dropNotices (p : Port) : Port := { p with noticeBacklog := [], waiting := p.waiting.filter (· != .noticeUnit) }

/-- Step 7 of a RESET SHOW (R192, R164, R173). -/
def Chip.clearReports (c : Chip) : Chip :=
  { c with
    notice := { c.notice with sources := Vector.replicate 77 none }
    port := { c.port.clearFenced.dropNotices with mode := if c.isHeld then .live else c.port.mode, resetDrain := true }
    bays := mapAll (fun b => { b with hostGuard := false, host := false, hold := false, guarded := b.input }) c.bays
    hold := { c.hold with line := .absent, request := false } }

/-- Steps 2 to 7 of a RESET SHOW, taken as one (R201; log 27). -/
def Chip.resetNow (c : Chip) : Chip :=
  let c := c.modReq fun q => { q with resetWait := false }
  let d := c.clearShow
  (d.mirrorAll (mirrorChanges c d)).clearReports

/-- Steps 2 to 7 follow once every posting made before them has been created: those of step 1, and those of a notice taken for the ring (R201, R203). -/
def Chip.resetDue (c : Chip) : Chip :=
  if c.req.resetWait && c.port.noticeBacklog.isEmpty && c.port.requestBacklog.isEmpty then c.resetNow else c

/-- A RESET SHOW that is carried out: step 1, and steps 2 to 7 if nothing waits for room in the posting buffer (R201). -/
def Chip.resetShow (c : Chip) : Chip := ((c.answer .done 0).modReq fun q => { q with resetWait := true }).resetDue

/-- RESET SHOW (R200). -/
def Chip.resetShowRequest (r : Request) (c : Chip) : Chip :=
  if c.showLoad ≠ 0 ∧ !r.flags.getLsbD 0 then c.answer .busy c.showLoad else c.resetShow

/-! ## Index captures (R193, R194) -/

/-- A candidate of the request produce index: taken if it is in range, else BAD INDEX. -/
def Chip.produceCandidate (w : Word) (c : Chip) : Chip :=
  if w.toNat < 32 then c.modReq fun q => { q with produce := w.toNat } else c.hand srcDevice (.badIndex 0 w)

/-- A captured write of the request produce index, kept back while the index read is outstanding (R193, R194). -/
def Chip.produceCapture (data : Word) (be : Enables) (c : Chip) : Chip :=
  if c.req.indexRead then c.modReq fun q => { q with captures := q.captures ++ [(data, be)] }
  else c.produceCandidate (Word.merge (BitVec.ofNat 32 c.req.produce) data be)

/-- A captured write of the notice consume index (R193). -/
def Chip.consumeCapture (data : Word) (be : Enables) (c : Chip) : Chip :=
  let w := Word.merge (BitVec.ofNat 32 c.notice.consume) data be
  if w.toNat < 64 then c.modNotice fun n => { n with consume := w.toNat } else c.hand srcDevice (.badIndex 3 w)

/-- The consume index as the read at the entry to LIVE gives it (R194). -/
def Chip.consumeRead (w : Word) (c : Chip) : Chip :=
  if c.req.keepConsume then c
  else if w.toNat < 32 then c.modReq fun q => { q with consume := w.toNat }
  else ((c.modReq fun q => { q with consume := 0 }).postRequest (c.controlWord 1) 0#32).hand srcDevice (.badIndex 1 w)

/-- The produce copy as that read gives it (R194). -/
def Chip.produceRead (w : Word) (c : Chip) : Chip :=
  if w.toNat < 32 then c.modReq fun q => { q with produce := w.toNat }
  else (c.modReq fun q => { q with produce := q.consume }).hand srcDevice (.badIndex 0 w)

/-- The index read returns; the captures kept back are applied after it (R194). -/
def Chip.indexReturn (m : Memory) (c : Chip) : Chip :=
  let late := c.req.captures
  let c := (c.consumeRead (m.word (c.controlWord 1))).produceRead (m.word (c.controlWord 0))
  let c := c.modReq fun q => { q with indexRead := false, captures := [], keepConsume := false }
  late.foldl (fun c x => c.produceCapture x.1 x.2) c

/-! ## The notice drain (R203) -/

/-- The notice unit may drain: LIVE or HELD, the ring not full, and none of its postings waiting for room. -/
def Chip.mayDrain (c : Chip) : Bool :=
  c.running && !c.port.resetDrain && c.port.noticeBacklog.isEmpty && (c.notice.produce + 1) % 64 != c.notice.consume

/-- The source to drain next. -/
def NoticeUnit.next (n : NoticeUnit) : Option (Fin 77) := roundRobin n.pointer fun k => n.sources[k].isSome

/-- A FENCED WRITE notice (R186). -/
def NoticeBody.isFenced : NoticeBody → Bool
  | .fencedWrite _ _ => true
  | .modeChange _ _ _ | .badIndex _ _ | .linkFailed _ _ _ _ | .sceneNote _ _ | .sceneEnded _ | .triggerDropped _ _ _
  | .guardChange _ _ _ | .driveOnline _ _ _ | .driveAttention _ | .driveOffline _ _ _ _ | .driveFault _ _ _ _
  | .underrun _ _ _ _ _ => false

/-- The five postings of a notice, the record's words and the index (R203). -/
def Chip.postRecord (src : Fin 77) (n : Notice) (c : Chip) : Chip :=
  let w := c.base rNotices / 4 + 4 * c.notice.produce
  let k := n.body.encode
  let next := (c.notice.produce + 1) % 64
  let c := (((c.postNotice w (n.head src)).postNotice (w + 1) k.w1).postNotice (w + 2) k.w2).postNotice (w + 3) k.w3
  (c.postNotice (c.controlWord 2) (BitVec.ofNat 32 next)).modNotice fun u => { u with produce := next }

/-- One source is drained into the ring (R203). -/
def Chip.drainNotice (c : Chip) : Chip :=
  match c.notice.next with
  | none => c
  | some src =>
    match c.notice.sources[src] with
    | none => c
    | some n =>
      let c := c.modNotice fun u => { u with sources := updAt u.sources src fun _ => none, pointer := src }
      (if n.body.isFenced then c.modPort Port.clearFenced else c).postRecord src n

end Sys2Proof.Machine
end

