-- ==== Sys2Proof/Machine/Loading.lean ====
section
/-!
DEFINITION. LOADING (R176 to R180), the entry to LIVE, and the resets of the whole part (R191 and the blocks' reset rules).
-/

namespace Sys2Proof.Machine

/-! ## LOADING begins -/

/-- LOADING begins with the read of the header: the trigger unit starts again from its reset state, the causes are absent, the bays' input
sources are gone, and the links' checks are still to be run (R55, R159, R166, R176, R178). -/
def Chip.beginLoading (c : Chip) : Chip :=
  { c with
    port := { c.port with mode := .loading, resetDrain := false }
    loader := .start
    trig := c.trig.restart
    guardIn := Vector.replicate 32 none
    bays := mapAll (fun b => { b with input := false, hold := false, guarded := b.hostGuard }) c.bays
    links := mapAll (fun k => { k with loopback := .notRun }) c.links
    hold := { c.hold with line := .absent, request := false } }

/-- Step 9 of a RESET SHOW (R192, R194, R201). -/
def Chip.endResetShow (c : Chip) : Chip := (c.modReq fun q => { q with keepConsume := true }).beginLoading

/-! ## The header (R178) -/

/-- The map fails its checks: TRANSPARENT (R178, R82, R140). -/
def Chip.mapFails (c : Chip) : Chip :=
  { c with
    port := { c.port with mode := .transparent, decoder := none }
    loader := .idle
    lamp := c.lamp.undriven
    links := mapAll Link.unconfigure c.links }

/-- The map is validated (R178, R77, R114). -/
def Chip.mapValid (ws : List Word) (c : Chip) : Chip :=
  { c with
    port := { c.port with decoder := some (headerRegions ws) }
    loader := { Loader.idle with phase := .tables }
    lamp := { c.lamp with period := headerPeriod ws }
    voices := tabulate 8 fun v => { c.voices[v] with lsbFirst := headerLsbFirst ws v } }

/-- The header has been read whole, and is tested. -/
def Chip.headerRead (ws : List Word) (c : Chip) : Chip := if headerOk ws then c.mapValid ws else c.mapFails

/-- The eight words of the next grant of the header. -/
def headerWords (m : Memory) (from_ : Nat) : List Word := (List.range 8).map fun k => m.word (from_ + k)

/-- One grant of the header read (R178). -/
def Chip.headerGrant (m : Memory) (c : Chip) : Chip :=
  if c.loader.phase == .header then
    c.onGrant .loader fun c =>
      let ws := c.loader.words ++ headerWords m c.loader.words.length
      if ws.length < 32 then c.modLoader fun l => { l with words := ws } else c.headerRead ws
  else c

/-- `n` grants of the header read (log 22). -/
def Chip.headerGrants (m : Memory) : Nat → Chip → Chip
  | 0, c => c
  | n + 1, c => Chip.headerGrants m n (c.headerGrant m)

/-! ## The tables (R180) -/

/-- A trigger entry is read (R54). -/
def Chip.triggerEntryRead (m : Memory) (t : InputId) (c : Chip) : Chip :=
  c.modInput t fun x => { x with entry := parseTrigger m (c.base rTriggers + 16 * t.val) }

/-- The trigger table has been read: the START inputs take their states with their demands, the filters start, and every GUARD input is a true
source of its bay until it settles (R54, R55, R58, R74). A level that last changed before its filter started is timed from the start (the model's choice
between R55 and R56: log 59). -/
def Chip.triggerStart (t : InputId) (c : Chip) : Chip :=
  let c := c.modInput t fun x =>
    { x with running := true, filter := some (Config.ms x.entry.debounce) }
  let e := c.trig.inputs[t].entry
  match e.role with
  | .start => c.enterInput t (if e.armed then .armed else .disarmed)
  | .guard => { c with guardIn := updAt c.guardIn t fun _ => some (e.bay, true) }.bayWork e.bay
  | .none => c

/-- A bay entry is read (R77). -/
def Chip.bayEntryRead (m : Memory) (b : BayId) (c : Chip) : Chip :=
  c.modLampUnit fun u => { u with bays := updAt u.bays b fun _ => bayCopyOf (m.word (c.base rBays / 4 + b.val)) }

/-- A lamp house entry is read (R77). -/
def Chip.houseEntryRead (m : Memory) (l : LampId) (c : Chip) : Chip := c.lampEntryRead l (m.word (c.base rLampHouse / 4 + l.val))

/-- The lamp house table has been read: frames run from now on, if they do not already (R82; log 19). -/
def Chip.framesStart (c : Chip) : Chip := c.modLampUnit fun u => { u with frame := if u.frame.isNone then some 0 else u.frame }

/-- `f` on the `per` entries of grant `g` of a table of `n`. -/
def grantEntries (n per g : Nat) (f : Fin n → Chip → Chip) (c : Chip) : Chip :=
  (indices fun k : Fin n => per * g ≤ k.val && k.val < per * (g + 1)).foldl (fun c k => f k c) c

/-- One grant more of a table (R180). -/
def Loader.count (t : LoadTable) (l : Loader) : Loader :=
  match t with
  | .trigger => { l with trigger := l.trigger + 1 }
  | .bay => { l with bay := l.bay + 1 }
  | .lampHouse => { l with lamp := l.lamp + 1 }
  | .drive => { l with drive := l.drive + 1 }

/-- The entries of grant `g` of a table. -/
def Chip.tableEntries (m : Memory) (t : LoadTable) (g : Nat) (c : Chip) : Chip :=
  match t with
  | .trigger => grantEntries 32 2 g (Chip.triggerEntryRead m) c
  | .bay => grantEntries 16 8 g (Chip.bayEntryRead m) c
  | .lampHouse => grantEntries 96 8 g (Chip.houseEntryRead m) c
  | .drive => grantEntries 24 4 g (Chip.driveEntryRead m) c

/-- What follows the last grant of a table. -/
def Chip.tableRead (t : LoadTable) (c : Chip) : Chip :=
  match t with
  | .trigger => forAll 32 Chip.triggerStart c
  | .bay => c
  | .lampHouse => c.framesStart
  | .drive => c.drivesRead

/-- One grant of a table is made (R180). -/
def Chip.tableGrant (m : Memory) (t : LoadTable) (c : Chip) : Chip :=
  if c.loader.wants t then
    c.onGrant .loader fun c =>
      let g := c.loader.made t
      let c := (c.tableEntries m t g).modLoader (Loader.count t)
      if g + 1 = tableGrants t then c.tableRead t else c
  else c

/-! ## Entry to LIVE (R180) -/

/-- Every read of LOADING is made and both controllers have finished (R137, R180). -/
def Chip.loaded (c : Chip) : Bool :=
  c.port.mode == .loading && !c.port.resetLine && c.loader.phase == .tables
  && [LoadTable.trigger, .bay, .lampHouse, .drive].all (fun t => c.loader.made t == tableGrants t)
  && c.links[0].ready && c.links[1].ready

/-- The device enters LIVE from LOADING, and every block takes the entry (R180, R61, R136, R167, R194, R205). The notice consume copy is 0, and the
host's word is not read: R194's words, to which R180 refers for the host's indices (log 62). -/
def Chip.enterLive (c : Chip) : Chip :=
  let c := (c.postNotice (c.controlWord 2) 0#32).modPort fun p => { p with mode := .live }
  let c := c.mirrorAll c.mirrorImage
  let c := { c with
    loader := .idle
    notice := { c.notice with produce := 0, consume := 0 }
    req := { c.req with indexRead := true, captures := [], inHand := false }
    links := mapAll Link.armProbes c.links }
  (forAll 32 Chip.timeAnew c).lineAtLive

/-! ## Resets of the part (R191) -/

/-- The trigger pins keep their levels. -/
def TriggerUnit.keepPins (old u : TriggerUnit) : TriggerUnit :=
  { u with inputs := tabulate 32 fun t => { u.inputs[t] with raw := old.inputs[t].raw } }

/-- Every block at its reset value, the levels on the pins as they are (R4, R53, R55, R76, R98, R124, R143, R159, R166, R191, R195, R204). -/
def Chip.cleared (c : Chip) : Chip :=
  { Chip.reset with
    port := { Port.reset with resetLine := c.port.resetLine, readData := c.port.readData }
    trig := c.trig.keepPins .reset
    links := mapAll Link.restart c.links
    hold := { Hold.reset with raw := c.hold.raw } }

/-- The part with the RESET line asserted: no LOADING, and the STOP filter does not time (R165, R176; log 11). -/
def Chip.inReset (c : Chip) : Chip :=
  { c with
    port := { c.port with resetLine := true }
    loader := .idle
    hold := { c.hold with filter := none } }

/-- Power-on reset, and its end unless the RESET line is asserted (R191; log 10). -/
def Chip.powerOn (c : Chip) : Chip := if c.port.resetLine then c.cleared.inReset else c.cleared

/-- A host cycle left unacknowledged is taken afresh: a held read asks for the bus, because no posting is left (R191). -/
def HostCycle.afresh : HostCycle → HostCycle
  | .read w _ => .read w none
  | .write w d be => .write w d be

/-- The RESET line is asserted (R191, R140). -/
def Chip.lineAsserted (c : Chip) : Chip := c.cleared.inReset.modPort fun p => { p with host := c.port.host.map HostCycle.afresh }

/-- The RESET line is released: passthrough and LOADING begin, the STOP filter starts timing (R165, R176, R191). -/
def Chip.lineReleased (c : Chip) : Chip :=
  if c.port.resetLine then
    { c.cleared with port := { c.cleared.port with resetLine := false, host := c.port.host } }
  else c

end Sys2Proof.Machine
end

