-- ==== Sys2Proof/Machine/Settle.lean ====
section
/-!
DEFINITION. What ends every step: reports between blocks are taken, admissions made, waiting producers take the room there is and a RESET SHOW that
waited for them goes on, controllers and channels with work ask for their turn, the bus is granted, and a host write at its turn is performed (logs 6,
7, 8). Then the host's cycles (R175, R189, R190).
-/

namespace Sys2Proof.Machine

/-! ## Reports between blocks (log 7) -/

/-- A report reaches its block. Several slots that wait for one drive, bay or input take it by rising slot number, an order R14 leaves open (the model's
choice: log 54). -/
def Chip.handle (x : Signal) (c : Chip) : Chip :=
  match x with
  | .link l a r => c.linkReport l a r
  | .drive i d r => c.driveToSlot i d r
  | .driveState d => forAll 12 (Chip.driveStateToSlot d) c
  | .voice i v r => c.voiceToSlot i v r
  | .bay b => forAll 12 (Chip.bayToSlot b) c
  | .bayMirror b => c.mirrorBay b
  | .input t => forAll 12 (Chip.inputToSlot t) c
  | .keptEnd d => c.takeKeptEnd d

/-- Reports are taken first in, first out, at most `n` of them. -/
def Chip.takeReports : Nat → Chip → Chip
  | 0, c => c
  | n + 1, c =>
    match c.signals with
    | [] => c
    | x :: xs => Chip.takeReports n ({ c with signals := xs }.handle x)

/-- The bound on the reports of one step (log 7). -/
def reportBound : Nat := 4096

/-! ## End of a step (log 8) -/

/-- An IDLE controller that has work enters QUIET-WAIT (R125). -/
def Link.wake (k : Link) : Link := if k.state == .idle && k.hasWork then { k with state := .quietWait } else k

/-- Admissions take place (R5). The queue holds at most 16 entries. -/
def Chip.admissions (c : Chip) : Chip := if c.port.resetDrain then c else c.admitAll Config.queueCap

/-- Controllers with work and channels that may ask take up their work. A clip's first burst has been asked for by then (R100). -/
def Chip.wake (c : Chip) : Chip := { c with links := mapAll Link.wake c.links, voices := mapAll Channel.settle c.voices }

/-- Everything that follows at once from what the step has done. -/
def Chip.settle (c : Chip) : Chip :=
  let c := (c.takeReports reportBound).admissions
  ((c.modPort Port.settlePostings).resetDue.wake).arbitrate

/-! ## The machine's two halves -/

/-- The chip of the state changed. -/
def State.mapChip (f : Chip → Chip) (s : State) : State := { s with chip := f s.chip }

/-! ## Host writes (R175, R177, R184, R186, R189) -/

/-- The host cycle is over. -/
def Port.acknowledge (p : Port) : Port := { p with host := none }

/-- The load word of the header, and the write that starts LOADING (R177). -/
def startsLoading (w : Nat) (data : Word) (be : Enables) : Bool := w == 1 && data == Config.signature && be == 0xF#4

/-- What the port hands to the block that owns the word (R184). -/
def Chip.capture (w : Nat) (data : Word) (be : Enables) (c : Chip) : Chip :=
  if c.port.mode == .transparent then (if startsLoading w data be then c.beginLoading else c)
  else if c.running && c.isControl 0 w then c.produceCapture data be
  else if c.running && c.isControl 3 w then c.consumeCapture data be
  else match c.lampOfWord w with
    | some l => c.lampCapture l data be
    | none => c

/-- A granted host write: memory, cancellation, capture, acknowledgement (R175, R189). -/
def State.grantWrite (w : Nat) (data : Word) (be : Enables) (s : State) : State :=
  { s with
    mem := s.mem.write w data be
    chip := (((s.chip.granted .host).modPort fun p => { p with posts := cancelPostings p.posts w be }).capture w data be).modPort
      Port.acknowledge }

/-- The host write at the arbiter's turn is judged: fenced, or granted (R175, R186). -/
def State.judgeWrite (w : Nat) (data : Word) (be : Enables) (s : State) : State :=
  if s.chip.port.fenced w then s.mapChip fun c => (c.fencedWrite w).modPort Port.acknowledge else s.grantWrite w data be

/-- A host write that waits is performed if it is the host's turn (log 6). -/
def State.serveWrite (s : State) : State :=
  match s.chip.port.host with
  | some (.write w data be) => if s.chip.turn .host then s.judgeWrite w.toNat data be else s
  | _ => s

/-- The end of a step. A host write at its turn comes between, because it can set more going. -/
def State.settle (s : State) : State := (s.mapChip Chip.settle).serveWrite.mapChip Chip.settle

/-- A step of the part outside reset: what it does, and what follows at once. While the RESET line is asserted nothing happens (log 11). -/
def State.event (f : Chip → Chip) (s : State) : State :=
  if s.chip.port.resetLine then s else (s.mapChip f).settle

/-- A step that touches one block alone, from which nothing else follows. -/
def State.local_ (f : Chip → Chip) (s : State) : State := if s.chip.port.resetLine then s else s.mapChip f

/-- A change of a pin's level, seen at any time; outside reset what follows at once follows. -/
def State.pin (f : Chip → Chip) (s : State) : State :=
  if s.chip.port.resetLine then s.mapChip f else (s.mapChip f).settle

/-! ## Host cycles (R175, R190) -/

/-- A host cycle is taken; a second one does not arise while one is unacknowledged (R175, R190; log 6). -/
def Port.takeCycle (h : HostCycle) (p : Port) : Port := if p.host.isNone then { p with host := some h } else p

/-- A host write is taken, and performed at its turn. -/
def State.hostWrite (w : WordNo) (data : Word) (be : Enables) (s : State) : State :=
  s.pin fun c => c.modPort (Port.takeCycle (.write w data be))

/-- A host write to a word the decoder gives, if it gives one. -/
def State.decodedWrite (w : Nat) (data : Word) (be : Enables) (s : State) : State :=
  if s.chip.port.decoder.isSome then s.hostWrite (BitVec.ofNat 22 w) data be else s

/-- A host read as it is taken: held on the postings pending for its word, or asking for the bus (R175, R190). -/
def Port.readCycle (w : WordNo) (p : Port) : HostCycle :=
  .read w (if pendingFor p.posts w.toNat = 0 then none else some (pendingFor p.posts w.toNat))

/-- A host read that waits for no posting returns, at its turn, what memory holds (R175, R190). -/
def Chip.readGrant (m : Memory) (c : Chip) : Chip :=
  match c.port.host with
  | some (.read w none) | some (.read w (some 0)) => c.onGrant .host fun c => c.modPort fun p => { p.acknowledge with readData := m.word w.toNat }
  | _ => c

/-- A host read was held, and waits for no posting any more (R190). -/
def Port.heldReadDue (p : Port) : Bool := match p.host with
  | some (.read _ (some 0)) => true
  | _ => false

/-! ## Postings land (R188, R190) -/

/-- The oldest posting is written, and leaves the buffer. -/
def State.landFirst (s : State) : State :=
  match s.chip.port.posts with
  | [] => s
  | p :: ps =>
    { s with
      mem := s.mem.write p.word p.data p.mask
      chip := (s.chip.granted .drain).modPort fun q => { q with posts := ps, host := q.host.map (HostCycle.landed p.word) } }

/-- The drain is granted the bus (R181, R188). -/
def State.landPosting (s : State) : State := if s.chip.turn .drain then s.landFirst.settle else s

end Sys2Proof.Machine
end

