-- ==== Sys2Proof/Machine/HostEvents.lean ====
section
/-!
DEFINITION. Resets, host cycles and the posting drain: the meanings of the rows POWER_ON_RESET to POSTING_LANDS.
-/

namespace Sys2Proof.Machine

/-- What a command answers. -/
abbrev Answer := Host.Outcome State Fault Refusal

/-- POWER_ON_RESET (R191; log 10). At its end LOADING begins, and the loader is granted the free bus (R178, R181). -/
def execPowerOnReset (s : State) : Answer := .next (s.pin Chip.powerOn)

/-- The posting whose memory cycle runs when the RESET line is asserted: the oldest, if the drain has the bus; its cycle completes (R191). -/
def State.finishCycle (s : State) : State :=
  match s.chip.port.posts with
  | p :: _ => if s.chip.port.bus = some .drain then { s with mem := s.mem.write p.word p.data p.mask } else s
  | [] => s

/-- RESET_LINE_ASSERTED (R191, R140, R165). A line that is asserted already stays so. -/
def execResetLineAsserted (s : State) : Answer := .next (if s.chip.port.resetLine then s else s.finishCycle.mapChip Chip.lineAsserted)

/-- RESET_LINE_RELEASED (R176, R178). -/
def execResetLineReleased (s : State) : Answer :=
  .next (if s.chip.port.resetLine then (s.mapChip Chip.lineReleased).settle else s)

/-- HOST_READ (R175, R190). -/
def execHostRead (word : WordNo) (s : State) : Answer :=
  .next (s.pin fun c => c.modPort fun p => p.takeCycle (p.readCycle word))

/-- HELD_READ_END (R190): the held read, which has asked for the bus since the last landing it waited for, is made if it is the host's turn (log 40). -/
def execHeldReadEnd (s : State) : Answer :=
  .next (s.event fun c => if c.port.heldReadDue then c.readGrant s.mem else c)

/-- HOST_READ_GRANT (R175). -/
def execHostReadGrant (s : State) : Answer := .next (s.event (Chip.readGrant s.mem))

/-- HOST_WRITE (R175, R184, R186, R189). -/
def execHostWrite (word : WordNo) (data : Word) (be : Enables) (s : State) : Answer := .next (s.hostWrite word data be)

/-- LOAD_WORD_WRITE (R177). -/
def execLoadWordWrite (data : Word) (be : Enables) (s : State) : Answer := .next (s.hostWrite 1#22 data be)

/-- REQUEST_PRODUCE_INDEX_WRITE (R193). -/
def execRequestProduceIndexWrite (data : Word) (be : Enables) (s : State) : Answer :=
  .next (s.decodedWrite (s.chip.controlWord 0) data be)

/-- NOTICE_CONSUME_INDEX_WRITE (R193). -/
def execNoticeConsumeIndexWrite (data : Word) (be : Enables) (s : State) : Answer :=
  .next (s.decodedWrite (s.chip.controlWord 3) data be)

/-- LAMP_HOUSE_TABLE_WRITE (R79). -/
def execLampHouseTableWrite (lamp : LampId) (data : Word) (be : Enables) (s : State) : Answer :=
  .next (s.decodedWrite (s.chip.base rLampHouse / 4 + lamp.val) data be)

/-- POSTING_LANDS (R188, R190). -/
def execPostingLands (s : State) : Answer := .next s.landPosting

end Sys2Proof.Machine
end

