-- ==== Sys2Proof/Machine/LoadEvents.lean ====
section
/-!
DEFINITION. LOADING and the entry to LIVE: the meanings of the rows MAP_HEADER_READ to REQUEST_INDEX_READ.
-/

namespace Sys2Proof.Machine

/-- MAP_HEADER_READ (R178; log 22). -/
def execMapHeaderRead (grants : Nat) (s : State) : Answer := .next (s.event (Chip.headerGrants s.mem grants))

/-- TABLE_READ (R180; log 22). -/
def execTableRead (table : LoadTable) (s : State) : Answer := .next (s.event (Chip.tableGrant s.mem table))

/-- LOOPBACK_CHECK (R137). The checks follow the read of the drive table. -/
def execLoopbackCheck (link : LinkId) (ch : Option RxChar) (s : State) : Answer :=
  .next (s.event fun c =>
    if c.port.mode == .loading && c.loader.made .drive == tableGrants .drive then
      match c.links[link].loopPos with
      | some pos => c.loopStep link pos ch
      | none => c
    else c)

/-- ENTER_LIVE (R180). -/
def execEnterLive (s : State) : Answer := .next (s.event fun c => if c.loaded then c.enterLive else c)

/-- REQUEST_INDEX_READ (R194). -/
def execRequestIndexRead (s : State) : Answer :=
  .next (s.event fun c => if c.req.indexRead then c.onGrant .loader (Chip.indexReturn s.mem) else c)

end Sys2Proof.Machine
end

