-- ==== Sys2Proof/Machine/InputEvents.lean ====
section
/-!
DEFINITION. The STOP line and the trigger inputs: the meanings of the rows STOP_RAW_CHANGE to OFFER_VERDICT.
-/

namespace Sys2Proof.Machine

/-- A timer's expiry: its remaining time passes, and then it acts (log 2). A timer that does not run has none. -/
def Chip.expire (t : Timer) (f : Chip → Chip) (c : Chip) : Chip := match t with
  | some dt => f (c.advance dt)
  | none => c

/-- STOP_RAW_CHANGE (R165). While the RESET line is asserted the filter does not time. -/
def execStopRawChange (high : Bool) (s : State) : Answer :=
  .next (s.pin fun c => c.modHold fun h => if c.port.resetLine then { h with raw := high } else h.rawChange high)

/-- STOP_FILTER_SETTLE (R165, R167, R168). -/
def execStopFilterSettle (s : State) : Answer := .next (s.event fun c => c.expire c.hold.filter Chip.stopSettles)

/-- The raw level of an input changes: its filter times it anew (R56). -/
def Input.rawChange (high : Bool) (t : Input) : Input :=
  if t.raw = high then t
  else { t with
    raw := high
    filter := if t.running && t.settled != some high then some (Config.ms t.entry.debounce) else none }

/-- TRIGGER_RAW_CHANGE (R56). While the RESET line is asserted no filter runs. -/
def execTriggerRawChange (input : InputId) (high : Bool) (s : State) : Answer :=
  .next (s.pin fun c => c.modInput input fun t => if c.port.resetLine then { t with raw := high } else t.rawChange high)

/-- A GUARD input has settled: its bay's source, and GUARD CHANGE (R58). -/
def Chip.guardSettled (t : InputId) (c : Chip) : Chip :=
  let x := c.trig.inputs[t]
  let c := { c with guardIn := updAt c.guardIn t fun _ => some (x.entry.bay, x.level == some true) }
  (c.hand (srcInput t) (.guardChange t x.entry.bay x.level)).bayWork x.entry.bay

/-- The filter takes the raw level and hands it to the users of the input (R56, R57): the mirror, its own state machine or its bay, and then the slots that
wait on it, an order R14, R20 and R57 leave open (the model's choice: log 64). -/
def Chip.inputSettles (t : InputId) (c : Chip) : Chip :=
  let first := c.trig.inputs[t].settled.isNone
  let c := (c.modInput t fun x => { x with settled := some x.raw, filter := none }).mirrorInput t
  let c := match c.trig.inputs[t].entry.role with
    | .start => if first then c else c.startSettled t
    | .guard => c.guardSettled t
    | .none => c
  c.signal (.input t)

/-- TRIGGER_FILTER_SETTLE (R57 to R60). -/
def execTriggerFilterSettle (input : InputId) (s : State) : Answer :=
  .next (s.event fun c => c.expire c.trig.inputs[input].filter (Chip.inputSettles input))

/-- DWELL_TIMER_EXPIRY (R60). -/
def execDwellTimerExpiry (input : InputId) (s : State) : Answer :=
  .next (s.event fun c => c.expire c.trig.inputs[input].dwell (Chip.dwellFire input))

/-- COOLDOWN_TIMER_EXPIRY (R71). -/
def execCooldownTimerExpiry (input : InputId) (s : State) : Answer :=
  .next (s.event fun c => c.expire c.trig.inputs[input].cooldown (Chip.enterArmed input))

/-- The alternation changes phase (R74, R90). -/
def Chip.alternate (t : InputId) (c : Chip) : Chip :=
  (c.modInput t fun x => { x with phaseOn := !x.phaseOn, alt := some Config.alternation }).refreshDemand t

/-- INDICATOR_ALTERNATION_STEP (R74, R90). -/
def execIndicatorAlternationStep (input : InputId) (s : State) : Answer :=
  .next (s.event fun c => c.expire c.trig.inputs[input].alt (Chip.alternate input))

/-- OFFER_VERDICT (R63 to R67). -/
def execOfferVerdict (s : State) : Answer :=
  .next (s.event fun c => if c.cueWaits 12 then c.onGrant (.cue 12) (Chip.offerReturn s.mem) else c)

end Sys2Proof.Machine
end

