-- ==== Sys2Proof/Machine/SceneEvents.lean ====
section
/-!
DEFINITION. Reads and timers of the scene slots: the meanings of the rows DEFINITION_READ_RETURN to RUN_LIMIT_TIMER_EXPIRY.
-/

namespace Sys2Proof.Machine

/-- The requester that stands for a slot's reads. -/
def slotRequester (i : SlotId) : Requester := .cue ⟨i.val, by omega⟩

/-- The slot's outstanding read returns, if it is of this kind: the data go to `f`, or, abandoned, nowhere (log 15). -/
def Chip.fetched (i : SlotId) (kind : FetchKind → Option Nat) (f : Nat → Chip → Chip) (c : Chip) : Chip :=
  match c.fetch[i].cur with
  | some (k, abandoned) =>
    match kind k with
    | some n => c.onGrant (slotRequester i) fun c => if abandoned then c.fetchDone i else f n (c.fetchDone i)
    | none => c
  | none => c

/-- The read of a definition. -/
def FetchKind.definition? : FetchKind → Option Nat
  | .definition => some 0
  | .check _ => none
  | .run _ => none

/-- The read of a cue by the check. -/
def FetchKind.check? : FetchKind → Option Nat
  | .definition => none
  | .check k => some k
  | .run _ => none

/-- The read of a cue by the run. -/
def FetchKind.run? : FetchKind → Option Nat
  | .definition => none
  | .check _ => none
  | .run k => some k

/-- The number of records the cue store holds (R179). -/
def Chip.cueRecords (c : Chip) : Nat := c.regionLen rCues / 16

/-- DEFINITION_READ_RETURN (R6). -/
def execDefinitionReadReturn (slot : SlotId) (s : State) : Answer :=
  .next (s.event (Chip.fetched slot FetchKind.definition? fun _ c =>
    c.definitionReturn slot ((parseScene s.mem (c.sceneAddr c.slots[slot].scene)).accept c.cueRecords)))

/-- CUE_CHECK_READ (R7, R8). -/
def execCueCheckRead (slot : SlotId) (s : State) : Answer :=
  .next (s.event (Chip.fetched slot FetchKind.check? fun k c => c.checkReturn slot k (parseCue s.mem (c.slotCueAddr slot k))))

/-- A timer of a slot in such a state expires; while HELD slot timers are frozen (R13, R22, R25, R48). -/
def Chip.slotExpire (i : SlotId) (runs : SlotState → Bool) (t : Slot → Timer) (f : Chip → Chip) (c : Chip) : Chip :=
  if c.isHeld || !runs c.slots[i].state then c else c.expire (t c.slots[i]) f

/-- CLAIM_WAIT_TIMER_EXPIRY (R48, R10). -/
def execClaimWaitTimerExpiry (slot : SlotId) (s : State) : Answer :=
  .next (s.event (Chip.slotExpire slot (· == .claiming) Slot.claimTimer fun c => c.endEarly slot .claimTimeout))

/-- CUE_RECORD_ARRIVES (R12, R13). -/
def execCueRecordArrives (slot : SlotId) (s : State) : Answer :=
  .next (s.event (Chip.fetched slot FetchKind.run? fun k c => c.recordReturn slot k (parseCue s.mem (c.slotCueAddr slot k))))

/-- The time left to the current cue's offset, once its record is known and while it is not issued (R13). -/
def Slot.offsetLeft (s : Slot) : Timer :=
  match s.current, s.offset with
  | some ⟨_, some r, false⟩, some e => some (Config.ms r.offset.toNat - e)
  | _, _ => none

/-- OFFSET_TIMER_EXPIRY (R13). -/
def execOffsetTimerExpiry (slot : SlotId) (s : State) : Answer :=
  .next (s.event (Chip.slotExpire slot (· == .timing) Slot.offsetLeft (Chip.tryIssue slot)))

/-- WAIT_TIMER_EXPIRY (R22). -/
def execWaitTimerExpiry (slot : SlotId) (s : State) : Answer :=
  .next (s.event (Chip.slotExpire slot (· == .waiting) Slot.waitTimer (Chip.waitExpired slot)))

/-- RUN_LIMIT_TIMER_EXPIRY (R25). -/
def execRunLimitTimerExpiry (slot : SlotId) (s : State) : Answer :=
  .next (s.event (Chip.slotExpire slot SlotState.late Slot.runTimer fun c => c.endSlot slot .runLimit))

end Sys2Proof.Machine
end

