-- ==== Sys2Proof/Machine/OutputEvents.lean ====
section
/-!
DEFINITION. Lamps and voice channels: the meanings of the rows LAMP_FRAME_START to VOICE_FADE_END.
-/

namespace Sys2Proof.Machine

/-- LAMP_FRAME_START (R81). -/
def execLampFrameStart (s : State) : Answer := .next (s.local_ fun c => c.expire c.lamp.frame Chip.lampFrame)

/-- The fade's end passes, and the lamp stands at its target (R84). -/
def Chip.lampFadeEnd (l : LampId) (c : Chip) : Chip :=
  match c.lamp.lamps[l].fade with
  | some f => c.expire (some f.left) (Chip.lampFadeDone l f.target)
  | none => c

/-- LAMP_FADE_END (R84). While HELD the fades are frozen (R91). -/
def execLampFadeEnd (lamp : LampId) (s : State) : Answer :=
  .next (s.event fun c => if c.isHeld then c else c.lampFadeEnd lamp)

/-- The directory entry of a clip as memory holds it, if it is valid (R96, R97). -/
def Chip.clipEntry (m : Memory) (clip : Nat) (c : Chip) : Option ClipEntry :=
  parseClip (c.base rClipData) (c.regionLen rClipData) m (c.base rClips + 32 * clip)

/-- The directory read of a channel with no burst in flight returns (R99). -/
def Chip.directoryArrives (m : Memory) (v : VoiceId) (c : Chip) : Chip :=
  match c.voices[v].burst, c.voices[v].dirRead with
  | none, some d =>
    c.onGrant (.clip v) fun c => (c.modVoice v fun ch => { ch with urgent := false }).dirReturn v d (c.clipEntry m d.clip)
  | _, _ => c

/-- DIRECTORY_READ_RETURN (R99, R100). -/
def execDirectoryReadReturn (voice : VoiceId) (s : State) : Answer := .next (s.event (Chip.directoryArrives s.mem voice))

/-- The words of a burst as memory holds them (R103). -/
def burstData (m : Memory) (e : ClipEntry) (b : Burst) : List Word := (List.range b.count).map fun k => m.word (e.base / 4 + b.first + k)

/-- The words the channel's burst brings; an abandoned burst's are of no clip. -/
def Channel.burstWords (m : Memory) (ch : Channel) (b : Burst) : List Word := match ch.copy with
  | some e => burstData m e b
  | none => []

/-- The burst of a channel arrives (R103). -/
def Chip.burstArrives (m : Memory) (v : VoiceId) (c : Chip) : Chip :=
  match c.voices[v].burst with
  | some b => c.onGrant (.clip v) fun c => c.burstReturn v b (c.voices[v].burstWords m b)
  | none => c

/-- BURST_ARRIVES (R103, R105, R107). -/
def execBurstArrives (voice : VoiceId) (s : State) : Answer := .next (s.event (Chip.burstArrives s.mem voice))

/-- SAMPLE_TIME (R106 to R109). -/
def execSampleTime (voice : VoiceId) (s : State) : Answer :=
  .next (s.event fun c => c.expire (some c.voices[voice].sample) (Chip.sampleAt voice))

/-- The gain fade's end passes, and the channel enters IDLE (R110, R111). -/
def Chip.gainFadeEnd (v : VoiceId) (c : Chip) : Chip :=
  match c.voices[v].state, c.voices[v].fade with
  | .fading, some f => c.expire (some (Config.ms f.dur - f.elapsed)) (Chip.voiceIdle v .stop)
  | _, _ => c

/-- VOICE_FADE_END (R111). -/
def execVoiceFadeEnd (voice : VoiceId) (s : State) : Answer := .next (s.event (Chip.gainFadeEnd voice))

end Sys2Proof.Machine
end

