-- ==== Sys2Proof/Machine/LinkEvents.lean ====
section
/-!
DEFINITION. The model links and the drives' timers: the meanings of the rows PAIR_START_BIT to SETTLE_TIMER_EXPIRY.
-/

namespace Sys2Proof.Machine

/-- PAIR_START_BIT (R117, R126). -/
def execPairStartBit (link : LinkId) (s : State) : Answer := .next (s.local_ (Chip.modLink link Link.startBit))

/-- The ticks until the pair of a waiting controller has been quiet for 2 ms (R126, R127). -/
def Link.quietLeft (k : Link) : Timer := if k.state == .quietWait || k.state == .lost then some k.quiet else none

/-- QUIET_WAIT_END (R125, R126). -/
def execQuietWaitEnd (link : LinkId) (s : State) : Answer :=
  .next (s.event fun c => c.expire c.links[link].quietLeft fun c => c.runLink link (Link.quietEnd (c.currentGuarded link)))

/-- SERVICE_LINE_CHANGE (R123, R125). -/
def execServiceLineChange (link : LinkId) (pulled : Bool) (s : State) : Answer :=
  .next (s.pin (Chip.modLink link fun k => { k with service := pulled }))

/-- ARBITRATION_LOST (R127, R139). -/
def execArbitrationLost (link : LinkId) (s : State) : Answer :=
  .next (s.event (Chip.modLink link fun k => if k.state == .sending then k.arbitrationLost else k))

/-- PAIR_DRIVE_FAULT (R127, R131): the part stops driving, and a failed attempt is counted. -/
def execPairDriveFault (link : LinkId) (s : State) : Answer :=
  .next (s.event (Chip.runLink link fun k =>
    if k.state == .sending then { k with quiet := Config.quietWait }.failIn .sending else .silent k))

/-- The ticks left of the frame being sent. -/
def Link.frameLeft (k : Link) : Timer := if k.state == .sending then k.frame else none

/-- FRAME_SENT (R118, R127). -/
def execFrameSent (link : LinkId) (s : State) : Answer :=
  .next (s.event fun c => c.expire c.links[link].frameLeft (Chip.modLink link Link.frameSent))

/-- REPLY_CHARACTER (R128 to R131). -/
def execReplyCharacter (link : LinkId) (ch : RxChar) (s : State) : Answer := .next (s.event (Chip.runLink link (Link.character ch)))

/-- REPLY_TIMEOUT (R128). -/
def execReplyTimeout (link : LinkId) (s : State) : Answer :=
  .next (s.event fun c => c.expire c.links[link].reply (Chip.runLink link (Link.failIn .awaitReply)))

/-- The probe timer of an address has expired: the probe is to be sent (R125, R136). -/
def AddrRec.expired (r : AddrRec) : AddrRec := { r with probe := none, due := true }

/-- PROBE_TIMER_EXPIRY (R136). -/
def execProbeTimerExpiry (link : LinkId) (addr : AddrId) (s : State) : Answer :=
  .next (s.event fun c => c.expire c.links[link].addrs[addr].probe (Chip.modLink link (Link.modAddr addr AddrRec.expired)))

/-- RETRY_TIMER_EXPIRY (R149, R161). -/
def execRetryTimerExpiry (drive : DriveId) (s : State) : Answer :=
  .next (s.event fun c => c.expire c.drives[drive].retry (Chip.retryExpired drive))

/-- SETTLE_TIMER_EXPIRY (R149, R154, R156, R161). -/
def execSettleTimerExpiry (drive : DriveId) (s : State) : Answer :=
  .next (s.event fun c => c.expire c.drives[drive].settle (Chip.settleExpired drive))

end Sys2Proof.Machine
end

