-- ==== Sys2Proof/Machine/RequestEvents.lean ====
section
/-!
DEFINITION. The requests of the host and the notice drain: the meanings of the rows START_SCENE to NOTICE_DRAIN. Each request row acts if the record at
the consume index is of its kind (log 12).
-/

namespace Sys2Proof.Machine

/-- The record's kind code (section 11.2). -/
def Request.isKind (k : Nat) (r : Request) : Bool := r.kind.toNat == k

/-- GUARD BAY's code: `some true` SET, `some false` CLEAR. -/
def Request.guardCode (r : Request) : Option Bool := match r.arg2.toNat with
  | 0 => some false
  | 1 => some true
  | _ => none

/-- DRIVE SERVICE's code. -/
def Request.serviceCode (r : Request) : Option ServiceCode := match r.arg2.toNat with
  | 1 => some .home
  | 2 => some .sense
  | 3 => some .clear
  | _ => none

/-- The record is a DRIVE SERVICE of the code, or of none of the three (log 12). -/
def Request.isService (k : ServiceCode) (r : Request) : Bool := r.isKind 9 && (r.serviceCode == some k || r.serviceCode == none)

/-- The record is a GUARD BAY of the code, or of neither (log 12). -/
def Request.isGuard (on : Bool) (r : Request) : Bool := r.isKind 6 && (r.guardCode == some on || r.guardCode == none)

/-- START_SCENE (R197). -/
def execStartScene (s : State) : Answer := .next (s.event (Chip.take s.mem (Request.isKind 1) Chip.startSceneRequest))

/-- STOP_SCENE (R198). -/
def execStopScene (s : State) : Answer := .next (s.event (Chip.take s.mem (Request.isKind 2) Chip.stopSceneRequest))

/-- STOP_BAY (R198). -/
def execStopBay (s : State) : Answer := .next (s.event (Chip.take s.mem (Request.isKind 3) Chip.stopBayRequest))

/-- HOLD (R169, R199). -/
def execHold (s : State) : Answer := .next (s.event (Chip.take s.mem (Request.isKind 4) fun _ => Chip.holdRequest))

/-- RELEASE (R170, R199). -/
def execRelease (s : State) : Answer := .next (s.event (Chip.take s.mem (Request.isKind 5) fun _ => Chip.releaseRequest))

/-- GUARD_BAY_SET (R159, R160, R199). -/
def execGuardBaySet (s : State) : Answer :=
  .next (s.event (Chip.take s.mem (Request.isGuard true) fun r => Chip.guardBayRequest r r.guardCode))

/-- GUARD_BAY_CLEAR (R159, R160, R199). -/
def execGuardBayClear (s : State) : Answer :=
  .next (s.event (Chip.take s.mem (Request.isGuard false) fun r => Chip.guardBayRequest r r.guardCode))

/-- ARM_TRIGGER (R72, R199). -/
def execArmTrigger (s : State) : Answer :=
  .next (s.event (Chip.take s.mem (Request.isKind 7) fun r => Chip.armRequest r Chip.arm))

/-- DISARM_TRIGGER (R73, R199). -/
def execDisarmTrigger (s : State) : Answer :=
  .next (s.event (Chip.take s.mem (Request.isKind 8) fun r => Chip.armRequest r Chip.disarm))

/-- DRIVE_SERVICE_HOME (R161). -/
def execDriveServiceHome (s : State) : Answer :=
  .next (s.event (Chip.take s.mem (Request.isService .home) fun r => Chip.serviceRequest r r.serviceCode))

/-- DRIVE_SERVICE_SENSE (R161). -/
def execDriveServiceSense (s : State) : Answer :=
  .next (s.event (Chip.take s.mem (Request.isService .sense) fun r => Chip.serviceRequest r r.serviceCode))

/-- DRIVE_SERVICE_CLEAR (R161). -/
def execDriveServiceClear (s : State) : Answer :=
  .next (s.event (Chip.take s.mem (Request.isService .clear) fun r => Chip.serviceRequest r r.serviceCode))

/-- RESET_SHOW (R200, R201). -/
def execResetShow (s : State) : Answer := .next (s.event (Chip.take s.mem (Request.isKind 10) Chip.resetShowRequest))

/-- Every posting has landed in step 8. -/
def Port.drained (p : Port) : Bool := p.resetDrain && p.posts.isEmpty && p.noticeBacklog.isEmpty && p.requestBacklog.isEmpty

/-- RESET_SHOW_DRAIN_END (R192, R201). -/
def execResetShowDrainEnd (s : State) : Answer := .next (s.event fun c => if c.port.drained then c.endResetShow else c)

/-- The record is of none of the ten kinds. -/
def Request.isUnknown (r : Request) : Bool := r.kind.toNat == 0 || 10 < r.kind.toNat

/-- UNKNOWN_KIND (R196). -/
def execUnknownKind (s : State) : Answer := .next (s.event (Chip.take s.mem Request.isUnknown fun _ c => c.answer .unknownKind 0))

/-- NOTICE_DRAIN (R203). -/
def execNoticeDrain (s : State) : Answer := .next (s.event fun c => if c.mayDrain then c.drainNotice else c)

end Sys2Proof.Machine
end

