-- ==== Sys2Proof/Machine/Dispatch.lean ====
section
/-! DEFINITION. One arm per command: its meaning. -/

namespace Sys2Proof.Machine

def exec (i : Instr) (s : State) : Host.Outcome State Fault Refusal :=
  match i with
  | .powerOnReset => Sys2Proof.Machine.execPowerOnReset s
  | .resetLineAsserted => Sys2Proof.Machine.execResetLineAsserted s
  | .resetLineReleased => Sys2Proof.Machine.execResetLineReleased s
  | .hostRead word => Sys2Proof.Machine.execHostRead word s
  | .heldReadEnd => Sys2Proof.Machine.execHeldReadEnd s
  | .hostReadGrant => Sys2Proof.Machine.execHostReadGrant s
  | .hostWrite word data be => Sys2Proof.Machine.execHostWrite word data be s
  | .loadWordWrite data be => Sys2Proof.Machine.execLoadWordWrite data be s
  | .requestProduceIndexWrite data be => Sys2Proof.Machine.execRequestProduceIndexWrite data be s
  | .noticeConsumeIndexWrite data be => Sys2Proof.Machine.execNoticeConsumeIndexWrite data be s
  | .lampHouseTableWrite lamp data be => Sys2Proof.Machine.execLampHouseTableWrite lamp data be s
  | .postingLands => Sys2Proof.Machine.execPostingLands s
  | .mapHeaderRead grants => Sys2Proof.Machine.execMapHeaderRead grants s
  | .tableRead table => Sys2Proof.Machine.execTableRead table s
  | .loopbackCheck link ch => Sys2Proof.Machine.execLoopbackCheck link ch s
  | .enterLive => Sys2Proof.Machine.execEnterLive s
  | .requestIndexRead => Sys2Proof.Machine.execRequestIndexRead s
  | .stopRawChange high => Sys2Proof.Machine.execStopRawChange high s
  | .stopFilterSettle => Sys2Proof.Machine.execStopFilterSettle s
  | .triggerRawChange input high => Sys2Proof.Machine.execTriggerRawChange input high s
  | .triggerFilterSettle input => Sys2Proof.Machine.execTriggerFilterSettle input s
  | .dwellTimerExpiry input => Sys2Proof.Machine.execDwellTimerExpiry input s
  | .cooldownTimerExpiry input => Sys2Proof.Machine.execCooldownTimerExpiry input s
  | .indicatorAlternationStep input => Sys2Proof.Machine.execIndicatorAlternationStep input s
  | .offerVerdict => Sys2Proof.Machine.execOfferVerdict s
  | .definitionReadReturn slot => Sys2Proof.Machine.execDefinitionReadReturn slot s
  | .cueCheckRead slot => Sys2Proof.Machine.execCueCheckRead slot s
  | .claimWaitTimerExpiry slot => Sys2Proof.Machine.execClaimWaitTimerExpiry slot s
  | .cueRecordArrives slot => Sys2Proof.Machine.execCueRecordArrives slot s
  | .offsetTimerExpiry slot => Sys2Proof.Machine.execOffsetTimerExpiry slot s
  | .waitTimerExpiry slot => Sys2Proof.Machine.execWaitTimerExpiry slot s
  | .runLimitTimerExpiry slot => Sys2Proof.Machine.execRunLimitTimerExpiry slot s
  | .lampFrameStart => Sys2Proof.Machine.execLampFrameStart s
  | .lampFadeEnd lamp => Sys2Proof.Machine.execLampFadeEnd lamp s
  | .directoryReadReturn voice => Sys2Proof.Machine.execDirectoryReadReturn voice s
  | .burstArrives voice => Sys2Proof.Machine.execBurstArrives voice s
  | .sampleTime voice => Sys2Proof.Machine.execSampleTime voice s
  | .voiceFadeEnd voice => Sys2Proof.Machine.execVoiceFadeEnd voice s
  | .pairStartBit link => Sys2Proof.Machine.execPairStartBit link s
  | .quietWaitEnd link => Sys2Proof.Machine.execQuietWaitEnd link s
  | .serviceLineChange link pulled => Sys2Proof.Machine.execServiceLineChange link pulled s
  | .arbitrationLost link => Sys2Proof.Machine.execArbitrationLost link s
  | .pairDriveFault link => Sys2Proof.Machine.execPairDriveFault link s
  | .frameSent link => Sys2Proof.Machine.execFrameSent link s
  | .replyCharacter link ch => Sys2Proof.Machine.execReplyCharacter link ch s
  | .replyTimeout link => Sys2Proof.Machine.execReplyTimeout link s
  | .probeTimerExpiry link addr => Sys2Proof.Machine.execProbeTimerExpiry link addr s
  | .retryTimerExpiry drive => Sys2Proof.Machine.execRetryTimerExpiry drive s
  | .settleTimerExpiry drive => Sys2Proof.Machine.execSettleTimerExpiry drive s
  | .startScene => Sys2Proof.Machine.execStartScene s
  | .stopScene => Sys2Proof.Machine.execStopScene s
  | .stopBay => Sys2Proof.Machine.execStopBay s
  | .hold => Sys2Proof.Machine.execHold s
  | .release => Sys2Proof.Machine.execRelease s
  | .guardBaySet => Sys2Proof.Machine.execGuardBaySet s
  | .guardBayClear => Sys2Proof.Machine.execGuardBayClear s
  | .armTrigger => Sys2Proof.Machine.execArmTrigger s
  | .disarmTrigger => Sys2Proof.Machine.execDisarmTrigger s
  | .driveServiceHome => Sys2Proof.Machine.execDriveServiceHome s
  | .driveServiceSense => Sys2Proof.Machine.execDriveServiceSense s
  | .driveServiceClear => Sys2Proof.Machine.execDriveServiceClear s
  | .resetShow => Sys2Proof.Machine.execResetShow s
  | .resetShowDrainEnd => Sys2Proof.Machine.execResetShowDrainEnd s
  | .unknownKind => Sys2Proof.Machine.execUnknownKind s
  | .noticeDrain => Sys2Proof.Machine.execNoticeDrain s

end Sys2Proof.Machine
end

