-- ==== Sys2Proof/Machine/Step.lean ====
section
/-!
DEFINITION. One step: the command at the front of the queue is run on the state with the queue's rest; with nothing queued one tick of time passes (log 1).
-/

namespace Sys2Proof.Machine

/-- One tick passes; while the RESET line is asserted nothing is timed (log 1, log 11). -/
def State.tick (s : State) : State := s.local_ (Chip.advance 1)

def step (s : State) : Host.Outcome State Fault Refusal :=
  match s.pending with
  | [] => .next s.tick
  | c :: cs => exec c { s with pending := cs }

/-- The command that a word spells put at the front of the queue. -/
def State.withFetchWord (s : State) (nbits w : Nat) : State :=
  match decodeTableWord nbits w with
  | some c => { s with pending := c :: s.pending }
  | none => s

end Sys2Proof.Machine
end

