-- ==== Sys2Proof/Safety.lean ====
section
/-!
DEFINITION. What every reachable state satisfies (show memory in its canonical form, the bounds the spec gives the port's and the units'
numbers, HELD exactly with a cause), and the words the statements of this package use: what a command answers, and what it leaves as it is.
-/

namespace Sys2Proof.Safety

open Sys2Proof.Machine

/-! ## The invariant -/

/-- The posting buffer holds at most 32 postings (R187). -/
def postsOk (p : Port) : Prop := p.posts.length ≤ Config.postingCap

/-- The arbiter's host count is 0 to 8 (R183), the fenced-write count 0 to 65,535 (R186). -/
def countsOk (p : Port) : Prop := p.hostCount ≤ Config.hostRun ∧ p.fencedCount ≤ 65535

/-- The indices are within their rings (R193). -/
def indicesOk (c : Chip) : Prop :=
  c.req.produce < 32 ∧ c.req.consume < 32 ∧ c.notice.produce < 64 ∧ c.notice.consume < 64

/-- The device is HELD exactly while a cause of the hold is present (R166). -/
def causesOk (c : Chip) : Prop := c.port.mode = .held ↔ (c.hold.line ≠ .absent ∨ c.hold.request = true)

/-- The loader reads only in LOADING (R176, R178). -/
def loaderOk (c : Chip) : Prop := c.loader.phase ≠ .off → c.port.mode = .loading

/-- The invariant of the part. -/
def ChipOk (c : Chip) : Prop := postsOk c.port ∧ countsOk c.port ∧ indicesOk c ∧ causesOk c ∧ loaderOk c

/-- The invariant of the machine. -/
def Sound (s : State) : Prop := s.mem.wf = true ∧ ChipOk s.chip

/-! ## What a command answers -/

/-- The answer is the end of the step of a machine whose part is `c`, with memory and queue as in `s`. -/
def EndsAs (o : Answer) (s : State) (c : Chip) : Prop := o = .next (State.settle { s with chip := c })

/-- The answer is the end of the step of a machine whose part satisfies `p`, with memory and queue as in `s`. -/
def Ends (o : Answer) (s : State) (p : Chip → Prop) : Prop := ∃ c, EndsAs o s c ∧ p c

/-- As `Ends`, and the part's last act before the end of the step is to post this reply and the advanced consume index (R195). -/
def Replies (o : Answer) (s : State) (r : Reply) (detail : Nat) (p : Chip → Prop) : Prop :=
  ∃ c, EndsAs o s (c.answer r detail) ∧ p c

/-! ## What stays as it is -/

/-- The port but for the posting buffer and the producers that wait for it. -/
def Port.rest (p : Port) : Port := { p with posts := [], noticeBacklog := [], requestBacklog := [], waiting := [] }

/-- The port but for buffer, producers, fence spans and the arbiter's state. -/
def Port.core (p : Port) : Port :=
  { Port.rest p with
    sceneSpan := Vector.replicate 12 none
    cueSpan := Vector.replicate 12 none
    clipSpan := Vector.replicate 8 none
    bus := none
    clipPtr := 0
    cuePtr := 0
    hostCount := 0 }

/-- The parts of the chip. -/
inductive Part where
  /-- the port but for what the next three name -/
  | port
  | postings | spans
  /-- the requester that has the bus, the two pointers, the host count -/
  | arbiter
  | loader | req
  /-- the notice unit's pointer and indices, and its sources -/
  | noticeIndex | sources
  | slots | fetch | claims | trig | lamp | voices | links | drives | bays | guardIn | hold | signals
deriving DecidableEq, Repr

/-- Two chips agree in a part. -/
def sameAt (a b : Chip) : Part → Prop
  | .port => Port.core a.port = Port.core b.port
  | .postings => a.port.posts = b.port.posts ∧ a.port.noticeBacklog = b.port.noticeBacklog ∧ a.port.requestBacklog = b.port.requestBacklog
      ∧ a.port.waiting = b.port.waiting
  | .spans => a.port.sceneSpan = b.port.sceneSpan ∧ a.port.cueSpan = b.port.cueSpan ∧ a.port.clipSpan = b.port.clipSpan
  | .arbiter => a.port.bus = b.port.bus ∧ a.port.clipPtr = b.port.clipPtr ∧ a.port.cuePtr = b.port.cuePtr ∧ a.port.hostCount = b.port.hostCount
  | .loader => a.loader = b.loader
  | .req => a.req = b.req
  | .noticeIndex => a.notice.pointer = b.notice.pointer ∧ a.notice.produce = b.notice.produce ∧ a.notice.consume = b.notice.consume
  | .sources => a.notice.sources = b.notice.sources
  | .slots => a.slots = b.slots
  | .fetch => a.fetch = b.fetch
  | .claims => a.claims = b.claims
  | .trig => a.trig = b.trig
  | .lamp => a.lamp = b.lamp
  | .voices => a.voices = b.voices
  | .links => a.links = b.links
  | .drives => a.drives = b.drives
  | .bays => a.bays = b.bays
  | .guardIn => a.guardIn = b.guardIn
  | .hold => a.hold = b.hold
  | .signals => a.signals = b.signals

/-- The chips agree in every part but those named. -/
def Same (but : List Part) (a b : Chip) : Prop := ∀ p, p ∉ but → sameAt a b p

/-- Every slot but `i` is as it was. -/
def OtherSlots (i : SlotId) (a b : Chip) : Prop := ∀ j : SlotId, j ≠ i → a.slots[j] = b.slots[j]

/-- Every voice channel but `v`. -/
def OtherVoices (v : VoiceId) (a b : Chip) : Prop := ∀ u : VoiceId, u ≠ v → a.voices[u] = b.voices[u]

/-- Every drive but `d`. -/
def OtherDrives (d : DriveId) (a b : Chip) : Prop := ∀ e : DriveId, e ≠ d → a.drives[e] = b.drives[e]

/-- A notice is handed to a source: it is pending there, merged by its rank, unless notices are dropped (R201, R202). -/
def Handed (k : Fin 77) (n : NoticeBody) (c old : Chip) : Prop :=
  old.port.resetDrain = false → old.port.mode ≠ .transparent → c.notice.sources[k] = some (mergeNotice old.notice.sources[k] n)

/-- Notices are handed to a source one after another. -/
def HandedAll (k : Fin 77) (ns : List NoticeBody) (c old : Chip) : Prop :=
  old.port.resetDrain = false → old.port.mode ≠ .transparent →
    c.notice.sources[k] = ns.foldl (fun x n => some (mergeNotice x n)) old.notice.sources[k]

/-- The slot's read of this kind has gone to the arbiter, or waits behind an abandoned one (log 15). -/
def Asks (i : SlotId) (k : FetchKind) (c old : Chip) : Prop :=
  c.fetch[i] = if old.fetch[i].cur.isNone then ⟨some (k, false), none⟩ else ⟨old.fetch[i].cur, some k⟩

/-- What a settled change does to a START input (R59, R60); `y` is the input with its new settled level. -/
def startAfter (may active : Bool) (y : Input) : Input :=
  if active && may && y.state == .armed && !y.offerOut then
    if y.entry.dwellMode then
      { y with state := .dwelling, phaseOn := true, alt := some (Config.ms 250), dwell := some (Config.ms y.entry.dwell), cooldown := none }
    else { y with offerOut := true }
  else if !active && y.state == .dwelling then
    { y with state := .armed, phaseOn := false, alt := none, dwell := none, cooldown := none }
  else y

/-- The current cue `k` of the slot, of record `r`, is there to be issued. -/
def Due (c : Chip) (i : SlotId) (k : Nat) (r : CueRec) : Prop :=
  c.slots[i].state = .timing ∧ c.slots[i].current = some ⟨k, some r, false⟩ ∧ c.isHeld = false

/-- The slot of an issued cue that waits (R13, R14). -/
def issuedWaiting (x : Slot) (k : Nat) (r : CueRec) (cond : WaitCond) : Slot :=
  { x with
    state := .waiting
    current := some ⟨k, some r, true⟩
    next := if r.link then some ⟨k + 1, none⟩ else none
    offset := none
    issued := min 65535 (x.issued + 1)
    cond := some cond }

/-- The slot of an issued cue that has completed, going on with cue `j` (R13, R24). -/
def issuedOn (x : Slot) (j : Nat) : Slot :=
  { x with
    current := some ⟨j, none, false⟩
    next := none
    offset := some 0
    waitTimer := none
    cond := none
    issued := min 65535 (x.issued + 1) }

/-- The slot of a completed cue, going on with cue `j`, whose record has not arrived (R12, R24). -/
def goneOn (x : Slot) (j : Nat) : Slot :=
  { x with state := .timing, current := some ⟨j, none, false⟩, next := none, offset := some 0, waitTimer := none, cond := none }

/-- The slot waits on `k` for its current cue, issued, of record `r`. -/
def Awaits (c : Chip) (i : SlotId) (k : WaitCond) (r : CueRec) : Prop :=
  c.slots[i].state = .waiting ∧ c.slots[i].cond = some k ∧ ∃ n, c.slots[i].current = some ⟨n, some r, true⟩

/-- The cue of record `r` has LINK to cue `j`, whose record has not arrived, and no NOTE. -/
def LinksTo (x : Slot) (r : CueRec) (j : Nat) : Prop := r.link = true ∧ r.note = false ∧ x.next = some ⟨j, none⟩

/-- Of what the slot owns, something is still going on once its ENDING has begun (R30, R32): a channel that plays or fades, or a drive in motion, or one
STARTING whose move is at the link or, at a normal end, is not withdrawn. -/
def busyAtEnding (c : Chip) (i : SlotId) (cause : Cause) : Prop :=
  (∃ v : VoiceId, (c.slots[i].voice0 = some v ∨ c.slots[i].voice1 = some v)
    ∧ (c.voices[v].state = .playing ∨ c.voices[v].state = .starved ∨ c.voices[v].state = .fading))
  ∨ ∃ u : DriveId, c.driveOwner u = some i
    ∧ (c.drives[u].state = .moving ∨ c.drives[u].state = .halting ∨ (c.drives[u].state = .starting ∧ (c.drives[u].atLink = true ∨ cause = .normal)))

/-- Slot `i`, of record `x`, takes a cause in TIMING or WAITING: it is in ENDING while something of it is going on, and else FREE at once (R30, R32). -/
def TakesCause (i : SlotId) (cause : Cause) (x : Slot) (c old : Chip) : Prop :=
  (busyAtEnding old i cause → c.slots[i] = { Slot.ending cause x with state := .ending })
  ∧ (¬busyAtEnding old i cause → c.slots[i] = .free)

/-- The part after a failed attempt of the link's current transaction `x` (R131): sent again, or, at the third (a probe's first), given up. -/
def afterFailure (l : LinkId) (x : Current) (c : Chip) : Chip :=
  let again : Link → Link := fun k =>
    { k with state := .quietWait, frame := none, reply := none, rx := [], current := some { x with failed := x.failed + 1 } }
  let probeIn (present : Bool) : Link → Link := fun k =>
    { k with
      state := .quietWait
      frame := none
      reply := none
      rx := []
      current := none
      addrs := updAt k.addrs x.txn.addr fun r =>
        { r with probe := some (Config.ms 2000), due := false, present := r.present && present } }
  if x.txn.maker = .probe then c.modLink l (probeIn true)
  else if x.failed < 2 then c.modLink l again
  else
    { c.modLink l fun k => { probeIn false k with queue := k.queue.filter fun t => t.addr != x.txn.addr } with
      signals := c.signals ++ [.link l x.txn.addr .offline] }

/-- The lamp after a fade to `target` over `dur` ms has started (R84, R85). -/
def faded (x : Lamp) (target dur : Nat) : Lamp :=
  if dur = 0 ∨ x.momentary = target then { x with level := target, fade := none } else { x with fade := some ⟨x.momentary, target, dur, 0⟩ }

/-- A drive's record in FAULTED for a reason, with the new sense bytes if there are any (R149, R150, R152, R154, R156). An IDLE drive's expired service window
stays so (R161). -/
def faultedDrive (x : Drive) (why : FaultReason) (s : Option Sense) : Drive :=
  { x with
    state := .faulted
    move := none
    atLink := false
    keptEnd := none
    accepted := false
    retry := none
    settle := none
    windowExpired := x.state == .idle && x.windowExpired
    haltCause := none
    reason := some why
    sense := if s.isSome then s else x.sense }

/-- A drive's record back in IDLE, its move over (R151, R153, R154). -/
def idleDrive (x : Drive) : Drive :=
  { x with
    state := .idle
    move := none
    atLink := false
    keptEnd := none
    accepted := false
    retry := none
    settle := none
    windowExpired := false
    haltCause := none }

/-- A drive's record in HALTING for a cause, its halt window open (R153). -/
def haltingDrive (x : Drive) (why : HaltCause) : Drive :=
  { x with
    state := .halting
    haltCause := some why
    retry := none
    settle := some (Config.ms (100 * x.entry.settle))
    windowExpired := false }

/-- What a halt called for a drive makes of its record (R153). -/
def haltedDrive (x : Drive) (why : HaltCause) : Drive :=
  match x.state with
  | .starting => if x.atLink then haltingDrive x why else idleDrive x
  | .moving => haltingDrive x why
  | .halting | .idle | .faulted | .offline => x

/-- What the guard of its bay makes of the controller for a drive: it is handed a HALT where the drive is MOVING, or STARTING with the move at the link, or
FAULTED with a move of its left at the controller (R153, R159). -/
def guardStep (x : Drive) (k : Link) : LinkStep :=
  let left := (k.queue ++ (k.current.map fun y => y.txn).toList).any fun t => t.cmd.isMove && t.addr == x.entry.addr
  if x.state = .moving ∨ (x.state = .starting ∧ x.atLink = true) ∨ (x.state = .faulted ∧ left = true) then k.halt x.entry.addr .halt else .silent k

/-- The controller after that. -/
def guardHalt (x : Drive) (k : Link) : Link := (guardStep x k).link

/-- A controller once every bay of these drives has become guarded, drive by drive. -/
def guardedLink (c : Chip) (l : LinkId) (ds : List DriveId) : Link :=
  (ds.filter fun d => c.drives[d].entry.link == l).foldl (fun k d => guardHalt c.drives[d] k) c.links[l]

/-- What a report to the drive's owner adds to the reports under way. -/
def toldDrive (d : DriveId) (r : DriveReport) (c : Chip) : List Signal := match c.driveOwner d with
  | some i => [.drive i d r]
  | none => []

/-- What a change of the drive's state adds to the reports under way (R158). -/
def toldChange (d : DriveId) (c : Chip) : List Signal := toldDrive d .changed c ++ [.driveState d]

/-- What the guard of its bay at a drive adds to the reports under way: the owner is told of its HALTING or of its withdrawn move, the change of state is
told, and the controller `k` may answer the HALT at once (R133, R134, R153, R158, R160). -/
def guardTold (d : DriveId) (c : Chip) (k : Link) : List Signal :=
  let x := c.drives[d]
  (match x.state with
    | .starting => toldDrive d (if x.atLink then .guardHalting else .withdrawn) c ++ toldChange d c
    | .moving => toldDrive d .guardHalting c ++ toldChange d c
    | .halting | .idle | .faulted | .offline => [])
  ++ (guardStep x k).reports.map fun r => .link x.entry.link r.1 r.2

/-- What is added once every bay of these drives has become guarded, drive by drive, behind those of `before`. -/
def guardedSignals (c : Chip) : List DriveId → List DriveId → List Signal
  | _, [] => []
  | before, d :: ds => guardTold d c (guardedLink c c.drives[d].entry.link before) ++ guardedSignals c (before ++ [d]) ds

/-- What a report to the channel's owner adds to the reports under way. -/
def toldOwner (v : VoiceId) (r : VoiceReport) (c : Chip) : List Signal := match c.voiceOwner v with
  | some i => [.voice i v r]
  | none => []

/-! ## Records -/

/-- The unsigned number that a field of `n` bytes at address `a` of show memory holds, its lowest byte at the lowest address (R207). -/
def numberAt (m : Memory) (a : Nat) : Nat → Nat
  | 0 => 0
  | n + 1 => (m.byte a).toNat + 256 * numberAt m (a + 1) n

/-- The `n` bytes of a number, the lowest first. -/
def bytesOf : Nat → Nat → List Nat
  | 0, _ => []
  | n + 1, x => x % 256 :: bytesOf n (x / 256)

/-- The 12 payload bytes of a notice's record (section 11.5). -/
def payloadOf (b : NoticeBody) : List Nat := [b.encode.w1, b.encode.w2, b.encode.w3].flatMap fun w => bytesOf 4 w.toNat

/-! ## Conditions -/

/-- No host write waits (R175). -/
def noWrite (s : State) : Prop := ∀ w data be, s.chip.port.host ≠ some (.write w data be)

/-- The claim waiting list holds slots in CLAIMING, each at most once (R36). -/
def waitersOk (c : Chip) : Prop := c.claims.waiting.Nodup ∧ ∀ w ∈ c.claims.waiting, c.slots[w].state = .claiming

/-- No RESET SHOW waits for room in the posting buffer (R201). -/
def noReset (s : State) : Prop := s.chip.req.resetWait = false

/-- The RESET line is not asserted (R176). -/
def runs (s : State) : Prop := s.chip.port.resetLine = false

/-- The request unit may take the record at its consume index, the record is of the kind, and it is the loader's turn (R195). -/
def takes (s : State) (fits : Request → Bool) : Prop :=
  runs s ∧ s.chip.mayTake = true ∧ s.chip.turn .loader = true ∧ fits (s.chip.recordNow s.mem) = true

/-- The part once the host's write has been taken, at the end of that step's own work. -/
def taken (s : State) (w : WordNo) (data : Word) (be : Enables) : Chip :=
  Chip.settle { s.chip with port := { s.chip.port with host := some (.write w data be) } }

/-- A host write is taken and granted in the same step: no host cycle waits, it is the host's turn, and no span holds the word (R175, R186). -/
def grants (s : State) (w : WordNo) (data : Word) (be : Enables) : Prop :=
  runs s ∧ s.chip.port.host = none ∧ (taken s w data be).turn .host = true ∧ (taken s w data be).port.fenced w.toNat = false

/-- The part after a granted host write, before any capture: the arbiter's state after the grant (R183), the cancellation of R189. -/
def passed (c : Chip) (w : Nat) (be : Enables) : Chip :=
  { c.granted .host with port := { (c.granted .host).port with posts := cancelPostings c.port.posts w be } }

/-- No block captures a write of the word: in TRANSPARENT none is captured and the load word starts nothing with other data or enables (R177); else it is
no entry of the lamp house table (R79), and in LIVE or HELD neither captured index (R184). -/
def nobodyCaptures (c : Chip) (w : Nat) (d : Word) (be : Enables) : Prop :=
  if c.port.mode = .transparent then ¬(w = 1 ∧ d = 0x34325053#32 ∧ be = 0xF#4)
  else c.lampOfWord w = none ∧ (c.running = true → c.isControl 0 w = false ∧ c.isControl 3 w = false)

/-- The answer to a host write granted in its step: memory with the enabled bytes written, the cycle acknowledged, and a part that satisfies `p`. -/
def Writes (o : Answer) (s : State) (w : WordNo) (data : Word) (be : Enables) (p : Chip → Prop) : Prop :=
  ∃ c, o = .next { mem := s.mem.write w.toNat data be, chip := Chip.settle { c with port := { c.port with host := none } }, pending := s.pending } ∧ p c

/-- The bus is the loader's: nobody else asks or has it (R181, R182). -/
def loaderOnly (c : Chip) : Prop :=
  (∀ r, r ≠ .loader → c.waits r = false) ∧ (c.port.bus = none ∨ c.port.bus = some .loader)

/-- Between the blocks nothing is left to follow from what has been done: no report under way, no admission open, no producer waiting, no RESET SHOW due. -/
def Calm (c : Chip) : Prop :=
  c.signals = [] ∧ (c.isLive = true → c.trig.queue = [] ∨ ∀ i : SlotId, c.slots[i].state ≠ .free)
    ∧ c.port.waiting = [] ∧ c.port.noticeBacklog = [] ∧ c.port.requestBacklog = [] ∧ c.req.resetWait = false

/-- The commands that are events inside the part: while the RESET line is asserted none of them has an effect (R176, R191; log 11). -/
def isEvent : Instr → Bool
  | .powerOnReset | .resetLineAsserted | .resetLineReleased | .hostRead _ | .hostWrite _ _ _ | .loadWordWrite _ _
  | .requestProduceIndexWrite _ _ | .noticeConsumeIndexWrite _ _ | .lampHouseTableWrite _ _ _ | .stopRawChange _ | .triggerRawChange _ _
  | .serviceLineChange _ _ => false
  | .postingLands | .heldReadEnd | .hostReadGrant | .mapHeaderRead _ | .tableRead _ | .loopbackCheck _ _ | .enterLive | .requestIndexRead
  | .stopFilterSettle | .triggerFilterSettle _ | .dwellTimerExpiry _ | .cooldownTimerExpiry _ | .indicatorAlternationStep _ | .offerVerdict
  | .definitionReadReturn _ | .cueCheckRead _ | .claimWaitTimerExpiry _ | .cueRecordArrives _ | .offsetTimerExpiry _ | .waitTimerExpiry _
  | .runLimitTimerExpiry _ | .lampFrameStart | .lampFadeEnd _ | .directoryReadReturn _ | .burstArrives _ | .sampleTime _ | .voiceFadeEnd _
  | .pairStartBit _ | .quietWaitEnd _ | .arbitrationLost _ | .pairDriveFault _ | .frameSent _ | .replyCharacter _ _ | .replyTimeout _
  | .probeTimerExpiry _ _ | .retryTimerExpiry _ | .settleTimerExpiry _ | .startScene | .stopScene | .stopBay | .hold | .release
  | .guardBaySet | .guardBayClear | .armTrigger | .disarmTrigger | .driveServiceHome | .driveServiceSense | .driveServiceClear | .resetShow
  | .resetShowDrainEnd | .unknownKind | .noticeDrain => true

end Sys2Proof.Safety
end

