-- ==== Sys2Proof/Certificates/Slice0/Obligations.lean ====
section
/-!
DEFINITION. The statements for the provers, block by block, in the order of the spec's chapters on the port, LOADING, the hold, the inputs, the slots,
the lamps, the channels, the links, the drives and the requests. `Ends`, `EndsAs`, `Replies`, `Writes` and `Same` are defined in Safety.lean.
-/

open Sys2Proof Sys2Proof.Machine Sys2Proof.Safety

/-! ## The machine -/

/-- A step runs the command at the front of the queue on the state with the queue's rest. -/
def Obligations.StepRunsFrontCommand : Prop :=
  ∀ (c : Instr) (cs : List Instr) (s : State), s.pending = c :: cs → step s = exec c { s with pending := cs }

/-- With nothing queued a step is one tick of time; while the RESET line is asserted nothing is timed (the model's choice: logs 1 and 11). What passing time
does: outside HELD a slot's clock runs in TIMING, WAITING and ENDING, its offset in TIMING, its wait timer in WAITING, its claim timer in CLAIMING, its run
limit in TIMING and WAITING, and a lamp's fade runs; in HELD these stand still. Filters, dwell, cooldown and alternation timers, lamp frames, sample times,
gain fades, the links' quiet time, frames, reply and probe timers, the drives' retry and settle timers and the STOP filter run in HELD too. A gain fade is
rounded toward its start (R11, R13, R22, R25, R30, R48, R56, R71, R84, R91, R110, R136, R141, R163, R165). -/
def Obligations.EmptyQueueStepIsOneTick : Prop :=
  (∀ s : State, s.pending = [] →
    (runs s → step s = .next { s with chip := s.chip.advance 1 }) ∧ (¬runs s → step s = .next s))
  ∧ (∀ (c : Chip) (n : Nat),
    let d := c.advance n
    let left (t : Timer) : Timer := t.map fun r => r - n
    let leftIf (p : Bool) (t : Timer) : Timer := bif p then left t else t
    (∀ i : SlotId,
        let x := c.slots[i]
        let timed := x.state == .timing || x.state == .waiting
        (c.isHeld = true → d.slots[i] = x)
        ∧ (c.isHeld = false → d.slots[i] = { x with
            clock := bif timed || x.state == .ending then x.clock + n else x.clock
            offset := bif x.state == .timing then x.offset.map (fun e => e + n) else x.offset
            waitTimer := leftIf (x.state == .waiting) x.waitTimer
            claimTimer := leftIf (x.state == .claiming) x.claimTimer
            runTimer := leftIf timed x.runTimer }))
    ∧ d.trig = { c.trig with inputs := tabulate 32 fun t =>
        let x := c.trig.inputs[t]
        { x with filter := left x.filter, dwell := left x.dwell, cooldown := left x.cooldown, alt := left x.alt } }
    ∧ (∀ l : LampId,
        let x := c.lamp.lamps[l]
        (c.isHeld = true → d.lamp.lamps[l] = x)
        ∧ (c.isHeld = false → d.lamp.lamps[l] = { x with fade := x.fade.map fun f => { f with elapsed := f.elapsed + n } }))
    ∧ d.lamp = { c.lamp with lamps := d.lamp.lamps, frame := left c.lamp.frame }
    ∧ d.voices = tabulate 8 (fun v =>
        let x := c.voices[v]
        { x with sample := x.sample - n, fade := x.fade.map fun f => { f with elapsed := f.elapsed + n } })
    ∧ d.links = tabulate 2 (fun l =>
        let k := c.links[l]
        { k with
          quiet := k.quiet - n
          frame := left k.frame
          reply := left k.reply
          addrs := tabulate 12 fun a => { k.addrs[a] with probe := left k.addrs[a].probe } })
    ∧ d.drives = tabulate 24 (fun u => { c.drives[u] with retry := left c.drives[u].retry, settle := left c.drives[u].settle })
    ∧ d.hold = { c.hold with filter := left c.hold.filter }
    ∧ Same [.slots, .trig, .lamp, .voices, .links, .drives, .hold] d c)
  ∧ (∀ x : Channel,
    (x.state ≠ .fading → x.gain = x.volume)
    ∧ (∀ f, x.state = .fading → x.fade = some f →
        x.gain = f.start - f.start * min f.elapsed (Config.ms f.dur) / Config.ms f.dur
        ∧ (f.elapsed = 0 → x.gain = f.start) ∧ (0 < f.dur → Config.ms f.dur ≤ f.elapsed → x.gain = 0)))

/-- The machine right after reset. The values of the fields named here are the spec's. -/
def Obligations.ResetLeavesTheSpecsValues : Prop :=
  let c := State.reset.chip
  State.reset.pending = []
    ∧ c.port.mode = .loading ∧ c.loader = ⟨.header, [], 0, 0, 0, 0⟩ ∧ c.port.decoder = none
    ∧ c.port.sceneSpan = Vector.replicate 12 none ∧ c.port.cueSpan = Vector.replicate 12 none ∧ c.port.clipSpan = Vector.replicate 8 none
    ∧ c.port.posts = [] ∧ c.port.hostCount = 0 ∧ c.port.clipPtr = 7 ∧ c.port.cuePtr = 12 ∧ c.port.fencedFirst = none ∧ c.port.fencedCount = 0
    ∧ c.req.inHand = false ∧ c.notice.sources = Vector.replicate 77 none ∧ c.notice.pointer = 76 ∧ c.notice.produce = 0 ∧ c.notice.consume = 0
    ∧ (∀ i : SlotId, c.slots[i].state = .free ∧ c.slots[i].clock = 0 ∧ c.slots[i].issued = 0 ∧ c.slots[i].current = none)
    ∧ (∀ l : LampId, c.claims.lamps[l] = ⟨none, none, none⟩ ∧ c.lamp.lamps[l].output = .undriven ∧ c.lamp.lamps[l].momentary = 0)
    ∧ (∀ v : VoiceId, c.claims.voices[v] = ⟨none, none⟩ ∧ c.voices[v].state = .idle ∧ c.voices[v].underruns = 0 ∧ c.voices[v].rate32 = false)
    ∧ (∀ d : DriveId, c.claims.drives[d] = ⟨none, none⟩ ∧ c.drives[d].state = .offline ∧ c.drives[d].position = 0)
    ∧ c.claims.waiting = [] ∧ c.trig.queue = [] ∧ c.trig.seq = 0#16
    ∧ (∀ t : InputId, c.trig.inputs[t].settled = none ∧ c.trig.inputs[t].entry.role = .none ∧ c.trig.inputs[t].disarmPending = false)
    ∧ (∀ l : LinkId, c.links[l].state = .idle ∧ c.links[l].queue = [] ∧ c.links[l].current = none ∧ c.links[l].lastPolled = 0)
    ∧ (∀ b : BayId, c.bays[b] = ⟨false, false, false, false, false⟩)
    ∧ c.hold.line = .absent ∧ c.hold.request = false ∧ c.hold.settled = none

/-- The invariant holds right after reset. -/
def Obligations.InvariantAtReset : Prop := Sound State.reset

/-- Every step keeps the invariant: memory canonical, at most 32 postings, host count at most 8, fenced count at most 65,535, indices in their rings, HELD
exactly while a cause of the hold is present, the loader reading only in LOADING (R166, R176, R183, R186, R187, R193). -/
def Obligations.InvariantKeptByEveryStep : Prop := ∀ s t : State, Sound s → step s = .next t → Sound t

/-- Every step of every state answers a next state, and takes exactly the front of the queue. -/
def Obligations.EveryStepAnswersNext : Prop := ∀ s : State, ∃ t, step s = .next t ∧ t.pending = s.pending.tail

/-- What ends a step, with no host write waiting, leaves memory and queue as they are, and keeps the bounds of the buffer and of the host count; with no
RESET SHOW waiting it leaves the hold's causes, the indices, the loader and the core of the port. An IDLE controller with work enters QUIET-WAIT. A channel
that fills, with nothing in flight or being read, clip words to come and a level below 224, asks for a burst of up to 8 words; a request is urgent once the
level is 32 or below, and stays so. Then a free bus is granted: the arbiter's choice gets it, and its pointer and the host count move at that moment (R102 to
R104, R125, R181 to R183). What ends a step is the model's choice (log 8); so is that a requester that has the bus and still waits keeps it, and that one that
no longer waits loses it (log 5). -/
def Obligations.EndOfStepFrameAndGrant : Prop :=
  ∀ s : State, noWrite s →
    s.settle.mem = s.mem ∧ s.settle.pending = s.pending
      ∧ (noReset s → ∀ p ∈ [Part.port, .loader, .req, .noticeIndex, .hold], sameAt s.settle.chip s.chip p)
      ∧ (postsOk s.chip.port → postsOk s.settle.chip.port)
      ∧ (countsOk s.chip.port → countsOk s.settle.chip.port)
      ∧ (Calm s.chip →
          let c := s.chip.wake
          let p := s.chip.port
          let free : Port := match c.choice with
            | some (.clip v) => { p with bus := some (.clip v), clipPtr := v, hostCount := 0 }
            | some (.cue k) => { p with bus := some (.cue k), cuePtr := k, hostCount := 0 }
            | some .host => { p with bus := some .host, hostCount := if c.lowChoice.isSome then min 8 (p.hostCount + 1) else 0 }
            | some .drain => { p with bus := some .drain, hostCount := 0 }
            | some .loader => { p with bus := some .loader, hostCount := 0 }
            | none => { p with bus := none }
          s.settle = { s with chip := { c with port := match p.bus with
            | some r => if c.waits r then p else free
            | none => free } })
      ∧ (let c := s.chip
         let d := c.wake
         (∀ l : LinkId,
            let k := c.links[l]
            let work := k.current ≠ none ∨ k.queue ≠ []
              ∨ (∃ a : AddrId, k.addrs[a].configured = true ∧ k.addrs[a].present = false ∧ k.addrs[a].due = true)
              ∨ (k.service = true ∧ ∃ a : AddrId, k.addrs[a].present = true)
            (k.state = .idle → work → d.links[l] = { k with state := .quietWait }) ∧ (k.state ≠ .idle ∨ ¬work → d.links[l] = k))
         ∧ (∀ v : VoiceId,
            let x := c.voices[v]
            let n := min 8 (x.length - x.fetchPos)
            let asks := x.filling = true ∧ x.burst = none ∧ x.dirRead = none ∧ x.fetchPos < x.length ∧ x.fifo.length < 224
            let low := x.urgent || decide (x.fifo.length ≤ 32)
            (asks → d.voices[v] = { x with
              burst := some ⟨x.fetchPos, n, false⟩
              fetchPos := x.fetchPos + n
              filling := x.fetchPos + n != x.length
              urgent := low })
            ∧ (¬asks → d.voices[v] = { x with urgent := low && (x.burst.isSome || x.dirRead.isSome) }))
         ∧ Same [.links, .voices] d c)

/-! ## Resets -/

/-- POWER_ON_RESET and RESET_LINE_ASSERTED put every block at its reset value and keep the pins, the queue and the last read's data. At power-on memory
stays and LOADING begins, the free bus going to the loader, unless the RESET line is asserted. At the line's assertion the memory cycle of a posting that
has the bus completes, every other posting is discarded, the STOP filter does not time, and a host cycle not acknowledged stays and is taken afresh, a held
read with no posting left to wait for; a line that is asserted already changes nothing (R140, R165, R176, R178, R181, R191). What power-on reset keeps, the
mode LOADING while the line is asserted, the loader off, and the drain's cycle as the one that runs are the model's choice (logs 10 and 11). -/
def Obligations.ResetsPutEveryBlockAtItsResetValue : Prop :=
  ∀ s : State,
    let cleared : Chip := { Chip.reset with
      port := { Port.reset with resetLine := s.chip.port.resetLine, readData := s.chip.port.readData }
      trig := { TriggerUnit.reset with inputs := tabulate 32 fun t => { Input.reset with raw := s.chip.trig.inputs[t].raw } }
      links := tabulate 2 fun l => { Link.reset with service := s.chip.links[l].service }
      hold := { Hold.reset with raw := s.chip.hold.raw } }
    let held : Chip := { cleared with loader := .idle, hold := { cleared.hold with filter := none } }
    (runs s → EndsAs (exec .powerOnReset s) s cleared)
      ∧ (¬runs s → exec .powerOnReset s = .next { s with chip := held })
      ∧ (runs s → exec .resetLineAsserted s = .next
          { mem := match s.chip.port.posts with
              | p :: _ => if s.chip.port.bus = some .drain then s.mem.write p.word p.data p.mask else s.mem
              | [] => s.mem
            chip := { held with port := { held.port with
              resetLine := true
              host := match s.chip.port.host with
                | some (.read w _) => some (.read w none)
                | some (.write w d be) => some (.write w d be)
                | none => none } }
            pending := s.pending })
      ∧ (¬runs s → exec .resetLineAsserted s = .next s)

/-- While the RESET line is asserted no event has an effect; a host cycle is only kept, a pin's level only recorded, with nothing else changed, and nobody has
a turn at the bus (R176, R191). That is the model's choice (log 11). RESET_LINE_RELEASED: every block is at its reset value, LOADING begins with the header
read, the STOP filter starts timing, and a host cycle that waited is taken afresh (R165, R176, R178, R191). -/
def Obligations.ResetLineHoldsThePartUntilReleased : Prop :=
  ∀ s : State, ¬runs s →
    (∀ i, isEvent i = true → exec i s = .next s)
    ∧ (∀ w, s.chip.port.host = none → exec (.hostRead w) s =
      .next { s with chip := { s.chip with port := { s.chip.port with host := some (s.chip.port.readCycle w) } } })
    ∧ (∀ w d be, s.chip.port.host = none → exec (.hostWrite w d be) s =
      .next { s with chip := { s.chip with port := { s.chip.port with host := some (.write w d be) } } })
    ∧ (∀ high, exec (.stopRawChange high) s = .next { s with chip := { s.chip with hold := { s.chip.hold with raw := high } } })
    ∧ (∀ t high, exec (.triggerRawChange t high) s = .next { s with chip := { s.chip with trig := { s.chip.trig with
        inputs := updAt s.chip.trig.inputs t fun x => { x with raw := high } } } })
    ∧ (∀ l p, exec (.serviceLineChange l p) s = .next { s with chip := { s.chip with links := updAt s.chip.links l fun k => { k with service := p } } })
    ∧ (∀ r, s.chip.turn r = false)
    ∧ EndsAs (exec .resetLineReleased s) s { Chip.reset with
        port := { Port.reset with host := s.chip.port.host, readData := s.chip.port.readData }
        trig := { TriggerUnit.reset with inputs := tabulate 32 fun t => { Input.reset with raw := s.chip.trig.inputs[t].raw } }
        links := tabulate 2 fun l => { Link.reset with service := s.chip.links[l].service }
        hold := { Hold.reset with raw := s.chip.hold.raw } }

/-! ## The host's cycles and the posting buffer -/

/-- HOST_READ: the read is held on the postings pending for its word, or asks for the bus; while a cycle is unacknowledged no other is taken (log 6). A read
held on postings does not ask; it asks as soon as the last of them has landed. HOST_READ_GRANT: at the host's turn a read that asks returns the word memory
holds and is acknowledged; nothing else changes but the arbiter's state. HELD_READ_END does the same for a read that was held (R175, R183, R190). That each of
the two rows makes such a read is the model's reading (log 40). -/
def Obligations.HostReadsReturnWhatMemoryHolds : Prop :=
  ∀ (s : State) (w : WordNo), runs s →
    let n := pendingFor s.chip.port.posts w.toNat
    let made (c : Chip) : Chip := { c.granted .host with port := { (c.granted .host).port with host := none, readData := s.mem.word w.toNat } }
    (s.chip.port.host = none → EndsAs (exec (.hostRead w) s) s { s.chip with port := { s.chip.port with
        host := some (.read w (if n = 0 then none else some n)) } })
    ∧ (s.chip.port.host ≠ none → EndsAs (exec (.hostRead w) s) s s.chip)
    ∧ (∀ k, s.chip.port.host = some (.read w k) → (s.chip.port.hostAsks = true ↔ k = none ∨ k = some 0))
    ∧ (∀ k, s.chip.port.host = some (.read w k) → k = none ∨ k = some 0 →
        (s.chip.turn .host = true → EndsAs (exec .hostReadGrant s) s (made s.chip))
        ∧ (s.chip.turn .host = false → EndsAs (exec .hostReadGrant s) s s.chip))
    ∧ (s.chip.port.host = some (.read w (some 0)) →
        (s.chip.turn .host = true → EndsAs (exec .heldReadEnd s) s (made s.chip))
        ∧ (s.chip.turn .host = false → EndsAs (exec .heldReadEnd s) s s.chip))

/-- HOST_WRITE: not at the host's turn it waits, with no effect on memory (log 6). At its turn, to a word within a span, it is acknowledged, with memory and
buffer unchanged, counted, and reported at source 0. A word is within a span when one of its four bytes lies in an installed scene, cue or clip span (R175,
R185, R186). -/
def Obligations.HostWriteWaitsOrMeetsTheFence : Prop :=
  (∀ (p : Port) (w : Nat), p.fenced w = true ↔
    ∃ x : Span, ((∃ i : SlotId, p.sceneSpan[i] = some x ∨ p.cueSpan[i] = some x) ∨ ∃ v : VoiceId, p.clipSpan[v] = some x)
      ∧ ∃ k, k < 4 ∧ x.first ≤ 4 * w + k ∧ 4 * w + k ≤ x.last)
  ∧ ∀ (s : State) (w : WordNo) (d : Word) (be : Enables), runs s → s.chip.port.host = none →
    let a := taken s w d be
    (a.turn .host = false → exec (.hostWrite w d be) s = .next { s with chip := a.settle } ∧ a.settle.port.host = some (.write w d be))
    ∧ (a.turn .host = true → a.port.fenced w.toNat = true →
      ∃ c, exec (.hostWrite w d be) s = .next { s with chip := Chip.settle c } ∧ c.port.host = none ∧ c.port.posts = a.port.posts
        ∧ (∀ x, a.port.fencedFirst = some x → c.port.fencedFirst = some x ∧ c.port.fencedCount = min 65535 (a.port.fencedCount + 1))
        ∧ (a.port.fencedFirst = none → c.port.fencedFirst = some (4 * w.toNat) ∧ c.port.fencedCount = 1)
        ∧ Same [.port, .sources] c a
        ∧ Handed srcDevice (.fencedWrite (c.port.fencedFirst.getD 0) c.port.fencedCount) c a)

/-- HOST_WRITE and LOAD_WORD_WRITE granted: the enabled bytes are in memory, every other byte reads as before, the word's postings are cancelled byte for byte,
and, where nobody captures the word, the part is otherwise as it was, in every mode. In TRANSPARENT the load word, with all enables and the data "SP24", starts
LOADING with the header; in LOADING, LIVE and HELD it passes and does nothing more (R175, R177, R184, R189). -/
def Obligations.GrantedHostWritesReachMemory : Prop :=
  ∀ (s : State) (w : WordNo) (d : Word) (be : Enables), s.mem.wf = true → grants s w d be →
    let a := taken s w d be
    let p := passed a w.toNat be
    (nobodyCaptures a w.toNat d be → Writes (exec (.hostWrite w d be) s) s w d be fun c => c = p)
    ∧ (w = 1#22 → nobodyCaptures a 1 d be → Writes (exec (.loadWordWrite d be) s) s w d be fun c => c = p)
    ∧ (w = 1#22 → a.port.mode = .transparent → d = 0x34325053#32 ∧ be = 0xF#4 →
        Writes (exec (.loadWordWrite d be) s) s w d be fun c =>
          c.port = { p.port with mode := .loading, resetDrain := false } ∧ c.loader = .start ∧ c.trig.queue = []
          ∧ (∀ t : InputId, c.trig.inputs[t] = { Input.reset with raw := p.trig.inputs[t].raw })
          ∧ Same [.port, .loader, .trig, .guardIn, .bays, .links, .hold] c p)
    ∧ (∀ x, x < 4 * w.toNat ∨ 4 * w.toNat + 4 ≤ x → (s.mem.write w.toNat d be).byte x = s.mem.byte x)
    ∧ (∀ i, i < 4 → (s.mem.write w.toNat d be).byte (4 * w.toNat + i) = if be.getLsbD i then d.byte i else s.mem.byte (4 * w.toNat + i))

/-- REQUEST_PRODUCE_INDEX_WRITE and NOTICE_CONSUME_INDEX_WRITE granted in LIVE or HELD: a candidate within the index's range becomes the copy; another is
not taken and is reported as BAD INDEX; a produce index written while the index read is outstanding is kept for after it (R184, R193, R194). -/
def Obligations.HostIndexWritesAreCaptured : Prop :=
  ∀ (s : State) (d : Word) (be : Enables), s.chip.port.decoder.isSome = true → s.chip.running = true →
    (s.chip.controlWord 0 < 4194304 → grants s (BitVec.ofNat 22 (s.chip.controlWord 0)) d be →
      let w : WordNo := BitVec.ofNat 22 (s.chip.controlWord 0)
      let b := passed (taken s w d be) w.toNat be
      let cand := Word.merge (BitVec.ofNat 32 s.chip.req.produce) d be
      Writes (exec (.requestProduceIndexWrite d be) s) s w d be fun c =>
        (s.chip.req.indexRead = true → c = { b with req := { b.req with captures := b.req.captures ++ [(d, be)] } })
        ∧ (s.chip.req.indexRead = false → cand.toNat < 32 → c = { b with req := { b.req with produce := cand.toNat } })
        ∧ (s.chip.req.indexRead = false → 32 ≤ cand.toNat → Handed srcDevice (.badIndex 0 cand) c b ∧ Same [.sources] c b))
    ∧ (s.chip.controlWord 3 < 4194304 → grants s (BitVec.ofNat 22 (s.chip.controlWord 3)) d be →
      let w : WordNo := BitVec.ofNat 22 (s.chip.controlWord 3)
      let b := passed (taken s w d be) w.toNat be
      let cand := Word.merge (BitVec.ofNat 32 s.chip.notice.consume) d be
      Writes (exec (.noticeConsumeIndexWrite d be) s) s w d be fun c =>
        (cand.toNat < 64 → c = { b with notice := { b.notice with consume := cand.toNat } })
        ∧ (64 ≤ cand.toNat → Handed srcDevice (.badIndex 3 cand) c b ∧ Same [.sources] c b))

/-- LAMP_HOUSE_TABLE_WRITE granted: the entry's copy takes the enabled bytes and keeps the others. A new house level acts only in source HOUSE: the lamp fades
to it over the restore fade of its bay. With an owner, with a demand, while HELD, or with the level as it was, only the copy changes. No other lamp and no other
block but the posting buffer changes (R79, R80). -/
def Obligations.LampHouseTableWriteIsCaptured : Prop :=
  ∀ (s : State) (l : LampId) (d : Word) (be : Enables) (old : Word),
    let w : WordNo := BitVec.ofNat 22 (s.chip.base rLampHouse / 4 + l.val)
    let a := taken s w d be
    s.chip.port.decoder.isSome = true → s.chip.base rLampHouse / 4 + l.val < 4194304 → grants s w d be →
    a.port.mode ≠ .transparent → a.lampOfWord w.toNat = some l → (a.running = true → a.isControl 0 w.toNat = false ∧ a.isControl 3 w.toNat = false) →
    a.lamp.lamps[l].copy = some old →
    let new := old.merge d be
    let x := a.lamp.lamps[l]
    let y := { x with copy := some new }
    let dur := match houseBay new with
      | some b => a.lamp.bays[b].restore
      | none => 0
    let acts := houseLevel new ≠ houseLevel old ∧ a.lampOwner l = none ∧ x.demand = .none ∧ a.isHeld = false
    Writes (exec (.lampHouseTableWrite l d be) s) s w d be fun c =>
      (¬acts → c.lamp.lamps[l] = y)
      ∧ (acts → dur = 0 ∨ x.momentary = houseLevel new → c.lamp.lamps[l] = { y with level := houseLevel new, fade := none })
      ∧ (acts → dur ≠ 0 → x.momentary ≠ houseLevel new → c.lamp.lamps[l] = { y with fade := some ⟨x.momentary, houseLevel new, dur, 0⟩ })
      ∧ (∀ k : LampId, k ≠ l → c.lamp.lamps[k] = a.lamp.lamps[k]) ∧ c.lamp.bays = a.lamp.bays
      ∧ Same [.lamp, .postings] c (passed a w.toNat be)

/-- POSTING_LANDS: at the drain's turn the oldest posting is written with its mask, leaves the buffer, and a held read of its word waits for one landing fewer.
A mirror posting to a word with a pending mirror posting is merged in place; any other is appended while the buffer has room, and else waits. A granted host
write takes its bytes out of every posting pending for its word, and a posting left without a byte leaves; all others stay, in their order (R187 to R190). -/
def Obligations.PostingsAreMadeCancelledAndLand : Prop :=
  (∀ (s : State) (p : Posting) (ps : List Posting), runs s → s.chip.port.posts = p :: ps → s.chip.turn .drain = true →
    let g := s.chip.granted .drain
    exec .postingLands s = .next (State.settle
      { s with
        mem := s.mem.write p.word p.data p.mask
        chip := { g with port := { g.port with
          posts := ps
          host := match s.chip.port.host with
            | some (.read w (some k)) => some (.read w (some (if w.toNat = p.word then k - 1 else k)))
            | h => h } } }))
  ∧ (∀ (ps : List Posting) (x : Posting),
    (ps.any (fun p => x.mirror && p.mirror && p.word == x.word) = true →
      createPosting ps x = some (ps.map fun p =>
        if x.mirror && p.mirror && p.word == x.word then { p with data := p.data.merge x.data x.mask, mask := p.mask ||| x.mask } else p))
    ∧ (ps.any (fun p => x.mirror && p.mirror && p.word == x.word) = false →
      createPosting ps x = if ps.length < 32 then some (ps ++ [x]) else none))
  ∧ (∀ (ps : List Posting) (w : Nat) (be : Enables),
    (cancelPostings ps w be).Sublist (ps.map fun p => if p.word = w then { p with mask := p.mask &&& ~~~be } else p)
    ∧ (∀ p ∈ ps, p.word ≠ w → p ∈ cancelPostings ps w be)
    ∧ (∀ p ∈ ps, p.word = w → p.mask &&& ~~~be ≠ 0#4 → { p with mask := p.mask &&& ~~~be } ∈ cancelPostings ps w be)
    ∧ (∀ p ∈ cancelPostings ps w be, p.word = w → p.mask ≠ 0#4 ∧ p.mask &&& be = 0#4))

/-- The arbiter takes the first of the seven classes that has a requester waiting, passes over the host when its count stands at 8 and a requester of
classes 4 to 7 waits, and within the clip classes takes the first channel after its pointer; a grant moves the pointers and the count by who waits then (R181,
R182, R183). That a requester has its turn when it was granted the bus, or when the bus is free and the choice is its, and that the end of its transfer frees
the bus, is the model's choice (log 5). -/
def Obligations.ArbiterChoosesByClass : Prop :=
  ∀ c : Chip, c.port.resetLine = false →
    let urgent := ∃ v, c.clipWaits true v = true
    let pressed := c.port.posts ≠ [] ∧ c.port.pressed = true
    let normal := ∃ v, c.clipWaits false v = true
    let cue := ∃ k, c.cueWaits k = true
    let slack := c.port.posts ≠ [] ∧ c.port.pressed = false
    let low := normal ∨ cue ∨ c.loaderWaits = true ∨ slack
    let host := c.port.hostAsks = true ∧ ¬(c.port.hostCount = 8 ∧ low)
    (urgent → ∃ v, c.choice = some (.clip v) ∧ c.clipWaits true v = true
      ∧ ∀ u, c.clipWaits true u = true → (v.val + 7 - c.port.clipPtr.val) % 8 ≤ (u.val + 7 - c.port.clipPtr.val) % 8)
    ∧ (¬urgent → pressed → c.choice = some .drain)
    ∧ (¬urgent → ¬pressed → host → c.choice = some .host)
    ∧ (¬urgent → ¬pressed → ¬host → normal → ∃ v, c.choice = some (.clip v) ∧ c.clipWaits false v = true
      ∧ ∀ u, c.clipWaits false u = true → (v.val + 7 - c.port.clipPtr.val) % 8 ≤ (u.val + 7 - c.port.clipPtr.val) % 8)
    ∧ (¬urgent → ¬pressed → ¬host → ¬normal → cue → ∃ k, c.choice = some (.cue k) ∧ c.cueWaits k = true
      ∧ ∀ j, c.cueWaits j = true → (k.val + 12 - c.port.cuePtr.val) % 13 ≤ (j.val + 12 - c.port.cuePtr.val) % 13)
    ∧ (¬urgent → ¬pressed → ¬host → ¬normal → ¬cue → c.loaderWaits = true → c.choice = some .loader)
    ∧ (¬urgent → ¬pressed → ¬host → ¬normal → ¬cue → c.loaderWaits = false → slack → c.choice = some .drain)
    ∧ (¬urgent → ¬pressed → ¬host → ¬low → c.choice = none)
    ∧ (∀ r, c.turn r = true ↔ c.port.bus = some r ∨ (c.port.bus = none ∧ c.choice = some r))
    ∧ (∀ r, c.port.bus = some r → c.granted r = { c with port := { c.port with bus := none } })
    ∧ (∀ r, c.port.bus ≠ some r → c.granted r = { c with port := match r with
        | .clip v => { c.port with bus := none, clipPtr := v, hostCount := 0 }
        | .cue k => { c.port with bus := none, cuePtr := k, hostCount := 0 }
        | .host => { c.port with bus := none, hostCount := if c.lowChoice.isSome then min 8 (c.port.hostCount + 1) else 0 }
        | .drain | .loader => { c.port with bus := none, hostCount := 0 } })
    ∧ (c.lowChoice.isSome = true ↔ low)

/-! ## LOADING -/

/-- MAP_HEADER_READ: each grant takes the next eight words, and the fourth tests the header: signature, version, each region's base, end and length, and that
none meets another or the header; a map that passes is validated, one that fails leaves the part TRANSPARENT. The first grant is made at the loader's turn,
whoever else waits; not at its turn, nothing is; more than one follow while nobody else asks for the bus (R178, R179, R77, R82, R114, R140, R181). That one
command makes as many grants as its operand says, and takes the words grant by grant, is the model's choice (log 22), as is what a link still in its reset
sequence does (log 29) and that a pair is quiet from the end of a frame cut short there (log 24). The words of the header are those of section 11.1: the
regions' bases and lengths from 0x20 on, the lamp frame period in the low half of 0x0C, limited to 256 to 4,096 µs, and each channel's first bit in the byte
0x0E. -/
def Obligations.HeaderGrantsReadAndTestTheMap : Prop :=
  (∀ (s : State) (n : Nat), runs s → s.chip.loader.phase = .header → 1 ≤ n →
    let read (b : Chip) (ws : List Word) : Chip :=
      if ws.length < 32 then { b with loader := { b.loader with words := ws } }
      else if headerOk ws then
        { b with
          port := { b.port with decoder := some (headerRegions ws) }
          loader := { Loader.idle with phase := .tables }
          lamp := { b.lamp with period := headerPeriod ws }
          voices := tabulate 8 fun v => { b.voices[v] with lsbFirst := headerLsbFirst ws v } }
      else
        { b with
          port := { b.port with mode := .transparent, decoder := none }
          loader := .idle
          lamp := { b.lamp with lamps := Vector.replicate 96 .reset, frame := none }
          links := b.links |> mapAll fun k =>
            { Link.reset with
              state := if k.state = .failed then .failed else .idle
              quiet := if k.state = .sending then Config.ms 2 else k.quiet
              service := k.service
              loopback := k.loopback } }
    let words (k : Nat) := s.chip.loader.words ++ (List.range (8 * k)).map fun j => s.mem.word (s.chip.loader.words.length + j)
    let one := read (s.chip.granted .loader) (words 1)
    (s.chip.turn .loader = false → EndsAs (exec (.mapHeaderRead n) s) s s.chip)
    ∧ (s.chip.turn .loader = true → n = 1 ∨ one.turn .loader = false ∨ one.loader.phase ≠ .header → EndsAs (exec (.mapHeaderRead n) s) s one)
    ∧ (loaderOnly s.chip → s.chip.loader.words.length + 8 * n ≤ 32 →
        EndsAs (exec (.mapHeaderRead n) s) s (read (n.repeat (Chip.granted .loader) s.chip) (words n))))
  ∧ (∀ ws : List Word, headerOk ws = true ↔
        (ws.getD 0 0#32 = 0x34325053#32 ∧ ws.getD 2 0#32 = 1#32
          ∧ (∀ k : Fin 12, let r := (headerRegions ws)[k]
              r.base % 16 = 0 ∧ r.base + r.len ≤ 16777216 ∧ lengthOk k r.len = true)
          ∧ ∀ k : Fin 12, let r := (headerRegions ws)[k]
              ¬(r.base < 128 ∧ 0 < r.base + r.len)
              ∧ ∀ j : Fin 12, j ≠ k → ¬(r.base < (headerRegions ws)[j].base + (headerRegions ws)[j].len ∧ (headerRegions ws)[j].base < r.base + r.len)))
  ∧ (let is (k : Fin 12) (n : Nat) := ∀ len : Nat, lengthOk k len = true ↔ len = n
     is rControl 16 ∧ is rRequests 512 ∧ is rNotices 1024 ∧ is rMirror 1024 ∧ is rScenes 2048 ∧ is rClips 8192 ∧ is rLampHouse 384 ∧ is rBays 64
     ∧ is rTriggers 512 ∧ is rDrives 192
     ∧ (∀ len : Nat, lengthOk rCues len = true ↔ len % 16 = 0 ∧ 16 ≤ len ∧ len ≤ 65536)
     ∧ (∀ len : Nat, lengthOk rClipData len = true ↔ len % 16 = 0 ∧ 16 ≤ len))
  ∧ (∀ ws : List Word,
    let w (i : Nat) := ws.getD i 0#32
    (∀ k : Fin 12, (headerRegions ws)[k].base = (w (8 + 2 * k.val)).toNat ∧ (headerRegions ws)[k].len = (w (9 + 2 * k.val)).toNat)
    ∧ headerPeriod ws = max 256 (min 4096 ((w 3).toNat % 65536))
    ∧ ∀ v : VoiceId, headerLsbFirst ws v = (w 3).getLsbD (16 + v.val))
  ∧ [rControl, rRequests, rNotices, rMirror, rScenes, rCues, rClips, rClipData, rLampHouse, rBays, rTriggers, rDrives] = List.finRange 12

/-- TABLE_READ of a table at the loader's turn; not at its turn nothing is read. After the last trigger grant the filters start, START inputs take their
states, and every GUARD input guards its bay. A lamp takes its copy and its source's level at once; frames run from the last grant on (the model's choice:
log 19). A drive entry keeps its five fields as read, and is taken as enabled by R142's tests; the last drive grant tells each controller its addresses
(R54, R55, R58, R77, R142, R143, R180). The drives are OFFLINE, as every reset leaves them. That one command is one grant of 8 words, whose entries are
taken at that grant, is the model's choice (log 22). So is that a level which last changed before its filter started is timed from the start (log 59).
A trigger entry's fields lie where section 11.3 has them; it is taken with the role START or GUARD when its codes and the fields that role uses are in range,
and else with role NONE; each role's fields are kept. The debounce time and the active level of a code that is not listed are free values (log 17). -/
def Obligations.TablesAreTaken : Prop :=
  (∀ s : State, runs s → s.chip.loader.phase = .tables →
      let b := s.chip.granted .loader
      let g := s.chip.loader.trigger
      let h := s.chip.loader.bay
      let entry (t : InputId) : TriggerEntry :=
        if t.val / 2 = g then parseTrigger s.mem (s.chip.base rTriggers + 16 * t.val) else s.chip.trig.inputs[t].entry
      (∀ x, s.chip.turn .loader = false → EndsAs (exec (.tableRead x) s) s s.chip)
      ∧ (s.chip.turn .loader = true → g < 15 → EndsAs (exec (.tableRead .trigger) s) s
        { b with
          loader := { b.loader with trigger := g + 1 }
          trig := { b.trig with inputs := tabulate 32 fun t => { b.trig.inputs[t] with entry := entry t } } })
      ∧ (s.chip.turn .loader = true → g = 15 → (∀ d : DriveId, s.chip.drives[d].state = .offline) → Ends (exec (.tableRead .trigger) s) s fun c =>
          c.loader = { b.loader with trigger := 16 }
          ∧ (∀ t : InputId, c.trig.inputs[t].entry = entry t ∧ c.trig.inputs[t].running = true
              ∧ c.trig.inputs[t].filter = some (Config.ms (entry t).debounce) ∧ c.trig.inputs[t].settled = s.chip.trig.inputs[t].settled
              ∧ ((entry t).role = .start → c.trig.inputs[t].state = if (entry t).armed then .armed else .disarmed)
              ∧ ((entry t).role = .guard → c.guardIn[t] = some ((entry t).bay, true) ∧ c.bays[(entry t).bay].guarded = true))
          ∧ Same [.loader, .trig, .lamp, .guardIn, .bays, .signals, .postings] c b)
      ∧ (s.chip.turn .loader = true → h < 2 → EndsAs (exec (.tableRead .bay) s) s
        { b with
          loader := { b.loader with bay := h + 1 }
          lamp := { b.lamp with bays := tabulate 16 fun k =>
            if k.val / 8 = h then ⟨min 1023 ((s.mem.word (s.chip.base rBays / 4 + k.val)).setWidth 16).toNat,
              min 10000 ((s.mem.word (s.chip.base rBays / 4 + k.val)) >>> 16).toNat⟩ else b.lamp.bays[k] } }))
  ∧ (∀ s : State, runs s → s.chip.loader.phase = .tables → s.chip.turn .loader = true →
    let b := s.chip.granted .loader
    let g := s.chip.loader.lamp
    let h := s.chip.loader.drive
    (g < 12 → s.chip.loader.bay = 2 → Ends (exec (.tableRead .lampHouse) s) s fun c =>
        c.loader = { b.loader with lamp := g + 1 }
        ∧ (∀ l : LampId,
            let w := s.mem.word (s.chip.base rLampHouse / 4 + l.val)
            let x := s.chip.lamp.lamps[l]
            c.lamp.lamps[l] = if l.val / 8 = g then
              { x with
                copy := some w
                fade := none
                level := if (s.chip.lampOwner l).isSome then x.ownerLevel else if x.demand = .none then houseLevel w else x.demand.level }
              else x)
        ∧ c.lamp.bays = b.lamp.bays ∧ c.lamp.period = b.lamp.period
        ∧ c.lamp.frame = (if g = 11 ∧ b.lamp.frame = none then some 0 else b.lamp.frame)
        ∧ Same [.loader, .lamp, .postings] c b)
    ∧ (h < 6 → Ends (exec (.tableRead .drive) s) s fun c =>
        c.loader = { b.loader with drive := h + 1 }
        ∧ (∀ d : DriveId, c.drives[d] = if d.val / 4 = h then
            { s.chip.drives[d] with
              entry := parseDrive ((indices fun e : DriveId => e < d).map fun e => c.drives[e].entry) s.mem (s.chip.base rDrives + 8 * d.val) }
            else s.chip.drives[d])
        ∧ (∀ l : LinkId, c.links[l] = if h = 5 then
            { s.chip.links[l] with addrs := tabulate 12 fun a =>
              { s.chip.links[l].addrs[a] with configured := (List.finRange 24).any fun d =>
                c.drives[d].entry.enabled && c.drives[d].entry.link == l && c.drives[d].entry.addr == a } }
            else s.chip.links[l])
        ∧ Same [.loader, .drives, .links] c b))
  ∧ (∀ (earlier : List DriveEntry) (m : Memory) (x : Nat),
    let e := parseDrive earlier m x
    e.linkField = m.byte x ∧ e.addrField = m.byte (x + 1) ∧ e.bayField = m.byte (x + 2) ∧ e.settleField = m.byte (x + 3) ∧ e.enableField = m.byte (x + 4)
    ∧ (e.enabled = true ↔
        (m.byte (x + 4)).getLsbD 0 = true ∧ e.linkField.toNat ≤ 1 ∧ 1 ≤ e.addrField.toNat ∧ e.addrField.toNat ≤ 12 ∧ e.bayField.toNat ≤ 15
        ∧ 1 ≤ e.settleField.toNat ∧ ¬∃ f ∈ earlier, f.enabled = true ∧ f.link = e.link ∧ f.addr = e.addr)
    ∧ (e.enabled = true → e.link.val = e.linkField.toNat ∧ e.addr.val + 1 = e.addrField.toNat ∧ e.bay.val = e.bayField.toNat
        ∧ e.settle = e.settleField.toNat))
  ∧ (∀ (m : Memory) (x : Nat),
    let e := parseTrigger m x
    let n (k : Nat) := (m.byte (x + k)).toNat
    let start := n 0 = 1 ∧ n 2 ≤ 3 ∧ n 3 ≤ 1 ∧ n 5 ≤ 63 ∧ (n 7 ≤ 95 ∨ n 7 = 255) ∧ numberAt m (x + 8) 2 ≤ 1023
      ∧ (n 3 = 1 → 1 ≤ n 4 ∧ n 4 ≤ 20)
    let guard := n 0 = 2 ∧ n 2 ≤ 3 ∧ n 6 ≤ 15
    (e.role = .start ↔ start) ∧ (e.role = .guard ↔ guard)
    ∧ e.debounce = (if n 2 ≤ 3 then 10 * 2 ^ n 2 else Config.freeDebounce (m.byte (x + 2)))
    ∧ e.activeHigh = (if n 1 = 0 then false else if n 1 = 1 then true else Config.freeActiveHigh (m.byte (x + 1)))
    ∧ (start → e.dwellMode = decide (n 3 = 1) ∧ e.dwell = 500 * n 4 ∧ e.scene.val = n 5
        ∧ e.lamp.map Fin.val = (if n 7 = 255 then none else some (n 7)) ∧ e.level = numberAt m (x + 8) 2 ∧ e.armed = (m.byte (x + 10)).getLsbD 0)
    ∧ (guard → e.bay.val = n 6))

/-- LOOPBACK_CHECK: the four characters are A5, 5A, 0F and F0; one that comes back right leads to the next, or after the last to IDLE; any other answer
makes the link FAILED, with LINK FAILED (R137). `loopPos` is the position a check still waits for. -/
def Obligations.LoopbackCharactersAreJudged : Prop :=
  (List.range 4).map loopChar = [0xA5#8, 0x5A#8, 0x0F#8, 0xF0#8]
  ∧ ∀ (s : State) (l : LinkId) (ch : Option RxChar) (pos : Nat), runs s → s.chip.port.mode = .loading → s.chip.loader.drive = 6 →
    s.chip.links[l].loopPos = some pos →
    let good := ∃ x, ch = some x ∧ x.data = loopChar pos ∧ x.parityOk = true ∧ x.framingOk = true
    (good → pos ≠ 3 → EndsAs (exec (.loopbackCheck l ch) s) s (s.chip.modLink l fun k => { k with loopback := .running (pos + 1) }))
    ∧ (good → pos = 3 → EndsAs (exec (.loopbackCheck l ch) s) s (s.chip.modLink l fun k => { k with state := .idle, loopback := .done }))
    ∧ (¬good → Ends (exec (.loopbackCheck l ch) s) s fun c =>
        c.links = (s.chip.modLink l fun k => { k with state := .failed, loopback := .done }).links
        ∧ Handed srcDevice (.linkFailed c.links[0].failedCheck c.links[1].failedCheck l pos) c s.chip
        ∧ Same [.links, .sources] c s.chip)

/-- ENTER_LIVE once every read is made and both controllers have finished: 0 is posted to the notice produce index, the indices are set, the probes start, and
the device is LIVE. A START input ARMED in mode DWELL that is settled active, with no offer out, is timed anew and enters DWELLING, and its indicator lamp
takes the demand of R74 as a change of demand is taken (R89, R90). With the STOP line settled active or not settled the LINE cause is formed, and the device
enters HELD from there as every block takes it (R61, R74, R89, R136, R167, R171, R180, R194, R204). That the notice consume copy is 0 and the host's word is
not read is R194's, to which R180 refers (log 62). -/
def Obligations.LoadingEndsInLive : Prop :=
  ∀ s : State, runs s → s.chip.loaded = true → s.chip.hold.line = .absent → s.chip.hold.request = false →
    let b := s.chip
    let anew (t : InputId) := b.port.resetDrain = false ∧ b.trig.inputs[t].entry.role = .start ∧ b.trig.inputs[t].state = .armed
      ∧ b.trig.inputs[t].entry.dwellMode = true ∧ b.trig.inputs[t].level = some true ∧ b.trig.inputs[t].offerOut = false
    let started (c : Chip) := c.loader = .idle ∧ c.notice.pointer = b.notice.pointer ∧ c.notice.produce = 0 ∧ c.notice.consume = 0
      ∧ c.req = { b.req with indexRead := true, captures := [], inHand := false }
    let entered (c : Chip) := started c ∧ Port.core c.port = { Port.core b.port with mode := .live }
      ∧ (∀ l : LinkId, c.links[l] = if b.links[l].state = .failed then b.links[l] else
          { b.links[l] with addrs := b.links[l].addrs |> mapAll fun r => if r.configured then { r with probe := some 0, due := false } else r })
      ∧ (b.port.posts = [] → b.port.noticeBacklog = [] → c.port.posts.head? = some ⟨b.controlWord 2, 0#32, 0xF#4, false⟩)
      ∧ (∀ t : InputId, anew t → c.trig.inputs[t] = { b.trig.inputs[t] with
          state := .dwelling
          phaseOn := true
          alt := some (Config.ms 250)
          dwell := some (Config.ms b.trig.inputs[t].entry.dwell)
          cooldown := none })
      ∧ (∀ t : InputId, ¬anew t → c.trig.inputs[t] = b.trig.inputs[t])
      ∧ c.trig = { b.trig with inputs := c.trig.inputs }
      ∧ (∀ l : LampId, (∀ t, anew t → b.trig.inputs[t].entry.lamp ≠ some l) → c.lamp.lamps[l] = b.lamp.lamps[l])
      ∧ (∀ (l : LampId) (t : InputId), anew t → b.trig.inputs[t].entry.lamp = some l → c.lamp.lamps[l].demand = c.demandFor l
          ∧ c.lamp.lamps[l] = ({ b with port := c.port }.lampDemand l (c.demandFor l)).lamp.lamps[l])
      ∧ c.lamp = { b.lamp with lamps := c.lamp.lamps }
      ∧ Same [.port, .postings, .loader, .noticeIndex, .req, .links, .trig, .lamp] c b
    (b.hold.settled = some true → Ends (exec .enterLive s) s entered)
    ∧ (b.hold.settled ≠ some true → Ends (exec .enterLive s) s fun c =>
        let formed : Hold := { b.hold with
          line := if b.hold.settled = some false then .settled else .unsettled
          request := b.hold.settled = some false }
        started c ∧ Port.core c.port = { Port.core b.port with mode := .held } ∧ c.hold = formed
        ∧ ∃ d, entered d ∧ c = Chip.enterHeld { d with hold := formed })

/-- REQUEST_INDEX_READ: an index within 0–31 is taken; a consume index beyond is taken as 0 and posted, a produce index beyond as equal to the consume
index, each with BAD INDEX; after RESET SHOW the consume index is kept; writes captured meanwhile are applied after (R194). -/
def Obligations.RequestIndicesAreReadAtTheEntryToLive : Prop :=
  ∀ s : State, runs s → s.chip.req.indexRead = true → s.chip.turn .loader = true →
    let b := s.chip.granted .loader
    let q := s.chip.req
    let cw := s.mem.word (s.chip.controlWord 1)
    let pw := s.mem.word (s.chip.controlWord 0)
    let kept := q.keepConsume = true ∨ cw.toNat < 32
    let consume := if q.keepConsume then q.consume else if cw.toNat < 32 then cw.toNat else 0
    let produce := if pw.toNat < 32 then pw.toNat else consume
    Ends (exec .requestIndexRead s) s fun c =>
      c.req = { q with
        produce := q.captures.foldl (fun p x =>
          if (Word.merge (BitVec.ofNat 32 p) x.1 x.2).toNat < 32 then (Word.merge (BitVec.ofNat 32 p) x.1 x.2).toNat else p) produce
        consume := consume, indexRead := false, captures := [], keepConsume := false }
      ∧ Same [.req, .sources, .postings] c b
      ∧ (kept → c.port = b.port)
      ∧ (¬kept → b.port.posts = [] → b.port.requestBacklog = [] → c.port.posts = [⟨s.chip.controlWord 1, 0#32, 0xF#4, false⟩])
      ∧ (q.captures = [] → kept → pw.toNat < 32 → c.notice = b.notice)
      ∧ (q.captures = [] → kept → 32 ≤ pw.toNat → Handed srcDevice (.badIndex 0 pw) c b)
      ∧ (q.captures = [] → ¬kept → pw.toNat < 32 → Handed srcDevice (.badIndex 1 cw) c b)

/-! ## The hold and the inputs -/

/-- STOP_RAW_CHANGE times the filter anew; STOP_FILTER_SETTLE takes the raw level: in LIVE or HELD a settled active line makes both causes present, an
inactive one takes the LINE cause away, and the device is HELD exactly while a cause is left; it enters and leaves HELD as every block takes it (R165 to
R168, R171, R172). That this is so from step 7 of a RESET SHOW on too, where R173 has the port show LIVE, is the model's choice (log 56). That an expiry
first lets the time that is left pass for the whole part is the model's choice (log 2). -/
def Obligations.StopLineFormsAndClearsTheHold : Prop :=
  (∀ (s : State) (high : Bool), runs s → EndsAs (exec (.stopRawChange high) s) s
    { s.chip with hold :=
      if s.chip.hold.raw = high then s.chip.hold
      else { s.chip.hold with raw := high, filter := if s.chip.hold.settled = some high then none else some (Config.ms 10) } })
  ∧ (∀ (s : State) (r : Nat), runs s → Sound s → s.chip.hold.filter = some r →
    let a := s.chip.advance r
    let raw := s.chip.hold.raw
    Ends (exec .stopFilterSettle s) s fun c =>
      c.hold = { a.hold with
        settled := some raw
        filter := none
        line := if a.running then (if raw then .absent else .settled) else a.hold.line
        request := a.hold.request || (a.running && !raw) }
      ∧ c.port.mode = (if a.running then (if c.hold.line = .absent ∧ c.hold.request = false then .live else .held) else a.port.mode)
      ∧ Port.core c.port = { Port.core a.port with mode := c.port.mode }
      ∧ (a.port.mode = .live → raw = false → c = Chip.enterHeld { a with hold := c.hold })
      ∧ (a.port.mode = .held → raw = true → a.hold.line ≠ .absent → a.hold.request = false → c = Chip.leaveHeld { a with hold := c.hold })
      ∧ (∀ p ∈ [Part.loader, .req, .noticeIndex, .arbiter], sameAt c a p)
      ∧ (a.running = false → Same [.hold] c a))

/-- TRIGGER_RAW_CHANGE times the input's filter anew; TRIGGER_FILTER_SETTLE takes the raw level. A START input fires on a settled change to active in LIVE,
ARMED, with no offer out; in mode DWELL it enters DWELLING, and leaves it on a settled change to inactive; a first settling starts nothing. No other input
changes (R56, R57, R59, R60). From step 6 of a RESET SHOW on nothing fires (log 26). That an expiry first lets the time that is left pass for the whole part
is the model's choice (log 2). -/
def Obligations.StartInputsFireOnSettledChanges : Prop :=
  (∀ (s : State) (t : InputId) (high : Bool), runs s → EndsAs (exec (.triggerRawChange t high) s) s
    (s.chip.modInput t fun x =>
      if x.raw = high then x
      else { x with raw := high, filter := if x.running && x.settled != some high then some (Config.ms x.entry.debounce) else none }))
  ∧ (∀ (s : State) (t : InputId) (r : Nat), runs s → s.chip.trig.inputs[t].filter = some r → s.chip.trig.inputs[t].entry.role ≠ .guard →
    let a := s.chip.advance r
    let x := a.trig.inputs[t]
    let y := { x with settled := some x.raw, filter := none }
    let z := if x.entry.role = .start ∧ x.settled ≠ none then startAfter (a.isLive && !a.port.resetDrain) (x.raw == x.entry.activeHigh) y else y
    Ends (exec (.triggerFilterSettle t) s) s fun c =>
      c.trig = { a.trig with
        inputs := updAt a.trig.inputs t fun _ => z
        offers := if z.offerOut && !y.offerOut then a.trig.offers ++ [⟨y.entry.scene, .trigger t⟩] else a.trig.offers }
      ∧ c.signals = a.signals ++ [.input t]
      ∧ Same [.trig, .lamp, .postings, .signals] c a)

/-- TRIGGER_FILTER_SETTLE of a GUARD input: its source of the bay takes its level, GUARD CHANGE is handed, and the bay is guarded while a source is true.
Where it becomes guarded, its MOVING drives, and its STARTING ones with the move at the link, are HALTING for the guard, each with a HALT handed to its
link, and a move that waits for its retry is withdrawn (R58, R153, R159, R160). That a move left at the link by a FAULTED drive is called back with a HALT
is the model's reading (log 52); that the HALTs join a link by rising drive number is its choice (log 54). That an expiry first lets the time that is left
pass for the whole part is the model's choice (log 2). -/
def Obligations.GuardInputsGuardTheirBay : Prop :=
  ∀ (s : State) (t : InputId) (r : Nat), runs s → s.chip.trig.inputs[t].filter = some r → s.chip.trig.inputs[t].entry.role = .guard →
    let a := s.chip.advance r
    let x := a.trig.inputs[t]
    let b := x.entry.bay
    let active := x.raw == x.entry.activeHigh
    let atBay (d : DriveId) := a.drives[d].entry.enabled = true ∧ a.drives[d].entry.bay = b
    Ends (exec (.triggerFilterSettle t) s) s fun c =>
      c.guardIn = updAt a.guardIn t (fun _ => some (b, active))
      ∧ (let input := (List.finRange 32).any fun u => c.guardIn[u] == some (b, true)
         c.bays = updAt a.bays b fun y =>
          { y with guarded := input || y.hostGuard || a.isHeld, input := input, host := y.hostGuard, hold := a.isHeld })
      ∧ (let becomes := a.bays[b].guarded = false ∧ c.bays[b].guarded = true
         (∀ d : DriveId, becomes → atBay d → c.drives[d] = haltedDrive a.drives[d] .guard)
         ∧ (∀ d : DriveId, ¬(becomes ∧ atBay d) → c.drives[d] = a.drives[d])
         ∧ (∀ l : LinkId, (becomes → c.links[l] = guardedLink a l
                ((List.finRange 24).filter fun d => a.drives[d].entry.enabled && a.drives[d].entry.bay == b))
              ∧ (¬becomes → c.links[l] = a.links[l])))
      ∧ (a.claims.waiting = [] →
          c.trig = { a.trig with inputs := updAt a.trig.inputs t fun x => { x with settled := some x.raw, filter := none } }
          ∧ Handed (srcInput t) (.guardChange t b (some active)) c a
          ∧ Same [.trig, .guardIn, .bays, .sources, .drives, .links, .postings, .signals] c a)
      ∧ (∀ p ∈ [Part.port, .arbiter, .loader, .req, .noticeIndex, .hold, .voices], sameAt c a p)

/-- DWELL_TIMER_EXPIRY: the input leaves DWELLING for ARMED and its offer is out. COOLDOWN_TIMER_EXPIRY: it enters ARMED, or, a DWELL input settled active
in LIVE with no offer out, DWELLING. INDICATOR_ALTERNATION_STEP: the phase turns, and the lamp that shows the demand steps with it. No other input changes
(R60, R61, R71, R74, R90). That none enters DWELLING from step 6 of a RESET SHOW on is the model's reading (log 26). That an expiry first lets the time that
is left pass for the whole part is the model's choice (log 2). -/
def Obligations.InputTimersExpire : Prop :=
  (∀ (s : State) (t : InputId) (r : Nat), runs s → s.chip.trig.inputs[t].dwell = some r →
    let a := s.chip.advance r
    Ends (exec (.dwellTimerExpiry t) s) s fun c =>
      c.trig = { a.trig with
        inputs := updAt a.trig.inputs t fun x =>
          { x with state := .armed, phaseOn := false, alt := none, dwell := none, cooldown := none, offerOut := true }
        offers := a.trig.offers ++ [⟨a.trig.inputs[t].entry.scene, .trigger t⟩] }
      ∧ Same [.trig, .lamp, .postings] c a)
  ∧ (∀ (s : State) (t : InputId) (r : Nat), runs s → s.chip.trig.inputs[t].cooldown = some r →
    let a := s.chip.advance r
    let x := a.trig.inputs[t]
    let again := a.isLive && !a.port.resetDrain && x.entry.role == .start && x.entry.dwellMode && x.level == some true && !x.offerOut
    Ends (exec (.cooldownTimerExpiry t) s) s fun c =>
      c.trig = { a.trig with inputs := updAt a.trig.inputs t fun x =>
        if again then
          { x with state := .dwelling, phaseOn := true, alt := some (Config.ms 250), dwell := some (Config.ms x.entry.dwell), cooldown := none }
        else { x with state := .armed, phaseOn := false, alt := none, dwell := none, cooldown := none } }
      ∧ Same [.trig, .lamp, .postings] c a)
  ∧ (∀ (s : State) (t : InputId) (r : Nat), runs s → s.chip.trig.inputs[t].alt = some r →
    let a := s.chip.advance r
    let x := a.trig.inputs[t]
    Ends (exec (.indicatorAlternationStep t) s) s fun c =>
      c.trig = { a.trig with inputs := updAt a.trig.inputs t fun x => { x with phaseOn := !x.phaseOn, alt := some (Config.ms 250) } }
      ∧ Same [.trig, .lamp, .postings] c a
      ∧ (∀ l : LampId, x.entry.role = .start → x.state = .dwelling → x.entry.lamp = some l →
          (∀ u : InputId, u < t → a.trig.inputs[u].entry.lamp = some l → a.trig.inputs[u].demand = .none) →
          a.isHeld = false → a.lampOwner l = none → a.lamp.lamps[l].copy ≠ none →
          a.lamp.lamps[l].demand = .alternating x.entry.level x.phaseOn →
          c.lamp.lamps[l] =
            { a.lamp.lamps[l] with
              demand := .alternating x.entry.level (!x.phaseOn)
              level := if x.phaseOn then 0 else x.entry.level
              fade := none }))

/-! ## Offers and admission -/

/-- The tests of an offer in their order, the first that refuses deciding: valid flag, policy (a code that is none of the three is IGNORE), room (R64). -/
def Obligations.OffersAreJudgedInOrder : Prop :=
  ∀ (c : Chip) (scene : Fin 64) (r : RawScene),
    let queued := ∃ e ∈ c.trig.queue, e.scene = scene
    let inSlot (p : SlotState → Prop) := ∃ i : SlotId, c.slots[i].scene = scene.val ∧ p c.slots[i].state
    let early := inSlot fun st => st = .checking ∨ st = .claiming
    let flying := inSlot fun st => st ≠ .free
    let room (n : Nat) := if 16 ≤ n then some Dropped.queueFull else none
    (r.valid = false → c.refusal scene r = some .undefinedScene)
    ∧ (r.valid = true → r.policy ≠ 1 → r.policy ≠ 2 → queued ∨ flying → c.refusal scene r = some .ignored)
    ∧ (r.valid = true → r.policy ≠ 1 → r.policy ≠ 2 → ¬(queued ∨ flying) → c.refusal scene r = room c.trig.queue.length)
    ∧ (r.valid = true → r.policy = 1 → queued ∨ early → c.refusal scene r = some .ignored)
    ∧ (r.valid = true → r.policy = 1 → ¬(queued ∨ early) → c.refusal scene r = room c.trig.queue.length)
    ∧ (r.valid = true → r.policy = 2 → c.refusal scene r = room (c.trig.queue.filter fun e => e.scene != scene).length)

/-- OFFER_VERDICT, when the trigger unit's read returns: a refusal changes no queue entry and no instance, and is told to the input (TRIGGER DROPPED) or
replied; an acceptance appends the entry with the counter's sequence number, and the input is SPENT or the reply is ACCEPTED. Under RESTART the scene's
entries are removed first, and its one running instance, where there is one, ends as RESTARTED: FREE from CHECKING and CLAIMING, by way of ENDING from
TIMING and WAITING; the slots on the claim waiting list are in CLAIMING, each once (R36). A discarded offer's read is dropped (R29, R30, R32, R63 to R68).
That the reports of a RESTART's step are taken after the reply is the model's choice (log 71). -/
def Obligations.VerdictsReachTheirOrigin : Prop :=
  ∀ s : State, runs s → s.chip.turn (.cue 12) = true →
    let b := s.chip.granted (.cue 12)
    (s.chip.trig.staleRead = true → EndsAs (exec .offerVerdict s) s { b with trig := { b.trig with staleRead := false } })
    ∧ ∀ (o : Offer) (os : List Offer), s.chip.trig.staleRead = false → s.chip.trig.offers = o :: os →
      let a : Chip := { b with trig := { b.trig with offers := os } }
      let rec_ := parseScene s.mem (s.chip.base rScenes + 32 * o.scene.val)
      let entry : QueueEntry := ⟨o.scene, o.origin, a.trig.seq, rec_.bay, rec_.cooldown⟩
      (∀ w t, a.refusal o.scene rec_ = some w → o.origin = .trigger t → Ends (exec .offerVerdict s) s fun c =>
          c.trig.queue = a.trig.queue ∧ c.trig.seq = a.trig.seq ∧ c.trig.offers = os ∧ c.trig.inputs[t].offerOut = false
          ∧ (a.trig.inputs[t].disarmPending = false → c.trig.inputs[t] = { a.trig.inputs[t] with offerOut := false })
          ∧ (a.trig.inputs[t].disarmPending = true → c.trig.inputs[t].state = .disarmed ∧ c.trig.inputs[t].disarmPending = false)
          ∧ (∀ u : InputId, u ≠ t → c.trig.inputs[u] = a.trig.inputs[u])
          ∧ Handed (srcInput t) (.triggerDropped t o.scene.val w) c a
          ∧ Same [.trig, .lamp, .sources, .postings] c a)
      ∧ (∀ w tag, a.refusal o.scene rec_ = some w → o.origin = .request tag → Replies (exec .offerVerdict s) s w.reply 0 fun c => c = a)
      ∧ (∀ t, a.refusal o.scene rec_ = none → rec_.policy ≠ 2 → o.origin = .trigger t → Ends (exec .offerVerdict s) s fun c =>
          c.trig = { a.trig with
            queue := a.trig.queue ++ [entry]
            seq := a.trig.seq + 1#16
            inputs := updAt a.trig.inputs t fun x =>
              { x with state := .spent, offerOut := false, phaseOn := false, alt := none, dwell := none, cooldown := none } }
          ∧ Same [.trig, .lamp, .postings] c a)
      ∧ (∀ tag, a.refusal o.scene rec_ = none → rec_.policy ≠ 2 → o.origin = .request tag →
          Replies (exec .offerVerdict s) s .accepted a.trig.seq.toNat fun c =>
            c.trig = { a.trig with queue := a.trig.queue ++ [entry], seq := a.trig.seq + 1#16 } ∧ Same [.trig, .postings] c a)
      ∧ (∀ t, a.refusal o.scene rec_ = none → rec_.policy = 2 → o.origin = .trigger t →
          (∀ i : SlotId, a.slots[i].scene = o.scene.val → a.slots[i].state = .free ∨ a.slots[i].state = .ending) →
          Ends (exec .offerVerdict s) s fun c =>
            c.trig.queue = (a.trig.queue.filter fun e => e.scene != o.scene) ++ [entry] ∧ c.trig.seq = a.trig.seq + 1#16
            ∧ c.trig.inputs[t].state = .spent ∧ c.trig.inputs[t].offerOut = false ∧ Same [.trig, .lamp, .postings] c a)
      ∧ (∀ tag, a.refusal o.scene rec_ = none → rec_.policy = 2 → o.origin = .request tag →
          (∀ i : SlotId, a.slots[i].scene = o.scene.val → a.slots[i].state = .free ∨ a.slots[i].state = .ending) →
          Replies (exec .offerVerdict s) s .accepted a.trig.seq.toNat fun c =>
            c.trig.queue = (a.trig.queue.filter fun e => e.scene != o.scene) ++ [entry] ∧ c.trig.seq = a.trig.seq + 1#16
            ∧ Same [.trig, .lamp, .postings] c a)
      ∧ (∀ i : SlotId, a.refusal o.scene rec_ = none → rec_.policy = 2 → waitersOk a →
          (∀ j : SlotId, (a.slots[j].scene = o.scene.val ∧ a.slots[j].state ≠ .free ∧ a.slots[j].state ≠ .ending) ↔ j = i) →
          let ends (c : Chip) : Prop :=
            (a.slots[i].state = .checking ∨ a.slots[i].state = .claiming → c.slots[i] = .free)
            ∧ (a.slots[i].state = .timing ∨ a.slots[i].state = .waiting → TakesCause i .restarted a.slots[i] c a)
          (∀ t, o.origin = .trigger t → Ends (exec .offerVerdict s) s ends)
          ∧ (∀ tag, o.origin = .request tag → Replies (exec .offerVerdict s) s .accepted a.trig.seq.toNat ends))

/-- In LIVE, from the end of any step on, the queue's entries take the FREE slots, the first the lowest-numbered, the next the next, until one of both runs
out: each slot is CHECKING with its entry's scene, origin and bay, its scene entry span is installed, and its definition is asked for. Leaving HELD is such a
step. In any other mode, and in step 8 of a RESET SHOW (log 26), nobody is admitted (R5, R6, R172). That the definition read waits behind an abandoned read of
the slot that is still at the arbiter is the model's choice (log 15). -/
def Obligations.AdmissionsFillTheFreeSlots : Prop :=
  (∀ (c : Chip) (n : Nat), c.isLive = false → c.admitAll n = c)
  ∧ (∀ c : Chip, c.port.resetDrain = true → c.admissions = c)
  ∧ (∀ (c : Chip) (e : QueueEntry) (q : List QueueEntry) (i : SlotId), c.isLive = true → c.trig.queue = e :: q → c.slots[i].state = .free →
    (∀ j : SlotId, j < i → c.slots[j].state ≠ .free) →
    let a := c.base rScenes + 32 * e.scene.val
    let d := c.admitAll 1
    d.slots[i] = { Slot.free with state := .checking, scene := e.scene.val, origin := some e.origin, admissionBay := some e.bay }
      ∧ d.trig = { c.trig with queue := q }
      ∧ d.port.sceneSpan[i] = some ⟨a, a + 31⟩ ∧ (∀ j : SlotId, j ≠ i → d.port.sceneSpan[j] = c.port.sceneSpan[j])
      ∧ Asks i .definition d c ∧ OtherSlots i d c
      ∧ Same [.slots, .trig, .spans, .fetch, .postings] d c)
  ∧ (∀ s : State, noWrite s → noReset s → s.chip.signals = [] → s.chip.isLive = true → s.chip.port.resetDrain = false →
    s.chip.trig.queue.length ≤ 16 →
    let free := (List.finRange 12).filter fun i => s.chip.slots[i].state == .free
    (∀ (n : Nat) (i : SlotId) (e : QueueEntry), free[n]? = some i → s.chip.trig.queue[n]? = some e →
        s.settle.chip.slots[i] =
          { Slot.free with state := .checking, scene := e.scene.val, origin := some e.origin, admissionBay := some e.bay })
      ∧ (∀ i : SlotId, s.chip.slots[i].state ≠ .free → s.settle.chip.slots[i] = s.chip.slots[i])
      ∧ s.settle.chip.trig = { s.chip.trig with queue := s.chip.trig.queue.drop free.length })

/-! ## The slots -/

/-- DEFINITION_READ_RETURN: a definition that passes is copied, its cue span installed and the check of cue 0 asked for; one that fails ends the slot as
SCENE UNDEFINED: FREE, its spans gone, SCENE ENDED handed, a SPENT input released. An abandoned read's data are dropped (R6, R29, R33). The fields are read
where section 11.3 has them, as unsigned numbers, and a definition passes when R2's tests all hold: valid flag, first cue, cue count and their sum, bay,
priority, policy, run limit, cooldown, claim wait limit, voices needed, and claim lists that name lamps and drives, none twice; the copy holds these values.
That a slot's read waits behind an abandoned one still at the arbiter is the model's choice (log 15). -/
def Obligations.DefinitionReadOpensTheCheck : Prop :=
  (∀ (s : State) (i : SlotId), runs s → s.chip.turn (slotRequester i) = true →
    let b := (s.chip.granted (slotRequester i)).fetchDone i
    let d := (parseScene s.mem (s.chip.base rScenes + 32 * s.chip.slots[i].scene)).accept (s.chip.regionLen rCues / 16)
    (s.chip.fetch[i].cur = some (.definition, true) → EndsAs (exec (.definitionReadReturn i) s) s b)
    ∧ (∀ x, s.chip.fetch[i].cur = some (.definition, false) → d = some x → Ends (exec (.definitionReadReturn i) s) s fun c =>
        let first := s.chip.base rCues + 16 * x.firstCue
        c.slots[i] = { b.slots[i] with defn := some x, checkLoops := [] } ∧ OtherSlots i c b
        ∧ c.port.cueSpan = updAt b.port.cueSpan i (fun _ => some ⟨first, first + 16 * x.cueCount - 1⟩)
        ∧ c.port.sceneSpan = b.port.sceneSpan ∧ Asks i (.check 0) c b
        ∧ Same [.slots, .spans, .fetch] c b)
    ∧ (s.chip.fetch[i].cur = some (.definition, false) → d = none → s.chip.claims.waiting.contains i = false →
        Ends (exec (.definitionReadReturn i) s) s fun c =>
          c.slots[i] = .free ∧ OtherSlots i c b ∧ c.port.sceneSpan[i] = none ∧ c.port.cueSpan[i] = none
          ∧ Handed (srcSlot i) (.sceneEnded (Slot.sceneEnd { b.slots[i] with cause := some .sceneUndefined })) c b
          ∧ (∀ t, b.slots[i].origin = some (.trigger t) → b.trig.inputs[t].state = .spent → c.trig.inputs[t].state ≠ .spent)
          ∧ Same [.slots, .spans, .fetch, .sources, .trig, .lamp, .postings] c b))
  ∧ (∀ (m : Memory) (a : Nat), parseScene m a =
      { valid := (m.byte a).getLsbD 0
        priority := numberAt m (a + 1) 1
        bay := numberAt m (a + 2) 1
        policy := numberAt m (a + 3) 1
        firstCue := numberAt m (a + 4) 2
        cueCount := numberAt m (a + 6) 2
        runLimit := numberAt m (a + 8) 2
        cooldown := numberAt m (a + 10) 2
        claimWait := numberAt m (a + 12) 1
        voices := numberAt m (a + 13) 1
        lamps := (List.range 8).map fun k => numberAt m (a + 16 + k) 1
        drives := (List.range 4).map fun k => numberAt m (a + 24 + k) 1 })
  ∧ (∀ (records : Nat) (r : RawScene),
    let named (xs : List Nat) := xs.filter fun n => n ≠ 255
    let passes := r.valid = true ∧ r.firstCue ≤ 4095 ∧ 1 ≤ r.cueCount ∧ r.cueCount ≤ 256 ∧ r.firstCue + r.cueCount ≤ records
      ∧ r.bay ≤ 15 ∧ r.priority ≤ 3 ∧ r.policy ≤ 2 ∧ r.runLimit ≤ 3600 ∧ r.cooldown ≤ 600 ∧ r.claimWait ≤ 60 ∧ r.voices ≤ 2
      ∧ (∀ n ∈ named r.lamps, n ≤ 95) ∧ (∀ n ∈ named r.drives, n ≤ 23) ∧ (named r.lamps).Nodup ∧ (named r.drives).Nodup
    (¬passes → r.accept records = none)
    ∧ (passes → ∃ d, r.accept records = some d ∧ d.firstCue = r.firstCue ∧ d.cueCount = r.cueCount ∧ d.bay.val = r.bay ∧ d.priority = r.priority
        ∧ (r.policy = 0 → d.policy = .ignore) ∧ (r.policy = 1 → d.policy = .queueOne) ∧ (r.policy = 2 → d.policy = .restart)
        ∧ d.runLimit = r.runLimit ∧ d.cooldown = r.cooldown ∧ d.claimWait = r.claimWait ∧ d.voices = r.voices
        ∧ d.lamps.map Fin.val = named r.lamps ∧ d.drives.map Fin.val = named r.drives))

/-- CUE_CHECK_READ: a cue that fails R7's tests ends the slot as SCENE INVALID with its index; one that passes leads to the next; after the last the slot
is CLAIMING, and, alone on the list, it is granted its claims, or refused with claim wait limit 0, or waits (R7, R8, R10, R11, R29, R42, R43, R48, R49).
The record's fields and flags are read where section 11.3 has them. It says a LAMP, SPEAK, HUSH, MOVE, WAIT or LOOP by its kind, with the parameters of that
kind, if they name a lamp, a voice index 0 or 1 (the voices needed are at most 2), a drive, a move code, a condition, an input. It passes R7's tests exactly
when its kind is one of these, its parameters fit the claims and the limits, no LOOP of `loops`, those found before it, stands at or after its target, and
the last cue has no LINK.
That a slot's read waits behind an abandoned one still at the arbiter is the model's choice (log 15). -/
def Obligations.CueCheckEndsInClaiming : Prop :=
  (∀ (s : State) (i : SlotId) (k : Nat) (d : SceneDef), runs s → s.chip.turn (slotRequester i) = true →
    s.chip.fetch[i].cur = some (.check k, false) → s.chip.slots[i].defn = some d →
    let b := (s.chip.granted (slotRequester i)).fetchDone i
    let r := parseCue s.mem (s.chip.base rCues + 16 * (d.firstCue + k))
    let passes := cuePasses d k s.chip.slots[i].checkLoops r
    (passes = false → s.chip.slots[i].state = .checking → s.chip.claims.waiting.contains i = false →
      Ends (exec (.cueCheckRead i) s) s fun c =>
        c.slots[i] = .free ∧ OtherSlots i c b ∧ c.port.sceneSpan[i] = none ∧ c.port.cueSpan[i] = none
        ∧ Handed (srcSlot i) (.sceneEnded (Slot.sceneEnd { b.slots[i] with failing := some k, cause := some .sceneInvalid })) c b
        ∧ Same [.slots, .spans, .fetch, .sources, .trig, .lamp, .postings] c b)
    ∧ (passes = true → k + 1 ≠ d.cueCount → Ends (exec (.cueCheckRead i) s) s fun c =>
        c.slots[i] = { b.slots[i] with checkLoops := if r.isLoop then k :: b.slots[i].checkLoops else b.slots[i].checkLoops }
        ∧ OtherSlots i c b ∧ Asks i (.check (k + 1)) c b ∧ Same [.slots, .fetch] c b)
    ∧ (passes = true → k + 1 = d.cueCount → s.chip.claims.waiting = [] →
        let w := b.modSlot i fun x =>
          { x with
            state := .claiming
            checkLoops := []
            firstReview := true
            claimTimer := if d.claimWait = 0 then none else some (Config.sec d.claimWait) }
        (w.grantable i = true → Ends (exec (.cueCheckRead i) s) s fun c =>
            c.slots[i].state = .timing ∧ c.slots[i].clock = 0 ∧ c.slots[i].offset = some 0 ∧ c.slots[i].current = some ⟨0, none, false⟩
            ∧ c.slots[i].runTimer = (if d.runLimit = 0 then none else some (Config.sec d.runLimit)) ∧ c.slots[i].claimTimer = none
            ∧ (∀ l ∈ d.lamps, c.claims.lamps[l].owner = some i) ∧ (∀ x ∈ d.drives, c.claims.drives[x].owner = some i)
            ∧ c.slots[i].voice0 = (w.voicesToTake i)[0]? ∧ c.slots[i].voice1 = (w.voicesToTake i)[1]?
            ∧ (∀ v ∈ w.voicesToTake i, c.claims.voices[v].owner = some i)
            ∧ c.claims.waiting = [] ∧ Asks i (.run 0) c b ∧ OtherSlots i c b
            ∧ Same [.slots, .fetch, .claims, .lamp, .postings] c b)
        ∧ (w.grantable i = false → d.claimWait = 0 → Ends (exec (.cueCheckRead i) s) s fun c =>
            c.slots[i] = .free ∧ c.claims.waiting = [] ∧ OtherSlots i c b
            ∧ Handed (srcSlot i) (.sceneEnded (Slot.sceneEnd { b.slots[i] with cause := some .claimRefused })) c b
            ∧ Same [.slots, .spans, .fetch, .claims, .sources, .trig, .lamp, .postings] c b)
        ∧ (w.grantable i = false → d.claimWait ≠ 0 → Ends (exec (.cueCheckRead i) s) s fun c =>
            c.slots[i] = { w.slots[i] with firstReview := false } ∧ c.claims.waiting = [i] ∧ OtherSlots i c b
            ∧ Same [.slots, .claims, .postings] c b)))
  ∧ (∀ (m : Memory) (a : Nat),
    let r := parseCue m a
    r.kind = m.byte a ∧ r.flags = m.byte (a + 1) ∧ r.offset.toNat = numberAt m (a + 2) 2 ∧ r.b4 = m.byte (a + 4) ∧ r.b5 = m.byte (a + 5)
    ∧ r.h6.toNat = numberAt m (a + 6) 2 ∧ r.h8.toNat = numberAt m (a + 8) 2
    ∧ r.link = r.flags.getLsbD 0 ∧ r.note = r.flags.getLsbD 1 ∧ r.await = r.flags.getLsbD 2 ∧ r.resume = r.flags.getLsbD 3
    ∧ r.strict = r.flags.getLsbD 4)
  ∧ (∀ r : CueRec,
    let byte6 := r.h6.toNat % 256
    (∀ l level fade, r.op = some (.lamp l level fade) ↔ r.kind = 1#8 ∧ l.val = r.b4.toNat ∧ level = r.h6.toNat ∧ fade = r.h8.toNat)
    ∧ (∀ v clip volume, r.op = some (.speak v clip volume) ↔ r.kind = 2#8 ∧ v.val = r.b4.toNat ∧ clip = r.b5.toNat ∧ volume = byte6)
    ∧ (∀ v fade, r.op = some (.hush v fade) ↔ r.kind = 3#8 ∧ v.val = r.b4.toNat ∧ fade = r.h6.toNat)
    ∧ (∀ d code arg, r.op = some (.move d code arg) ↔ r.kind = 4#8 ∧ d.val = r.b4.toNat ∧ arg = r.h6
        ∧ ((code = .goto ∧ r.b5 = 1#8) ∨ (code = .home ∧ r.b5 = 2#8) ∨ (code = .cycle ∧ r.b5 = 3#8)))
    ∧ (∀ cond timeout, r.op = some (.wait cond timeout) ↔ r.kind = 5#8 ∧ timeout = r.h8.toNat
        ∧ ((∃ v k, cond = .mark v k ∧ r.b4 = 1#8 ∧ v.val = r.b5.toNat ∧ k.val + 1 = byte6)
          ∨ (∃ d, cond = .settle d ∧ r.b4 = 2#8 ∧ d.val = r.b5.toNat)
          ∨ (∃ t active, cond = .input t active ∧ r.b4 = 3#8 ∧ t.val = r.b5.toNat ∧ byte6 = if active then 1 else 0)))
    ∧ (∀ rel count, r.op = some (.loop rel count) ↔ r.kind = 6#8 ∧ rel = r.b4.toNat ∧ count = r.b5.toNat)
    ∧ (r.isLoop = true ↔ r.kind = 6#8))
  ∧ (∀ (d : SceneDef) (k : Nat) (loops : List Nat) (r : CueRec),
    let target := r.b4.toNat
    let claims (n : Nat) := ∃ u ∈ d.drives, u.val = n
    let byte6 := r.h6.toNat % 256
    cuePasses d k loops r = true ↔
      1 ≤ r.kind.toNat ∧ r.kind.toNat ≤ 6
      ∧ (r.kind = 1#8 → (∃ l ∈ d.lamps, l.val = target) ∧ r.h6.toNat ≤ 1023 ∧ r.h8.toNat ≤ 60000)
      ∧ (r.kind = 2#8 → target < min 2 d.voices)
      ∧ (r.kind = 3#8 → target < min 2 d.voices ∧ r.h6.toNat ≤ 10000)
      ∧ (r.kind = 4#8 → claims target ∧ 1 ≤ r.b5.toNat ∧ r.b5.toNat ≤ 3)
      ∧ (r.kind = 5#8 → (target = 1 ∧ r.b5.toNat < min 2 d.voices ∧ 1 ≤ byte6 ∧ byte6 ≤ 4) ∨ (target = 2 ∧ claims r.b5.toNat)
          ∨ (target = 3 ∧ r.b5.toNat ≤ 31 ∧ byte6 ≤ 1))
      ∧ (r.kind = 6#8 → target ≠ 0 ∧ target ≤ k ∧ r.b5.toNat ≠ 0 ∧ ∀ j ∈ loops, ¬(k - target ≤ j ∧ j < k))
      ∧ (k + 1 = d.cueCount → r.link = false))

/-- The claim waiting list. A slot is inserted after every waiter of at least its priority and before the first of a lower one; a head it is put ahead of,
and a waiter that leaves, lose their reservations. A review walks the list from the head: a waiter whose claims are all available is granted, one with limit
0 is refused at its first review, the first that stays reserves, the others wait. A priority-0 owner with no shadow is preempted and becomes the shadow. A
review follows an insertion, a leaving, a release, and an unowned drive that comes to be IDLE (R2, R36 to R49). That a refused waiter is FREE before the
walk goes on is the model's choice (log 58).
That a slot's read waits behind an abandoned one still at the arbiter is the model's choice (log 15). -/
def Obligations.ClaimListIsReviewedInOrder : Prop :=
  (∀ (n : Nat) (r : RawScene) (d : SceneDef), r.accept n = some d → d.lamps.Nodup ∧ d.drives.Nodup)
  ∧ ∀ (c : Chip) (i : SlotId),
    let prio (w : SlotId) := c.slots[w].priority
    let lamps := c.slots[i].claimLamps
    let drives := c.slots[i].claimDrives
    let needed := c.slots[i].voicesNeeded
    let preempts (l : LampId) :=
      (∃ o, c.claims.lamps[l].owner = some o ∧ prio o = 0) ∧ c.claims.lamps[l].shadow = none ∧ 1 ≤ prio i
    let without (h : SlotId) (r : Option SlotId) := if r = some h then none else r
    let unreserved (h : SlotId) (t : ClaimTable) : Prop :=
      (∀ l : LampId, t.lamps[l] = { c.claims.lamps[l] with reservation := without h c.claims.lamps[l].reservation })
      ∧ (∀ d : DriveId, t.drives[d] = { c.claims.drives[d] with reservation := without h c.claims.drives[d].reservation })
      ∧ (∀ v : VoiceId, t.voices[v] = { c.claims.voices[v] with reservation := without h c.claims.voices[v].reservation })
    let voices := (List.finRange 8).filter fun v : VoiceId =>
      c.claims.voices[v].owner.isNone && (c.claims.voices[v].reservation.isNone || c.claims.voices[v].reservation == some i)
    -- insertion and leaving
    (let t := (c.joinList i).claims
     (∃ us vs, c.claims.waiting = us ++ vs ∧ t.waiting = us ++ i :: vs ∧ (∀ u ∈ us, prio i ≤ prio u) ∧ (∀ v, vs.head? = some v → prio v < prio i))
     ∧ (∀ h, c.claims.waiting.head? = some h → prio h < prio i → unreserved h t)
     ∧ ((∀ h, c.claims.waiting.head? = some h → prio i ≤ prio h) → t = { c.claims with waiting := t.waiting })
     ∧ Same [.claims] (c.joinList i) c)
    ∧ (c.claims.leave i).waiting = c.claims.waiting.filter (fun w => w != i) ∧ unreserved i (c.claims.leave i)
    -- the walk
    ∧ c.review = Chip.walk c.claims.waiting false c
    ∧ (∀ met, Chip.walk [] met c = c)
    ∧ (∀ ws met,
      (c.grantable i = true → Chip.walk (i :: ws) met c = Chip.walk ws met (c.grant i))
      ∧ (c.grantable i = false → c.slots[i].claimWait = 0 → c.slots[i].firstReview = true →
          Chip.walk (i :: ws) met c = Chip.walk ws met (c.refuse i))
      ∧ (c.grantable i = false → c.slots[i].claimWait ≠ 0 ∨ c.slots[i].firstReview = false →
          let d := c.modSlot i fun s => { s with firstReview := false }
          Chip.walk (i :: ws) met c = Chip.walk ws true (if met then d else d.reserve i)))
    ∧ (c.grantable i = true ↔
        (∀ l ∈ lamps, (c.claims.lamps[l].reservation = none ∨ c.claims.lamps[l].reservation = some i)
            ∧ (c.claims.lamps[l].owner = none ∨ preempts l))
        ∧ (∀ d ∈ drives, (c.claims.drives[d].reservation = none ∨ c.claims.drives[d].reservation = some i)
            ∧ c.claims.drives[d].owner = none ∧ c.drives[d].state = .idle ∧ c.drives[d].service = none)
        ∧ needed ≤ voices.length)
    -- grant, refusal, reservation
    ∧ (lamps.Nodup →
        let d := c.grant i
        let taken := voices.take needed
        (∀ l : LampId, d.claims.lamps[l] = if l ∈ lamps then
            ⟨some i, if c.claims.lamps[l].owner.isSome then c.claims.lamps[l].owner else c.claims.lamps[l].shadow, none⟩
            else { c.claims.lamps[l] with reservation := without i c.claims.lamps[l].reservation })
        ∧ (∀ x : DriveId, d.claims.drives[x] = if x ∈ drives then ⟨some i, none⟩
            else { c.claims.drives[x] with reservation := without i c.claims.drives[x].reservation })
        ∧ (∀ v : VoiceId, d.claims.voices[v] = if v ∈ taken then ⟨some i, none⟩
            else { c.claims.voices[v] with reservation := without i c.claims.voices[v].reservation })
        ∧ d.claims.waiting = c.claims.waiting.filter (fun w => w != i)
        ∧ (∀ l : LampId, d.lamp.lamps[l] = if l ∈ lamps then
            { c.lamp.lamps[l] with ownerLevel := c.lamp.lamps[l].momentary, level := c.lamp.lamps[l].momentary, fade := none }
            else c.lamp.lamps[l])
        ∧ (let limit := match c.slots[i].defn with
            | some x => x.runLimit
            | none => 0
           d.slots[i] = { c.slots[i] with
            state := .timing
            current := some ⟨0, none, false⟩
            next := none
            clock := 0
            offset := some 0
            claimTimer := none
            runTimer := if limit = 0 then none else some (Config.sec limit)
            firstReview := false
            voice0 := taken[0]?
            voice1 := taken[1]?
            lamps := c.slots[i].lamps ++ lamps.map fun l => ⟨l, c.lamp.lamps[l].momentary, 0⟩ })
        ∧ Asks i (.run 0) d c ∧ OtherSlots i d c ∧ Same [.slots, .fetch, .claims, .lamp, .postings] d c)
    ∧ (let d := c.refuse i
       d.slots[i] = .free ∧ d.claims = c.claims.leave i ∧ OtherSlots i d c
       ∧ Handed (srcSlot i) (.sceneEnded (Slot.sceneEnd { c.slots[i] with cause := some .claimRefused })) d c
       ∧ Same [.slots, .spans, .fetch, .claims, .sources, .trig, .lamp, .postings] d c)
    ∧ (let d := c.reserve i
       let mine := (List.finRange 8).filter fun v : VoiceId => c.claims.voices[v].reservation == some i
       let more := ((List.finRange 8).filter fun v : VoiceId =>
         c.claims.voices[v].owner.isNone && c.claims.voices[v].reservation.isNone).take (needed - mine.length)
       (∀ l : LampId, (l ∈ lamps ∧ c.claims.lamps[l].reservation = none ∧ (c.claims.lamps[l].owner = none ∨ preempts l) →
            d.claims.lamps[l] = { c.claims.lamps[l] with reservation := some i })
          ∧ (¬(l ∈ lamps ∧ c.claims.lamps[l].reservation = none ∧ (c.claims.lamps[l].owner = none ∨ preempts l)) →
            d.claims.lamps[l] = c.claims.lamps[l]))
       ∧ (∀ x : DriveId, d.claims.drives[x] =
            if x ∈ drives ∧ c.claims.drives[x].reservation = none ∧ c.claims.drives[x].owner = none then ⟨none, some i⟩
            else c.claims.drives[x])
       ∧ (∀ v : VoiceId, d.claims.voices[v] = if v ∈ more then ⟨none, some i⟩ else c.claims.voices[v])
       ∧ d.claims.waiting = c.claims.waiting ∧ Same [.claims] d c)
    -- when the list is reviewed
    ∧ (∃ b : Chip, b.slots = updAt c.slots i (fun s => { s with
          state := .claiming
          checkLoops := []
          firstReview := true
          claimTimer := if s.claimWait = 0 then none else some (Config.sec s.claimWait) })
        ∧ Same [.slots, .postings] b c ∧ c.enterClaiming i = (b.joinList i).review)
    ∧ (∀ cause, i ∈ c.claims.waiting → c.endEarly i cause =
        ({ c with slots := updAt c.slots i (fun s => { s with cause := some cause }), claims := c.claims.leave i }.review).freeSlot i)
    ∧ c.releaseSlot i = ((c.releaseClaims i).review).freeSlot i
    ∧ (∀ u : DriveId, c.driveOwner u = none → c.drives[u].state = .idle → c.offerDrive u = c.review)

/-- CLAIM_WAIT_TIMER_EXPIRY ends the only waiter as CLAIM TIMEOUT; RUN_LIMIT_TIMER_EXPIRY sends the slot into ENDING as RUN LIMIT, where it stays while
something it owns is going on, and else is FREE at once; WAIT_TIMER_EXPIRY completes the WAIT with WAIT EXPIRED, or with STRICT ends the slot so as WAIT
TIMEOUT. While HELD no slot timer expires (R10, R13, R22, R24, R25, R29, R30, R32, R48). That an expiry first lets the time that is left pass for the whole
part is the model's choice (log 2). -/
def Obligations.SlotTimersExpire : Prop :=
  (∀ (s : State) (i : SlotId), runs s → s.chip.isHeld = true →
    EndsAs (exec (.claimWaitTimerExpiry i) s) s s.chip ∧ EndsAs (exec (.runLimitTimerExpiry i) s) s s.chip
      ∧ EndsAs (exec (.waitTimerExpiry i) s) s s.chip ∧ EndsAs (exec (.offsetTimerExpiry i) s) s s.chip)
  ∧ (∀ (s : State) (i : SlotId) (r : Nat), runs s → s.chip.isHeld = false → s.chip.slots[i].state = .claiming →
    s.chip.slots[i].claimTimer = some r → s.chip.claims.waiting = [i] →
    let a := s.chip.advance r
    Ends (exec (.claimWaitTimerExpiry i) s) s fun c =>
      c.slots[i] = .free ∧ c.claims = a.claims.leave i ∧ c.claims.waiting = [] ∧ OtherSlots i c a
      ∧ Handed (srcSlot i) (.sceneEnded (Slot.sceneEnd { a.slots[i] with cause := some .claimTimeout })) c a
      ∧ Same [.slots, .spans, .fetch, .claims, .sources, .trig, .lamp, .postings] c a)
  ∧ (∀ (s : State) (i : SlotId) (r : Nat), runs s → s.chip.isHeld = false →
    s.chip.slots[i].state = .timing ∨ s.chip.slots[i].state = .waiting → s.chip.slots[i].runTimer = some r →
    let a := s.chip.advance r
    Ends (exec (.runLimitTimerExpiry i) s) s fun c =>
      TakesCause i .runLimit a.slots[i] c a ∧ (∀ p ∈ [Part.port, .loader, .req, .noticeIndex, .hold], sameAt c a p))
  ∧ (∀ (s : State) (i : SlotId) (r : Nat) (rec_ : CueRec), runs s → s.chip.isHeld = false → s.chip.slots[i].state = .waiting →
    s.chip.slots[i].waitTimer = some r → s.chip.slots[i].record = some rec_ →
    let a := s.chip.advance r
    (rec_.strict = true → Ends (exec (.waitTimerExpiry i) s) s fun c =>
      TakesCause i .waitTimeout { a.slots[i] with failing := some a.slots[i].cueIndex } c a ∧ (∀ p ∈ [Part.port, .loader, .req, .noticeIndex, .hold], sameAt c a p))
    ∧ (∀ j, rec_.strict = false → rec_.link = true → s.chip.slots[i].next = some ⟨j, none⟩ → Ends (exec (.waitTimerExpiry i) s) s fun c =>
      c.slots[i] = goneOn { a.slots[i] with flags := { a.slots[i].flags with waitExpired := true } } j
      ∧ OtherSlots i c a ∧ (rec_.note = true → Handed (srcSlot i) (.sceneNote a.slots[i].cueIndex a.slots[i].clockMs) c a)
      ∧ Same [.slots, .sources, .postings] c a))

/-- CUE_RECORD_ARRIVES keeps the record of the current or the next cue; OFFSET_TIMER_EXPIRY finds the current cue due. A due cue is issued when its record
is there and the device is not HELD, and not before (R12, R13). That an expiry first lets the time that is left pass for the whole part is the model's
choice (log 2). -/
def Obligations.CuesAreIssuedWhenDue : Prop :=
  (∀ (s : State) (i : SlotId) (k e : Nat), runs s → s.chip.turn (slotRequester i) = true →
    s.chip.fetch[i].cur = some (.run k, false) → s.chip.slots[i].state = .timing → s.chip.slots[i].current = some ⟨k, none, false⟩ →
    s.chip.slots[i].offset = some e →
    let r := parseCue s.mem (s.chip.slotCueAddr i k)
    let b := ((s.chip.granted (slotRequester i)).fetchDone i).modSlot i fun x => { x with current := some ⟨k, some r, false⟩ }
    (s.chip.isHeld = true ∨ e < Config.ms r.offset.toNat → EndsAs (exec (.cueRecordArrives i) s) s b)
    ∧ (s.chip.isHeld = false → Config.ms r.offset.toNat ≤ e → EndsAs (exec (.cueRecordArrives i) s) s (b.issueCue i r)))
  ∧ (∀ (s : State) (i : SlotId) (j k : Nat) (r₀ : CueRec), runs s → s.chip.turn (slotRequester i) = true →
    s.chip.fetch[i].cur = some (.run k, false) → s.chip.slots[i].current = some ⟨j, some r₀, true⟩ → s.chip.slots[i].next = some ⟨k, none⟩ →
    EndsAs (exec (.cueRecordArrives i) s) s (((s.chip.granted (slotRequester i)).fetchDone i).modSlot i fun x =>
      { x with next := some ⟨k, some (parseCue s.mem (s.chip.slotCueAddr i k))⟩ }))
  ∧ (∀ (s : State) (i : SlotId) (k e : Nat) (r : CueRec), runs s → s.chip.isHeld = false → s.chip.slots[i].state = .timing →
    s.chip.slots[i].current = some ⟨k, some r, false⟩ → s.chip.slots[i].offset = some e →
    EndsAs (exec (.offsetTimerExpiry i) s) s ((s.chip.advance (Config.ms r.offset.toNat - e)).issueCue i r))

/-- Issue of LAMP, SPEAK and HUSH: a LAMP sets the slot's record and, owned, fades the lamp from its momentary level; a SPEAK asks for the clip's entry and
waits for it; a HUSH stops the channel by its state: a fade from the gain now in force, or IDLE at once. LAMP and HUSH complete at issue; here they go on by
LINK and carry no NOTE (R12, R13, R15, R16, R17, R24, R87, R111). That a SPEAK which replaces an outstanding directory read also drops that read's pending stop
is the model's choice (log 50).
That a slot's read waits behind an abandoned one still at the arbiter is the model's choice (log 15). -/
def Obligations.LampSpeakAndHushAreIssued : Prop :=
  ∀ (c : Chip) (i : SlotId) (k : Nat) (r : CueRec), Due c i k r →
    let x := c.slots[i]
    let d := c.issueCue i r
    (∀ l level fade, r.op = some (.lamp l level fade) → r.link = true → r.note = false →
      d.slots[i] = issuedOn { x with lamps := x.lamps.map fun w => if w.lamp = l then { w with level := level, fade := fade } else w } (k + 1)
      ∧ (c.lampOwner l ≠ some i → d.lamp = c.lamp)
      ∧ (c.lampOwner l = some i →
          d.lamp = { c.lamp with lamps := updAt c.lamp.lamps l fun o =>
            if fade = 0 ∨ o.momentary = level then { o with ownerLevel := level, level := level, fade := none }
            else { o with ownerLevel := level, fade := some ⟨o.momentary, level, fade, 0⟩ } })
      ∧ Asks i (.run (k + 1)) d c ∧ OtherSlots i d c ∧ Same [.slots, .fetch, .lamp, .postings] d c)
    ∧ (∀ v clip volume, r.op = some (.speak v clip volume) →
      d.slots[i] = issuedWaiting x k r (.clipEntry v)
      ∧ (∀ u : VoiceId, d.voices[u] = if x.voice v = some u then
          { c.voices[u] with dirRead := some ⟨clip, volume, false, c.voices[u].dirRead.isSome, false⟩ } else c.voices[u])
      ∧ OtherSlots i d c ∧ Same [.slots, .fetch, .voices, .postings] d c)
    ∧ (∀ v fade, r.op = some (.hush v fade) → r.link = true → r.note = false →
      d.slots[i] = issuedOn x (k + 1)
      ∧ (∀ u : VoiceId, x.voice v = some u →
          let y := c.voices[u]
          let sounds := y.state = .playing ∨ y.state = .starved ∨ y.state = .fading
          (sounds → fade ≠ 0 →
              d.voices[u] = { y with state := .fading, fade := some ⟨y.gain, fade, 0⟩ } ∧ d.port.clipSpan = c.port.clipSpan ∧ d.signals = c.signals)
          ∧ ((sounds ∧ fade = 0) ∨ y.state = .priming ∨ y.state = .paused →
              d.voices[u] = { y with
                state := .idle
                burst := y.burst.map fun b => { b with abandoned := true }
                filling := false
                fifo := []
                clip := none
                copy := none
                marks := Vector.replicate 4 false
                fade := none
                held := none }
              ∧ d.port.clipSpan = updAt c.port.clipSpan u (fun _ => none) ∧ d.signals = c.signals ++ toldOwner u (.idle .stop) c))
      ∧ (∀ u : VoiceId, x.voice v ≠ some u ∨ c.voices[u].state = .idle → d.voices[u] = c.voices[u])
      ∧ Asks i (.run (k + 1)) d c ∧ OtherSlots i d c ∧ Same [.slots, .fetch, .voices, .spans, .signals, .postings] d c)

/-- Issue of MOVE, WAIT and LOOP: a MOVE waits for its bay and its drive, and else takes the drive to STARTING, or is answered at once by a drive FAULTED or
OFFLINE; a WAIT waits with its timer, or completes at once; a LOOP jumps while its count lasts. A cue that completes here goes on by LINK and carries no NOTE
(R13, R14, R18, R19, R21, R23, R24, R147). That a slot's read waits behind an abandoned one still at the arbiter is the model's choice (log 15). -/
def Obligations.MoveWaitAndLoopAreIssued : Prop :=
  ∀ (c : Chip) (i : SlotId) (k : Nat) (r : CueRec), Due c i k r →
    let x := c.slots[i]
    let d := c.issueCue i r
    (∀ u code arg, r.op = some (.move u code arg) →
      let y := c.drives[u]
      (c.bays[y.entry.bay].guarded = true →
        d.slots[i] = { x with state := .waiting, cond := some (.guard y.entry.bay) } ∧ OtherSlots i d c ∧ Same [.slots, .postings] d c)
      ∧ (c.bays[y.entry.bay].guarded = false → y.state = .starting ∨ y.state = .moving ∨ y.state = .halting →
        d.slots[i] = { x with state := .waiting, cond := some (.settleBefore u) } ∧ OtherSlots i d c ∧ Same [.slots, .postings] d c)
      ∧ (c.bays[y.entry.bay].guarded = false → y.state = .idle →
        let k' := c.links[y.entry.link]
        d.slots[i] = { issuedWaiting x k r (if r.await then .moveSettle u else .moveAccept u) with
          halted := x.halted.filter fun h => h.drive != u
          moves := ⟨u, k, r⟩ :: x.moves.filter fun m => m.drive != u }
        ∧ d.drives[u] = { y with
          state := .starting
          move := some ⟨code, arg, false⟩
          atLink := true
          keptEnd := none
          accepted := false
          retry := none
          settle := some (Config.ms (100 * y.entry.settle))
          windowExpired := false }
        ∧ (k'.addrs[y.entry.addr].present = true → k'.queue.length < 16 → d.links[y.entry.link] =
            { k' with queue := k'.queue ++ [⟨y.entry.addr, code.command, arg, .move⟩] })
        ∧ OtherSlots i d c ∧ OtherDrives u d c ∧ Same [.slots, .fetch, .drives, .links, .signals, .postings] d c)
      ∧ (c.bays[y.entry.bay].guarded = false → y.state = .faulted ∨ y.state = .offline →
        d.slots[i] = { issuedWaiting x k r (if r.await then .moveSettle u else .moveAccept u) with
          halted := x.halted.filter fun h => h.drive != u
          moves := ⟨u, k, r⟩ :: x.moves.filter fun m => m.drive != u }
        ∧ d.signals = c.signals ++ toldDrive u (.fault y.sense) c
        ∧ OtherSlots i d c ∧ Same [.slots, .fetch, .signals, .postings] d c))
    ∧ (∀ cond timeout, r.op = some (.wait cond timeout) →
      let timer := if timeout = 0 then none else some (Config.ms timeout)
      (∀ u, cond = .settle u → c.drives[u].state = .starting ∨ c.drives[u].state = .moving ∨ c.drives[u].state = .halting →
        d.slots[i] = { issuedWaiting x k r cond with waitTimer := timer } ∧ OtherSlots i d c ∧ Same [.slots, .fetch, .postings] d c)
      ∧ (∀ t lv, cond = .input t lv → c.trig.inputs[t].level ≠ some lv →
        d.slots[i] = { issuedWaiting x k r cond with waitTimer := timer } ∧ OtherSlots i d c ∧ Same [.slots, .fetch, .postings] d c)
      ∧ (∀ t lv, cond = .input t lv → c.trig.inputs[t].level = some lv → r.link = true → r.note = false →
        d.slots[i] = issuedOn x (k + 1) ∧ OtherSlots i d c ∧ Same [.slots, .fetch, .postings] d c)
      ∧ (∀ v m u, cond = .mark v m → x.voice v = some u → c.voices[u].marks[m] = true → r.link = true → r.note = false →
        d.slots[i] = issuedOn x (k + 1) ∧ OtherSlots i d c ∧ Same [.slots, .fetch, .postings] d c)
      ∧ (∀ v m u, cond = .mark v m → x.voice v = some u → c.voices[u].marks[m] = false → c.voices[u].state ≠ .idle →
        d.slots[i] = { issuedWaiting x k r cond with waitTimer := timer } ∧ OtherSlots i d c ∧ Same [.slots, .fetch, .postings] d c)
      ∧ (∀ v m u, cond = .mark v m → x.voice v = some u → c.voices[u].marks[m] = false → c.voices[u].state = .idle →
        r.link = true → r.note = false →
        d.slots[i] = issuedOn { x with flags := { x.flags with markMissed := true } } (k + 1) ∧ OtherSlots i d c
          ∧ Same [.slots, .fetch, .postings] d c)
      ∧ (∀ u, cond = .settle u → c.drives[u].state = .idle ∨ c.drives[u].state = .faulted ∨ c.drives[u].state = .offline →
        r.link = true → r.note = false →
        d.slots[i] = issuedOn x (k + 1) ∧ OtherSlots i d c ∧ Same [.slots, .fetch, .postings] d c))
    ∧ (∀ rel count, r.op = some (.loop rel count) → r.note = false →
      let n := match x.loop with
        | some (j, m) => if j = k then m else count
        | none => count
      (0 < n → d.slots[i] = issuedOn { x with loop := some (k, n - 1) } (k - rel) ∧ Asks i (.run (k - rel)) d c ∧ OtherSlots i d c
        ∧ Same [.slots, .fetch, .postings] d c)
      ∧ (n = 0 → r.link = true → d.slots[i] = issuedOn { x with loop := none } (k + 1) ∧ Asks i (.run (k + 1)) d c ∧ OtherSlots i d c
        ∧ Same [.slots, .fetch, .postings] d c))

/-- What the blocks report completes the cue a slot awaits; and a halted MOVE with RESUME is issued again. The next cue's record has not arrived. A MOVE
completes on ACCEPTED or, with AWAIT, when settled; a settled report clears the halted-move entry, and one with HALTED counts as settled where there is no
entry. A halt by the guard makes the entry; answered, or the move withdrawn, a current cue takes GUARD and is issued again once the bay is clear, a cue
completed earlier once the bay is clear and the drive IDLE. A MOVE due on GUARD or SETTLE is tested again. SPEAK, MARK and INPUT follow their reports
(R14, R16, R18 to R21, R26). That a MOVE on MOVE ACCEPT completes when settled is the model's choice (log 48), and that a WAIT for a MARK completes with MARK
MISSED when its channel is stopped, as at its clip's end, is the model's reading (log 21). -/
def Obligations.ReportsCompleteTheAwaitedCue : Prop :=
  ∀ (c : Chip) (i : SlotId),
    let x := c.slots[i]
    let running := x.state = .timing ∨ x.state = .waiting
    let goesOn (y : Slot) (r : CueRec) (d : Chip) : Prop :=
      ∀ j, LinksTo x r j → d.slots[i] = goneOn y j ∧ OtherSlots i d c ∧ Same [.slots, .postings] d c
    let becomes (y : Slot) (d : Chip) : Prop := d.slots[i] = y ∧ OtherSlots i d c ∧ Same [.slots, .postings] d c
    let others (p : Slot → Prop) : Prop := ∀ j : SlotId, j ≠ i → p c.slots[j]
    -- the move of drive `u` goes to its controller, and the slot becomes `y`
    let hands (u : DriveId) (code : MoveCode) (arg : Half) (y : Slot) (d : Chip) : Prop :=
      let z := c.drives[u]
      let k := c.links[z.entry.link]
      d.slots[i] = y
      ∧ d.drives[u] = { z with
          state := .starting
          move := some ⟨code, arg, false⟩
          atLink := true
          keptEnd := none
          accepted := false
          retry := none
          settle := some (Config.ms (100 * z.entry.settle))
          windowExpired := false }
      ∧ (k.addrs[z.entry.addr].present = true → k.queue.length < 16 → d.links[z.entry.link] =
          { k with queue := k.queue ++ [⟨z.entry.addr, code.command, arg, .move⟩] })
      ∧ OtherSlots i d c ∧ OtherDrives u d c ∧ Same [.slots, .fetch, .drives, .links, .signals, .postings] d c
    let rehanded (u : DriveId) (m : IssuedMove) : Slot :=
      { x with halted := x.halted.filter fun h => h.drive != u, moves := m :: x.moves.filter fun m => m.drive != u }
    -- drives: the awaited move
    (∀ (u : DriveId) (r : CueRec), Awaits c i (.moveAccept u) r → goesOn x r (c.handle (.drive i u .accepted)))
    ∧ (∀ u : DriveId, running → x.cond ≠ some (.moveAccept u) → c.handle (.drive i u .accepted) = c)
    ∧ (∀ (u : DriveId) (r : CueRec), Awaits c i (.moveSettle u) r ∨ Awaits c i (.moveAccept u) r →
        goesOn { x with halted := x.halted.filter fun h => h.drive != u } r (c.handle (.drive i u (.settled false))))
    ∧ (∀ u : DriveId, running → x.cond ≠ some (.moveSettle u) → x.cond ≠ some (.moveAccept u) →
        becomes { x with halted := x.halted.filter fun h => h.drive != u } (c.handle (.drive i u (.settled false))))
    ∧ (∀ u : DriveId, running → x.halted.find? (fun h => h.drive == u) = none →
        c.handle (.drive i u (.settled true)) = c.handle (.drive i u (.settled false))
        ∧ c.handle (.drive i u .halted) = c.handle (.drive i u (.settled false)))
    -- drives: a change of state, on which a condition may rest
    ∧ (∀ (u : DriveId) (r : CueRec), Awaits c i (.settle u) r →
        c.drives[u].state = .idle ∨ c.drives[u].state = .faulted ∨ c.drives[u].state = .offline →
        x.halted.find? (fun h => h.drive == u) = none →
        (others fun y => y.cond ≠ some (.settle u) ∧ y.cond ≠ some (.settleBefore u) ∧ y.halted.find? (fun h => h.drive == u) = none) →
        goesOn x r (c.handle (.driveState u)))
    ∧ (∀ u : DriveId, c.drives[u].state = .starting ∨ c.drives[u].state = .moving ∨ c.drives[u].state = .halting → c.handle (.driveState u) = c)
    ∧ (∀ (u : DriveId) (n : Nat) (r : CueRec) (code : MoveCode) (arg : Half), x.current = some ⟨n, some r, false⟩ → r.op = some (.move u code arg) →
        c.drives[u].state = .idle → c.bays[c.drives[u].entry.bay].guarded = false → x.halted = [] → (others fun y => y.cond = none ∧ y.halted = []) →
        let y := issuedWaiting (rehanded u ⟨u, n, r⟩) n r (if r.await then .moveSettle u else .moveAccept u)
        (x.cond = some (.settleBefore u) → hands u code arg y (c.handle (.driveState u)))
        ∧ (x.cond = some (.guard c.drives[u].entry.bay) → hands u code arg y (c.handle (.bay c.drives[u].entry.bay))))
    ∧ (∀ b : BayId, c.bays[b].guarded = true → c.handle (.bay b) = c)
    -- halted moves
    ∧ (∀ (u : DriveId) (m : IssuedMove), running → x.moves.find? (fun m => m.drive == u) = some m →
        becomes { x with halted := ⟨u, m.cue, false⟩ :: x.halted.filter fun h => h.drive != u } (c.handle (.drive i u .guardHalting)))
    ∧ (∀ (u : DriveId) (m : IssuedMove) (told : DriveReport) (code : MoveCode) (arg : Half) (f : Bool), running →
        x.moves.find? (fun m => m.drive == u) = some m → m.record.resume = true → m.drive = u → m.record.op = some (.move u code arg) →
        (told = .withdrawn ∨ (x.halted = [⟨u, m.cue, f⟩] ∧ (told = .halted ∨ told = .settled true))) → x.halted = [] ∨ x.halted = [⟨u, m.cue, f⟩] →
        let guarded := c.bays[c.drives[u].entry.bay].guarded
        let d := c.handle (.drive i u told)
        (x.current = some ⟨m.cue, some m.record, true⟩ →
          (guarded = true → becomes { x with state := .waiting, cond := some (.guard c.drives[u].entry.bay), halted := [⟨u, m.cue, true⟩] } d)
          ∧ (guarded = false → c.drives[u].state = .idle →
              hands u code arg { rehanded u m with
                state := .waiting
                cond := some (if m.record.await then .moveSettle u else .moveAccept u) } d))
        ∧ ((∀ e, x.current ≠ some ⟨m.cue, e, true⟩) → x.cond ≠ some (.settleBefore u) →
          (guarded = true ∨ c.drives[u].state ≠ .idle → becomes { x with halted := [⟨u, m.cue, true⟩] } d)
          ∧ (guarded = false → c.drives[u].state = .idle → hands u code arg (rehanded u m) d)))
    ∧ (∀ (u : DriveId) (m : IssuedMove) (code : MoveCode) (arg : Half), running → x.moves.find? (fun m => m.drive == u) = some m → m.drive = u →
        m.record.op = some (.move u code arg) → x.halted = [⟨u, m.cue, true⟩] → (∀ e, x.current ≠ some ⟨m.cue, e, true⟩) →
        c.drives[u].state = .idle → c.bays[c.drives[u].entry.bay].guarded = false → (others fun y => y.cond = none ∧ y.halted = []) →
        (x.cond ≠ some (.settle u) → x.cond ≠ some (.settleBefore u) → hands u code arg (rehanded u m) (c.handle (.driveState u)))
        ∧ (x.cond ≠ some (.guard c.drives[u].entry.bay) → hands u code arg (rehanded u m) (c.handle (.bay c.drives[u].entry.bay))))
    -- voices
    ∧ (∀ (v : VoiceId) (k : Fin 2) (r : CueRec), x.voiceIndex v = some k →
        (Awaits c i (.clipEntry k) r →
          (r.await = true → becomes { x with cond := some (.clipEnd k) } (c.handle (.voice i v .started)))
          ∧ (r.await = false → goesOn x r (c.handle (.voice i v .started))))
        ∧ (∀ why, Awaits c i (.clipEnd k) r → goesOn x r (c.handle (.voice i v (.idle why))))
        ∧ (∀ m, Awaits c i (.mark k m) r → goesOn x r (c.handle (.voice i v (.mark m))))
        ∧ (∀ m why, Awaits c i (.mark k m) r →
            goesOn { x with flags := { x.flags with markMissed := true } } r (c.handle (.voice i v (.idle why))))
        ∧ (running → becomes { x with flags := { x.flags with underrun := true } } (c.handle (.voice i v .underrun))))
    -- inputs
    ∧ (∀ (t : InputId) (lv : Bool) (r : CueRec), Awaits c i (.input t lv) r → (others fun y => ∀ lv, y.cond ≠ some (.input t lv)) →
        (c.trig.inputs[t].level = some lv → goesOn x r (c.handle (.input t)))
        ∧ (c.trig.inputs[t].level ≠ some lv → c.handle (.input t) = c))

/-- How a slot ends. A completed cue without LINK ends it as NORMAL; its NOTE is handed at completion. On the entry to ENDING its channels are stopped over
250 ms, its read is abandoned, and, but at a normal end, its drives are halted. ENDING lasts while something of it is going on; a fault of a drive then sets
FAULT DURING ENDING. When it is complete the claims are released, shadows become owners, the spans go, SCENE ENDED is handed, and the input that set the
scene off hears of it (R24, R30 to R33, R51, R52, R70, R111, R153). -/
def Obligations.SlotsEndByWayOfEnding : Prop :=
  ∀ (c : Chip) (i : SlotId),
    let x := c.slots[i]
    let running := x.state = .timing ∨ x.state = .waiting
    let owns (v : VoiceId) := x.voice0 = some v ∨ x.voice1 = some v
    let stopped (y : Channel) : Channel :=
      let y := { y with dirRead := y.dirRead.map fun r : DirRead => { r with stopPending := true } }
      match y.state with
      | .idle => y
      | .priming | .paused => y.idled
      | .playing | .starved | .fading => { y with state := .fading, fade := some ⟨y.gain, 250, 0⟩ }
    let complete :=
      (∀ u : DriveId, c.driveOwner u = some i → c.drives[u].state = .idle ∨ c.drives[u].state = .faulted ∨ c.drives[u].state = .offline)
      ∧ ∀ v : VoiceId, owns v → c.voices[v].state = .idle
    -- the entry
    (∀ cause : Cause, running →
        let d := c.enterEnding i cause
        TakesCause i cause x d c
        ∧ (∀ v : VoiceId, (owns v → d.voices[v] = stopped c.voices[v]) ∧ (¬owns v → d.voices[v] = c.voices[v]))
        ∧ (∀ u : DriveId, d.drives[u] =
            if c.driveOwner u = some i ∧ cause ≠ .normal then haltedDrive c.drives[u] .ending else c.drives[u])
        ∧ (busyAtEnding c i cause ∨ c.claims.waiting = [] → d.fetch[i] = ⟨c.fetch[i].cur.map fun f => (f.1, true), none⟩)
        ∧ (busyAtEnding c i cause → OtherSlots i d c
            ∧ Same [.slots, .fetch, .voices, .spans, .drives, .links, .signals, .postings] d c))
    -- completion of a cue
    ∧ (∀ r : CueRec, running →
        let d := c.completeCue i r false
        (r.link = false → TakesCause i .normal x d c
          ∧ (r.note = true → busyAtEnding c i .normal → Handed (srcSlot i) (.sceneNote x.cueIndex x.clockMs) d c))
        ∧ (r.link = true → d.slots[i] = { x with
              state := .timing
              current := x.next.map fun k => ⟨k.index, k.record, false⟩
              next := none
              offset := some 0
              waitTimer := none
              cond := none }
          ∧ (r.note = true → Handed (srcSlot i) (.sceneNote x.cueIndex x.clockMs) d c)
          ∧ (r.note = false → d.notice = c.notice) ∧ OtherSlots i d c ∧ Same [.slots, .sources, .postings] d c))
    -- causes that blocks report
    ∧ (∀ (u : DriveId) (s : Option Sense), running →
        TakesCause i .modelFault { x with fault := some (u, s.getD ⟨0#8, 0#8, 0#8, 0#8⟩) } (c.handle (.drive i u (.fault s))) c)
    ∧ (∀ (u : DriveId) (s : Sense) (m : IssuedMove), running → x.moves.find? (fun m => m.drive == u) = some m →
        TakesCause i .moveRejected { x with failing := some m.cue, fault := some (u, s) } (c.handle (.drive i u (.rejected s))) c)
    ∧ (∀ (u : DriveId) (m : IssuedMove) (h : HaltedMove), running → x.moves.find? (fun m => m.drive == u) = some m → m.record.resume = false →
        x.halted.find? (fun h => h.drive == u) = some h →
        TakesCause i .guardAbort { x with failing := some m.cue } (c.handle (.drive i u .halted)) c
        ∧ TakesCause i .guardAbort { x with failing := some m.cue } (c.handle (.drive i u (.settled true))) c)
    ∧ (∀ (u : DriveId) (m : IssuedMove), running → x.moves.find? (fun m => m.drive == u) = some m → m.record.resume = false →
        TakesCause i .guardAbort { x with failing := some m.cue } (c.handle (.drive i u .withdrawn)) c)
    ∧ (∀ (v : VoiceId) (k : Fin 2), x.state = .waiting → x.cond = some (.clipEntry k) → x.voiceIndex v = some k →
        TakesCause i .clipMissing { x with failing := some x.cueIndex } (c.handle (.voice i v .missing)) c)
    -- in ENDING
    ∧ (x.state = .ending →
        (∀ cause, c.endSlot i cause = c)
        ∧ (∀ (u : DriveId) (s : Sense) (r : DriveReport), r = .fault (some s) ∨ r = .rejected s ∨ (r = .fault none ∧ s = ⟨0#8, 0#8, 0#8, 0#8⟩) →
            let y : Slot :=
              { x with flags := { x.flags with faultDuring := true }, fault := if x.fault.isSome then x.fault else some (u, s) }
            c.handle (.drive i u r) = ({ c with slots := updAt c.slots i fun _ => y } : Chip).endingTest i)
        ∧ (∀ (u : DriveId) (r : DriveReport), r ∈ [DriveReport.accepted, .settled false, .settled true, .halted, .withdrawn, .guardHalting, .changed] →
            c.handle (.drive i u r) = c.endingTest i)
        ∧ (∀ (v : VoiceId) (why : IdleWhy), owns v → c.handle (.voice i v (.idle why)) = c.endingTest i)
        ∧ (¬complete → c.endingTest i = c)
        ∧ (complete → c.claims.waiting = [] →
            let d := c.endingTest i
            d.slots[i] = .free ∧ OtherSlots i d c ∧ d.port.sceneSpan[i] = none ∧ d.port.cueSpan[i] = none
            ∧ Handed (srcSlot i) (.sceneEnded x.sceneEnd) d c
            ∧ (∀ l : LampId,
                let r := c.claims.lamps[l]
                d.claims.lamps[l] =
                  if r.owner = some i then { r with owner := r.shadow, shadow := none }
                  else if r.shadow = some i then { r with shadow := none } else r)
            ∧ (∀ u : DriveId, d.claims.drives[u] =
                if c.claims.drives[u].owner = some i then { c.claims.drives[u] with owner := none } else c.claims.drives[u])
            ∧ (∀ v : VoiceId, d.claims.voices[v] =
                if c.claims.voices[v].owner = some i then { c.claims.voices[v] with owner := none } else c.claims.voices[v])
            ∧ (∀ tag, x.origin = some (.request tag) → d.trig = c.trig ∧ ∀ l : LampId, d.lamp.lamps[l] = (c.releaseLamp i l).lamp.lamps[l])
            ∧ (∀ t, x.origin = some (.trigger t) → c.trig.inputs[t].state = .spent →
                (c.trig.inputs[t].disarmPending = true → d.trig.inputs[t].state = .disarmed ∧ d.trig.inputs[t].disarmPending = false)
                ∧ (c.trig.inputs[t].disarmPending = false → x.cooldown = 0 →
                    d.trig.inputs[t].state = .armed ∨ d.trig.inputs[t].state = .dwelling)
                ∧ (c.trig.inputs[t].disarmPending = false → x.cooldown ≠ 0 →
                    d.trig.inputs[t].state = .cooldown ∧ d.trig.inputs[t].cooldown = some (Config.sec x.cooldown)))
            ∧ Same [.slots, .spans, .fetch, .claims, .sources, .trig, .lamp, .postings] d c))

/-! ## The lamps -/

/-- LAMP_FRAME_START: every lamp's output over the frame is active for shown level × period / 1023 µs, a disabled lamp's not at all; while HELD the shown
level is the safe level. LAMP_FADE_END: the lamp stands at its target; while HELD fades are frozen. A fade runs from its start to its target, the fraction
dropped from what it has travelled (R78, R81, R84, R91). That a lamp without a bay, which has no safe level, shows 0 while HELD is the model's choice (log
18). That an expiry first lets the time that is left pass for the whole part is the model's choice (log 2). -/
def Obligations.LampFramesAndFades : Prop :=
  (∀ (s : State) (r : Nat), runs s → s.chip.lamp.frame = some r →
    let a := s.chip.advance r
    exec .lampFrameStart s = .next { s with chip := { a with lamp := { a.lamp with
      lamps := tabulate 96 fun l =>
        { a.lamp.lamps[l] with output :=
          match a.lamp.lamps[l].copy with
          | none => .undriven
          | some w => .driven (houseActiveLow w) (if houseEnable w = false ∨ houseBay w = none then 0 else a.shown l * a.lamp.period / 1023) }
      frame := some (Config.us a.lamp.period) } } })
  ∧ (∀ (c : Chip) (l : LampId), c.shown l =
      if c.isHeld then (match c.lamp.lamps[l].bay with
        | some b => c.lamp.bays[b].safe
        | none => 0)
      else (match c.lamp.lamps[l].fade with
        | some f => f.value
        | none => c.lamp.lamps[l].level))
  ∧ (∀ (s : State) (l : LampId) (f : LampFade), runs s → s.chip.lamp.lamps[l].fade = some f →
    (s.chip.isHeld = true → EndsAs (exec (.lampFadeEnd l) s) s s.chip)
    ∧ (s.chip.isHeld = false →
      let a := s.chip.advance (Config.ms f.dur - f.elapsed)
      Ends (exec (.lampFadeEnd l) s) s fun c =>
        c.lamp = { a.lamp with lamps := updAt a.lamp.lamps l fun x => { x with level := f.target, fade := none } }
        ∧ Same [.lamp, .postings] c a))
  ∧ (∀ f : LampFade, 0 < f.dur →
      let t := min (f.elapsed / 4) (f.dur * 1000)
      (f.start ≤ f.target → f.value = f.start + (f.target - f.start) * t / (f.dur * 1000))
      ∧ (f.target < f.start → f.value = f.start - (f.start - f.target) * t / (f.dur * 1000))
      ∧ (f.elapsed = 0 → f.value = f.start) ∧ (Config.ms f.dur ≤ f.elapsed → f.value = f.target)
      ∧ min f.start f.target ≤ f.value ∧ f.value ≤ max f.start f.target)

/-- What a lamp does when a slot is granted it, when one that has it or is its shadow releases it, and when its indicator demand changes. A grant stops the
fade at the momentary level. A release hands the lamp to the shadow at that slot's level, or to its demand or house level, over the restore fade. A demand
that comes, goes or changes its steady level fades so too; an alternation, and a steady demand after one, show at once; with an owner, while HELD, and
before the table is read, only the demand changes (R44, R51, R76, R86, R88, R89, R92). What one alternation after another shows is the model's choice (log
49). -/
def Obligations.LampsFollowOwnersAndDemands : Prop :=
  ∀ (c : Chip) (l : LampId),
    let x := c.lamp.lamps[l]
    let lamps (y : Lamp) : LampUnit := { c.lamp with lamps := updAt c.lamp.lamps l fun _ => y }
    let claims (r : LampClaim) : ClaimTable := { c.claims with lamps := updAt c.claims.lamps l fun _ => r }
    let restore (w : Word) := match houseBay w with
      | some b => c.lamp.bays[b].restore
      | none => 0
    (∀ i : SlotId,
      let r := c.claims.lamps[l]
      let d := c.takeLamp i l
      d.lamp = lamps { x with ownerLevel := x.momentary, level := x.momentary, fade := none }
      ∧ d.claims = claims ⟨some i, if r.owner.isSome then r.owner else r.shadow, none⟩
      ∧ d.slots = updAt c.slots i (fun s => { s with lamps := s.lamps ++ [⟨l, x.momentary, 0⟩] })
      ∧ Same [.lamp, .claims, .slots, .postings] d c)
    ∧ (∀ i : SlotId,
      let r := c.claims.lamps[l]
      let d := c.releaseLamp i l
      (r.owner ≠ some i → r.shadow ≠ some i → d = c)
      ∧ (r.owner ≠ some i → r.shadow = some i → d = { c with claims := claims { r with shadow := none } })
      ∧ (r.owner = some i →
        d.claims = claims { r with owner := r.shadow, shadow := none } ∧ Same [.lamp, .claims, .postings] d c
        ∧ (∀ o, r.shadow = some o →
          let level := match c.slots[o].lamps.find? (fun w => w.lamp == l) with
            | some w => w.level
            | none => 0
          let y := { x with ownerLevel := level }
          (c.isHeld = true → d.lamp = lamps y)
          ∧ (∀ w, c.isHeld = false → x.copy = some w → d.lamp = lamps (faded y level (restore w))))
        ∧ (r.shadow = none → c.isHeld = true → d.lamp = c.lamp)
        ∧ (∀ w, r.shadow = none → c.isHeld = false → x.copy = some w → d.lamp = lamps (faded x (match x.demand with
            | .none => houseLevel w
            | .steady level => level
            | .alternating level _ => level) (restore w)))))
    ∧ (∀ new : Demand,
      let d := c.lampDemand l new
      let y := { x with demand := new }
      (x.demand = new → d = c)
      ∧ (x.demand ≠ new → c.lampOwner l ≠ none ∨ c.isHeld = true ∨ x.copy = none → d = { c with lamp := lamps y })
      ∧ (∀ w, x.demand ≠ new → c.lampOwner l = none → c.isHeld = false → x.copy = some w →
        d.lamp = lamps (match x.demand, new with
          | _, .alternating level on => { y with level := if on then level else 0, fade := none }
          | .alternating _ _, .steady level => { y with level := level, fade := none }
          | _, .steady level => faded y level (restore w)
          | _, .none => faded y (houseLevel w) (restore w))
        ∧ Same [.lamp, .postings] d c))

/-! ## The voice channels -/

/-- DIRECTORY_READ_RETURN: an entry that is not valid leaves the channel and tells its owner; a valid one takes the channel: new clip, span installed,
PRIMING, its first burst of up to 8 words asked for, urgent, the owner told; with a stop pending the channel is IDLE at once, and that burst is in flight,
abandoned. A replaced read is made again, an abandoned one dropped (R97, R99, R100, R102, R103, R104, R111). An entry is valid when R97's tests hold of its
fields, which lie where section 11.3 has them: valid flag, rate code, mark count, data base, length, the clip span within the clip data region, and each
counted mark below the length; the channel's copy holds these fields (R96). -/
def Obligations.DirectoryReadTakesTheChannel : Prop :=
  (∀ (s : State) (v : VoiceId) (d : DirRead), runs s → s.chip.voices[v].burst = none → s.chip.voices[v].dirRead = some d →
    s.chip.turn (.clip v) = true →
    let b := (s.chip.granted (.clip v)).modVoice v fun x => { x with urgent := false, dirRead := none }
    let entry := parseClip (s.chip.base rClipData) (s.chip.regionLen rClipData) s.mem (s.chip.base rClips + 32 * d.clip)
    (d.abandoned = true → EndsAs (exec (.directoryReadReturn v) s) s b)
    ∧ (d.abandoned = false → d.replaced = true → EndsAs (exec (.directoryReadReturn v) s) s
        (b.modVoice v fun x => { x with dirRead := some { d with replaced := false } }))
    ∧ (d.abandoned = false → d.replaced = false → entry = none →
        EndsAs (exec (.directoryReadReturn v) s) s { b with signals := b.signals ++ toldOwner v .missing b })
    ∧ (∀ e, d.abandoned = false → d.replaced = false → entry = some e → d.stopPending = false →
        Ends (exec (.directoryReadReturn v) s) s fun c =>
          c.voices[v] = { b.voices[v] with
            state := .priming
            clip := some d.clip
            copy := some e
            volume := d.volume
            fade := none
            fetchPos := min 8 e.len
            playPos := 0
            fifo := []
            filling := min 8 e.len != e.len
            burst := some ⟨0, min 8 e.len, false⟩
            urgent := true
            marks := Vector.replicate 4 false
            held := none }
          ∧ c.port.clipSpan = updAt b.port.clipSpan v (fun _ => some ⟨e.base, e.base + 4 * e.len - 1⟩)
          ∧ c.signals = b.signals ++ toldOwner v .started b ∧ OtherVoices v c b
          ∧ c.port.sceneSpan = b.port.sceneSpan ∧ c.port.cueSpan = b.port.cueSpan
          ∧ Same [.voices, .spans, .signals, .postings] c b)
    ∧ (∀ e, d.abandoned = false → d.replaced = false → entry = some e → d.stopPending = true →
        Ends (exec (.directoryReadReturn v) s) s fun c =>
          c.voices[v] = { b.voices[v] with
            state := .idle
            clip := none
            copy := none
            volume := d.volume
            fade := none
            fetchPos := min 8 e.len
            playPos := 0
            fifo := []
            filling := false
            burst := some ⟨0, min 8 e.len, true⟩
            urgent := true
            marks := Vector.replicate 4 false
            held := none }
          ∧ c.port.clipSpan = updAt b.port.clipSpan v (fun _ => none)
          ∧ c.signals = b.signals ++ toldOwner v .started b ++ toldOwner v (.idle .stop) b ∧ OtherVoices v c b
          ∧ c.port.sceneSpan = b.port.sceneSpan ∧ c.port.cueSpan = b.port.cueSpan
          ∧ Same [.voices, .spans, .signals, .postings] c b))
  ∧ (∀ (base len : Nat) (m : Memory) (x : Nat),
    let n (k : Nat) := (m.byte (x + k)).toNat
    let w (k : Nat) := numberAt m (x + k) 4
    let valid := (m.byte x).getLsbD 0 = true ∧ n 1 ≤ 1 ∧ n 2 ≤ 4 ∧ w 4 % 4 = 0 ∧ 1 ≤ w 8 ∧ w 8 ≤ 4194304 ∧ base ≤ w 4
      ∧ w 4 + 4 * w 8 ≤ base + len ∧ ∀ k : Fin 4, k.val < n 2 → w (12 + 4 * k.val) < w 8
    (¬valid → parseClip base len m x = none)
    ∧ (valid → ∃ e, parseClip base len m x = some e ∧ e.base = w 4 ∧ e.len = w 8 ∧ e.rate32 = decide (n 1 = 1) ∧ e.markCount = n 2
        ∧ ∀ k : Fin 4, e.marks[k] = w (12 + 4 * k.val)))

/-- BURST_ARRIVES: the words join the FIFO in clip order; a STARVED channel plays on; a PRIMING channel plays, or while HELD is PAUSED, once the FIFO holds
224 words or the clip is fetched. An abandoned burst's words are dropped (R102, R103, R105, R107, R112, R114). When the next sample comes after the rate
has changed is the model's choice (log 28). -/
def Obligations.BurstsFillTheFifo : Prop :=
  ∀ (s : State) (v : VoiceId) (u : Burst), runs s → s.chip.voices[v].burst = some u → s.chip.turn (.clip v) = true →
    let b := s.chip.granted (.clip v)
    let x := b.voices[v]
    (u.abandoned = true → EndsAs (exec (.burstArrives v) s) s (b.modVoice v fun x => { x with burst := none, urgent := false }))
    ∧ (∀ e, u.abandoned = false → x.copy = some e → Ends (exec (.burstArrives v) s) s fun c =>
        let fifo := x.fifo ++ (List.range u.count).map fun k => s.mem.word (e.base / 4 + u.first + k)
        let y := { x with fifo := fifo, burst := none, urgent := false, filling := x.filling && fifo.length < 224 }
        let playing := { y with
          state := .playing, rate32 := e.rate32, sample := min x.sample (if e.rate32 then 125 else 250) }
        let primed := x.state = .priming ∧ (224 ≤ fifo.length ∨ x.fetchPos = e.len)
        (x.state = .starved → c.voices[v] = playing)
        ∧ (primed → b.isHeld = false → c.voices[v] = playing)
        ∧ (primed → b.isHeld = true → c.voices[v] = { y with state := .paused, filling := true })
        ∧ (x.state ≠ .starved → ¬primed → c.voices[v] = y)
        ∧ OtherVoices v c b ∧ Same [.voices, .postings] c b)

/-- SAMPLE_TIME: outside PLAYING and FADING the sample is 0; in them it is a half of a clip word, low half first, scaled by the gain; each mark newly
passed by a word's first sample is told to the owner; an empty FIFO starves a PLAYING channel (counted and reported) and silences a FADING one; at the clip's
end the channel is IDLE, and its owner is told that the clip has ended. Each frame carries its sample from the most or, as the map says, the least significant
bit on. VOICE_FADE_END: the channel is IDLE, and its owner is told of a stop (R106 to R111, R114). That an expiry first lets the time that is left pass for the
whole part is the model's choice (log 2), and so is that marks passed together are told by rising number (log 54). -/
def Obligations.SamplesAreOutput : Prop :=
  (∀ (x : Half) (gain : Nat), gain ≤ 255 → (scaleSample x gain).toInt = (x.toInt * (gain : Int)).tdiv 255)
  ∧ (∀ (lsb : Bool) (x : Half) (k : Fin 16), (frameBits lsb x)[k] = if lsb then x.getLsbD k.val else x.getMsbD k.val)
  ∧ (∀ (s : State) (v : VoiceId), runs s →
    let a := s.chip.advance s.chip.voices[v].sample
    let x := a.voices[v]
    let period := if x.rate32 then 125 else 250
    let sent (h : Half) : Channel := { x with out := h, frame := frameBits x.lsbFirst h, sample := period }
    let plays := x.state = .playing ∨ x.state = .fading
    (¬plays → EndsAs (exec (.sampleTime v) s) s (a.modVoice v fun _ => sent 0#16))
    ∧ (∀ h, plays → x.held = some h →
        EndsAs (exec (.sampleTime v) s) s (a.modVoice v fun _ => { sent (scaleSample h x.gain) with held := none }))
    ∧ (∀ w rest, plays → x.held = none → x.fifo = w :: rest → Ends (exec (.sampleTime v) s) s fun c =>
        c.voices[v] = { sent (scaleSample (w.setWidth 16) x.gain) with
          fifo := rest
          playPos := x.playPos + 1
          held := some ((w >>> 16).setWidth 16)
          filling := x.filling || rest.length ≤ 96
          marks := tabulate 4 fun k => x.marks[k] || match x.copy with
            | some e => decide (k.val < e.markCount) && e.marks[k] == x.playPos
            | none => false }
        ∧ c.signals = a.signals ++ ((List.finRange 4).filter fun k => c.voices[v].marks[k] && !x.marks[k]).flatMap (fun k => toldOwner v (.mark k) a)
        ∧ OtherVoices v c a ∧ Same [.voices, .signals] c a)
    ∧ (x.state = .playing → x.held = none → x.fifo = [] → x.playPos < x.length → Ends (exec (.sampleTime v) s) s fun c =>
        let n := min 65535 (x.underruns + 1)
        c.voices[v] = { sent 0#16 with state := .starved, underruns := n }
        ∧ Handed (srcVoice v) (.underrun v (x.clip.getD 0) (a.voiceOwner v) x.playPos n) c a
        ∧ c.signals = a.signals ++ toldOwner v .underrun a
        ∧ OtherVoices v c a ∧ Same [.voices, .sources, .signals, .postings] c a)
    ∧ (x.state = .fading → x.held = none → x.fifo = [] → x.playPos < x.length →
        EndsAs (exec (.sampleTime v) s) s (a.modVoice v fun _ => sent 0#16))
    ∧ (plays → x.held = none → x.fifo = [] → x.length ≤ x.playPos → Ends (exec (.sampleTime v) s) s fun c =>
        c.voices[v] = Channel.idled (sent 0#16) ∧ c.port.clipSpan = updAt a.port.clipSpan v (fun _ => none)
        ∧ c.signals = a.signals ++ toldOwner v (.idle .clipEnd) a
        ∧ OtherVoices v c a ∧ Same [.voices, .spans, .signals, .postings] c a))
  ∧ (∀ (s : State) (v : VoiceId) (f : GainFade), runs s → s.chip.voices[v].state = .fading → s.chip.voices[v].fade = some f →
    let a := s.chip.advance (Config.ms f.dur - f.elapsed)
    Ends (exec (.voiceFadeEnd v) s) s fun c =>
      c.voices[v] = { a.voices[v] with
        state := .idle
        burst := a.voices[v].burst.map fun b => { b with abandoned := true }
        filling := false
        fifo := []
        clip := none
        copy := none
        marks := Vector.replicate 4 false
        fade := none
        held := none }
      ∧ c.port.clipSpan = updAt a.port.clipSpan v (fun _ => none)
      ∧ c.signals = a.signals ++ toldOwner v (.idle .stop) a
      ∧ OtherVoices v c a ∧ Same [.voices, .spans, .signals, .postings] c a)

/-! ## The links and the drives -/

/-- PAIR_START_BIT and SERVICE_LINE_CHANGE; QUIET_WAIT_END: the current transaction's frame is sent, else the queue's head, else the lowest probe due, else a
poll under SERVICE, else the controller is IDLE; a LOST frame is sent again. A frame that is sent keeps the pair from being quiet to its end. A poll goes to
the address that reported MORE, else to the first present address after the last polled. A move that failed and whose HALT has joined goes as that HALT, and
is reported HALTING; that a LOST one does so where its drive's bay is guarded, and there alone, is the model's reading (log 25). FRAME_SENT arms the reply
timer; PROBE_TIMER_EXPIRY makes the probe due (R117, R118, R123, R125, R126, R127, R133, R135, R136, R159). The 44 µs are the model's choice (log 24). That an
expiry first lets the time that is left pass for the whole part is the model's choice (log 2). That a move whose SENSE frame failed is not turned is its
choice too (log 60). The frame of a transaction has five characters: the drive's address, the command's code of section 11.8 (SENSE in the sense step), the
argument, high byte first, which is 0 but for GOTO, HOME and CYCLE, and the low 8 bits of their sum; the pair is driven with their levels, one after another
(R118). -/
def Obligations.LinksSendAfterQuiet : Prop :=
  (∀ (s : State) (l : LinkId), runs s → exec (.pairStartBit l) s =
    .next { s with chip := s.chip.modLink l fun k => { k with quiet := Config.us 44 + Config.ms 2 } })
  ∧ (∀ (s : State) (l : LinkId) (p : Bool), runs s → EndsAs (exec (.serviceLineChange l p) s) s (s.chip.modLink l fun k => { k with service := p }))
  ∧ (∀ (s : State) (l : LinkId), runs s →
    let a := s.chip.advance s.chip.links[l].quiet
    let k := a.links[l]
    let ends (f : Link → Link) := EndsAs (exec (.quietWaitEnd l) s) s (a.modLink l f)
    (∀ x, k.state = .lost ∨ k.state = .quietWait → k.current = some x →
        let guarded := ∃ u, a.driveAt l x.txn.addr = some u ∧ a.bays[a.drives[u].entry.bay].guarded = true
        let turns := x.txn.cmd.isMove = true ∧ x.senseStep = false ∧ (∃ t ∈ k.queue, t.cmd = .halt ∧ t.addr = x.txn.addr)
          ∧ (k.state = .quietWait ∨ guarded)
        (k.resetting ≠ none ∨ ¬turns → ends fun k => { k with
          state := .sending, frame := some (Config.us 220), quiet := Config.us 220 + Config.ms 2 })
        ∧ (k.resetting = none → turns → EndsAs (exec (.quietWaitEnd l) s) s
            { (a.modLink l fun k => { k with
                queue := k.queue.filter fun t => !(t.cmd == .halt && t.addr == x.txn.addr)
                current := some { x with txn := ⟨x.txn.addr, .halt, 0#16, .halt⟩ }
                state := .sending
                frame := some (Config.us 220)
                quiet := Config.us 220 + Config.ms 2 }) with
              signals := a.signals ++ [.link l x.txn.addr (.halting x.txn.cmd)] }))
    ∧ (∀ t q, k.state = .quietWait → k.current = none → k.resetting = none → k.queue = t :: q →
        ends fun k => { k with
          queue := q, current := some ⟨t, false, 0, false, none, none, none⟩, state := .sending
          frame := some (Config.us 220), quiet := Config.us 220 + Config.ms 2 })
    ∧ (k.state = .quietWait → k.current = none → k.resetting = none → k.queue = [] →
        let due (a : AddrId) := k.addrs[a].configured = true ∧ k.addrs[a].present = false ∧ k.addrs[a].due = true
        (∀ a, due a → (∀ b, b < a → ¬due b) → ends fun k => { k with
          addrs := updAt k.addrs a fun r => { r with due := false }
          current := some ⟨⟨a, .identify, 0#16, .probe⟩, false, 0, false, none, none, none⟩
          state := .sending
          frame := some (Config.us 220)
          quiet := Config.us 220 + Config.ms 2 })
        ∧ (∀ a, (∀ b, ¬due b) → k.service = true → k.pollAddr = some a → ends fun k => { k with
          lastPolled := a.val + 1
          pollAgain := none
          current := some ⟨⟨a, .poll, 0#16, .poll⟩, false, 0, false, none, none, none⟩
          state := .sending
          frame := some (Config.us 220)
          quiet := Config.us 220 + Config.ms 2 })
        ∧ ((∀ b, ¬due b) → k.service = false ∨ k.pollAddr = none → ends fun k => { k with state := .idle })))
  ∧ (∀ k : Link,
    let here (b : AddrId) := k.addrs[b].present = true
    -- `b` does not come before `a`, counting up from the address after the last polled
    let first (a b : AddrId) := if k.lastPolled ≤ a.val then k.lastPolled ≤ b.val → a ≤ b else b.val < k.lastPolled ∧ a ≤ b
    (∀ a, k.pollAgain = some a → here a → k.pollAddr = some a)
    ∧ ((∀ a, k.pollAgain = some a → ¬here a) →
        (∀ a, here a → (∀ b, here b → first a b) → k.pollAddr = some a) ∧ ((∀ a, ¬here a) → k.pollAddr = none)))
  ∧ (∀ (s : State) (l : LinkId) (r : Nat), runs s → s.chip.links[l].state = .sending → s.chip.links[l].frame = some r →
    EndsAs (exec (.frameSent l) s) s ((s.chip.advance r).modLink l fun k => { k with
      state := .awaitReply
      frame := none
      reply := some (Config.ms 5)
      rx := []
      quiet := Config.ms 2
      current := k.current.map fun x => { x with sent := x.sent || !x.senseStep } }))
  ∧ (∀ (s : State) (l : LinkId) (a : AddrId) (r : Nat), runs s → s.chip.links[l].addrs[a].probe = some r →
    EndsAs (exec (.probeTimerExpiry l a) s) s ((s.chip.advance r).modLink l fun k => { k with
      addrs := updAt k.addrs a fun r => { r with probe := none, due := true } }))
  ∧ (∀ (t : Txn) (senseStep : Bool),
    let cmd := if senseStep = true then Command.sense else t.cmd
    let arg := if cmd ∈ [Command.goto, .home, .cycle] then t.arg.toNat else 0
    let body := [t.addr.val + 1, cmd.code.toNat, arg / 256, arg % 256]
    (t.frame senseStep).map BitVec.toNat = body ++ [body.sum % 256] ∧ t.levels senseStep = (t.frame senseStep).flatMap charLevels)
  ∧ [Command.goto, .home, .cycle, .halt, .poll, .sense, .identify, .clear].map Command.code
      = [0x21#8, 0x22#8, 0x23#8, 0x30#8, 0x40#8, 0x41#8, 0x42#8, 0x50#8]

/-- A lost arbitration is no failed attempt; a fault of the pair and a reply timeout are. The first and second failed attempt send again; the third declares
the drive OFFLINE, drops what is queued for it and arms its probe timer; a probe gives up at its first. Transactions for an address not present are answered
OFFLINE at once (R127, R128, R131, R134, R136). The quiet time after a lost arbitration and after a fault of the pair is the model's choice (log 24). That
an expiry first lets the time that is left pass for the whole part is the model's choice (log 2). -/
def Obligations.FailedAttemptsAreCounted : Prop :=
  (∀ (s : State) (l : LinkId), runs s → s.chip.links[l].state = .sending → s.chip.links[l].resetting = none →
    EndsAs (exec (.arbitrationLost l) s) s (s.chip.modLink l fun k => { k with
      state := .lost, frame := none, quiet := Config.us 44 + Config.ms 2 }))
  ∧ (∀ (s : State) (l : LinkId) (x : Current), runs s → s.chip.links[l].state = .sending → s.chip.links[l].resetting = none →
    s.chip.links[l].current = some x →
    EndsAs (exec (.pairDriveFault l) s) s (afterFailure l x (s.chip.modLink l fun k => { k with quiet := Config.ms 2 })))
  ∧ (∀ (s : State) (l : LinkId) (x : Current) (r : Nat), runs s → s.chip.links[l].state = .awaitReply → s.chip.links[l].resetting = none →
    s.chip.links[l].current = some x → s.chip.links[l].reply = some r →
    EndsAs (exec (.replyTimeout l) s) s (afterFailure l x (s.chip.advance r)))
  ∧ (∀ (k : Link) (t : Txn) (a : AddrId) (m : Maker),
    (k.addrs[t.addr].present = false → k.hand t = ⟨k, [(t.addr, .offline)]⟩)
    ∧ (k.addrs[a].present = false → k.halt a m = ⟨k, [(a, .offline)]⟩))

/-- A transaction or a HALT handed to a controller whose drive is present. A transaction joins the queue's tail; in a full queue it is REFUSED. A HALT takes
back the drive's queued move (WITHDRAWN); else, held already, it is merged; else, with the drive's move current and waiting for quiet, it turns the move into
the HALT if it was sent before (HALTING), and takes it back if not (WITHDRAWN); else it joins behind the HALTs and ahead of the rest, in a full queue in place
of the newest of the rest (REFUSED). A RESET SHOW empties the queue; a frame under way is ended, each drive present gets its HALT, and then the controller is
as after reset (R126, R127, R132, R133, R139). What a queued move beside a held HALT becomes, and the QUIET-WAIT after a move withdrawn in LOST, are the
model's readings (logs 46 and 51); the quiet time after a lost arbitration and after a fault of the pair is the model's choice (log 24), and so is that the
drives that get a reset's HALT are those present when it begins (log 67). That an expiry first lets the time that is left pass for the whole part is the
model's choice (log 2). -/
def Obligations.HaltsAndResetsReachTheLinks : Prop :=
  (∀ (k : Link) (t : Txn), k.addrs[t.addr].present = true →
    (k.queue.length < 16 → k.hand t = ⟨{ k with queue := k.queue ++ [t] }, []⟩)
    ∧ (16 ≤ k.queue.length → k.hand t = ⟨k, [(t.addr, .refused t.cmd)]⟩))
  ∧ (∀ (k : Link) (a : AddrId) (m : Maker), k.addrs[a].present = true →
    let h : Txn := ⟨a, .halt, 0#16, m⟩
    let moves := k.queue.filter fun t => t.cmd.isMove && t.addr == a
    let halts := k.queue.filter fun t => t.cmd == .halt
    let others := k.queue.filter fun t => !(t.cmd == .halt)
    let held := (∃ t ∈ k.queue, t.cmd = .halt ∧ t.addr = a) ∨ ∃ x, k.current = some x ∧ x.txn.cmd = .halt ∧ x.txn.addr = a
    let waits (x : Current) := k.current = some x ∧ x.txn.cmd.isMove = true ∧ x.txn.addr = a ∧ x.senseStep = false
      ∧ (k.state = .quietWait ∨ k.state = .lost)
    (∀ t, moves = [t] → k.halt a m = ⟨{ k with queue := k.queue.filter fun t => !(t.cmd.isMove && t.addr == a) }, [(a, .withdrawn t.cmd)]⟩)
    ∧ (moves = [] → held → k.halt a m = ⟨k, []⟩)
    ∧ (∀ x, moves = [] → ¬held → waits x → x.sent = true →
        k.halt a m = ⟨{ k with current := some { x with txn := ⟨a, .halt, 0#16, .halt⟩ } }, [(a, .halting x.txn.cmd)]⟩)
    ∧ (∀ x, moves = [] → ¬held → waits x → x.sent = false →
        k.halt a m = ⟨{ k with current := none, state := .quietWait }, [(a, .withdrawn x.txn.cmd)]⟩)
    ∧ (moves = [] → ¬held → (∀ x, ¬waits x) → k.queue.length < 16 → k.halt a m = ⟨{ k with queue := halts ++ h :: others }, []⟩)
    ∧ (∀ os t, moves = [] → ¬held → (∀ x, ¬waits x) → 16 ≤ k.queue.length → others = os ++ [t] →
        k.halt a m = ⟨{ k with queue := halts ++ h :: os }, [(t.addr, .refused t.cmd)]⟩))
  ∧ (let finished (k : Link) : Link := { k with
        state := if k.state = .failed then .failed else .idle
        current := none
        addrs := tabulate 12 fun a => { k.addrs[a] with present := false, probe := none, due := false }
        lastPolled := 0
        pollAgain := none
        resetting := none }
     let next (rest : List AddrId) (k : Link) : Link :=
        let y : Link := { k with current := none, frame := none, reply := none, rx := [] }
        if rest = [] then finished y else { y with state := .quietWait }
     (∀ k : Link,
        let due := (List.finRange 12).filter fun a => k.addrs[a].present
        let started : Link := { k with queue := [], resetting := some due }
        (k.state = .failed → k.beginReset = finished started)
        ∧ (k.state = .sending ∨ k.state = .awaitReply → k.beginReset = started)
        ∧ (k.state = .idle ∨ k.state = .quietWait ∨ k.state = .lost → k.beginReset = next due started))
     ∧ (∀ (s : State) (l : LinkId) (b : AddrId) (rest : List AddrId), runs s → s.chip.links[l].state = .quietWait → s.chip.links[l].current = none →
        s.chip.links[l].resetting = some (b :: rest) →
        EndsAs (exec (.quietWaitEnd l) s) s ((s.chip.advance s.chip.links[l].quiet).modLink l fun k => { k with
          resetting := some rest
          current := some ⟨⟨b, .halt, 0#16, .reset⟩, false, 0, false, none, none, none⟩
          state := .sending
          frame := some (Config.us 220)
          quiet := Config.us 220 + Config.ms 2 }))
     ∧ (∀ (s : State) (l : LinkId) (x : Current) (rest : List AddrId), runs s → s.chip.links[l].state = .sending → s.chip.links[l].current = some x →
        s.chip.links[l].resetting = some rest →
        EndsAs (exec (.pairDriveFault l) s) s (s.chip.modLink l fun k => next rest { k with quiet := Config.ms 2 })
        ∧ (let lost (k : Link) : Link := { k with state := .lost, frame := none, quiet := Config.us 44 + Config.ms 2 }
           EndsAs (exec (.arbitrationLost l) s) s (s.chip.modLink l fun k => if x.txn.maker = .reset then lost k else next rest (lost k))))
     ∧ (∀ (s : State) (l : LinkId) (x : Current) (rest : List AddrId), runs s → s.chip.links[l].state = .awaitReply →
        s.chip.links[l].current = some x → s.chip.links[l].resetting = some rest →
        (∀ r, s.chip.links[l].reply = some r → EndsAs (exec (.replyTimeout l) s) s ((s.chip.advance r).modLink l (next rest)))
        ∧ (∀ ch : RxChar,
            let rx := s.chip.links[l].rx ++ [ch.data]
            let ends := ch.parityOk = false ∨ ch.framingOk = false ∨ replyBad x.txn.addr x.command rx = true
              ∨ (2 ≤ rx.length ∧ replyLength x.command (Status.ofByte (rx.getD 1 0#8)) ≤ rx.length)
            (ends → EndsAs (exec (.replyCharacter l ch) s) s (s.chip.modLink l fun k => next rest { k with quiet := Config.ms 2 }))
            ∧ (¬ends → EndsAs (exec (.replyCharacter l ch) s) s (s.chip.modLink l fun k => { k with quiet := Config.ms 2, rx := rx })))))

/-- REPLY_CHARACTER in AWAIT-REPLY: a bad character, or a reply that R128 fails, is a failed attempt; a reply not whole waits for more; a whole reply without
FAULT completes its transaction and is reported; one with FAULT, to a command other than SENSE, leads to the sense step, whose reply is reported with its bytes,
or, with CHECK ERROR, spoils the command or clears its FAULT. Bytes kept from a spoiled frame go with the report, with FAULT where it has none of its own, and
add their flags where it has. A probe complete without ACCEPTED has failed. Outside AWAIT-REPLY a character only starts the quiet time anew. A character is a
dominant start bit, eight data bits from the least significant on, a parity bit that makes the 1s odd, and a recessive stop bit; 1 is recessive, and a pair
that any station drives dominant is dominant (R117, R119, R126 to R130, R135, R136). STATUS carries the seven flags of R121 by the bits of section 11.8. A
reply to SENSE has 7 characters, one to IDENTIFY 5, with ACCEPTED, and any other 3 (R119). R128 fails a reply by its echo, by its STATUS, or by a check that is
not the low 8 bits of the sum of the characters before it, each judged as it comes. That the bytes of a second spoiled frame replace those kept from the
first is the model's reading (log 38). -/
def Obligations.RepliesCompleteTransactions : Prop :=
  (∀ (s : State) (l : LinkId) (ch : RxChar), runs s →
    let a := s.chip.modLink l fun k => { k with quiet := Config.ms 2 }
    let k := s.chip.links[l]
    (k.state ≠ .awaitReply → EndsAs (exec (.replyCharacter l ch) s) s a)
    ∧ ∀ x, k.state = .awaitReply → k.current = some x → k.resetting = none →
      let rx := k.rx ++ [ch.data]
      let st := Status.ofByte (rx.getD 1 0#8)
      let sense : Sense := ⟨rx.getD 2 0#8, rx.getD 3 0#8, rx.getD 4 0#8, rx.getD 5 0#8⟩
      let identity := if x.txn.cmd = .identify ∧ st.accepted = true then some (rx.getD 2 0#8, rx.getD 3 0#8) else none
      let addr := x.txn.addr
      let bad := ch.parityOk = false ∨ ch.framingOk = false ∨ replyBad addr x.command rx = true
      let whole := 2 ≤ rx.length ∧ replyLength x.command st ≤ rx.length
      let done (f : Link → Link) (r : LinkReport) := EndsAs (exec (.replyCharacter l ch) s) s
        { (a.modLink l fun k => f { k with current := none, state := .idle, reply := none, rx := [] }) with
          signals := a.signals ++ [.link l addr r] }
      -- complete with the command's STATUS, its sense bytes if it has any of its own, and its identity bytes
      let complete (st : Status) (own : Option Sense) (identity : Option (Byte × Byte)) :=
        let flags := if x.kept.isSome && own.isNone then { st with fault := true } else st
        let bytes := match x.kept, own with
          | some y, some s => some { s with b0 := s.b0 ||| (y.b0 &&& 0x3B#8) }
          | some y, none => some y
          | none, own => own
        (x.txn.maker = .move ∨ x.txn.maker = .halt ∨ x.txn.maker = .service → done id (.done x.txn.cmd flags bytes identity))
        ∧ (x.txn.maker = .poll → done (fun k => { k with pollAgain := if st.more then some addr else k.pollAgain }) (.polled flags bytes))
        ∧ (x.txn.maker = .probe → st.accepted = false → EndsAs (exec (.replyCharacter l ch) s) s (afterFailure l x a))
        ∧ (∀ i0 i1, x.txn.maker = .probe → st.accepted = true → identity = some (i0, i1) →
            done (fun k => { k with addrs := updAt k.addrs addr fun r => { r with present := true, probe := none, due := false } })
              (.online i0 i1 bytes))
      (bad → EndsAs (exec (.replyCharacter l ch) s) s (afterFailure l x a))
      ∧ (¬bad → ¬whole → EndsAs (exec (.replyCharacter l ch) s) s (a.modLink l fun k => { k with rx := rx }))
      ∧ (¬bad → whole → x.senseStep = false → st.fault = true → x.txn.cmd ≠ .sense →
          EndsAs (exec (.replyCharacter l ch) s) s (a.modLink l fun k => { k with
            state := .quietWait
            reply := none
            rx := []
            current := some { x with senseStep := true, status := some st, identity := identity } }))
      ∧ (¬bad → whole → x.senseStep = false → st.fault = false → x.txn.cmd ≠ .sense → complete st none identity)
      ∧ (¬bad → whole → x.senseStep = false → x.txn.cmd = .sense → complete st (some sense) none)
      ∧ (∀ cs, ¬bad → whole → x.senseStep = true → x.status = some cs →
          let check := sense.b0.getLsbD 2
          let others := sense.b0 &&& 0x3B#8 ≠ 0#8
          (check = false → complete cs (some sense) x.identity)
          ∧ (check = true → cs.accepted = true → others → complete cs (some sense) x.identity)
          ∧ (check = true → cs.accepted = true → ¬others → complete { cs with fault := false } none x.identity)
          ∧ (check = true → cs.accepted = false → EndsAs (exec (.replyCharacter l ch) s) s
              (afterFailure l { x with senseStep := false, status := none, identity := none, kept := if others then some sense else x.kept } a))))
  ∧ (∀ b : Byte,
      charLevels b = .dominant :: (List.range 8).map (fun k => if b.getLsbD k then .recessive else .dominant)
        ++ [if ((List.range 8).filter fun k => b.getLsbD k).length % 2 = 0 then .recessive else .dominant, .recessive]
      ∧ (RxChar.sent b).data = b ∧ (RxChar.sent b).parityOk = true ∧ (RxChar.sent b).framingOk = true)
  ∧ (∀ ch : RxChar,
      (∀ k : Fin 8, ch.data.getLsbD k.val = true ↔ ch.levels[k.val] = .recessive)
      ∧ (ch.parityOk = true ↔ ((List.finRange 9).filter fun k => ch.levels[k.val] == .recessive).length % 2 = 1)
      ∧ (ch.framingOk = true ↔ ch.levels[9] = .recessive))
  ∧ (∀ stations : List Level, Level.onPair stations = .dominant ↔ .dominant ∈ stations)
  ∧ (∀ b : Byte, Status.ofByte b =
      { accepted := b.getLsbD 0
        settled := b.getLsbD 1
        busy := b.getLsbD 2
        fault := b.getLsbD 3
        attention := b.getLsbD 4
        halted := b.getLsbD 5
        more := b.getLsbD 6 })
  ∧ (∀ x : Current, x.command = if x.senseStep = true then .sense else x.txn.cmd)
  ∧ (∀ (cmd : Command) (st : Status),
      replyLength cmd st = (if cmd = .sense ∧ st.accepted = true then 7 else if cmd = .identify ∧ st.accepted = true then 5 else 3)
      ∧ (statusBad cmd st = true ↔
          (st.accepted = true ∧ st.busy = true)
          ∨ (cmd ∈ [Command.poll, .halt, .identify] ∧ st.accepted = false ∧ st.fault = false)
          ∨ (cmd = .sense ∧ st.accepted = false)
          ∨ (cmd ∈ [Command.goto, .home, .cycle, .clear] ∧ st.accepted = false ∧ st.busy = false ∧ st.fault = false)))
  ∧ (∀ (a : AddrId) (cmd : Command) (before : List Byte) (b : Byte),
      replyBad a cmd (before ++ [b]) = true ↔
        (before.length = 0 ∧ b.toNat ≠ a.val + 1)
        ∨ (before.length = 1 ∧ statusBad cmd (Status.ofByte b) = true)
        ∨ (before.length + 1 = replyLength cmd (Status.ofByte ((before ++ [b]).getD 1 0#8)) ∧ b.toNat ≠ (before.map BitVec.toNat).sum % 256))

/-- RETRY_TIMER_EXPIRY hands the same move or service command again. SETTLE_TIMER_EXPIRY by the drive's state: STARTING and not at the link, FAULTED for
BUSY TIMEOUT; MOVING, HALTING for SETTLE TIMEOUT, the owner told; HALTING, FAULTED for SETTLE TIMEOUT; a command at the link gets no retry; a SENSE or CLEAR
that waits for its retry is over, a CLEAR of a FAULTED drive with BUSY TIMEOUT (R149, R153, R154, R156, R161, R162). That a service command at the link when
its window ends is marked so is the model's reading (log 35). That an expiry first lets the time that is left pass for the whole part is the model's choice
(log 2). -/
def Obligations.DriveTimersExpire : Prop :=
  (∀ (s : State) (d : DriveId) (r : Nat), runs s → s.chip.drives[d].retry = some r →
    let a := s.chip.advance r
    let x := a.drives[d]
    let handed (t : Txn) := Ends (exec (.retryTimerExpiry d) s) s fun c =>
      c.drives = updAt a.drives d (fun x => { x with retry := none, atLink := true })
      ∧ c.links = updAt a.links x.entry.link (fun k => (k.hand t).link)
      ∧ c.signals = a.signals ++ (a.links[x.entry.link].hand t).reports.map (fun y => .link x.entry.link y.1 y.2)
      ∧ Same [.drives, .links, .signals] c a
    (∀ mv, x.move = some mv → handed ⟨x.entry.addr, mv.code.command, mv.arg, .move⟩)
    ∧ (∀ k, x.move = none → x.service = some k → handed ⟨x.entry.addr, k.command, 0#16, .service⟩))
  ∧ (∀ (s : State) (d : DriveId) (r : Nat), runs s → s.chip.drives[d].settle = some r →
    let a := s.chip.advance r
    let x := a.drives[d]
    let faulted (why : FaultReason) := Ends (exec (.settleTimerExpiry d) s) s fun c =>
      c.drives = updAt a.drives d (fun x => { x with
        state := .faulted
        move := none
        atLink := false
        keptEnd := none
        accepted := false
        retry := none
        settle := none
        windowExpired := false
        haltCause := none
        reason := some why })
      ∧ Handed (srcDrive d) (.driveFault d why x.sense (a.driveOwner d)) c a
      ∧ (∀ i, a.driveOwner d = some i → .drive i d (.fault x.sense) ∈ c.signals
          ∨ (x.state = .halting ∧ x.haltCause = some .settleTimeout))
      ∧ Same [.drives, .sources, .signals, .postings] c a
    let expired := EndsAs (exec (.settleTimerExpiry d) s) s (a.modDrive d fun x => { x with settle := none, windowExpired := true })
    (x.state = .starting → x.atLink = false → faulted .busyTimeout)
    ∧ (x.state = .starting → x.atLink = true → expired)
    ∧ (x.state = .halting → faulted .settleTimeout)
    ∧ (x.state = .moving → Ends (exec (.settleTimerExpiry d) s) s fun c =>
        c.drives = updAt a.drives d (fun x => { x with
          state := .halting
          haltCause := some .settleTimeout
          retry := none
          settle := some (Config.ms (100 * x.entry.settle))
          windowExpired := false })
        ∧ c.links = updAt a.links x.entry.link (fun k => (k.halt x.entry.addr .halt).link)
        ∧ (∀ i, a.driveOwner d = some i → .drive i d (.fault x.sense) ∈ c.signals)
        ∧ Same [.drives, .links, .signals, .postings] c a)
    ∧ (x.state = .idle ∨ x.state = .faulted → x.service ≠ none → x.atLink = true → expired)
    ∧ (x.state = .faulted → x.service = some .clear → x.atLink = false → Ends (exec (.settleTimerExpiry d) s) s fun c =>
        c.drives[d] = { x with
          service := none, atLink := false, retry := none, settle := none, windowExpired := false, reason := some .busyTimeout }
        ∧ OtherDrives d c a ∧ Handed (srcDrive d) (.driveFault d .busyTimeout x.sense (a.driveOwner d)) c a
        ∧ Same [.drives, .sources] c a)
    ∧ (∀ k, x.service = some k → x.atLink = false → (x.state = .idle ∨ (x.state = .faulted ∧ k = .sense)) →
        Ends (exec (.settleTimerExpiry d) s) s fun c =>
          c.drives[d] = { x with service := none, atLink := false, retry := none, settle := none, windowExpired := false }
          ∧ OtherDrives d c a ∧ (a.driveOwner d ≠ none ∨ a.claims.waiting = [] → Same [.drives] c a)))

/-- What a drive does with a controller's report of its move, by the drive's state: taken (MOVING, told ACCEPTED), taken or refused with a fault (FAULTED),
BUSY and REFUSED (a retry in 100 ms, or BUSY TIMEOUT after the window), and in HALTING withdrawn, turned into the HALT, or taken and still halting. The end
kept in STARTING becomes the move's end once its acceptance has taken the drive to MOVING. In any other state a report of a move changes the position alone. A
report goes to the enabled drive with its link and address, and is dropped where there is none (R145, R148 to R151, R153, R154, R158, R162). What a HALTING
drive does whose move is taken with a fault is the model's reading (log 34); the HALT for the motion it began too. That a HALTING drive whose move is taken
does not take the kept end, and waits for the HALT's answer, is the model's choice (log 53). -/
def Obligations.DrivesTakeReportsOfMoves : Prop :=
  (∀ (c : Chip) (l : LinkId) (a : AddrId),
    let fits (u : DriveId) := c.drives[u].entry.enabled = true ∧ c.drives[u].entry.link = l ∧ c.drives[u].entry.addr = a
    (∀ u, fits u → (∀ w, w < u → ¬fits w) → c.driveAt l a = some u)
    ∧ (∀ r, (∀ u, ¬fits u) → c.handle (.link l a r) = c))
  ∧ (∀ (c : Chip) (l : LinkId) (a : AddrId) (u : DriveId) (cmd : Command) (st : Status) (s : Option Sense) (n : Option (Byte × Byte)),
    c.driveAt l a = some u → cmd.isMove = true →
    let x := c.drives[u]
    let y : Drive := { x with position := match s with
      | some s => s.position
      | none => x.position }
    let after (r : LinkReport) (z : Drive) (told : List Signal) (more : List Part) (p : Chip → Prop) :=
      let d := c.handle (.link l a r)
      d.drives = updAt c.drives u (fun _ => z) ∧ d.signals = c.signals ++ told ∧ p d
      ∧ (c.driveOwner u ≠ none ∨ c.claims.waiting = [] → Same ([.drives, .signals, .postings] ++ more) d c)
    let done := LinkReport.done cmd st s n
    let nothing (_ : Chip) := True
    let taken := st.accepted = true
    let fault := st.fault = true
    let faulty := faultedDrive y .sense s
    let halting := (c.links[x.entry.link].halt x.entry.addr .halt)
    let reported (why : FaultReason) (e : Option Sense) (d : Chip) := Handed (srcDrive u) (.driveFault u why e (c.driveOwner u)) d c
    let took := after done faulty
      (toldDrive u (.fault faulty.sense) c ++ toldChange u c ++ halting.reports.map fun r => .link x.entry.link r.1 r.2) [.sources, .links] fun d =>
        reported .sense faulty.sense d ∧ d.links = updAt c.links x.entry.link fun _ => halting.link
    let rejected := after done faulty (toldDrive u (.rejected (faulty.sense.getD ⟨0#8, 0#8, 0#8, 0#8⟩)) c ++ toldChange u c) [.sources]
      (reported .sense faulty.sense)
    let busy (r : LinkReport) (y : Drive) :=
      (x.windowExpired = true → after r (faultedDrive y .busyTimeout none) (toldDrive u (.fault x.sense) c ++ toldChange u c) [.sources]
        (reported .busyTimeout x.sense))
      ∧ (x.windowExpired = false → after r { y with atLink := false, keptEnd := none, retry := some (Config.ms 100) } [] [] nothing)
    (x.state = .starting →
      (taken → ¬fault → after done
        { y with accepted := true, atLink := false, settle := some (Config.ms (100 * x.entry.settle)), windowExpired := false, state := .moving }
        (toldDrive u .accepted c ++ toldChange u c ++ if x.keptEnd.isSome then [.keptEnd u] else []) [] nothing)
      ∧ (taken → fault → took) ∧ (¬taken → fault → rejected) ∧ (¬taken → ¬fault → busy done y) ∧ busy (.refused cmd) x)
    ∧ (x.state = .halting →
      (taken → ¬fault → after done { y with accepted := true, atLink := false } [] [] nothing)
      ∧ (taken → fault → took) ∧ (¬taken → fault → rejected)
      ∧ (¬taken → ¬fault → after done { y with atLink := false, keptEnd := none } [] [] nothing)
      ∧ after (.refused cmd) { x with atLink := false, keptEnd := none } [] [] nothing
      ∧ after (.halting cmd) { x with atLink := false, keptEnd := none } [] [] nothing
      ∧ after (.withdrawn cmd) (idleDrive x) (toldDrive u .withdrawn c ++ toldChange u c) [] nothing)
    ∧ (x.state ≠ .starting → x.state ≠ .halting → after done y [] [] nothing ∧ after (.refused cmd) x [] [] nothing)
    ∧ (x.state ≠ .halting → after (.halting cmd) x [] [] nothing ∧ after (.withdrawn cmd) x [] [] nothing))
  ∧ (∀ (c : Chip) (u : DriveId) (h : Bool), c.drives[u].state = .moving → c.drives[u].keptEnd = some h →
    let d := c.handle (.keptEnd u)
    d.drives = updAt c.drives u idleDrive ∧ d.signals = c.signals ++ toldDrive u (.settled h) c ++ toldChange u c)

/-- What a drive does with a poll, the DONE of a HALT or of a service command, and its coming and going, by its state. A poll or a HALT's DONE with FAULT
makes it FAULTED, or renews its sense; the end of a motion takes MOVING and HALTING to IDLE, a HALTING after a settle timeout to FAULTED, and is kept in
STARTING; ATTENTION is handed on beside either; ONLINE takes OFFLINE to IDLE, or to FAULTED; OFFLINE takes it out of any state; an accepted CLEAR takes it
from FAULTED to IDLE; a REFUSED or BUSY service command is handed again in 100 ms, or is over after its window. Each entry into FAULTED or OFFLINE is reported
to the owner, but that after a settle timeout reported before (R27, R145, R146, R149, R151, R152, R154, R156, R157, R158, R161, R162). That the window expired
field judges service commands too, that a fault leaves a service command waiting, and that the entry into FAULTED by an ONLINE is reported ahead of the change
of state, are the model's readings (logs 35, 37 and 70). That a CLEAR's DONE with FAULT is not retried where BUSY is set too, and that a command whose
window's timer a fault has stopped is handed again with no window running, are its choices (logs 61 and 63); so is that a HALT's DONE with FAULT is taken by
R152 behind a move refused in HALTING too (log 68). -/
def Obligations.DrivesTakePollsAndServiceReports : Prop :=
  ∀ (c : Chip) (l : LinkId) (a : AddrId) (u : DriveId) (st : Status) (s : Option Sense) (n : Option (Byte × Byte)), c.driveAt l a = some u →
    let x := c.drives[u]
    let y : Drive := { x with position := match s with
      | some s => s.position
      | none => x.position }
    let after (r : LinkReport) (z : Drive) (told : List Signal) (more : List Part) (p : Chip → Prop) :=
      let d := c.handle (.link l a r)
      d.drives = updAt c.drives u (fun _ => z) ∧ d.signals = c.signals ++ told ∧ p d
      ∧ (c.driveOwner u ≠ none ∨ c.claims.waiting = [] → Same ([.drives, .signals, .postings] ++ more) d c)
    let nothing (_ : Chip) := True
    let working := x.state = .idle ∨ x.state = .starting ∨ x.state = .moving ∨ x.state = .halting
    let finished (z : Drive) : Drive := { z with service := none, atLink := false, retry := none, settle := none, windowExpired := false }
    let faulty := faultedDrive y .sense s
    let renewed : Drive := { y with sense := if s.isSome then s else x.sense }
    let reported (why : FaultReason) (e : Option Sense) (d : Chip) := Handed (srcDrive u) (.driveFault u why e (c.driveOwner u)) d c
    let faults (r : LinkReport) (f : Drive → Drive) :=
      (working → after r (f faulty) (toldDrive u (.fault faulty.sense) c ++ toldChange u c) [.sources] (reported .sense faulty.sense))
      ∧ (x.state = .faulted → after r (f renewed) [] [.sources] (reported (x.reason.getD .sense) renewed.sense))
    let polled := LinkReport.polled st s
    let halted := LinkReport.done .halt st s n
    let fault := st.fault = true
    -- a poll makes the record `z`, tells `told`, and hands the notices `ns` and, with ATTENTION, DRIVE ATTENTION
    let takes (z : Drive) (told : List Signal) (ns : List NoticeBody) :=
      let all := ns ++ if st.attention then [.driveAttention u] else []
      after polled z told (if all.isEmpty then [] else [.sources]) (HandedAll (srcDrive u) all · c)
    let faultOf (why : FaultReason) (e : Option Sense) := NoticeBody.driveFault u why e (c.driveOwner u)
    (fault → working → takes faulty (toldDrive u (.fault faulty.sense) c ++ toldChange u c) [faultOf .sense faulty.sense])
    ∧ (fault → x.state = .faulted → takes renewed [] [faultOf (x.reason.getD .sense) renewed.sense])
    ∧ (¬fault → st.settled = true →
        (x.state = .moving → takes (idleDrive y) (toldDrive u (.settled st.halted) c ++ toldChange u c) [])
        ∧ (x.state = .halting → x.haltCause ≠ some .settleTimeout →
            takes (idleDrive y) (toldDrive u (if st.halted then .halted else .settled false) c ++ toldChange u c) [])
        ∧ (x.state = .halting → x.haltCause = some .settleTimeout →
            takes (faultedDrive y .settleTimeout none) (toldChange u c) [faultOf .settleTimeout x.sense])
        ∧ (x.state = .starting → x.atLink = true → takes { y with keptEnd := some st.halted } [] [])
        ∧ (x.state = .idle ∨ x.state = .faulted ∨ (x.state = .starting ∧ x.atLink = false) → takes y [] []))
    ∧ (¬fault → st.settled = false → x.state ≠ .offline → takes y [] [])
    ∧ (x.state = .offline → after polled y [] [] nothing)
    ∧ (fault → faults halted id)
    ∧ (¬fault → x.state = .halting → st.accepted = true → st.settled = true →
        (x.haltCause = some .settleTimeout →
          after halted (faultedDrive y .settleTimeout none) (toldChange u c) [.sources] (reported .settleTimeout x.sense))
        ∧ (x.haltCause ≠ some .settleTimeout →
          after halted (idleDrive y) (toldDrive u (if x.accepted then .settled false else .halted) c ++ toldChange u c) [] nothing))
    ∧ (¬fault → ¬(x.state = .halting ∧ st.accepted = true ∧ st.settled = true) → after halted y [] [] nothing)
    ∧ (∀ i0 i1, x.state = .offline →
        let z : Drive := { y with identity := some (i0, i1), sense := s, reason := s.map fun _ => .sense, state := if s.isSome then .faulted else .idle }
        let online := NoticeBody.driveOnline u i0 i1
        after (.online i0 i1 s) z ((if s.isSome then toldDrive u (.fault s) c else []) ++ toldChange u c) [.sources] fun d =>
          (s = none → Handed (srcDrive u) online d c)
          ∧ (∀ e, s = some e → c.port.resetDrain = false → c.port.mode ≠ .transparent → d.notice.sources[srcDrive u] =
              some (mergeNotice (some (mergeNotice c.notice.sources[srcDrive u] online)) (.driveFault u .sense s (c.driveOwner u)))))
    ∧ (∀ i0 i1, x.state ≠ .offline → after (.online i0 i1 s) y [] [] nothing)
    ∧ (x.state ≠ .offline → after .offline { idleDrive x with service := none, state := .offline } (toldDrive u (.fault x.sense) c ++ toldChange u c)
        [.sources] (Handed (srcDrive u) (.driveOffline u x.entry.link x.entry.addr x.state) · c))
    ∧ (x.state = .offline → after .offline x [] [] nothing)
    ∧ (∀ e, s = some e → x.service = some .sense → x.state = .idle ∨ x.state = .faulted →
        (fault → e.b0 &&& 0x3B#8 ≠ 0#8 → faults (.done .sense st s n) finished)
        ∧ (¬fault ∨ e.b0 &&& 0x3B#8 = 0#8 → after (.done .sense st s n) (finished y) [] [] nothing))
    ∧ (x.service = some .clear → x.state = .idle ∨ x.state = .faulted →
        (fault → faults (.done .clear st s n) finished)
        ∧ (¬fault → st.accepted = true → x.state = .idle → after (.done .clear st s n) (finished y) [] [] nothing)
        ∧ (¬fault → st.accepted = true → x.state = .faulted →
            after (.done .clear st s n) (finished { y with reason := none, sense := none, state := .idle }) (toldChange u c) [.sources]
              (Handed (srcDrive u) (.driveOnline u (x.identity.getD (0#8, 0#8)).1 (x.identity.getD (0#8, 0#8)).2) · c)))
    ∧ (∀ k, x.service = some k → x.state = .idle ∨ x.state = .faulted →
        let cmd : Command := match k with
          | .sense => .sense
          | .clear => .clear
        let turnedAway (r : LinkReport) (y : Drive) :=
          (x.windowExpired = false → after r { y with atLink := false, retry := some (Config.ms 100) } [] [] nothing)
          ∧ (x.windowExpired = true → k = .clear → x.state = .faulted →
              after r (finished { y with reason := some .busyTimeout }) [] [.sources] (reported .busyTimeout x.sense))
          ∧ (x.windowExpired = true → k = .sense ∨ x.state = .idle → after r (finished y) [] [] nothing)
        turnedAway (.refused cmd) x
        ∧ (k = .clear → ¬fault → st.accepted = false → turnedAway (.done .clear st s n) y)
        ∧ (k = .sense → s = none → turnedAway (.done .sense st s n) y))

/-! ## The requests -/

/-- HOLD: the REQUEST cause becomes present, a LIVE device enters HELD, and the reply is DONE with the two causes (R169; the entry to HELD is R171's). That
the slots are told of the bays' change, and the bays are mirrored, after the reply is the model's choice (log 71). -/
def Obligations.HoldRequestIsPerformed : Prop :=
  ∀ s : State, takes s (fun r => r.kind.toNat == 4) → Sound s →
    let b := s.chip.granted .loader
    let caused := b.modHold fun h => { h with request := true }
    let bits := bitNat (s.chip.hold.line != .absent) 0 + 2 + bitNat (s.chip.hold.line == .unsettled) 2
    (s.chip.hold.request = true → EndsAs (exec .hold s) s (b.answer .done bits))
    ∧ (s.chip.hold.request = false → s.chip.port.mode = .live → EndsAs (exec .hold s) s (caused.enterHeld.answer .done bits)
        ∧ caused.enterHeld.port.mode = .held ∧ caused.enterHeld.hold = caused.hold)
    ∧ (s.chip.hold.request = false → s.chip.port.mode = .held → EndsAs (exec .hold s) s (caused.mirrorDevice.answer .done bits))

/-- RELEASE: with the LINE cause present it is refused with LINE ACTIVE and nothing changes; else the REQUEST cause becomes absent, a HELD device leaves HELD,
and the reply is DONE; the detail is the two causes after the request (R170; the leaving is R172's). That the slots are told of the bays' change, and the bays
are mirrored, after the reply is the model's choice (log 71). -/
def Obligations.ReleaseRequestIsJudgedOnTheLine : Prop :=
  ∀ s : State, takes s (fun r => r.kind.toNat == 5) → Sound s →
    let b := s.chip.granted .loader
    let cleared := b.modHold fun h => { h with request := false }
    let bits := 1 + bitNat s.chip.hold.request 1 + bitNat (s.chip.hold.line == .unsettled) 2
    (s.chip.hold.line ≠ .absent → EndsAs (exec .release s) s (b.answer .lineActive bits))
    ∧ (s.chip.hold.line = .absent → s.chip.port.mode = .held → EndsAs (exec .release s) s (cleared.leaveHeld.answer .done 0)
        ∧ cleared.leaveHeld.port.mode = .live ∧ cleared.leaveHeld.hold = cleared.hold)
    ∧ (s.chip.hold.line = .absent → s.chip.port.mode = .live → EndsAs (exec .release s) s (b.answer .done 0))

/-- The entry to HELD, and what every block does at the leaving of it before the due cues are issued. MODE CHANGE is handed; every bay takes or loses the
cause HOLD, and a bay that becomes guarded halts its drives, or withdraws a move that waits; PLAYING and STARVED channels are PAUSED and fill up, and play
on at the leaving, at their clip's rate; DWELLING inputs return to ARMED, and at the leaving one settled active is timed anew; lamps keep level and fade at
the entry, and at the leaving fade from their safe level to their target over the restore fade (R61, R62, R91, R93, R112, R113, R153, R160, R163, R171,
R172, R174). That a lamp without a bay, which has no safe level, stands at its target then is the model's choice (log 18), as is when the next sample comes
(log 28), that none is timed anew from step 6 of a RESET SHOW on (log 26), that a FAULTED drive's move left at the link is called back with a HALT (log 52),
and that the HALTs join a link by rising bay and drive, and due cues are issued by rising slot before a waiting MOVE is taken up again (log 54). -/
def Obligations.HeldIsEnteredAndLeftByEveryBlock : Prop :=
  ∀ c : Chip,
    let input (b : BayId) := (List.finRange 32).any fun t => c.guardIn[t] == some (b, true)
    let bay (held : Bool) (b : BayId) : Bay :=
      { c.bays[b] with guarded := input b || c.bays[b].hostGuard || held, input := input b, host := c.bays[b].hostGuard, hold := held }
    let halts (held : Bool) : List DriveId := (List.finRange 16).flatMap fun b => (List.finRange 24).filter fun u =>
      !c.bays[b].guarded && (bay held b).guarded && c.drives[u].entry.enabled && c.drives[u].entry.bay == b
    let guards (held : Bool) (d : Chip) : Prop :=
      (∀ b : BayId, d.bays[b] = bay held b)
      ∧ (∀ u : DriveId, d.drives[u] = if u ∈ halts held then haltedDrive c.drives[u] .guard else c.drives[u])
      ∧ (∀ l : LinkId, d.links[l] = guardedLink c l (halts held))
    let changed : List Part := [.port, .postings, .sources, .voices, .trig, .lamp, .bays, .drives, .links, .signals]
    let rateOf (v : VoiceId) : Bool :=
      match c.voices[v].copy with
      | some e => e.rate32
      | none => c.voices[v].rate32
    let told (mode : Mode) (d : Chip) : Prop :=
      Port.core d.port = { Port.core c.port with mode := mode } ∧ Handed srcDevice (.modeChange mode c.hold.causes c.hold.level) d c
    -- no slot waits for claims, or no unowned drive is STARTING in a bay that becomes guarded (R38)
    (c.claims.waiting = [] ∨ ∀ u : DriveId, c.drives[u].state = .starting → c.bays[c.drives[u].entry.bay].guarded = false → c.driveOwner u ≠ none) →
    (let d := c.enterHeld
     told .held d ∧ guards true d ∧ Same changed d c
     ∧ (∀ v : VoiceId, d.voices[v] = if c.voices[v].state = .playing ∨ c.voices[v].state = .starved then
          { c.voices[v] with state := .paused, filling := true } else c.voices[v])
     ∧ (∀ t : InputId, d.trig.inputs[t] = if c.trig.inputs[t].state = .dwelling then
          { c.trig.inputs[t] with state := .armed, phaseOn := false, alt := none, dwell := none, cooldown := none } else c.trig.inputs[t])
     ∧ (∀ l : LampId, d.lamp.lamps[l] = { c.lamp.lamps[l] with demand := d.lamp.lamps[l].demand }))
    ∧ ∃ d : Chip, c.leaveHeld = forAll 12 Chip.tryIssue d
     ∧ told .live d ∧ guards false d ∧ Same changed d c
     ∧ (∀ v : VoiceId, d.voices[v] = if c.voices[v].state = .paused then
          { c.voices[v] with state := .playing, rate32 := rateOf v, sample := min c.voices[v].sample (bif rateOf v then 125 else 250) }
          else c.voices[v])
     ∧ (let anew (t : InputId) := c.port.resetDrain = false ∧ c.trig.inputs[t].entry.role = .start ∧ c.trig.inputs[t].state = .armed
          ∧ c.trig.inputs[t].entry.dwellMode = true ∧ c.trig.inputs[t].level = some true ∧ c.trig.inputs[t].offerOut = false
        (∀ t : InputId, anew t → d.trig.inputs[t] = { c.trig.inputs[t] with
            state := .dwelling
            phaseOn := true
            alt := some (Config.ms 250)
            dwell := some (Config.ms c.trig.inputs[t].entry.dwell)
            cooldown := none })
        ∧ (∀ t : InputId, ¬anew t → d.trig.inputs[t] = c.trig.inputs[t])
        ∧ (∀ (l : LampId) (w : Word), c.lamp.lamps[l].copy = some w → (∀ t, anew t → c.trig.inputs[t].entry.lamp ≠ some l) →
            let target := match c.lampOwner l, c.lamp.lamps[l].demand with
              | some _, _ => c.lamp.lamps[l].ownerLevel
              | none, .none => houseLevel w
              | none, .steady level => level
              | none, .alternating level _ => level
            let safe := match houseBay w with
              | some b => c.lamp.bays[b].safe
              | none => target
            let restore := match houseBay w with
              | some b => c.lamp.bays[b].restore
              | none => 0
            d.lamp.lamps[l] = faded { c.lamp.lamps[l] with level := safe, fade := none } target restore))

/-- START_SCENE of a scene 0–63 makes an offer and stays in hand for the verdict; of another it is answered BAD ARGUMENT. STOP_SCENE and STOP_BAY take the
matching entries out of the queue and end the matching instances in slot order, FREE from CHECKING and CLAIMING, by way of ENDING from TIMING and WAITING;
the reply counts both, or is NOT FOUND (R29, R30, R32, R36, R69, R197, R198). That the scene ends of several entries reach their inputs oldest entry first is
the model's choice (log 54), and so is that the reports of the step are taken after the reply (log 71). -/
def Obligations.StartAndStopRequests : Prop :=
  ∀ s : State,
    let b := s.chip.granted .loader
    let r := s.chip.recordNow s.mem
    let n := r.arg1.toNat
    (takes s (fun r => r.kind.toNat == 1) →
      (63 < n → EndsAs (exec .startScene s) s (b.answer .badArgument 0))
      ∧ (∀ k : Fin 64, k.val = n → EndsAs (exec .startScene s) s { b with
          req := { b.req with inHand := true }, trig := { b.trig with offers := b.trig.offers ++ [⟨k, .request r.tag⟩] } }))
    ∧ (let stops (i : Instr) (kind limit : Nat) (q : QueueEntry → Bool) (p : Slot → Bool) :=
        takes s (fun r => r.kind.toNat == kind) →
          (limit < n → EndsAs (exec i s) s (b.answer .badArgument 0))
          ∧ (n ≤ limit → ∀ m, (b.trig.queue.filter q).length = m →
              let alive (x : Slot) : Bool := p x && x.state != .free && x.state != .ending
              let ends (c : Chip) (j : SlotId) : Prop :=
                (b.slots[j].state = .checking ∨ b.slots[j].state = .claiming → c.slots[j] = .free)
                ∧ (b.slots[j].state = .timing ∨ b.slots[j].state = .waiting → TakesCause j .stopped b.slots[j] c b)
              ((∀ j : SlotId, alive b.slots[j] = false) → m = 0 → EndsAs (exec i s) s (b.answer .notFound 0))
              ∧ ((∀ j : SlotId, alive b.slots[j] = false) → 0 < m → Replies (exec i s) s .done m fun c =>
                  c.trig.queue = (b.trig.queue.filter fun e => !q e) ∧ Same [.trig, .lamp, .postings] c b)
              ∧ (∀ j : SlotId, waitersOk b → (∀ j' : SlotId, alive b.slots[j'] = true ↔ j' = j) → Replies (exec i s) s .done (m + 1) (ends · j))
              ∧ (∀ k, ((List.finRange 12).filter fun j : SlotId => alive b.slots[j]).length = k → 0 < m + k → b.claims.waiting = [] →
                  Replies (exec i s) s .done (m + k) fun c => ∀ j : SlotId, alive b.slots[j] = true → ends c j)
              ∧ (let inOrder := (List.finRange 12).foldl (fun (x : Nat × Chip) (j : SlotId) =>
                    if alive x.2.slots[j] then (x.1 + 1, x.2.endSlot j .stopped) else x) (0, b.removeEntries q)
                 0 < m + inOrder.1 → EndsAs (exec i s) s (inOrder.2.answer .done (m + inOrder.1))))
       stops .stopScene 2 63 (fun e => e.scene.val == n) (fun x => x.scene == n)
       ∧ stops .stopBay 3 15 (fun e => e.bay == n) (fun x => (match x.defn with
          | some d => some d.bay.val
          | none => x.admissionBay) == some n))

/-- GUARD_BAY_SET and GUARD_BAY_CLEAR set the bay's host guard flag and work its guarded state out. Where the bay becomes guarded, its MOVING drives, and its
STARTING ones with the move at the link, are HALTING for the guard, each with a HALT handed to its link, and a move that waits for its retry is withdrawn; the
owners are told, and then the bay's new state is on its way to the slots and the mirror, as it is where the bay becomes clear. The halts come before the reply;
that what is on its way is taken after it, at the end of the step, is the model's choice (log 71). Only a withdrawn move of a drive with no owner can set more
going, a review of the claims (R38).
ARM_TRIGGER and DISARM_TRIGGER act on a START input by its state. The replies are DONE with the states after, or BAD ARGUMENT (R61, R72, R73, R153, R158, R159,
R160, R199). A code that is neither is taken by both guard rows (log 12). That a move left at the link by a FAULTED drive is called back with a HALT is the
model's reading (log 52); that the drives of a bay are halted by rising number is its choice (log 54). -/
def Obligations.GuardAndArmRequests : Prop :=
  ∀ s : State,
    let b := s.chip.granted .loader
    let r := s.chip.recordNow s.mem
    (∀ on : Bool, takes s (fun r => r.kind.toNat == 6 && (r.arg2.toNat == (if on then 1 else 0) || 1 < r.arg2.toNat)) →
      let i : Instr := if on then .guardBaySet else .guardBayClear
      (15 < r.arg1.toNat ∨ 1 < r.arg2.toNat → EndsAs (exec i s) s (b.answer .badArgument 0))
      ∧ (∀ k : BayId, k.val = r.arg1.toNat → r.arg2.toNat ≤ 1 →
          let input := (List.finRange 32).any fun t => b.guardIn[t] == some (k, true)
          let y : Bay := ⟨on, input || on || b.isHeld, input, on, b.isHeld⟩
          let becomes := b.bays[k].guarded = false ∧ y.guarded = true
          let atBay (d : DriveId) : Bool := b.drives[d].entry.enabled && b.drives[d].entry.bay == k
          let ds := (List.finRange 24).filter atBay
          let reviews := becomes ∧ ∃ d, atBay d = true ∧ b.drives[d].state = .starting ∧ b.drives[d].atLink = false ∧ b.driveOwner d = none
          Replies (exec i s) s .done (bitNat y.guarded 0 + 2 * (bitNat y.input 0 + bitNat y.host 1 + bitNat y.hold 2)) fun c =>
            c.bays = updAt b.bays k (fun _ => y)
            ∧ (∀ d : DriveId, becomes → atBay d = true → c.drives[d] = haltedDrive b.drives[d] .guard)
            ∧ (∀ d : DriveId, ¬(becomes ∧ atBay d = true) → c.drives[d] = b.drives[d])
            ∧ (∀ l : LinkId, (becomes → c.links[l] = guardedLink b l ds) ∧ (¬becomes → c.links[l] = b.links[l]))
            ∧ (¬reviews ∨ b.claims.waiting = [] →
                (becomes → c.signals = b.signals ++ guardedSignals b [] ds ++ [.bay k, .bayMirror k])
                ∧ (b.bays[k].guarded = true → y.guarded = false → c.signals = b.signals ++ [.bay k, .bayMirror k])
                ∧ (b.bays[k].guarded = y.guarded → c.signals = b.signals)
                ∧ Same [.bays, .drives, .links, .postings, .signals] c b)
            ∧ (∀ p ∈ [Part.port, .arbiter, .loader, .req, .noticeIndex, .guardIn, .hold, .voices], sameAt c b p)))
    ∧ (takes s (fun r => r.kind.toNat == 7) →
      (31 < r.arg1.toNat → EndsAs (exec .armTrigger s) s (b.answer .badArgument 0))
      ∧ (∀ t : InputId, t.val = r.arg1.toNat →
          let x := b.trig.inputs[t]
          let armed := { x with state := .armed, phaseOn := false, alt := none, dwell := none, cooldown := none }
          let dwells := b.isLive && x.entry.dwellMode && x.level == some true && !x.offerOut
          let y :=
            if x.state = .disarmed then
              if dwells then { armed with state := .dwelling, phaseOn := true, alt := some (Config.ms 250), dwell := some (Config.ms x.entry.dwell) }
              else armed
            else { x with disarmPending := false }
          (x.entry.role ≠ .start → EndsAs (exec .armTrigger s) s (b.answer .badArgument 0))
          ∧ (x.entry.role = .start → Replies (exec .armTrigger s) s .done y.detail fun c =>
              c.trig = { b.trig with inputs := updAt b.trig.inputs t fun _ => y } ∧ Same [.trig, .lamp, .postings] c b)))
    ∧ (takes s (fun r => r.kind.toNat == 8) →
      (31 < r.arg1.toNat → EndsAs (exec .disarmTrigger s) s (b.answer .badArgument 0))
      ∧ (∀ t : InputId, t.val = r.arg1.toNat →
          let x := b.trig.inputs[t]
          let y :=
            if x.state = .disarmed then x
            else if x.state = .spent ∨ x.offerOut = true then { x with disarmPending := true }
            else { x with state := .disarmed, phaseOn := false, alt := none, dwell := none, cooldown := none }
          (x.entry.role ≠ .start → EndsAs (exec .disarmTrigger s) s (b.answer .badArgument 0))
          ∧ (x.entry.role = .start → Replies (exec .disarmTrigger s) s .done y.detail fun c =>
              c.trig = { b.trig with inputs := updAt b.trig.inputs t fun _ => y } ∧ Same [.trig, .lamp, .postings] c b)))
    ∧ (∀ x : Input, x.entry.role = .start → x.detail =
        (match x.state with
          | .disarmed => 0
          | .armed => 1
          | .dwelling => 2
          | .spent => 3
          | .cooldown => 4) + if x.disarmPending then 256 else 0)

/-- DRIVE_SERVICE is judged in R161's order; judged QUEUED, HOME is a move of the unit's own, and SENSE and CLEAR open their window and go to the link. A
code that is none of the three is taken by every service row (log 12). The details of OWNED, OFFLINE and GUARDED, and the detail 0 of a code that is none of
the three whatever the drive does, are the model's readings of R199 (log 36). That the reports of the step are taken after the reply is its choice (log 71). -/
def Obligations.DriveServiceIsJudgedInOrder : Prop :=
  ∀ (s : State) (k : ServiceCode),
    let b := s.chip.granted .loader
    let r := s.chip.recordNow s.mem
    let i : Instr := match k with
      | .home => .driveServiceHome
      | .sense => .driveServiceSense
      | .clear => .driveServiceClear
    let code := match k with
      | .home => 1
      | .sense => 2
      | .clear => 3
    takes s (fun r => r.kind.toNat == 9 && (r.arg2.toNat == code || r.arg2.toNat == 0 || 3 < r.arg2.toNat)) →
      (23 < r.arg1.toNat ∨ r.arg2.toNat ≠ code → EndsAs (exec i s) s (b.answer .badArgument 0))
      ∧ ∀ d : DriveId, d.val = r.arg1.toNat → r.arg2.toNat = code →
        let x := b.drives[d]
        let owned := b.driveOwner d ≠ none
        let offline := x.state = .offline
        let guarded := k = .home ∧ b.bays[x.entry.bay].guarded = true
        let misfit := (k = .home ∧ x.state ≠ .idle) ∨ (k = .clear ∧ x.state ≠ .idle ∧ x.state ≠ .faulted) ∨ x.service ≠ none ∨ x.move ≠ none
        let detail := if x.state = .idle ∨ x.state = .faulted then 0 else x.state.code
        (owned → EndsAs (exec i s) s (b.answer .owned detail))
        ∧ (¬owned → offline → EndsAs (exec i s) s (b.answer .offline 0))
        ∧ (¬owned → ¬offline → guarded → EndsAs (exec i s) s (b.answer .guarded detail))
        ∧ (¬owned → ¬offline → ¬guarded → misfit → EndsAs (exec i s) s (b.answer .badArgument x.state.code))
        ∧ (¬owned → ¬offline → ¬guarded → ¬misfit → Replies (exec i s) s .queued 0 fun c =>
            let window := { x with
              retry := none, settle := some (Config.ms (100 * x.entry.settle)), windowExpired := false, atLink := true }
            (k = .home → c.drives[d] = { window with
              state := .starting, move := some ⟨.home, r.arg3, true⟩, keptEnd := none, accepted := false })
            ∧ (k = .sense → c.drives[d] = { window with service := some .sense })
            ∧ (k = .clear → c.drives[d] = { window with service := some .clear })
            ∧ (let t : Txn := match k with
                | .home => ⟨x.entry.addr, .home, r.arg3, .move⟩
                | .sense => ⟨x.entry.addr, .sense, 0#16, .service⟩
                | .clear => ⟨x.entry.addr, .clear, 0#16, .service⟩
               c.links = updAt b.links x.entry.link (fun y => (y.hand t).link))
            ∧ OtherDrives d c b ∧ Same [.drives, .links, .signals, .postings] c b)

/-- RESET_SHOW without FORCE is answered BUSY, and nothing else is done, while a slot is not FREE or the queue not empty; the detail is their sum. Else it is
carried out as R201 gives (R200). -/
def Obligations.ResetShowIsBusyOrCarriedOut : Prop :=
  ∀ s : State, takes s (fun r => r.kind.toNat == 10) →
    let b := s.chip.granted .loader
    let force := (s.chip.recordNow s.mem).flags.getLsbD 0
    let load := (b.slots.toList.filter fun x => x.state != .free).length + b.trig.queue.length
    (force = false → load ≠ 0 → EndsAs (exec .resetShow s) s (b.answer .busy load))
    ∧ (force = true ∨ load = 0 → EndsAs (exec .resetShow s) s b.resetShow)

/-- RESET_SHOW carried out: the reply, and then, at once or at the end of the step in which the last posting made before has been created, steps 2 to 7 of
R201, which leave every slot FREE, every claim free, every channel IDLE, every lamp at its house level, the queue and the inputs' states emptied, the fence and
the notice sources empty, and no posting of the notice unit waiting. Each controller begins the reset of R139, whose HALTs and end HaltsAndResetsReachTheLinks
states; reads, offers and bursts under way stay at the arbiter, abandoned; every posting made before is kept in its place. RESET_SHOW_DRAIN_END: with every
posting landed LOADING begins, the consume index kept (R4, R12, R53, R55, R63, R70, R94, R99, R103, R115, R139, R164, R173, R192, R194, R201, R203). That the
inputs are DISARMED between, and that steps 2 to 7 are one, are the model's readings (logs 26 and 27), and that an abandoned read stays at the arbiter is one
too (log 15). -/
def Obligations.ResetShowClearsTheShow : Prop :=
  (∀ c : Chip,
    let d := c.resetNow
    d.req = { c.req with resetWait := false }
    ∧ (∀ l : LinkId, d.links[l] = c.links[l].beginReset)
    ∧ d.slots = Vector.replicate 12 .free ∧ d.claims = .empty
    ∧ (∀ i : SlotId, d.fetch[i] = ⟨c.fetch[i].cur.map fun x => (x.1, true), none⟩)
    ∧ (∀ x : DriveId, d.drives[x] = { Drive.reset with entry := c.drives[x].entry })
    ∧ (∀ v : VoiceId,
        let x := c.voices[v]
        d.voices[v] = { Channel.reset with
          burst := x.burst.map fun b => { b with abandoned := true }
          dirRead := x.dirRead.map fun r => { r with abandoned := true }
          lsbFirst := x.lsbFirst
          rate32 := x.rate32
          sample := x.sample
          out := x.out
          frame := x.frame
          urgent := x.urgent })
    ∧ (∀ l : LampId,
        let x := c.lamp.lamps[l]
        d.lamp.lamps[l] = { x with level := x.house, fade := none, ownerLevel := 0, demand := .none })
    ∧ d.lamp = { c.lamp with lamps := d.lamp.lamps }
    ∧ d.trig = { c.trig with inputs := d.trig.inputs, queue := [], offers := [], staleRead := c.trig.staleRead || !c.trig.offers.isEmpty }
    ∧ (∀ t : InputId, d.trig.inputs[t] = { c.trig.inputs[t] with
        state := .disarmed, disarmPending := false, offerOut := false, dwell := none, cooldown := none, phaseOn := false, alt := none })
    ∧ d.port.sceneSpan = Vector.replicate 12 none ∧ d.port.cueSpan = Vector.replicate 12 none ∧ d.port.clipSpan = Vector.replicate 8 none
    ∧ d.notice.sources = Vector.replicate 77 none ∧ d.port.fencedFirst = none ∧ d.port.fencedCount = 0 ∧ d.port.noticeBacklog = []
    ∧ (c.port.posts.map fun p => (p.word, p.mirror)) <+: (d.port.posts.map fun p => (p.word, p.mirror))
    ∧ (d.port.posts.filter fun p => !p.mirror) = (c.port.posts.filter fun p => !p.mirror) ∧ d.port.requestBacklog = c.port.requestBacklog
    ∧ (∀ b : BayId, d.bays[b] = { c.bays[b] with guarded := c.bays[b].input, hostGuard := false, host := false, hold := false })
    ∧ d.hold = { c.hold with line := .absent, request := false } ∧ d.port.resetDrain = true
    ∧ d.port.mode = (if c.port.mode = .held then .live else c.port.mode)
    ∧ (∀ p ∈ [Part.arbiter, .loader, .noticeIndex, .guardIn, .signals], sameAt d c p))
  ∧ (∀ c : Chip,
    (c.req.resetWait = true → c.port.noticeBacklog = [] → c.port.requestBacklog = [] → c.resetDue = c.resetNow)
    ∧ (c.req.resetWait = false ∨ c.port.noticeBacklog ≠ [] ∨ c.port.requestBacklog ≠ [] → c.resetDue = c)
    ∧ c.resetShow = (let d := c.answer .done 0; { d with req := { d.req with resetWait := true } }.resetDue)
    ∧ (∀ p, c.signals = [] → c.isLive = false ∨ c.trig.queue = [] → c.req.resetWait = true → c.port.settlePostings = p → p.noticeBacklog = [] →
        p.requestBacklog = [] → c.settle = { c with port := p }.resetNow.wake.arbitrate))
  ∧ (∀ s : State, runs s → s.chip.port.resetDrain = true → s.chip.port.posts = [] → s.chip.port.noticeBacklog = [] →
      s.chip.port.requestBacklog = [] → Ends (exec .resetShowDrainEnd s) s fun c =>
        c.port = { s.chip.port with mode := .loading, resetDrain := false } ∧ c.loader = .start
        ∧ c.req = { s.chip.req with keepConsume := true } ∧ c.hold = { s.chip.hold with line := .absent, request := false }
        ∧ c.trig.queue = [] ∧ (∀ t : InputId, c.trig.inputs[t] = { Input.reset with raw := s.chip.trig.inputs[t].raw })
        ∧ c.guardIn = Vector.replicate 32 none
        ∧ (∀ b : BayId, c.bays[b] = { s.chip.bays[b] with guarded := s.chip.bays[b].hostGuard, input := false, hold := false })
        ∧ (∀ l : LinkId, c.links[l] = { s.chip.links[l] with loopback := .notRun })
        ∧ Same [.port, .loader, .req, .trig, .guardIn, .bays, .links, .hold] c s.chip)

/-! ## Replies and notices -/

/-- UNKNOWN_KIND is answered so. A reply is posted before the consume index that passes it, and the index is advanced by 1 mod 32 (R195, R196). The reply word
has the status code in its first byte, 0 in the second and the detail in the upper half; the codes, and the places of the record's fields at the consume index,
are those of section 11.2. -/
def Obligations.RepliesLandBeforeTheIndex : Prop :=
  (∀ s : State, takes s (fun r => r.kind.toNat == 0 || 10 < r.kind.toNat) →
    EndsAs (exec .unknownKind s) s ((s.chip.granted .loader).answer .unknownKind 0))
  ∧ (∀ (c : Chip) (r : Reply) (detail : Nat), c.port.requestBacklog = [] → c.port.posts.length ≤ 30 →
    let next := (c.req.consume + 1) % 32
    c.answer r detail = { c with
      port := { c.port with posts := c.port.posts ++
        [⟨(c.base rRequests + 16 * c.req.consume) / 4 + 3, Word.ofNats r.code 0 (detail % 256) (detail / 256 % 256), 0xF#4, false⟩,
         ⟨c.base rControl / 4 + 1, BitVec.ofNat 32 next, 0xF#4, false⟩] }
      req := { c.req with consume := next, inHand := false } })
  ∧ [Reply.done, .accepted, .queued, .ignored, .queueFull, .undefinedScene, .notFound, .lineActive, .owned, .offline, .guarded, .busy, .badArgument,
      .unknownKind].map Reply.code = List.range' 1 14
  ∧ (∀ (c : Chip) (m : Memory),
    let x := c.base rRequests + 16 * c.req.consume
    let r := c.recordNow m
    r.kind = m.byte x ∧ r.flags = m.byte (x + 1) ∧ r.tag.toNat = numberAt m (x + 2) 2 ∧ r.arg1 = m.byte (x + 4) ∧ r.arg2 = m.byte (x + 5)
    ∧ r.arg3.toNat = numberAt m (x + 6) 2)

/-- NOTICE_DRAIN: in LIVE or HELD, with room in the ring, the first source after the pointer that holds a notice is emptied, its record and the advanced
produce index are posted in this order, and a FENCED WRITE clears the port's record; with the ring full, or none pending, nothing happens. A notice handed to
an empty source is pending with merged count 0; handed to one that holds a notice, it replaces one of lower or equal rank and gives way to one of higher rank,
and the one that stays counts one more, at most 255. In TRANSPARENT, and from step 7 of a RESET SHOW on, none is taken (R186, R201, R202, R203). The ranks are
those of section 10.5, and so are the sources. Every kind's code, qualifier and payload are those of section 11.5, with the codes of section 11.4; SCENE ENDED
carries the slot's record as section 11.6 has it, the failing cue index for its five causes alone (R33, R208, R209). -/
def Obligations.NoticesMergeAndDrainInTurn : Prop :=
  (∀ s : State, runs s → s.chip.mayDrain = false ∨ s.chip.notice.sources = Vector.replicate 77 none →
    EndsAs (exec .noticeDrain s) s s.chip)
  ∧ (∀ (s : State) (k : Fin 77) (n : Notice), runs s → s.chip.running = true → s.chip.port.resetDrain = false →
    s.chip.port.noticeBacklog = [] → (s.chip.notice.produce + 1) % 64 ≠ s.chip.notice.consume → s.chip.port.posts.length ≤ 27 →
    s.chip.notice.sources[k] = some n →
    (∀ j : Fin 77, s.chip.notice.sources[j] ≠ none → (k.val + 76 - s.chip.notice.pointer.val) % 77 ≤ (j.val + 76 - s.chip.notice.pointer.val) % 77) →
    let p := s.chip.notice.produce
    let w := s.chip.base rNotices / 4 + 4 * p
    let x := n.body.encode
    EndsAs (exec .noticeDrain s) s { s.chip with
      notice := { s.chip.notice with
        sources := updAt s.chip.notice.sources k fun _ => none
        pointer := k
        produce := (p + 1) % 64 }
      port := { s.chip.port with
        posts := s.chip.port.posts ++
          [⟨w, Word.ofNats k.val x.kind n.merged x.qualifier, 0xF#4, false⟩, ⟨w + 1, x.w1, 0xF#4, false⟩, ⟨w + 2, x.w2, 0xF#4, false⟩,
           ⟨w + 3, x.w3, 0xF#4, false⟩, ⟨s.chip.controlWord 2, BitVec.ofNat 32 ((p + 1) % 64), 0xF#4, false⟩]
        fencedFirst := if n.body.isFenced then none else s.chip.port.fencedFirst
        fencedCount := if n.body.isFenced then 0 else s.chip.port.fencedCount } })
  ∧ (∀ (c : Chip) (k : Fin 77) (b : NoticeBody),
      let d := c.hand k b
      (c.port.mode = .transparent ∨ c.port.resetDrain = true → d = c)
      ∧ (c.port.mode ≠ .transparent → c.port.resetDrain = false →
        (c.notice.sources[k] = none → d.notice.sources[k] = some ⟨b, 0⟩)
        ∧ (∀ n, c.notice.sources[k] = some n →
            (n.body.rank ≤ b.rank → d.notice.sources[k] = some ⟨b, min 255 (n.merged + 1)⟩)
            ∧ (b.rank < n.body.rank → d.notice.sources[k] = some ⟨n.body, min 255 (n.merged + 1)⟩))
        ∧ (∀ j : Fin 77, j ≠ k → d.notice.sources[j] = c.notice.sources[j]) ∧ Same [.sources] d c))
  ∧ (∀ b : NoticeBody, b.isFenced = true ↔ ∃ first count, b = .fencedWrite first count)
  ∧ srcDevice.val = 0 ∧ (∀ i, (srcSlot i).val = 1 + i.val) ∧ (∀ t, (srcInput t).val = 13 + t.val) ∧ (∀ d, (srcDrive d).val = 45 + d.val)
  ∧ (∀ v, (srcVoice v).val = 69 + v.val)
  ∧ (∀ b d : NoticeBody,
      -- in a list of kind codes, highest rank first, that of `b` stands before that of `d`
      let above (kinds : List Nat) := ∃ i j : Nat, kinds[i]? = some b.encode.kind ∧ kinds[j]? = some d.encode.kind ∧ i < j
      (b.encode.kind = d.encode.kind → b.rank = d.rank)
      ∧ (above [4, 3, 2, 1] ∨ above [6, 5] ∨ above [12, 11, 10, 9] → d.rank < b.rank)
      ∧ (b.encode.kind = 7 → d.encode.kind = 8 → b.rank = d.rank))
  ∧ (let coded (b : NoticeBody) (kind qualifier : Nat) (payload : List Nat) : Prop :=
      b.encode.kind = kind ∧ b.encode.qualifier = qualifier ∧ payloadOf b = payload ++ List.replicate (12 - payload.length) 0
    let level : Option Bool → Nat := fun x => match x with
      | none => 0
      | some false => 1
      | some true => 2
    let slot : Option SlotId → Nat := fun x => match x with
      | none => 255
      | some i => i.val
    (∀ mode causes stop, coded (.modeChange mode causes stop) 1 mode.code
        [bitNat causes.line 0 + bitNat causes.request 1 + bitNat causes.unsettled 2, level stop])
    ∧ (∀ which cand, coded (.badIndex which cand) 2 which (bytesOf 4 cand.toNat))
    ∧ (∀ first count, coded (.fencedWrite first count) 3 0 (bytesOf 4 first ++ bytesOf 2 count))
    ∧ (∀ a b l pos, coded (.linkFailed a b l pos) 4 (bitNat a 0 + bitNat b 1) [l.val, pos % 256])
    ∧ (∀ cue clock, coded (.sceneNote cue clock) 5 0 ([cue % 256, 0, 0, 0] ++ bytesOf 4 clock))
    ∧ (∀ t scene why, coded (.triggerDropped t scene why) 7 why.code [t.val, scene % 256])
    ∧ (∀ t b lv, coded (.guardChange t b lv) 8 0 [t.val, b.val, level lv])
    ∧ (∀ d i0 i1, coded (.driveOnline d i0 i1) 9 0 [d.val, i0.toNat, i1.toNat])
    ∧ (∀ d, coded (.driveAttention d) 10 0 [d.val])
    ∧ (∀ d l a left, coded (.driveOffline d l a left) 11 0 [d.val, l.val, a.val + 1, left.code])
    ∧ (∀ d why o, coded (.driveFault d why none o) 12 why.code [d.val, 0, 0, 0, 0, 0, slot o])
    ∧ (∀ d why s o, coded (.driveFault d why (some s) o) 12 why.code [d.val, 1, s.b0.toNat, s.b1.toNat, s.b2.toNat, s.b3.toNat, slot o])
    ∧ (∀ v clip o play count, coded (.underrun v clip o play count) 13 0 ([v.val, clip % 256, slot o, 0] ++ bytesOf 4 play ++ bytesOf 2 count))
    ∧ (∀ e : SceneEnd,
        let late := e.cause ∈ [Cause.sceneInvalid, .clipMissing, .moveRejected, .guardAbort, .waitTimeout]
        let byRequest := match e.origin with
          | some (.request _) => 1
          | _ => 0
        let origin := match e.origin with
          | some (.trigger t) => t.val
          | some (.request tag) => tag.toNat
          | none => 0
        let fault (f : DriveId × Sense → Nat) := (e.fault.map f).getD 0
        coded (.sceneEnded e) 6
          (e.cause.code + bitNat e.flags.waitExpired 4 + bitNat e.flags.markMissed 5 + bitNat e.flags.underrun 6 + bitNat e.flags.faultDuring 7)
          ([e.scene % 64 + 64 * byRequest + fault (fun _ => 128), fault (fun x => x.1.val)] ++ bytesOf 2 origin ++ bytesOf 2 e.issued
            ++ [if late then e.failing.getD 0 % 256 else 0] ++ bytesOf 4 e.clockMs ++ [fault (fun x => x.2.b0.toNat)])))
  ∧ (∀ (x : Slot) (why : Cause), x.cause = some why → x.sceneEnd =
      { scene := x.scene
        origin := x.origin
        cause := why
        flags := x.flags
        issued := x.issued
        failing := x.failing
        clockMs := x.clockMs
        fault := x.fault })
  ∧ [Mode.transparent, .loading, .live, .held].map Mode.code = [0, 1, 2, 3]
  ∧ [Dropped.ignored, .queueFull, .undefinedScene].map Dropped.code = [1, 2, 3]
  ∧ [FaultReason.sense, .busyTimeout, .settleTimeout].map FaultReason.code = [1, 2, 3]
  ∧ [DriveState.offline, .idle, .starting, .moving, .halting, .faulted].map DriveState.code = List.range 6
  ∧ [Cause.normal, .stopped, .restarted, .runLimit, .claimTimeout, .claimRefused, .sceneUndefined, .sceneInvalid, .clipMissing, .moveRejected,
      .modelFault, .guardAbort, .waitTimeout].map Cause.code = List.range' 1 13

/-- The state mirror. An update posts each of its words with the values of the entry as they stand, in LIVE and HELD, and not from step 7 of a RESET SHOW
on; it merges with a pending posting of the word, or takes an entry of the buffer, or waits for one. The words of each entry lie where the map has them; the
whole image is every word of it, and is posted at the entry to LIVE, after the notice produce index. A change of state is mirrored as it is made (R3, R68,
R75, R84, R95, R116, R145, R160, R162, R174, R180, R187, R188, R205, R208, section 11.7). A word is posted whole (log 20); the target level of a lamp
without a bay in HELD is left open (log 18). The order of the image and that the word at offset 0x00C is not in it are the model's choices (logs 65 and 66). -/
def Obligations.MirrorWordsAreTheEntriesNow : Prop :=
  ∀ c : Chip,
    let p := c.port
    let posting (x : MirrorWord) : Posting := ⟨c.base rMirror / 4 + x.1, x.2, 0xF#4, true⟩
    -- one word
    (∀ x : MirrorWord,
      (c.running = false ∨ p.resetDrain = true → c.mirror x = c)
      ∧ (c.running = true → p.resetDrain = false →
        (∀ ps, p.noticeBacklog = [] → createPosting p.posts (posting x) = some ps → c.mirror x = { c with port := { p with posts := ps } })
        ∧ (p.noticeBacklog = [] → createPosting p.posts (posting x) = none →
            c.mirror x = { c with port := { p with noticeBacklog := [posting x], waiting := p.waiting ++ [.noticeUnit] } })
        ∧ (p.noticeBacklog ≠ [] → c.mirror x = { c with port := { p with noticeBacklog := p.noticeBacklog ++ [posting x] } })))
    -- the words of the entries
    ∧ (let mode := match p.mode with
        | .transparent => 0
        | .loading => 1
        | .live => 2
        | .held => 3
       c.mDevice = (2, Word.ofNats mode
        ((if c.hold.line = .absent then 0 else 1) + (if c.hold.request then 2 else 0) + (if c.hold.line = .unsettled then 4 else 0)) c.trig.queue.length 0))
    ∧ (∀ i : SlotId,
        let x := c.slots[i]
        let state := match x.state with
          | .free => 0
          | .checking => 1
          | .claiming => 2
          | .timing => 3
          | .waiting => 4
          | .ending => 5
        let cue := match x.current with
          | some k => k.index
          | none => 0
        c.mSlot i = [(4 + 2 * i.val, Word.ofNats state x.scene cue 0), (5 + 2 * i.val, BitVec.ofNat 32 (min 4294967295 (x.clock / 4000)))])
    ∧ (∀ d : DriveId,
        let x := c.drives[d]
        let state := match x.state with
          | .offline => 0
          | .idle => 1
          | .starting => 2
          | .moving => 3
          | .halting => 4
          | .faulted => 5
        c.mDrive d = (28 + d.val, Word.ofNats state 0 x.position (x.position / 256)))
    ∧ (∀ v : VoiceId,
        let x := c.voices[v]
        let state := match x.state with
          | .idle => 0
          | .priming => 1
          | .playing => 2
          | .starved => 3
          | .fading => 4
          | .paused => 5
        c.mVoice v = (52 + v.val, Word.ofNats state (x.clip.getD 0) x.underruns (x.underruns / 256)))
    ∧ (∀ t : InputId,
        let x := c.trig.inputs[t]
        let state := match x.entry.role, x.state with
          | .none, _ => 5
          | .guard, _ => 6
          | .start, .disarmed => 0
          | .start, .armed => 1
          | .start, .dwelling => 2
          | .start, .spent => 3
          | .start, .cooldown => 4
        let level := match x.settled with
          | none => 0
          | some high => if high = x.entry.activeHigh then 2 else 1
        c.mInput t = (60 + t.val, Word.ofNats state (if x.disarmPending then 1 else 0) level 0))
    ∧ (∀ (l : LampId) (w : Word), c.lamp.lamps[l].copy = some w →
        let x := c.lamp.lamps[l]
        let word (source target : Nat) : MirrorWord := (92 + l.val, Word.ofNats source 0 target (target / 256))
        (∀ b, c.isHeld = true → houseBay w = some b → c.mLamp l = word 3 c.lamp.bays[b].safe)
        ∧ (c.isHeld = false → c.mLamp l = match c.lampOwner l, x.demand with
          | some _, _ => word 2 x.ownerLevel
          | none, .none => word 0 (houseLevel w)
          | none, .steady level => word 1 level
          | none, .alternating level _ => word 1 level))
    ∧ (∀ b : BayId, c.mBay b = (188 + b.val, Word.ofNats (if c.bays[b].guarded then 1 else 0)
        ((if c.bays[b].input then 1 else 0) + (if c.bays[b].host then 2 else 0) + (if c.bays[b].hold then 4 else 0)) 0 0))
    -- the whole image, and the entry to LIVE
    ∧ c.mirrorImage.map (fun x => x.1) = (List.range 204).filter (fun k => k != 3)
    ∧ (0, 0x34325053#32) ∈ c.mirrorImage ∧ (1, 1#32) ∈ c.mirrorImage ∧ c.mDevice ∈ c.mirrorImage
    ∧ (∀ (i : SlotId), ∀ x ∈ c.mSlot i, x ∈ c.mirrorImage) ∧ (∀ d : DriveId, c.mDrive d ∈ c.mirrorImage) ∧ (∀ v : VoiceId, c.mVoice v ∈ c.mirrorImage)
    ∧ (∀ t : InputId, c.mInput t ∈ c.mirrorImage) ∧ (∀ l : LampId, c.mLamp l ∈ c.mirrorImage) ∧ (∀ b : BayId, c.mBay b ∈ c.mirrorImage)
    ∧ (p.posts = [] → p.noticeBacklog = [] → p.resetDrain = false →
        ∃ d : Chip, c.enterLive = (forAll 32 Chip.timeAnew d).lineAtLive ∧ d.port.posts.length = 32
          ∧ d.port.posts ++ d.port.noticeBacklog =
            ⟨c.controlWord 2, 0#32, 0xF#4, false⟩ :: ({ c with port := { p with mode := .live } } : Chip).mirrorImage.map posting)
    -- changes
    ∧ (∀ (i : SlotId) (st : SlotState), c.slots[i].state ≠ st → c.slotTo i st = (c.modSlot i fun s => { s with state := st }).mirrorSlot i)
    ∧ (∀ (d : DriveId) (st : DriveState), c.drives[d].state ≠ st →
        (c.driveTo d st).port = ((c.modDrive d fun x => { x with state := st }).mirrorDrive d).port)
    ∧ (∀ (d : DriveId) (s : Sense), c.drives[d].position ≠ s.position →
        c.takePosition d (some s) = (c.modDrive d fun x => { x with position := s.position }).mirrorDrive d)
    ∧ (∀ (t : InputId) (st : InputState), ∃ d : Chip, c.enterInput t st = d.mirrorInput t ∧ d.trig.inputs[t].state = st)
    ∧ (∀ (v : VoiceId) (why : IdleWhy), ∃ d : Chip, c.voiceIdle v why = d.mirrorVoice v ∧ d.voices[v] = c.voices[v].idled)
    ∧ (∀ (l : LampId) (level : Nat), c.lampFadeDone l level = (c.modLamp l fun x => { x with level := level, fade := none }).mirrorLamp l)
    ∧ (∀ b : BayId, c.handle (.bayMirror b) = c.mirrorBay b)
    ∧ (∀ (scene : Fin 64) (o : Origin) (bay cooldown : Nat), ∃ d : Chip, c.appendEntry scene o bay cooldown = d.mirrorDevice
        ∧ d.trig.queue = c.trig.queue ++ [⟨scene, o, c.trig.seq, bay, cooldown⟩])
end

