-- ==== Sys2Proof/Laws/Quiet.lean ====
section
/-!
SUPPORT. What no block does to another. `Quietly c₀ c`: `c` comes from `c₀` by changes of slots, claims, triggers, lamps, channels, links, drives
and bays, by reports and notices handed, by postings created, by fence spans set or removed, and by the bus granted. So every property that none of these changes
carries over: the mode, the hold's causes, the indices, the loader, the host cycle, and (for a bound) the posting buffer. One lemma for each
operation of the blocks.
-/

namespace Sys2Proof.Machine

/-- A property of the part that the quiet changes keep. -/
structure Quiet (Q : Chip → Prop) : Prop where
  blocks : ∀ (c : Chip) slots fetch claims trig lamp voices links drives bays guardIn signals, Q c →
    Q { c with
      slots := slots, fetch := fetch, claims := claims, trig := trig, lamp := lamp, voices := voices, links := links, drives := drives
      bays := bays, guardIn := guardIn, signals := signals }
  spans : ∀ (c : Chip) a b d, Q c → Q { c with port := { c.port with sceneSpan := a, cueSpan := b, clipSpan := d } }
  posts : ∀ (c : Chip) who x, Q c → Q { c with port := c.port.post who x }
  settled : ∀ c : Chip, Q c → Q { c with port := c.port.settlePostings }
  sources : ∀ (c : Chip) x, Q c → Q { c with notice := { c.notice with sources := x } }
  bus : ∀ (c : Chip) x, Q c → Q { c with port := { c.port with bus := x } }
  grant : ∀ (c : Chip) x a b n, n ≤ Config.hostRun → Q c →
    Q { c with port := { c.port with bus := x, clipPtr := a, cuePtr := b, hostCount := n } }

/-- `c` comes from `c₀` by quiet changes. -/
def Quietly (c₀ c : Chip) : Prop := ∀ Q : Chip → Prop, Quiet Q → Q c₀ → Q c

theorem Quietly.keeps {c₀ c : Chip} (h : Quietly c₀ c) {Q : Chip → Prop} (hq : Quiet Q) (h₀ : Q c₀) : Q c := h Q hq h₀

@[simp] theorem Quietly.refl (c : Chip) : Quietly c c := fun _ _ h => h

theorem Quietly.trans {a b c : Chip} (h : Quietly a b) (g : Quietly b c) : Quietly a c := fun Q hq x => g Q hq (h Q hq x)

/-! ## The changes themselves -/

theorem Quietly.blocks {c₀ c : Chip} (h : Quietly c₀ c) (slots fetch claims trig lamp voices links drives bays guardIn signals) :
    Quietly c₀ { c with
      slots := slots, fetch := fetch, claims := claims, trig := trig, lamp := lamp, voices := voices, links := links, drives := drives
      bays := bays, guardIn := guardIn, signals := signals } :=
  fun Q hq x => hq.blocks c _ _ _ _ _ _ _ _ _ _ _ (h Q hq x)

theorem Quietly.spans {c₀ c : Chip} (h : Quietly c₀ c) (a b d) :
    Quietly c₀ { c with port := { c.port with sceneSpan := a, cueSpan := b, clipSpan := d } } :=
  fun Q hq x => hq.spans c _ _ _ (h Q hq x)

@[simp] theorem Quietly.post {c₀ c : Chip} (who : Producer) (x : Posting) (h : Quietly c₀ c) : Quietly c₀ (c.modPort (Port.post who x)) :=
  fun Q hq y => hq.posts c _ _ (h Q hq y)

@[simp] theorem Quietly.sources {c₀ c : Chip} (x : NoticeUnit → Vector (Option Notice) 77) (h : Quietly c₀ c) :
    Quietly c₀ (c.modNotice fun n => { n with sources := x n }) :=
  fun Q hq y => hq.sources c _ (h Q hq y)

/-- A grant moves the bus, a pointer and the count alone, and the count stays within 8 (R182, R183). -/
theorem grantBus_cases (r : Requester) (c : Chip) : ∃ a b n, n ≤ Config.hostRun ∧
    c.grantBus r = { c with port := { c.port with bus := some r, clipPtr := a, cuePtr := b, hostCount := n } } := by
  cases r
  case host =>
    refine ⟨c.port.clipPtr, c.port.cuePtr, _, ?_, rfl⟩
    split
    · exact Nat.min_le_left _ _
    · exact Nat.zero_le _
  case clip v => exact ⟨v, c.port.cuePtr, 0, Nat.zero_le _, rfl⟩
  case cue k => exact ⟨c.port.clipPtr, k, 0, Nat.zero_le _, rfl⟩
  all_goals exact ⟨c.port.clipPtr, c.port.cuePtr, 0, Nat.zero_le _, rfl⟩

@[simp] theorem Quietly.grantBus {c₀ c : Chip} (r) (h : Quietly c₀ c) : Quietly c₀ (c.grantBus r) := by
  obtain ⟨a, b, n, hn, e⟩ := grantBus_cases r c
  rw [e]
  exact fun Q hq y => hq.grant c _ _ _ _ hn (h Q hq y)

@[simp] theorem Quietly.freeBus {c₀ c : Chip} (x : Option Requester) (h : Quietly c₀ c) : Quietly c₀ (c.modPort fun p => { p with bus := x }) :=
  fun Q hq y => hq.bus c _ (h Q hq y)

@[simp] theorem Quietly.granted {c₀ c : Chip} (r) (h : Quietly c₀ c) : Quietly c₀ (c.granted r) := by
  unfold Chip.granted
  split
  · exact h.freeBus none
  · exact (h.grantBus r).freeBus none

@[simp] theorem Quietly.arbitrate {c₀ c : Chip} (h : Quietly c₀ c) : Quietly c₀ c.arbitrate := by
  unfold Chip.arbitrate
  split
  · exact h
  · split
    · exact h.grantBus _
    · exact h.freeBus none

@[simp] theorem Quietly.modSlot {c₀ c : Chip} (i f) (h : Quietly c₀ c) : Quietly c₀ (c.modSlot i f) := h.blocks _ _ _ _ _ _ _ _ _ _ _
@[simp] theorem Quietly.modFetch {c₀ c : Chip} (i f) (h : Quietly c₀ c) : Quietly c₀ (c.modFetch i f) := h.blocks _ _ _ _ _ _ _ _ _ _ _
@[simp] theorem Quietly.modClaims {c₀ c : Chip} (f) (h : Quietly c₀ c) : Quietly c₀ (c.modClaims f) := h.blocks _ _ _ _ _ _ _ _ _ _ _
@[simp] theorem Quietly.modTrig {c₀ c : Chip} (f) (h : Quietly c₀ c) : Quietly c₀ (c.modTrig f) := h.blocks _ _ _ _ _ _ _ _ _ _ _
@[simp] theorem Quietly.modInput {c₀ c : Chip} (t f) (h : Quietly c₀ c) : Quietly c₀ (c.modInput t f) := h.modTrig _
@[simp] theorem Quietly.modLampUnit {c₀ c : Chip} (f) (h : Quietly c₀ c) : Quietly c₀ (c.modLampUnit f) := h.blocks _ _ _ _ _ _ _ _ _ _ _
@[simp] theorem Quietly.modLamp {c₀ c : Chip} (l f) (h : Quietly c₀ c) : Quietly c₀ (c.modLamp l f) := h.modLampUnit _
@[simp] theorem Quietly.modVoice {c₀ c : Chip} (v f) (h : Quietly c₀ c) : Quietly c₀ (c.modVoice v f) := h.blocks _ _ _ _ _ _ _ _ _ _ _
@[simp] theorem Quietly.modLink {c₀ c : Chip} (l f) (h : Quietly c₀ c) : Quietly c₀ (c.modLink l f) := h.blocks _ _ _ _ _ _ _ _ _ _ _
@[simp] theorem Quietly.modDrive {c₀ c : Chip} (d f) (h : Quietly c₀ c) : Quietly c₀ (c.modDrive d f) := h.blocks _ _ _ _ _ _ _ _ _ _ _
@[simp] theorem Quietly.modBay {c₀ c : Chip} (b f) (h : Quietly c₀ c) : Quietly c₀ (c.modBay b f) := h.blocks _ _ _ _ _ _ _ _ _ _ _
@[simp] theorem Quietly.signals {c₀ c : Chip} (x) (h : Quietly c₀ c) : Quietly c₀ { c with signals := x } := h.blocks _ _ _ _ _ _ _ _ _ _ _
@[simp] theorem Quietly.claims {c₀ c : Chip} (x) (h : Quietly c₀ c) : Quietly c₀ { c with claims := x } := h.blocks _ _ _ _ _ _ _ _ _ _ _
@[simp] theorem Quietly.guardIn {c₀ c : Chip} (x) (h : Quietly c₀ c) : Quietly c₀ { c with guardIn := x } := h.blocks _ _ _ _ _ _ _ _ _ _ _
@[simp] theorem Quietly.links {c₀ c : Chip} (x) (h : Quietly c₀ c) : Quietly c₀ { c with links := x } := h.blocks _ _ _ _ _ _ _ _ _ _ _
@[simp] theorem Quietly.unfence {c₀ c : Chip} (i) (h : Quietly c₀ c) : Quietly c₀ (c.modPort (Port.unfence i)) := h.spans _ _ _
@[simp] theorem Quietly.sceneSpan {c₀ c : Chip} (x : Port → Vector (Option Span) 12) (h : Quietly c₀ c) :
    Quietly c₀ (c.modPort fun p => { p with sceneSpan := x p }) := h.spans _ _ _
@[simp] theorem Quietly.cueSpan {c₀ c : Chip} (x : Port → Vector (Option Span) 12) (h : Quietly c₀ c) :
    Quietly c₀ (c.modPort fun p => { p with cueSpan := x p }) := h.spans _ _ _
@[simp] theorem Quietly.clipSpan {c₀ c : Chip} (x : Port → Vector (Option Span) 8) (h : Quietly c₀ c) :
    Quietly c₀ (c.modPort fun p => { p with clipSpan := x p }) := h.spans _ _ _

/-! ## Choice and repetition -/

@[simp] theorem Quietly.ite {c₀ a b : Chip} {p : Prop} [Decidable p] (ha : Quietly c₀ a) (hb : Quietly c₀ b) :
    Quietly c₀ (if p then a else b) := by split <;> assumption

@[simp] theorem Quietly.foldl {α : Type} {c₀ : Chip} {f : Chip → α → Chip} {xs : List α} {c : Chip}
    (hf : ∀ c a, Quietly c (f c a)) (h : Quietly c₀ c) : Quietly c₀ (xs.foldl f c) := by
  induction xs generalizing c with
  | nil => exact h
  | cons a xs ih => exact ih (h.trans (hf c a))

@[simp] theorem Quietly.forAll {c₀ : Chip} {n : Nat} {f : Fin n → Chip → Chip} {c : Chip} (hf : ∀ i c, Quietly c (f i c))
    (h : Quietly c₀ c) : Quietly c₀ (forAll n f c) := Quietly.foldl (fun c i => hf i c) h

/-! ## The operations of the blocks -/

@[simp] theorem Quietly.signal {c₀ c : Chip} (x : Signal) (h : Quietly c₀ c) :
    Quietly c₀ (Chip.signal x c) := by
  unfold Chip.signal
  (try dsimp only)
  repeat' split
  all_goals simp (maxDischargeDepth := 60) [h]

@[simp] theorem Quietly.signalAll {c₀ c : Chip} (xs : List Signal) (h : Quietly c₀ c) :
    Quietly c₀ (Chip.signalAll xs c) := by
  unfold Chip.signalAll
  (try dsimp only)
  repeat' split
  all_goals simp (maxDischargeDepth := 60) [h]

@[simp] theorem Quietly.requestFetch {c₀ c : Chip} (i : SlotId) (k : FetchKind) (h : Quietly c₀ c) :
    Quietly c₀ (Chip.requestFetch i k c) := by
  unfold Chip.requestFetch
  (try dsimp only)
  repeat' split
  all_goals simp (maxDischargeDepth := 60) [h]

@[simp] theorem Quietly.abandonFetch {c₀ c : Chip} (i : SlotId) (h : Quietly c₀ c) :
    Quietly c₀ (Chip.abandonFetch i c) := by
  unfold Chip.abandonFetch
  (try dsimp only)
  repeat' split
  all_goals simp (maxDischargeDepth := 60) [h]

@[simp] theorem Quietly.fetchDone {c₀ c : Chip} (i : SlotId) (h : Quietly c₀ c) :
    Quietly c₀ (Chip.fetchDone i c) := by
  unfold Chip.fetchDone
  (try dsimp only)
  repeat' split
  all_goals simp (maxDischargeDepth := 60) [h]

@[simp] theorem Quietly.postNotice {c₀ c : Chip} (w : Nat) (data : Word) (h : Quietly c₀ c) :
    Quietly c₀ (Chip.postNotice w data c) := by
  unfold Chip.postNotice
  (try dsimp only)
  repeat' split
  all_goals simp (maxDischargeDepth := 60) [h]

@[simp] theorem Quietly.postRequest {c₀ c : Chip} (w : Nat) (data : Word) (h : Quietly c₀ c) :
    Quietly c₀ (Chip.postRequest w data c) := by
  unfold Chip.postRequest
  (try dsimp only)
  repeat' split
  all_goals simp (maxDischargeDepth := 60) [h]

@[simp] theorem Quietly.hand {c₀ c : Chip} (src : Fin 77) (b : NoticeBody) (h : Quietly c₀ c) :
    Quietly c₀ (Chip.hand src b c) := by
  unfold Chip.hand
  (try dsimp only)
  repeat' split
  all_goals simp (maxDischargeDepth := 60) [h]

@[simp] theorem Quietly.mirror {c₀ c : Chip} (x : MirrorWord) (h : Quietly c₀ c) :
    Quietly c₀ (Chip.mirror x c) := by
  unfold Chip.mirror
  (try dsimp only)
  repeat' split
  all_goals simp (maxDischargeDepth := 60) [h]

@[simp] theorem Quietly.mirrorAll {c₀ c : Chip} (xs : List MirrorWord) (h : Quietly c₀ c) :
    Quietly c₀ (Chip.mirrorAll xs c) := by
  unfold Chip.mirrorAll
  (try dsimp only)
  repeat' split
  all_goals simp (maxDischargeDepth := 60) [h]

@[simp] theorem Quietly.mirrorDevice {c₀ c : Chip} (h : Quietly c₀ c) :
    Quietly c₀ (Chip.mirrorDevice c) := by
  unfold Chip.mirrorDevice
  (try dsimp only)
  repeat' split
  all_goals simp (maxDischargeDepth := 60) [h]

@[simp] theorem Quietly.mirrorSlot {c₀ c : Chip} (i : SlotId) (h : Quietly c₀ c) :
    Quietly c₀ (Chip.mirrorSlot i c) := by
  unfold Chip.mirrorSlot
  (try dsimp only)
  repeat' split
  all_goals simp (maxDischargeDepth := 60) [h]

@[simp] theorem Quietly.mirrorDrive {c₀ c : Chip} (d : DriveId) (h : Quietly c₀ c) :
    Quietly c₀ (Chip.mirrorDrive d c) := by
  unfold Chip.mirrorDrive
  (try dsimp only)
  repeat' split
  all_goals simp (maxDischargeDepth := 60) [h]

@[simp] theorem Quietly.mirrorVoice {c₀ c : Chip} (v : VoiceId) (h : Quietly c₀ c) :
    Quietly c₀ (Chip.mirrorVoice v c) := by
  unfold Chip.mirrorVoice
  (try dsimp only)
  repeat' split
  all_goals simp (maxDischargeDepth := 60) [h]

@[simp] theorem Quietly.mirrorInput {c₀ c : Chip} (t : InputId) (h : Quietly c₀ c) :
    Quietly c₀ (Chip.mirrorInput t c) := by
  unfold Chip.mirrorInput
  (try dsimp only)
  repeat' split
  all_goals simp (maxDischargeDepth := 60) [h]

@[simp] theorem Quietly.mirrorLamp {c₀ c : Chip} (l : LampId) (h : Quietly c₀ c) :
    Quietly c₀ (Chip.mirrorLamp l c) := by
  unfold Chip.mirrorLamp
  (try dsimp only)
  repeat' split
  all_goals simp (maxDischargeDepth := 60) [h]

@[simp] theorem Quietly.mirrorBay {c₀ c : Chip} (b : BayId) (h : Quietly c₀ c) :
    Quietly c₀ (Chip.mirrorBay b c) := by
  unfold Chip.mirrorBay
  (try dsimp only)
  repeat' split
  all_goals simp (maxDischargeDepth := 60) [h]

@[simp] theorem Quietly.restoreLamp {c₀ c : Chip} (l : LampId) (h : Quietly c₀ c) :
    Quietly c₀ (Chip.restoreLamp l c) := by
  unfold Chip.restoreLamp
  (try dsimp only)
  repeat' split
  all_goals simp (maxDischargeDepth := 60) [h]

@[simp] theorem Quietly.lampCue {c₀ c : Chip} (l : LampId) (lv : Nat) (fade : Nat) (h : Quietly c₀ c) :
    Quietly c₀ (Chip.lampCue l lv fade c) := by
  unfold Chip.lampCue
  (try dsimp only)
  repeat' split
  all_goals simp (maxDischargeDepth := 60) [h]

@[simp] theorem Quietly.lampReleased {c₀ c : Chip} (l : LampId) (shadowLevel : Option Nat) (h : Quietly c₀ c) :
    Quietly c₀ (Chip.lampReleased l shadowLevel c) := by
  unfold Chip.lampReleased
  (try dsimp only)
  repeat' split
  all_goals simp (maxDischargeDepth := 60) [h]

@[simp] theorem Quietly.demandShown {c₀ c : Chip} (l : LampId) (old : Demand) (new : Demand) (h : Quietly c₀ c) :
    Quietly c₀ (Chip.demandShown l old new c) := by
  unfold Chip.demandShown
  (try dsimp only)
  repeat' split
  all_goals simp (maxDischargeDepth := 60) [h]

@[simp] theorem Quietly.lampDemand {c₀ c : Chip} (l : LampId) (new : Demand) (h : Quietly c₀ c) :
    Quietly c₀ (Chip.lampDemand l new c) := by
  unfold Chip.lampDemand
  (try dsimp only)
  repeat' split
  all_goals simp (maxDischargeDepth := 60) [h]

@[simp] theorem Quietly.lampEntryRead {c₀ c : Chip} (l : LampId) (w : Word) (h : Quietly c₀ c) :
    Quietly c₀ (Chip.lampEntryRead l w c) := by
  unfold Chip.lampEntryRead
  (try dsimp only)
  repeat' split
  all_goals simp (maxDischargeDepth := 60) [h]

@[simp] theorem Quietly.lampCapture {c₀ c : Chip} (l : LampId) (data : Word) (be : Enables) (h : Quietly c₀ c) :
    Quietly c₀ (Chip.lampCapture l data be c) := by
  unfold Chip.lampCapture
  (try dsimp only)
  repeat' split
  all_goals simp (maxDischargeDepth := 60) [h]

@[simp] theorem Quietly.lampFrame {c₀ c : Chip} (h : Quietly c₀ c) :
    Quietly c₀ (Chip.lampFrame c) := by
  unfold Chip.lampFrame
  (try dsimp only)
  repeat' split
  all_goals simp (maxDischargeDepth := 60) [h]

@[simp] theorem Quietly.lampFadeDone {c₀ c : Chip} (l : LampId) (target : Nat) (h : Quietly c₀ c) :
    Quietly c₀ (Chip.lampFadeDone l target c) := by
  unfold Chip.lampFadeDone
  (try dsimp only)
  repeat' split
  all_goals simp (maxDischargeDepth := 60) [h]

@[simp] theorem Quietly.lampsEnterHeld {c₀ c : Chip} (h : Quietly c₀ c) :
    Quietly c₀ (Chip.lampsEnterHeld c) := by
  unfold Chip.lampsEnterHeld
  (try dsimp only)
  repeat' split
  all_goals simp (maxDischargeDepth := 60) [h]

@[simp] theorem Quietly.lampLeaveHeld {c₀ c : Chip} (l : LampId) (h : Quietly c₀ c) :
    Quietly c₀ (Chip.lampLeaveHeld l c) := by
  unfold Chip.lampLeaveHeld
  (try dsimp only)
  repeat' split
  all_goals simp (maxDischargeDepth := 60) [h]

@[simp] theorem Quietly.lampsLeaveHeld {c₀ c : Chip} (h : Quietly c₀ c) :
    Quietly c₀ (Chip.lampsLeaveHeld c) := by
  unfold Chip.lampsLeaveHeld
  (try dsimp only)
  repeat' split
  all_goals simp (maxDischargeDepth := 60) [h]

@[simp] theorem Quietly.refreshDemand {c₀ c : Chip} (t : InputId) (h : Quietly c₀ c) :
    Quietly c₀ (Chip.refreshDemand t c) := by
  unfold Chip.refreshDemand
  (try dsimp only)
  repeat' split
  all_goals simp (maxDischargeDepth := 60) [h]

@[simp] theorem Quietly.enterInput {c₀ c : Chip} (t : InputId) (st : InputState) (h : Quietly c₀ c) :
    Quietly c₀ (Chip.enterInput t st c) := by
  unfold Chip.enterInput
  (try dsimp only)
  repeat' split
  all_goals simp (maxDischargeDepth := 60) [h]

@[simp] theorem Quietly.timeAnew {c₀ c : Chip} (t : InputId) (h : Quietly c₀ c) :
    Quietly c₀ (Chip.timeAnew t c) := by
  unfold Chip.timeAnew
  (try dsimp only)
  repeat' split
  all_goals simp (maxDischargeDepth := 60) [h]

@[simp] theorem Quietly.enterArmed {c₀ c : Chip} (t : InputId) (h : Quietly c₀ c) :
    Quietly c₀ (Chip.enterArmed t c) := by
  unfold Chip.enterArmed
  (try dsimp only)
  repeat' split
  all_goals simp (maxDischargeDepth := 60) [h]

@[simp] theorem Quietly.fire {c₀ c : Chip} (t : InputId) (h : Quietly c₀ c) :
    Quietly c₀ (Chip.fire t c) := by
  unfold Chip.fire
  (try dsimp only)
  repeat' split
  all_goals simp (maxDischargeDepth := 60) [h]

@[simp] theorem Quietly.dwellFire {c₀ c : Chip} (t : InputId) (h : Quietly c₀ c) :
    Quietly c₀ (Chip.dwellFire t c) := by
  unfold Chip.dwellFire
  (try dsimp only)
  repeat' split
  all_goals simp (maxDischargeDepth := 60) [h]

@[simp] theorem Quietly.startSettled {c₀ c : Chip} (t : InputId) (h : Quietly c₀ c) :
    Quietly c₀ (Chip.startSettled t c) := by
  unfold Chip.startSettled
  (try dsimp only)
  repeat' split
  all_goals simp (maxDischargeDepth := 60) [h]

@[simp] theorem Quietly.stopDwelling {c₀ c : Chip} (t : InputId) (h : Quietly c₀ c) :
    Quietly c₀ (Chip.stopDwelling t c) := by
  unfold Chip.stopDwelling
  (try dsimp only)
  repeat' split
  all_goals simp (maxDischargeDepth := 60) [h]

@[simp] theorem Quietly.sceneEnd {c₀ c : Chip} (t : InputId) (cooldown : Nat) (h : Quietly c₀ c) :
    Quietly c₀ (Chip.sceneEnd t cooldown c) := by
  unfold Chip.sceneEnd
  (try dsimp only)
  repeat' split
  all_goals simp (maxDischargeDepth := 60) [h]

@[simp] theorem Quietly.sceneEndOf {c₀ c : Chip} (o : Option Origin) (cooldown : Nat) (h : Quietly c₀ c) :
    Quietly c₀ (Chip.sceneEndOf o cooldown c) := by
  unfold Chip.sceneEndOf
  (try dsimp only)
  repeat' split
  all_goals simp (maxDischargeDepth := 60) [h]

@[simp] theorem Quietly.arm {c₀ c : Chip} (t : InputId) (h : Quietly c₀ c) :
    Quietly c₀ (Chip.arm t c) := by
  unfold Chip.arm
  (try dsimp only)
  repeat' split
  all_goals simp (maxDischargeDepth := 60) [h]

@[simp] theorem Quietly.disarm {c₀ c : Chip} (t : InputId) (h : Quietly c₀ c) :
    Quietly c₀ (Chip.disarm t c) := by
  unfold Chip.disarm
  (try dsimp only)
  repeat' split
  all_goals simp (maxDischargeDepth := 60) [h]

@[simp] theorem Quietly.removeEntries {c₀ c : Chip} (p : QueueEntry → Bool) (h : Quietly c₀ c) :
    Quietly c₀ (Chip.removeEntries p c) := by
  unfold Chip.removeEntries
  (try dsimp only)
  repeat' split
  all_goals simp (maxDischargeDepth := 60) [h]

@[simp] theorem Quietly.appendEntry {c₀ c : Chip} (scene : Fin 64) (o : Origin) (bay : Nat) (cooldown : Nat) (h : Quietly c₀ c) :
    Quietly c₀ (Chip.appendEntry scene o bay cooldown c) := by
  unfold Chip.appendEntry
  (try dsimp only)
  repeat' split
  all_goals simp (maxDischargeDepth := 60) [h]

@[simp] theorem Quietly.freeSlot {c₀ c : Chip} (i : SlotId) (h : Quietly c₀ c) :
    Quietly c₀ (Chip.freeSlot i c) := by
  unfold Chip.freeSlot
  (try dsimp only)
  repeat' split
  all_goals simp (maxDischargeDepth := 60) [h]

@[simp] theorem Quietly.joinList {c₀ c : Chip} (i : SlotId) (h : Quietly c₀ c) :
    Quietly c₀ (Chip.joinList i c) := by
  unfold Chip.joinList
  (try dsimp only)
  repeat' split
  all_goals simp (maxDischargeDepth := 60) [h]

@[simp] theorem Quietly.takeLamp {c₀ c : Chip} (i : SlotId) (l : LampId) (h : Quietly c₀ c) :
    Quietly c₀ (Chip.takeLamp i l c) := by
  unfold Chip.takeLamp
  (try dsimp only)
  repeat' split
  all_goals simp (maxDischargeDepth := 60) [h]

@[simp] theorem Quietly.takeDrive {c₀ c : Chip} (i : SlotId) (d : DriveId) (h : Quietly c₀ c) :
    Quietly c₀ (Chip.takeDrive i d c) := by
  unfold Chip.takeDrive
  (try dsimp only)
  repeat' split
  all_goals simp (maxDischargeDepth := 60) [h]

@[simp] theorem Quietly.takeVoice {c₀ c : Chip} (i : SlotId) (v : VoiceId) (h : Quietly c₀ c) :
    Quietly c₀ (Chip.takeVoice i v c) := by
  unfold Chip.takeVoice
  (try dsimp only)
  repeat' split
  all_goals simp (maxDischargeDepth := 60) [h]

@[simp] theorem Quietly.grant {c₀ c : Chip} (i : SlotId) (h : Quietly c₀ c) :
    Quietly c₀ (Chip.grant i c) := by
  unfold Chip.grant
  (try dsimp only)
  repeat' split
  all_goals simp (maxDischargeDepth := 60) [h]

@[simp] theorem Quietly.refuse {c₀ c : Chip} (i : SlotId) (h : Quietly c₀ c) :
    Quietly c₀ (Chip.refuse i c) := by
  unfold Chip.refuse
  (try dsimp only)
  repeat' split
  all_goals simp (maxDischargeDepth := 60) [h]

@[simp] theorem Quietly.reserveLamp {c₀ c : Chip} (i : SlotId) (l : LampId) (h : Quietly c₀ c) :
    Quietly c₀ (Chip.reserveLamp i l c) := by
  unfold Chip.reserveLamp
  (try dsimp only)
  repeat' split
  all_goals simp (maxDischargeDepth := 60) [h]

@[simp] theorem Quietly.reserveDrive {c₀ c : Chip} (i : SlotId) (d : DriveId) (h : Quietly c₀ c) :
    Quietly c₀ (Chip.reserveDrive i d c) := by
  unfold Chip.reserveDrive
  (try dsimp only)
  repeat' split
  all_goals simp (maxDischargeDepth := 60) [h]

@[simp] theorem Quietly.reserveVoices {c₀ c : Chip} (i : SlotId) (h : Quietly c₀ c) :
    Quietly c₀ (Chip.reserveVoices i c) := by
  unfold Chip.reserveVoices
  (try dsimp only)
  repeat' split
  all_goals simp (maxDischargeDepth := 60) [h]

@[simp] theorem Quietly.reserve {c₀ c : Chip} (i : SlotId) (h : Quietly c₀ c) :
    Quietly c₀ (Chip.reserve i c) := by
  unfold Chip.reserve
  (try dsimp only)
  repeat' split
  all_goals simp (maxDischargeDepth := 60) [h]

@[simp] theorem Quietly.walk {c₀ c : Chip} (a0 : List SlotId) (a1 : Bool) (h : Quietly c₀ c) :
    Quietly c₀ (Chip.walk a0 a1 c) := by
  induction a0 generalizing a1 c with
  | nil => exact h
  | cons i ws ih =>
    unfold Chip.walk
    dsimp only
    split
    · exact ih _ (by simp (maxDischargeDepth := 60) [h])
    · split
      · exact ih _ (by simp (maxDischargeDepth := 60) [h])
      · exact ih _ (by split <;> simp (maxDischargeDepth := 60) [h])

@[simp] theorem Quietly.review {c₀ c : Chip} (h : Quietly c₀ c) :
    Quietly c₀ (Chip.review c) := by
  unfold Chip.review
  (try dsimp only)
  repeat' split
  all_goals simp (maxDischargeDepth := 60) [h]

@[simp] theorem Quietly.enterClaiming {c₀ c : Chip} (i : SlotId) (h : Quietly c₀ c) :
    Quietly c₀ (Chip.enterClaiming i c) := by
  unfold Chip.enterClaiming
  (try dsimp only)
  repeat' split
  all_goals simp (maxDischargeDepth := 60) [h]

@[simp] theorem Quietly.endEarly {c₀ c : Chip} (i : SlotId) (cause : Cause) (h : Quietly c₀ c) :
    Quietly c₀ (Chip.endEarly i cause c) := by
  unfold Chip.endEarly
  (try dsimp only)
  repeat' split
  all_goals simp (maxDischargeDepth := 60) [h]

@[simp] theorem Quietly.releaseLamp {c₀ c : Chip} (i : SlotId) (l : LampId) (h : Quietly c₀ c) :
    Quietly c₀ (Chip.releaseLamp i l c) := by
  unfold Chip.releaseLamp
  (try dsimp only)
  repeat' split
  all_goals simp (maxDischargeDepth := 60) [h]

@[simp] theorem Quietly.releaseClaims {c₀ c : Chip} (i : SlotId) (h : Quietly c₀ c) :
    Quietly c₀ (Chip.releaseClaims i c) := by
  unfold Chip.releaseClaims
  (try dsimp only)
  repeat' split
  all_goals simp (maxDischargeDepth := 60) [h]

@[simp] theorem Quietly.releaseSlot {c₀ c : Chip} (i : SlotId) (h : Quietly c₀ c) :
    Quietly c₀ (Chip.releaseSlot i c) := by
  unfold Chip.releaseSlot
  (try dsimp only)
  repeat' split
  all_goals simp (maxDischargeDepth := 60) [h]

@[simp] theorem Quietly.tellVoice {c₀ c : Chip} (v : VoiceId) (r : VoiceReport) (h : Quietly c₀ c) :
    Quietly c₀ (Chip.tellVoice v r c) := by
  unfold Chip.tellVoice
  (try dsimp only)
  repeat' split
  all_goals simp (maxDischargeDepth := 60) [h]

@[simp] theorem Quietly.voiceIdle {c₀ c : Chip} (v : VoiceId) (why : IdleWhy) (h : Quietly c₀ c) :
    Quietly c₀ (Chip.voiceIdle v why c) := by
  unfold Chip.voiceIdle
  (try dsimp only)
  repeat' split
  all_goals simp (maxDischargeDepth := 60) [h]

@[simp] theorem Quietly.speak {c₀ c : Chip} (v : VoiceId) (clip : Nat) (volume : Nat) (h : Quietly c₀ c) :
    Quietly c₀ (Chip.speak v clip volume c) := by
  unfold Chip.speak
  (try dsimp only)
  repeat' split
  all_goals simp (maxDischargeDepth := 60) [h]

@[simp] theorem Quietly.takeClip {c₀ c : Chip} (v : VoiceId) (e : ClipEntry) (d : DirRead) (h : Quietly c₀ c) :
    Quietly c₀ (Chip.takeClip v e d c) := by
  unfold Chip.takeClip
  (try dsimp only)
  repeat' split
  all_goals simp (maxDischargeDepth := 60) [h]

@[simp] theorem Quietly.dirReturn {c₀ c : Chip} (v : VoiceId) (d : DirRead) (e : Option ClipEntry) (h : Quietly c₀ c) :
    Quietly c₀ (Chip.dirReturn v d e c) := by
  unfold Chip.dirReturn
  (try dsimp only)
  repeat' split
  all_goals simp (maxDischargeDepth := 60) [h]

@[simp] theorem Quietly.burstReturn {c₀ c : Chip} (v : VoiceId) (b : Burst) (ws : List Word) (h : Quietly c₀ c) :
    Quietly c₀ (Chip.burstReturn v b ws c) := by
  unfold Chip.burstReturn
  (try dsimp only)
  repeat' split
  all_goals simp (maxDischargeDepth := 60) [h]

@[simp] theorem Quietly.passMarks {c₀ c : Chip} (v : VoiceId) (ks : List (Fin 4)) (h : Quietly c₀ c) :
    Quietly c₀ (Chip.passMarks v ks c) := by
  unfold Chip.passMarks
  (try dsimp only)
  repeat' split
  all_goals simp (maxDischargeDepth := 60) [h]

@[simp] theorem Quietly.starve {c₀ c : Chip} (v : VoiceId) (h : Quietly c₀ c) :
    Quietly c₀ (Chip.starve v c) := by
  unfold Chip.starve
  (try dsimp only)
  repeat' split
  all_goals simp (maxDischargeDepth := 60) [h]

@[simp] theorem Quietly.firstSample {c₀ c : Chip} (v : VoiceId) (h : Quietly c₀ c) :
    Quietly c₀ (Chip.firstSample v c) := by
  unfold Chip.firstSample
  (try dsimp only)
  repeat' split
  all_goals simp (maxDischargeDepth := 60) [h]

@[simp] theorem Quietly.sampleAt {c₀ c : Chip} (v : VoiceId) (h : Quietly c₀ c) :
    Quietly c₀ (Chip.sampleAt v c) := by
  unfold Chip.sampleAt
  (try dsimp only)
  repeat' split
  all_goals simp (maxDischargeDepth := 60) [h]

@[simp] theorem Quietly.voiceStop {c₀ c : Chip} (v : VoiceId) (fade : Nat) (ending : Bool) (h : Quietly c₀ c) :
    Quietly c₀ (Chip.voiceStop v fade ending c) := by
  unfold Chip.voiceStop
  (try dsimp only)
  repeat' split
  all_goals simp (maxDischargeDepth := 60) [h]

@[simp] theorem Quietly.voiceEnterHeld {c₀ c : Chip} (v : VoiceId) (h : Quietly c₀ c) :
    Quietly c₀ (Chip.voiceEnterHeld v c) := by
  unfold Chip.voiceEnterHeld
  (try dsimp only)
  repeat' split
  all_goals simp (maxDischargeDepth := 60) [h]

@[simp] theorem Quietly.voiceLeaveHeld {c₀ c : Chip} (v : VoiceId) (h : Quietly c₀ c) :
    Quietly c₀ (Chip.voiceLeaveHeld v c) := by
  unfold Chip.voiceLeaveHeld
  (try dsimp only)
  repeat' split
  all_goals simp (maxDischargeDepth := 60) [h]

@[simp] theorem Quietly.runLink {c₀ c : Chip} (l : LinkId) (f : Link → LinkStep) (h : Quietly c₀ c) :
    Quietly c₀ (Chip.runLink l f c) := by
  unfold Chip.runLink
  (try dsimp only)
  repeat' split
  all_goals simp (maxDischargeDepth := 60) [h]

@[simp] theorem Quietly.loopStep {c₀ c : Chip} (l : LinkId) (pos : Nat) (ch : Option RxChar) (h : Quietly c₀ c) :
    Quietly c₀ (Chip.loopStep l pos ch c) := by
  unfold Chip.loopStep
  (try dsimp only)
  repeat' split
  all_goals simp (maxDischargeDepth := 60) [h]

@[simp] theorem Quietly.tellDrive {c₀ c : Chip} (d : DriveId) (r : DriveReport) (h : Quietly c₀ c) :
    Quietly c₀ (Chip.tellDrive d r c) := by
  unfold Chip.tellDrive
  (try dsimp only)
  repeat' split
  all_goals simp (maxDischargeDepth := 60) [h]

@[simp] theorem Quietly.offerDrive {c₀ c : Chip} (d : DriveId) (h : Quietly c₀ c) :
    Quietly c₀ (Chip.offerDrive d c) := by
  unfold Chip.offerDrive
  (try dsimp only)
  repeat' split
  all_goals simp (maxDischargeDepth := 60) [h]

@[simp] theorem Quietly.driveTo {c₀ c : Chip} (d : DriveId) (st : DriveState) (h : Quietly c₀ c) :
    Quietly c₀ (Chip.driveTo d st c) := by
  unfold Chip.driveTo
  (try dsimp only)
  repeat' split
  all_goals simp (maxDischargeDepth := 60) [h]

@[simp] theorem Quietly.takePosition {c₀ c : Chip} (d : DriveId) (s : Option Sense) (h : Quietly c₀ c) :
    Quietly c₀ (Chip.takePosition d s c) := by
  unfold Chip.takePosition
  (try dsimp only)
  repeat' split
  all_goals simp (maxDischargeDepth := 60) [h]

@[simp] theorem Quietly.handFault {c₀ c : Chip} (d : DriveId) (h : Quietly c₀ c) :
    Quietly c₀ (Chip.handFault d c) := by
  unfold Chip.handFault
  (try dsimp only)
  repeat' split
  all_goals simp (maxDischargeDepth := 60) [h]

@[simp] theorem Quietly.enterFault {c₀ c : Chip} (d : DriveId) (why : FaultReason) (s : Option Sense) (tell : Option Sense → Option DriveReport) (h : Quietly c₀ c) :
    Quietly c₀ (Chip.enterFault d why s tell c) := by
  unfold Chip.enterFault
  (try dsimp only)
  repeat' split
  all_goals simp (maxDischargeDepth := 60) [h]

@[simp] theorem Quietly.endMove {c₀ c : Chip} (d : DriveId) (r : DriveReport) (h : Quietly c₀ c) :
    Quietly c₀ (Chip.endMove d r c) := by
  unfold Chip.endMove
  (try dsimp only)
  repeat' split
  all_goals simp (maxDischargeDepth := 60) [h]

@[simp] theorem Quietly.handMove {c₀ c : Chip} (d : DriveId) (h : Quietly c₀ c) :
    Quietly c₀ (Chip.handMove d c) := by
  unfold Chip.handMove
  (try dsimp only)
  repeat' split
  all_goals simp (maxDischargeDepth := 60) [h]

@[simp] theorem Quietly.handService {c₀ c : Chip} (d : DriveId) (h : Quietly c₀ c) :
    Quietly c₀ (Chip.handService d c) := by
  unfold Chip.handService
  (try dsimp only)
  repeat' split
  all_goals simp (maxDischargeDepth := 60) [h]

@[simp] theorem Quietly.handHalt {c₀ c : Chip} (d : DriveId) (h : Quietly c₀ c) :
    Quietly c₀ (Chip.handHalt d c) := by
  unfold Chip.handHalt
  (try dsimp only)
  repeat' split
  all_goals simp (maxDischargeDepth := 60) [h]

@[simp] theorem Quietly.driveMove {c₀ c : Chip} (d : DriveId) (mv : Move) (h : Quietly c₀ c) :
    Quietly c₀ (Chip.driveMove d mv c) := by
  unfold Chip.driveMove
  (try dsimp only)
  repeat' split
  all_goals simp (maxDischargeDepth := 60) [h]

@[simp] theorem Quietly.halting {c₀ c : Chip} (d : DriveId) (why : HaltCause) (h : Quietly c₀ c) :
    Quietly c₀ (Chip.halting d why c) := by
  unfold Chip.halting
  (try dsimp only)
  repeat' split
  all_goals simp (maxDischargeDepth := 60) [h]

@[simp] theorem Quietly.driveHalt {c₀ c : Chip} (d : DriveId) (why : HaltCause) (h : Quietly c₀ c) :
    Quietly c₀ (Chip.driveHalt d why c) := by
  unfold Chip.driveHalt
  (try dsimp only)
  repeat' split
  all_goals simp (maxDischargeDepth := 60) [h]

@[simp] theorem Quietly.motionEnd {c₀ c : Chip} (d : DriveId) (halted : Bool) (h : Quietly c₀ c) :
    Quietly c₀ (Chip.motionEnd d halted c) := by
  unfold Chip.motionEnd
  (try dsimp only)
  repeat' split
  all_goals simp (maxDischargeDepth := 60) [h]

@[simp] theorem Quietly.acceptedFaulty {c₀ c : Chip} (d : DriveId) (s : Option Sense) (h : Quietly c₀ c) :
    Quietly c₀ (Chip.acceptedFaulty d s c) := by
  unfold Chip.acceptedFaulty
  (try dsimp only)
  repeat' split
  all_goals simp (maxDischargeDepth := 60) [h]

@[simp] theorem Quietly.moveAccepted {c₀ c : Chip} (d : DriveId) (h : Quietly c₀ c) :
    Quietly c₀ (Chip.moveAccepted d c) := by
  unfold Chip.moveAccepted
  (try dsimp only)
  repeat' split
  all_goals simp (maxDischargeDepth := 60) [h]

@[simp] theorem Quietly.takeKeptEnd {c₀ c : Chip} (d : DriveId) (h : Quietly c₀ c) :
    Quietly c₀ (Chip.takeKeptEnd d c) := by
  unfold Chip.takeKeptEnd
  (try dsimp only)
  repeat' split
  all_goals simp (maxDischargeDepth := 60) [h]

@[simp] theorem Quietly.moveBusy {c₀ c : Chip} (d : DriveId) (h : Quietly c₀ c) :
    Quietly c₀ (Chip.moveBusy d c) := by
  unfold Chip.moveBusy
  (try dsimp only)
  repeat' split
  all_goals simp (maxDischargeDepth := 60) [h]

@[simp] theorem Quietly.moveGone {c₀ c : Chip} (d : DriveId) (h : Quietly c₀ c) :
    Quietly c₀ (Chip.moveGone d c) := by
  unfold Chip.moveGone
  (try dsimp only)
  repeat' split
  all_goals simp (maxDischargeDepth := 60) [h]

@[simp] theorem Quietly.moveTurned {c₀ c : Chip} (d : DriveId) (h : Quietly c₀ c) :
    Quietly c₀ (Chip.moveTurned d c) := by
  unfold Chip.moveTurned
  (try dsimp only)
  repeat' split
  all_goals simp (maxDischargeDepth := 60) [h]

@[simp] theorem Quietly.moveDone {c₀ c : Chip} (d : DriveId) (st : Status) (s : Option Sense) (h : Quietly c₀ c) :
    Quietly c₀ (Chip.moveDone d st s c) := by
  unfold Chip.moveDone
  (try dsimp only)
  repeat' split
  all_goals simp (maxDischargeDepth := 60) [h]

@[simp] theorem Quietly.moveRefused {c₀ c : Chip} (d : DriveId) (h : Quietly c₀ c) :
    Quietly c₀ (Chip.moveRefused d c) := by
  unfold Chip.moveRefused
  (try dsimp only)
  repeat' split
  all_goals simp (maxDischargeDepth := 60) [h]

@[simp] theorem Quietly.faultReport {c₀ c : Chip} (d : DriveId) (s : Option Sense) (h : Quietly c₀ c) :
    Quietly c₀ (Chip.faultReport d s c) := by
  unfold Chip.faultReport
  (try dsimp only)
  repeat' split
  all_goals simp (maxDischargeDepth := 60) [h]

@[simp] theorem Quietly.haltDone {c₀ c : Chip} (d : DriveId) (st : Status) (s : Option Sense) (h : Quietly c₀ c) :
    Quietly c₀ (Chip.haltDone d st s c) := by
  unfold Chip.haltDone
  (try dsimp only)
  repeat' split
  all_goals simp (maxDischargeDepth := 60) [h]

@[simp] theorem Quietly.moveWithdrawn {c₀ c : Chip} (d : DriveId) (h : Quietly c₀ c) :
    Quietly c₀ (Chip.moveWithdrawn d c) := by
  unfold Chip.moveWithdrawn
  (try dsimp only)
  repeat' split
  all_goals simp (maxDischargeDepth := 60) [h]

@[simp] theorem Quietly.serviceOver {c₀ c : Chip} (d : DriveId) (h : Quietly c₀ c) :
    Quietly c₀ (Chip.serviceOver d c) := by
  unfold Chip.serviceOver
  (try dsimp only)
  repeat' split
  all_goals simp (maxDischargeDepth := 60) [h]

@[simp] theorem Quietly.serviceLost {c₀ c : Chip} (d : DriveId) (h : Quietly c₀ c) :
    Quietly c₀ (Chip.serviceLost d c) := by
  unfold Chip.serviceLost
  (try dsimp only)
  repeat' split
  all_goals simp (maxDischargeDepth := 60) [h]

@[simp] theorem Quietly.serviceBusy {c₀ c : Chip} (d : DriveId) (h : Quietly c₀ c) :
    Quietly c₀ (Chip.serviceBusy d c) := by
  unfold Chip.serviceBusy
  (try dsimp only)
  repeat' split
  all_goals simp (maxDischargeDepth := 60) [h]

@[simp] theorem Quietly.senseDone {c₀ c : Chip} (d : DriveId) (st : Status) (s : Sense) (h : Quietly c₀ c) :
    Quietly c₀ (Chip.senseDone d st s c) := by
  unfold Chip.senseDone
  (try dsimp only)
  repeat' split
  all_goals simp (maxDischargeDepth := 60) [h]

@[simp] theorem Quietly.clearTaken {c₀ c : Chip} (d : DriveId) (h : Quietly c₀ c) :
    Quietly c₀ (Chip.clearTaken d c) := by
  unfold Chip.clearTaken
  (try dsimp only)
  repeat' split
  all_goals simp (maxDischargeDepth := 60) [h]

@[simp] theorem Quietly.clearDone {c₀ c : Chip} (d : DriveId) (st : Status) (s : Option Sense) (h : Quietly c₀ c) :
    Quietly c₀ (Chip.clearDone d st s c) := by
  unfold Chip.clearDone
  (try dsimp only)
  repeat' split
  all_goals simp (maxDischargeDepth := 60) [h]

@[simp] theorem Quietly.serviceDone {c₀ c : Chip} (d : DriveId) (cmd : Command) (st : Status) (s : Option Sense) (h : Quietly c₀ c) :
    Quietly c₀ (Chip.serviceDone d cmd st s c) := by
  unfold Chip.serviceDone
  (try dsimp only)
  repeat' split
  all_goals simp (maxDischargeDepth := 60) [h]

@[simp] theorem Quietly.tellSense {c₀ c : Chip} (d : DriveId) (s : Option Sense) (h : Quietly c₀ c) :
    Quietly c₀ (Chip.tellSense d s c) := by
  unfold Chip.tellSense
  split
  all_goals simp [h]

@[simp] theorem Quietly.driveOnline {c₀ c : Chip} (d : DriveId) (i0 : Byte) (i1 : Byte) (s : Option Sense) (h : Quietly c₀ c) :
    Quietly c₀ (Chip.driveOnline d i0 i1 s c) := by
  unfold Chip.driveOnline
  (try dsimp only)
  repeat' split
  all_goals simp (maxDischargeDepth := 60) [h]

@[simp] theorem Quietly.driveOffline {c₀ c : Chip} (d : DriveId) (h : Quietly c₀ c) :
    Quietly c₀ (Chip.driveOffline d c) := by
  unfold Chip.driveOffline
  (try dsimp only)
  repeat' split
  all_goals simp (maxDischargeDepth := 60) [h]

@[simp] theorem Quietly.polled {c₀ c : Chip} (d : DriveId) (st : Status) (s : Option Sense) (h : Quietly c₀ c) :
    Quietly c₀ (Chip.polled d st s c) := by
  unfold Chip.polled
  (try dsimp only)
  repeat' split
  all_goals simp (maxDischargeDepth := 60) [h]

@[simp] theorem Quietly.driveDone {c₀ c : Chip} (d : DriveId) (cmd : Command) (st : Status) (s : Option Sense) (h : Quietly c₀ c) :
    Quietly c₀ (Chip.driveDone d cmd st s c) := by
  unfold Chip.driveDone
  (try dsimp only)
  repeat' split
  all_goals simp (maxDischargeDepth := 60) [h]

@[simp] theorem Quietly.driveRefused {c₀ c : Chip} (d : DriveId) (cmd : Command) (h : Quietly c₀ c) :
    Quietly c₀ (Chip.driveRefused d cmd c) := by
  unfold Chip.driveRefused
  (try dsimp only)
  repeat' split
  all_goals simp (maxDischargeDepth := 60) [h]

@[simp] theorem Quietly.driveReport {c₀ c : Chip} (d : DriveId) (r : LinkReport) (h : Quietly c₀ c) :
    Quietly c₀ (Chip.driveReport d r c) := by
  unfold Chip.driveReport
  (try dsimp only)
  repeat' split
  all_goals simp (maxDischargeDepth := 60) [h]

@[simp] theorem Quietly.linkReport {c₀ c : Chip} (l : LinkId) (a : AddrId) (r : LinkReport) (h : Quietly c₀ c) :
    Quietly c₀ (Chip.linkReport l a r c) := by
  unfold Chip.linkReport
  (try dsimp only)
  repeat' split
  all_goals simp (maxDischargeDepth := 60) [h]

@[simp] theorem Quietly.settleExpired {c₀ c : Chip} (d : DriveId) (h : Quietly c₀ c) :
    Quietly c₀ (Chip.settleExpired d c) := by
  unfold Chip.settleExpired
  (try dsimp only)
  repeat' split
  all_goals simp (maxDischargeDepth := 60) [h]

@[simp] theorem Quietly.retryExpired {c₀ c : Chip} (d : DriveId) (h : Quietly c₀ c) :
    Quietly c₀ (Chip.retryExpired d c) := by
  unfold Chip.retryExpired
  (try dsimp only)
  repeat' split
  all_goals simp (maxDischargeDepth := 60) [h]

@[simp] theorem Quietly.recallMove {c₀ c : Chip} (d : DriveId) (h : Quietly c₀ c) :
    Quietly c₀ (Chip.recallMove d c) := by
  unfold Chip.recallMove
  (try dsimp only)
  repeat' split
  all_goals simp (maxDischargeDepth := 60) [h]

@[simp] theorem Quietly.guardDrive {c₀ c : Chip} (d : DriveId) (h : Quietly c₀ c) :
    Quietly c₀ (Chip.guardDrive d c) := by
  unfold Chip.guardDrive
  (try dsimp only)
  repeat' split
  all_goals simp (maxDischargeDepth := 60) [h]

@[simp] theorem Quietly.haltBay {c₀ c : Chip} (b : BayId) (h : Quietly c₀ c) :
    Quietly c₀ (Chip.haltBay b c) := by
  unfold Chip.haltBay
  (try dsimp only)
  repeat' split
  all_goals simp (maxDischargeDepth := 60) [h]

@[simp] theorem Quietly.bayWork {c₀ c : Chip} (b : BayId) (h : Quietly c₀ c) :
    Quietly c₀ (Chip.bayWork b c) := by
  unfold Chip.bayWork
  (try dsimp only)
  repeat' split
  all_goals simp (maxDischargeDepth := 60) [h]

@[simp] theorem Quietly.driveEntryRead {c₀ c : Chip} (m : Memory) (d : DriveId) (h : Quietly c₀ c) :
    Quietly c₀ (Chip.driveEntryRead m d c) := by
  unfold Chip.driveEntryRead
  (try dsimp only)
  repeat' split
  all_goals simp (maxDischargeDepth := 60) [h]

@[simp] theorem Quietly.drivesRead {c₀ c : Chip} (h : Quietly c₀ c) :
    Quietly c₀ (Chip.drivesRead c) := by
  unfold Chip.drivesRead
  (try dsimp only)
  repeat' split
  all_goals simp (maxDischargeDepth := 60) [h]

@[simp] theorem Quietly.slotTo {c₀ c : Chip} (i : SlotId) (st : SlotState) (h : Quietly c₀ c) :
    Quietly c₀ (Chip.slotTo i st c) := by
  unfold Chip.slotTo
  (try dsimp only)
  repeat' split
  all_goals simp (maxDischargeDepth := 60) [h]

@[simp] theorem Quietly.waitOn {c₀ c : Chip} (i : SlotId) (k : WaitCond) (h : Quietly c₀ c) :
    Quietly c₀ (Chip.waitOn i k c) := by
  unfold Chip.waitOn
  (try dsimp only)
  repeat' split
  all_goals simp (maxDischargeDepth := 60) [h]

@[simp] theorem Quietly.endingTest {c₀ c : Chip} (i : SlotId) (h : Quietly c₀ c) :
    Quietly c₀ (Chip.endingTest i c) := by
  unfold Chip.endingTest
  (try dsimp only)
  repeat' split
  all_goals simp (maxDischargeDepth := 60) [h]

@[simp] theorem Quietly.endVoice {c₀ c : Chip} (v : Option VoiceId) (h : Quietly c₀ c) :
    Quietly c₀ (Chip.endVoice v c) := by
  unfold Chip.endVoice
  (try dsimp only)
  repeat' split
  all_goals simp (maxDischargeDepth := 60) [h]

@[simp] theorem Quietly.enterEnding {c₀ c : Chip} (i : SlotId) (cause : Cause) (h : Quietly c₀ c) :
    Quietly c₀ (Chip.enterEnding i cause c) := by
  unfold Chip.enterEnding
  (try dsimp only)
  repeat' split
  all_goals simp (maxDischargeDepth := 60) [h]

@[simp] theorem Quietly.endSlot {c₀ c : Chip} (i : SlotId) (cause : Cause) (h : Quietly c₀ c) :
    Quietly c₀ (Chip.endSlot i cause c) := by
  unfold Chip.endSlot
  (try dsimp only)
  repeat' split
  all_goals simp (maxDischargeDepth := 60) [h]

@[simp] theorem Quietly.failSlot {c₀ c : Chip} (i : SlotId) (cause : Cause) (cue : Nat) (h : Quietly c₀ c) :
    Quietly c₀ (Chip.failSlot i cause cue c) := by
  unfold Chip.failSlot
  (try dsimp only)
  repeat' split
  all_goals simp (maxDischargeDepth := 60) [h]

@[simp] theorem Quietly.completeCue {c₀ c : Chip} (i : SlotId) (r : CueRec) (jumps : Bool) (h : Quietly c₀ c) :
    Quietly c₀ (Chip.completeCue i r jumps c) := by
  unfold Chip.completeCue
  (try dsimp only)
  repeat' split
  all_goals simp (maxDischargeDepth := 60) [h]

@[simp] theorem Quietly.markIssued {c₀ c : Chip} (i : SlotId) (following : Option Nat) (h : Quietly c₀ c) :
    Quietly c₀ (Chip.markIssued i following c) := by
  unfold Chip.markIssued
  (try dsimp only)
  repeat' split
  all_goals simp (maxDischargeDepth := 60) [h]

@[simp] theorem Quietly.issueLamp {c₀ c : Chip} (i : SlotId) (r : CueRec) (l : LampId) (level : Nat) (fade : Nat) (h : Quietly c₀ c) :
    Quietly c₀ (Chip.issueLamp i r l level fade c) := by
  unfold Chip.issueLamp
  (try dsimp only)
  repeat' split
  all_goals simp (maxDischargeDepth := 60) [h]

@[simp] theorem Quietly.issueSpeak {c₀ c : Chip} (i : SlotId) (v : Fin 2) (clip : Nat) (volume : Nat) (h : Quietly c₀ c) :
    Quietly c₀ (Chip.issueSpeak i v clip volume c) := by
  unfold Chip.issueSpeak
  (try dsimp only)
  repeat' split
  all_goals simp (maxDischargeDepth := 60) [h]

@[simp] theorem Quietly.issueHush {c₀ c : Chip} (i : SlotId) (r : CueRec) (v : Fin 2) (fade : Nat) (h : Quietly c₀ c) :
    Quietly c₀ (Chip.issueHush i r v fade c) := by
  unfold Chip.issueHush
  (try dsimp only)
  repeat' split
  all_goals simp (maxDischargeDepth := 60) [h]

@[simp] theorem Quietly.flagMarkMissed {c₀ c : Chip} (i : SlotId) (h : Quietly c₀ c) :
    Quietly c₀ (Chip.flagMarkMissed i c) := by
  unfold Chip.flagMarkMissed
  (try dsimp only)
  repeat' split
  all_goals simp (maxDischargeDepth := 60) [h]

@[simp] theorem Quietly.issueWait {c₀ c : Chip} (i : SlotId) (r : CueRec) (k : WaitCond) (timeout : Nat) (h : Quietly c₀ c) :
    Quietly c₀ (Chip.issueWait i r k timeout c) := by
  unfold Chip.issueWait
  (try dsimp only)
  repeat' split
  all_goals simp (maxDischargeDepth := 60) [h]

@[simp] theorem Quietly.issueLoop {c₀ c : Chip} (i : SlotId) (r : CueRec) (rel : Nat) (count : Nat) (h : Quietly c₀ c) :
    Quietly c₀ (Chip.issueLoop i r rel count c) := by
  unfold Chip.issueLoop
  (try dsimp only)
  repeat' split
  all_goals simp (maxDischargeDepth := 60) [h]

@[simp] theorem Quietly.handCueMove {c₀ c : Chip} (i : SlotId) (cue : Nat) (r : CueRec) (d : DriveId) (k : MoveCode) (arg : Half) (h : Quietly c₀ c) :
    Quietly c₀ (Chip.handCueMove i cue r d k arg c) := by
  unfold Chip.handCueMove
  (try dsimp only)
  repeat' split
  all_goals simp (maxDischargeDepth := 60) [h]

@[simp] theorem Quietly.issueMove {c₀ c : Chip} (i : SlotId) (r : CueRec) (d : DriveId) (k : MoveCode) (arg : Half) (h : Quietly c₀ c) :
    Quietly c₀ (Chip.issueMove i r d k arg c) := by
  unfold Chip.issueMove
  (try dsimp only)
  repeat' split
  all_goals simp (maxDischargeDepth := 60) [h]

@[simp] theorem Quietly.moveTests {c₀ c : Chip} (i : SlotId) (r : CueRec) (d : DriveId) (k : MoveCode) (arg : Half) (h : Quietly c₀ c) :
    Quietly c₀ (Chip.moveTests i r d k arg c) := by
  unfold Chip.moveTests
  (try dsimp only)
  repeat' split
  all_goals simp (maxDischargeDepth := 60) [h]

@[simp] theorem Quietly.retryMove {c₀ c : Chip} (i : SlotId) (h : Quietly c₀ c) :
    Quietly c₀ (Chip.retryMove i c) := by
  unfold Chip.retryMove
  (try dsimp only)
  repeat' split
  all_goals simp (maxDischargeDepth := 60) [h]

@[simp] theorem Quietly.issueCue {c₀ c : Chip} (i : SlotId) (r : CueRec) (h : Quietly c₀ c) :
    Quietly c₀ (Chip.issueCue i r c) := by
  unfold Chip.issueCue
  (try dsimp only)
  repeat' split
  all_goals simp (maxDischargeDepth := 60) [h]

@[simp] theorem Quietly.tryIssue {c₀ c : Chip} (i : SlotId) (h : Quietly c₀ c) :
    Quietly c₀ (Chip.tryIssue i c) := by
  unfold Chip.tryIssue
  (try dsimp only)
  repeat' split
  all_goals simp (maxDischargeDepth := 60) [h]

@[simp] theorem Quietly.completeWait {c₀ c : Chip} (i : SlotId) (h : Quietly c₀ c) :
    Quietly c₀ (Chip.completeWait i c) := by
  unfold Chip.completeWait
  (try dsimp only)
  repeat' split
  all_goals simp (maxDischargeDepth := 60) [h]

@[simp] theorem Quietly.tryResume {c₀ c : Chip} (i : SlotId) (d : DriveId) (h : Quietly c₀ c) :
    Quietly c₀ (Chip.tryResume i d c) := by
  unfold Chip.tryResume
  (try dsimp only)
  repeat' split
  all_goals simp (maxDischargeDepth := 60) [h]

@[simp] theorem Quietly.haltAnswered {c₀ c : Chip} (i : SlotId) (d : DriveId) (m : IssuedMove) (h : Quietly c₀ c) :
    Quietly c₀ (Chip.haltAnswered i d m c) := by
  unfold Chip.haltAnswered
  (try dsimp only)
  repeat' split
  all_goals simp (maxDischargeDepth := 60) [h]

@[simp] theorem Quietly.slotSettled {c₀ c : Chip} (i : SlotId) (d : DriveId) (h : Quietly c₀ c) :
    Quietly c₀ (Chip.slotSettled i d c) := by
  unfold Chip.slotSettled
  (try dsimp only)
  repeat' split
  all_goals simp (maxDischargeDepth := 60) [h]

@[simp] theorem Quietly.slotHalted {c₀ c : Chip} (i : SlotId) (d : DriveId) (h : Quietly c₀ c) :
    Quietly c₀ (Chip.slotHalted i d c) := by
  unfold Chip.slotHalted
  (try dsimp only)
  repeat' split
  all_goals simp (maxDischargeDepth := 60) [h]

@[simp] theorem Quietly.slotFault {c₀ c : Chip} (i : SlotId) (d : DriveId) (s : Sense) (cause : Cause) (h : Quietly c₀ c) :
    Quietly c₀ (Chip.slotFault i d s cause c) := by
  unfold Chip.slotFault
  (try dsimp only)
  repeat' split
  all_goals simp (maxDischargeDepth := 60) [h]

@[simp] theorem Quietly.slotRejected {c₀ c : Chip} (i : SlotId) (d : DriveId) (s : Sense) (h : Quietly c₀ c) :
    Quietly c₀ (Chip.slotRejected i d s c) := by
  unfold Chip.slotRejected
  (try dsimp only)
  repeat' split
  all_goals simp (maxDischargeDepth := 60) [h]

@[simp] theorem Quietly.driveToRunning {c₀ c : Chip} (i : SlotId) (d : DriveId) (r : DriveReport) (h : Quietly c₀ c) :
    Quietly c₀ (Chip.driveToRunning i d r c) := by
  unfold Chip.driveToRunning
  (try dsimp only)
  repeat' split
  all_goals simp (maxDischargeDepth := 60) [h]

@[simp] theorem Quietly.driveToEnding {c₀ c : Chip} (i : SlotId) (d : DriveId) (r : DriveReport) (h : Quietly c₀ c) :
    Quietly c₀ (Chip.driveToEnding i d r c) := by
  unfold Chip.driveToEnding
  (try dsimp only)
  repeat' split
  all_goals simp (maxDischargeDepth := 60) [h]

@[simp] theorem Quietly.driveToSlot {c₀ c : Chip} (i : SlotId) (d : DriveId) (r : DriveReport) (h : Quietly c₀ c) :
    Quietly c₀ (Chip.driveToSlot i d r c) := by
  unfold Chip.driveToSlot
  (try dsimp only)
  repeat' split
  all_goals simp (maxDischargeDepth := 60) [h]

@[simp] theorem Quietly.driveStateToSlot {c₀ c : Chip} (d : DriveId) (i : SlotId) (h : Quietly c₀ c) :
    Quietly c₀ (Chip.driveStateToSlot d i c) := by
  unfold Chip.driveStateToSlot
  (try dsimp only)
  repeat' split
  all_goals simp (maxDischargeDepth := 60) [h]

@[simp] theorem Quietly.bayToSlot {c₀ c : Chip} (b : BayId) (i : SlotId) (h : Quietly c₀ c) :
    Quietly c₀ (Chip.bayToSlot b i c) := by
  unfold Chip.bayToSlot
  (try dsimp only)
  repeat' split
  all_goals simp (maxDischargeDepth := 60) [h]

@[simp] theorem Quietly.clipStarted {c₀ c : Chip} (i : SlotId) (v : Fin 2) (h : Quietly c₀ c) :
    Quietly c₀ (Chip.clipStarted i v c) := by
  unfold Chip.clipStarted
  (try dsimp only)
  repeat' split
  all_goals simp (maxDischargeDepth := 60) [h]

@[simp] theorem Quietly.voiceToRunning {c₀ c : Chip} (i : SlotId) (v : Fin 2) (r : VoiceReport) (h : Quietly c₀ c) :
    Quietly c₀ (Chip.voiceToRunning i v r c) := by
  unfold Chip.voiceToRunning
  (try dsimp only)
  repeat' split
  all_goals simp (maxDischargeDepth := 60) [h]

@[simp] theorem Quietly.flagUnderrun {c₀ c : Chip} (i : SlotId) (h : Quietly c₀ c) :
    Quietly c₀ (Chip.flagUnderrun i c) := by
  unfold Chip.flagUnderrun
  (try dsimp only)
  repeat' split
  all_goals simp (maxDischargeDepth := 60) [h]

@[simp] theorem Quietly.voiceToSlot {c₀ c : Chip} (i : SlotId) (v : VoiceId) (r : VoiceReport) (h : Quietly c₀ c) :
    Quietly c₀ (Chip.voiceToSlot i v r c) := by
  unfold Chip.voiceToSlot
  (try dsimp only)
  repeat' split
  all_goals simp (maxDischargeDepth := 60) [h]

@[simp] theorem Quietly.inputToSlot {c₀ c : Chip} (t : InputId) (i : SlotId) (h : Quietly c₀ c) :
    Quietly c₀ (Chip.inputToSlot t i c) := by
  unfold Chip.inputToSlot
  (try dsimp only)
  repeat' split
  all_goals simp (maxDischargeDepth := 60) [h]

@[simp] theorem Quietly.waitExpired {c₀ c : Chip} (i : SlotId) (h : Quietly c₀ c) :
    Quietly c₀ (Chip.waitExpired i c) := by
  unfold Chip.waitExpired
  (try dsimp only)
  repeat' split
  all_goals simp (maxDischargeDepth := 60) [h]

@[simp] theorem Quietly.admitOne {c₀ c : Chip} (i : SlotId) (e : QueueEntry) (h : Quietly c₀ c) :
    Quietly c₀ (Chip.admitOne i e c) := by
  unfold Chip.admitOne
  (try dsimp only)
  repeat' split
  all_goals simp (maxDischargeDepth := 60) [h]

@[simp] theorem Quietly.admitAll {c₀ c : Chip} (a0 : Nat) (h : Quietly c₀ c) :
    Quietly c₀ (Chip.admitAll a0 c) := by
  induction a0 generalizing c with
  | zero => exact h
  | succ n ih =>
    unfold Chip.admitAll
    split
    · split
      · exact ih (by simp [h])
      · exact h
    · exact h

@[simp] theorem Quietly.definitionReturn {c₀ c : Chip} (i : SlotId) (d : Option SceneDef) (h : Quietly c₀ c) :
    Quietly c₀ (Chip.definitionReturn i d c) := by
  unfold Chip.definitionReturn
  (try dsimp only)
  repeat' split
  all_goals simp (maxDischargeDepth := 60) [h]

@[simp] theorem Quietly.checkReturn {c₀ c : Chip} (i : SlotId) (k : Nat) (r : CueRec) (h : Quietly c₀ c) :
    Quietly c₀ (Chip.checkReturn i k r c) := by
  unfold Chip.checkReturn
  (try dsimp only)
  repeat' split
  all_goals simp (maxDischargeDepth := 60) [h]

@[simp] theorem Quietly.recordReturn {c₀ c : Chip} (i : SlotId) (k : Nat) (r : CueRec) (h : Quietly c₀ c) :
    Quietly c₀ (Chip.recordReturn i k r c) := by
  unfold Chip.recordReturn
  (try dsimp only)
  repeat' split
  all_goals simp (maxDischargeDepth := 60) [h]

@[simp] theorem Quietly.handModeChange {c₀ c : Chip} (h : Quietly c₀ c) :
    Quietly c₀ (Chip.handModeChange c) := by
  unfold Chip.handModeChange
  (try dsimp only)
  repeat' split
  all_goals simp (maxDischargeDepth := 60) [h]

@[simp] theorem Quietly.allBays {c₀ c : Chip} (h : Quietly c₀ c) :
    Quietly c₀ (Chip.allBays c) := by
  unfold Chip.allBays
  (try dsimp only)
  repeat' split
  all_goals simp (maxDischargeDepth := 60) [h]

@[simp] theorem Quietly.restartSlots {c₀ c : Chip} (scene : Fin 64) (p : SlotState → Bool) (h : Quietly c₀ c) :
    Quietly c₀ (Chip.restartSlots scene p c) := by
  unfold Chip.restartSlots
  (try dsimp only)
  repeat' split
  all_goals simp (maxDischargeDepth := 60) [h]

@[simp] theorem Quietly.restart {c₀ c : Chip} (scene : Fin 64) (h : Quietly c₀ c) :
    Quietly c₀ (Chip.restart scene c) := by
  unfold Chip.restart
  (try dsimp only)
  repeat' split
  all_goals simp (maxDischargeDepth := 60) [h]

@[simp] theorem Quietly.acceptOffer {c₀ c : Chip} (o : Offer) (r : RawScene) (h : Quietly c₀ c) :
    Quietly c₀ (Chip.acceptOffer o r c) := by
  unfold Chip.acceptOffer
  (try dsimp only)
  repeat' split
  all_goals simp (maxDischargeDepth := 60) [h]

@[simp] theorem Quietly.inputRefused {c₀ c : Chip} (t : InputId) (scene : Fin 64) (why : Dropped) (h : Quietly c₀ c) :
    Quietly c₀ (Chip.inputRefused t scene why c) := by
  unfold Chip.inputRefused
  (try dsimp only)
  repeat' split
  all_goals simp (maxDischargeDepth := 60) [h]

@[simp] theorem Quietly.startService {c₀ c : Chip} (d : DriveId) (k : ServiceCmd) (h : Quietly c₀ c) :
    Quietly c₀ (Chip.startService d k c) := by
  unfold Chip.startService
  (try dsimp only)
  repeat' split
  all_goals simp (maxDischargeDepth := 60) [h]

@[simp] theorem Quietly.carryService {c₀ c : Chip} (d : DriveId) (k : ServiceCode) (arg : Half) (h : Quietly c₀ c) :
    Quietly c₀ (Chip.carryService d k arg c) := by
  unfold Chip.carryService
  (try dsimp only)
  repeat' split
  all_goals simp (maxDischargeDepth := 60) [h]

@[simp] theorem Quietly.triggerEntryRead {c₀ c : Chip} (m : Memory) (t : InputId) (h : Quietly c₀ c) :
    Quietly c₀ (Chip.triggerEntryRead m t c) := by
  unfold Chip.triggerEntryRead
  (try dsimp only)
  repeat' split
  all_goals simp (maxDischargeDepth := 60) [h]

@[simp] theorem Quietly.triggerStart {c₀ c : Chip} (t : InputId) (h : Quietly c₀ c) :
    Quietly c₀ (Chip.triggerStart t c) := by
  unfold Chip.triggerStart
  (try dsimp only)
  repeat' split
  all_goals simp (maxDischargeDepth := 60) [h]

@[simp] theorem Quietly.bayEntryRead {c₀ c : Chip} (m : Memory) (b : BayId) (h : Quietly c₀ c) :
    Quietly c₀ (Chip.bayEntryRead m b c) := by
  unfold Chip.bayEntryRead
  (try dsimp only)
  repeat' split
  all_goals simp (maxDischargeDepth := 60) [h]

@[simp] theorem Quietly.houseEntryRead {c₀ c : Chip} (m : Memory) (l : LampId) (h : Quietly c₀ c) :
    Quietly c₀ (Chip.houseEntryRead m l c) := by
  unfold Chip.houseEntryRead
  (try dsimp only)
  repeat' split
  all_goals simp (maxDischargeDepth := 60) [h]

@[simp] theorem Quietly.framesStart {c₀ c : Chip} (h : Quietly c₀ c) :
    Quietly c₀ (Chip.framesStart c) := by
  unfold Chip.framesStart
  (try dsimp only)
  repeat' split
  all_goals simp (maxDischargeDepth := 60) [h]

@[simp] theorem Quietly.tableRead {c₀ c : Chip} (t : LoadTable) (h : Quietly c₀ c) :
    Quietly c₀ (Chip.tableRead t c) := by
  unfold Chip.tableRead
  (try dsimp only)
  repeat' split
  all_goals simp (maxDischargeDepth := 60) [h]

@[simp] theorem Quietly.handle {c₀ c : Chip} (x : Signal) (h : Quietly c₀ c) :
    Quietly c₀ (Chip.handle x c) := by
  unfold Chip.handle
  (try dsimp only)
  repeat' split
  all_goals simp (maxDischargeDepth := 60) [h]

@[simp] theorem Quietly.admissions {c₀ c : Chip} (h : Quietly c₀ c) :
    Quietly c₀ (Chip.admissions c) := by
  unfold Chip.admissions
  (try dsimp only)
  repeat' split
  all_goals simp (maxDischargeDepth := 60) [h]

@[simp] theorem Quietly.guardSettled {c₀ c : Chip} (t : InputId) (h : Quietly c₀ c) :
    Quietly c₀ (Chip.guardSettled t c) := by
  unfold Chip.guardSettled
  (try dsimp only)
  repeat' split
  all_goals simp (maxDischargeDepth := 60) [h]

@[simp] theorem Quietly.inputSettles {c₀ c : Chip} (t : InputId) (h : Quietly c₀ c) :
    Quietly c₀ (Chip.inputSettles t c) := by
  unfold Chip.inputSettles
  (try dsimp only)
  repeat' split
  all_goals simp (maxDischargeDepth := 60) [h]

@[simp] theorem Quietly.alternate {c₀ c : Chip} (t : InputId) (h : Quietly c₀ c) :
    Quietly c₀ (Chip.alternate t c) := by
  unfold Chip.alternate
  (try dsimp only)
  repeat' split
  all_goals simp (maxDischargeDepth := 60) [h]

/-- Every step of a RESET SHOW from 2 to 6 is quiet. -/
@[simp] theorem Quietly.clearShow {c₀ c : Chip} (h : Quietly c₀ c) : Quietly c₀ c.clearShow :=
  let d := c.clearShow
  (h.blocks d.slots d.fetch d.claims d.trig d.lamp d.voices d.links d.drives d.bays d.guardIn d.signals).spans d.port.sceneSpan
    d.port.cueSpan d.port.clipSpan

@[simp] theorem Quietly.takeReports {c₀ c : Chip} (n : Nat) (h : Quietly c₀ c) : Quietly c₀ (c.takeReports n) := by
  induction n generalizing c with
  | zero => exact h
  | succ n ih =>
    unfold Chip.takeReports
    split
    · exact h
    · exact ih (by simp [h])

@[simp] theorem Quietly.wake {c₀ c : Chip} (h : Quietly c₀ c) : Quietly c₀ c.wake :=
  h.blocks c.slots c.fetch c.claims c.trig c.lamp (mapAll Channel.settle c.voices) (mapAll Link.wake c.links) c.drives c.bays c.guardIn c.signals

/-- What follows at once from what a step has done is quiet, up to the RESET SHOW that may be due. -/
theorem Quietly.beforeReset {c₀ c : Chip} (h : Quietly c₀ c) :
    Quietly c₀ ((c.takeReports reportBound).admissions.modPort Port.settlePostings) :=
  fun Q hq x => hq.settled _ ((show Quietly c₀ (c.takeReports reportBound).admissions by simp [h]) Q hq x)

/-- Quiet changes leave the request unit as it is. -/
theorem Quietly.keepsReq {c₀ c : Chip} (h : Quietly c₀ c) : c.req = c₀.req :=
  h.keeps (Q := fun c => c.req = c₀.req) ⟨fun _ _ _ _ _ _ _ _ _ _ _ _ h => h, fun _ _ _ _ h => h, fun _ _ _ h => h, fun _ h => h, fun _ _ h => h,
    fun _ _ h => h, fun _ _ _ _ _ _ h => h⟩ rfl

/-- No RESET SHOW waits: none is due. -/
theorem resetDue_none {c : Chip} (h : c.req.resetWait = false) : c.resetDue = c := by simp [Chip.resetDue, h]

/-- So is all that follows, where no RESET SHOW waits. -/
theorem Quietly.settle {c₀ c : Chip} (hw : c.req.resetWait = false) (h : Quietly c₀ c) : Quietly c₀ c.settle := by
  unfold Chip.settle
  dsimp only
  rw [resetDue_none]
  · exact h.beforeReset.wake.arbitrate
  · rw [(Quietly.refl c).beforeReset.keepsReq]
    exact hw

end Sys2Proof.Machine
end

