-- ==== Sys2Proof/Laws/Frame.lean ====
section
/-!
SUPPORT. What the quiet changes leave as it is: `Quietly.frame` and `Quietly.bounds`; and what the posting buffer's own operations can do.
-/

namespace Sys2Proof.Machine

open Sys2Proof.Safety

/-! ## The posting buffer -/

/-- A posting is merged into a pending one, or appended while there is room (R187, R188). -/
theorem createPosting_cases {ps qs : List Posting} {x : Posting} (h : createPosting ps x = some qs) :
    (qs.length = ps.length) ∨ (ps.length < Config.postingCap ∧ qs = ps ++ [x]) := by
  unfold createPosting at h
  split at h
  · cases h; left; simp
  · split at h
    · next hl => cases h; exact Or.inr ⟨hl, rfl⟩
    · cases h

/-- Creating a posting keeps the buffer's bound. -/
theorem createPosting_bound {ps qs : List Posting} {x : Posting} (h : createPosting ps x = some qs)
    (hb : ps.length ≤ Config.postingCap) : qs.length ≤ Config.postingCap := by
  obtain he | ⟨hl, rfl⟩ := createPosting_cases h
  · omega
  · simp; omega

/-- Cancelling takes postings away only (R189). -/
theorem cancelPostings_length (ps : List Posting) (w : Nat) (be : Enables) : (cancelPostings ps w be).length ≤ ps.length := by
  unfold cancelPostings
  exact Nat.le_trans (List.length_filter_le _ _) (by simp)

@[simp] theorem rest_setBacklog (p : Port) (who : Producer) (xs : List Posting) : Port.rest (p.setBacklog who xs) = Port.rest p := by
  cases who <;> rfl

@[simp] theorem Port.posts_setBacklog (p : Port) (who : Producer) (xs : List Posting) : (p.setBacklog who xs).posts = p.posts := by
  cases who <;> rfl

/-- Posting touches the buffer, the backlogs and the waiting producers alone. -/
@[simp] theorem rest_post (who : Producer) (x : Posting) (p : Port) : Port.rest (p.post who x) = Port.rest p := by
  unfold Port.post
  split
  · split
    · rfl
    · exact rest_setBacklog p who _
  · exact rest_setBacklog p who _

theorem Port.post_bound (who : Producer) (x : Posting) {p : Port} (h : p.posts.length ≤ Config.postingCap) :
    (p.post who x).posts.length ≤ Config.postingCap := by
  unfold Port.post
  split
  · split
    · next hc => exact createPosting_bound hc h
    · simpa using h
  · simpa using h

/-- So does giving waiting producers the room there is. -/
theorem Port.pump_keeps (n : Nat) (p : Port) :
    Port.rest (p.pump n) = Port.rest p ∧ (p.posts.length ≤ Config.postingCap → (p.pump n).posts.length ≤ Config.postingCap) := by
  induction n generalizing p with
  | zero => exact ⟨rfl, id⟩
  | succ n ih =>
    unfold Port.pump
    split
    · exact ⟨rfl, id⟩
    · next who rest hw =>
      split
      · have k := ih { p with waiting := rest }
        exact ⟨k.1, k.2⟩
      · next x xs hb =>
        split
        · exact ⟨rfl, id⟩
        · next ps hc =>
          have hr : Port.rest { p.setBacklog who xs with posts := ps } = Port.rest p := rest_setBacklog p who xs
          dsimp only
          split
          · exact ⟨(ih _).1.trans hr, fun h => (ih _).2 (createPosting_bound hc h)⟩
          · split
            · exact ⟨(ih _).1.trans hr, fun h => (ih _).2 (createPosting_bound hc h)⟩
            · exact ⟨(ih _).1.trans hr, fun h => (ih _).2 (createPosting_bound hc h)⟩

@[simp] theorem rest_settlePostings (p : Port) : Port.rest p.settlePostings = Port.rest p := (Port.pump_keeps _ p).1

theorem Port.settlePostings_bound {p : Port} (h : p.posts.length ≤ Config.postingCap) :
    p.settlePostings.posts.length ≤ Config.postingCap := (Port.pump_keeps _ p).2 h

/-! ## The frame of the quiet changes -/

/-- What stays: the hold's causes, the indices, the loader, and the port but for buffer, spans and arbiter. -/
def Chip.sameCore (c₀ c : Chip) : Prop :=
  c.hold = c₀.hold ∧ c.req = c₀.req ∧ c.loader = c₀.loader ∧ c.notice.pointer = c₀.notice.pointer
    ∧ c.notice.produce = c₀.notice.produce ∧ c.notice.consume = c₀.notice.consume ∧ Port.core c.port = Port.core c₀.port

theorem quiet_sameCore (c₀ : Chip) : Quiet (Chip.sameCore c₀) where
  blocks _ _ _ _ _ _ _ _ _ _ _ _ h := h
  spans _ _ _ _ h := h
  posts c who x h := by
    refine ⟨h.1, h.2.1, h.2.2.1, h.2.2.2.1, h.2.2.2.2.1, h.2.2.2.2.2.1, Eq.trans ?_ h.2.2.2.2.2.2⟩
    simp [Port.core]
  settled c h := by
    refine ⟨h.1, h.2.1, h.2.2.1, h.2.2.2.1, h.2.2.2.2.1, h.2.2.2.2.2.1, Eq.trans ?_ h.2.2.2.2.2.2⟩
    simp [Port.core]
  sources _ _ h := h
  bus _ _ h := h
  grant _ _ _ _ _ _ h := h

/-- Quiet changes leave the core as it is. -/
theorem Quietly.frame {c₀ c : Chip} (h : Quietly c₀ c) : Chip.sameCore c₀ c :=
  h.keeps (quiet_sameCore c₀) ⟨rfl, rfl, rfl, rfl, rfl, rfl, rfl⟩

theorem Quietly.hold_eq {c₀ c : Chip} (h : Quietly c₀ c) : c.hold = c₀.hold := h.frame.1
theorem Quietly.req_eq {c₀ c : Chip} (h : Quietly c₀ c) : c.req = c₀.req := h.frame.2.1
theorem Quietly.loader_eq {c₀ c : Chip} (h : Quietly c₀ c) : c.loader = c₀.loader := h.frame.2.2.1
theorem Quietly.pointer_eq {c₀ c : Chip} (h : Quietly c₀ c) : c.notice.pointer = c₀.notice.pointer := h.frame.2.2.2.1
theorem Quietly.produce_eq {c₀ c : Chip} (h : Quietly c₀ c) : c.notice.produce = c₀.notice.produce := h.frame.2.2.2.2.1
theorem Quietly.consume_eq {c₀ c : Chip} (h : Quietly c₀ c) : c.notice.consume = c₀.notice.consume := h.frame.2.2.2.2.2.1
theorem Quietly.core_eq {c₀ c : Chip} (h : Quietly c₀ c) : Port.core c.port = Port.core c₀.port := h.frame.2.2.2.2.2.2
theorem Quietly.mode_eq {c₀ c : Chip} (h : Quietly c₀ c) : c.port.mode = c₀.port.mode := by
  have e := congrArg Port.mode h.core_eq
  exact e
theorem Quietly.resetLine_eq {c₀ c : Chip} (h : Quietly c₀ c) : c.port.resetLine = c₀.port.resetLine := by
  have e := congrArg Port.resetLine h.core_eq
  exact e
theorem Quietly.resetDrain_eq {c₀ c : Chip} (h : Quietly c₀ c) : c.port.resetDrain = c₀.port.resetDrain := by
  have e := congrArg Port.resetDrain h.core_eq
  exact e
theorem Quietly.decoder_eq {c₀ c : Chip} (h : Quietly c₀ c) : c.port.decoder = c₀.port.decoder := by
  have e := congrArg Port.decoder h.core_eq
  exact e
theorem Quietly.host_eq {c₀ c : Chip} (h : Quietly c₀ c) : c.port.host = c₀.port.host := by
  have e := congrArg Port.host h.core_eq
  exact e
theorem Quietly.readData_eq {c₀ c : Chip} (h : Quietly c₀ c) : c.port.readData = c₀.port.readData := by
  have e := congrArg Port.readData h.core_eq
  exact e
theorem Quietly.fencedFirst_eq {c₀ c : Chip} (h : Quietly c₀ c) : c.port.fencedFirst = c₀.port.fencedFirst := by
  have e := congrArg Port.fencedFirst h.core_eq
  exact e
theorem Quietly.fencedCount_eq {c₀ c : Chip} (h : Quietly c₀ c) : c.port.fencedCount = c₀.port.fencedCount := by
  have e := congrArg Port.fencedCount h.core_eq
  exact e

theorem Quietly.running_eq {c₀ c : Chip} (h : Quietly c₀ c) : c.running = c₀.running := by
  unfold Chip.running
  rw [h.mode_eq]

theorem quiet_posts : Quiet fun c => c.port.posts.length ≤ Config.postingCap where
  blocks _ _ _ _ _ _ _ _ _ _ _ _ h := h
  spans _ _ _ _ h := h
  posts _ who x h := Port.post_bound who x h
  settled _ h := Port.settlePostings_bound h
  sources _ _ h := h
  bus _ _ h := h
  grant _ _ _ _ _ _ h := h

theorem quiet_hostCount : Quiet fun c => c.port.hostCount ≤ Config.hostRun where
  blocks _ _ _ _ _ _ _ _ _ _ _ _ h := h
  spans _ _ _ _ h := h
  posts c who x h := by
    have e := congrArg Port.hostCount (rest_post who x c.port)
    exact Nat.le_trans (Nat.le_of_eq e) h
  settled c h := by
    have e := congrArg Port.hostCount (rest_settlePostings c.port)
    exact Nat.le_trans (Nat.le_of_eq e) h
  sources _ _ h := h
  bus _ _ h := h
  grant _ _ _ _ _ hn _ := hn

/-- Quiet changes keep the bounds of the part. -/
theorem Quietly.chipOk {c₀ c : Chip} (h : Quietly c₀ c) (hc : ChipOk c₀) : ChipOk c := by
  refine ⟨h.keeps quiet_posts hc.1, ?_, ?_, ?_, ?_⟩
  · unfold countsOk
    rw [h.fencedCount_eq]
    exact ⟨h.keeps quiet_hostCount hc.2.1.1, hc.2.1.2⟩
  · unfold indicesOk
    rw [h.req_eq, h.produce_eq, h.consume_eq]
    exact hc.2.2.1
  · unfold causesOk
    rw [h.mode_eq, h.hold_eq]
    exact hc.2.2.2.1
  · unfold loaderOk
    rw [h.loader_eq, h.mode_eq]
    exact hc.2.2.2.2

end Sys2Proof.Machine
end

