-- ==== Sys2Proof/Laws/Memory.lean ====
section
/-!
SUPPORT. Show memory: every write keeps the canonical form, and a byte reads as written.
-/

namespace Sys2Proof.Machine

/-- A canonical list may start lower. -/
theorem Memory.wfFrom_mono {lo lo' : Nat} {m : Memory} (h : Memory.wfFrom lo m = true) (hl : lo' ≤ lo) :
    Memory.wfFrom lo' m = true := by
  cases m with
  | nil => rfl
  | cons x m =>
    obtain ⟨a, b⟩ := x
    simp only [Memory.wfFrom, Bool.and_eq_true, decide_eq_true_eq] at h ⊢
    exact ⟨⟨⟨by omega, h.1.1.2⟩, h.1.2⟩, h.2⟩

/-- A byte put in front of a list that starts behind it. -/
theorem Memory.wfFrom_cons {lo x : Nat} {v : Byte} {m : Memory} (h : Memory.wfFrom (x + 1) m = true) (hx : lo ≤ x)
    (hb : x < 16777216) : Memory.wfFrom lo (Memory.cons x v m) = true := by
  unfold Memory.cons
  split
  · exact Memory.wfFrom_mono h (by omega)
  · next hv => simp [Memory.wfFrom, hx, hb, h, hv]

/-- Setting a byte keeps the form. -/
theorem Memory.wfFrom_set {lo x : Nat} {v : Byte} {m : Memory} (h : Memory.wfFrom lo m = true) (hx : lo ≤ x)
    (hb : x < 16777216) : Memory.wfFrom lo (m.set x v) = true := by
  induction m generalizing lo with
  | nil => exact Memory.wfFrom_cons rfl hx hb
  | cons y m ih =>
    obtain ⟨a, b⟩ := y
    simp only [Memory.wfFrom, Bool.and_eq_true, decide_eq_true_eq] at h
    simp only [Memory.set]
    split
    · next hlt =>
      refine Memory.wfFrom_cons ?_ hx hb
      simp only [Memory.wfFrom, Bool.and_eq_true, decide_eq_true_eq]
      exact ⟨⟨⟨hlt, h.1.1.2⟩, h.1.2⟩, h.2⟩
    · split
      · next _ he => exact Memory.wfFrom_cons (he ▸ h.2) hx hb
      · next hlt hne =>
        simp only [Memory.wfFrom, Bool.and_eq_true, decide_eq_true_eq]
        exact ⟨h.1, ih h.2 (by omega)⟩

/-- One byte of a masked write keeps the form. -/
theorem Memory.wf_setByte {m : Memory} (h : m.wf = true) (w : Nat) (data : Word) (be : Enables) (i : Nat) :
    (Memory.setByte w data be m i).wf = true := by
  unfold Memory.setByte
  split
  · next hc => exact Memory.wfFrom_set h (Nat.zero_le _) hc.2
  · exact h

/-- A masked write keeps the canonical form. -/
theorem Memory.wf_write {m : Memory} (h : m.wf = true) (w : Nat) (data : Word) (be : Enables) : (m.write w data be).wf = true := by
  simp only [Memory.write, List.foldl]
  exact Memory.wf_setByte (Memory.wf_setByte (Memory.wf_setByte (Memory.wf_setByte h w data be 0) w data be 1) w data be 2) w data be 3

/-- Below its first entry a canonical list reads as empty. -/
theorem Memory.byte_below {lo x : Nat} {m : Memory} (h : Memory.wfFrom lo m = true) (hx : x < lo) :
    m.byte x = Config.emptyByte := by
  induction m generalizing lo with
  | nil => rfl
  | cons y m ih =>
    obtain ⟨a, b⟩ := y
    simp only [Memory.wfFrom, Bool.and_eq_true, decide_eq_true_eq] at h
    have hne : a ≠ x := by omega
    simp only [Memory.byte, hne, if_false]
    exact ih h.2 (by omega)

/-- A byte put in front, as read. -/
theorem Memory.byte_cons {x y : Nat} {v : Byte} {m : Memory} (h : Memory.wfFrom (x + 1) m = true) :
    (Memory.cons x v m).byte y = if x = y then v else m.byte y := by
  unfold Memory.cons
  split
  · next hv =>
    split
    · next he => rw [Memory.byte_below h (by omega), hv]
    · rfl
  · rfl

/-- A byte reads as it was set, every other as before. -/
theorem Memory.byte_set {lo x y : Nat} {v : Byte} {m : Memory} (h : Memory.wfFrom lo m = true) :
    (m.set x v).byte y = if x = y then v else m.byte y := by
  induction m generalizing lo with
  | nil => exact Memory.byte_cons rfl
  | cons z m ih =>
    obtain ⟨a, b⟩ := z
    simp only [Memory.wfFrom, Bool.and_eq_true, decide_eq_true_eq] at h
    simp only [Memory.set]
    split
    · next hlt =>
      refine Memory.byte_cons ?_
      simp only [Memory.wfFrom, Bool.and_eq_true, decide_eq_true_eq]
      exact ⟨⟨⟨hlt, h.1.1.2⟩, h.1.2⟩, h.2⟩
    · split
      · next _ he =>
        subst he
        rw [Memory.byte_cons h.2]
        simp only [Memory.byte]
        split <;> rfl
      · next hlt hne =>
        simp only [Memory.byte]
        rw [ih h.2]
        split
        · next ha => rw [if_neg (by omega)]
        · rfl

/-- One byte of a masked write, as read. -/
theorem Memory.byte_setByte {m : Memory} (h : m.wf = true) (w : Nat) (data : Word) (be : Enables) (i y : Nat) :
    (Memory.setByte w data be m i).byte y =
      if be.getLsbD i ∧ 4 * w + i < 16777216 ∧ 4 * w + i = y then data.byte i else m.byte y := by
  unfold Memory.setByte
  by_cases hc : be.getLsbD i ∧ 4 * w + i < 16777216
  · rw [if_pos hc, Memory.byte_set h]
    simp [hc]
  · rw [if_neg hc, if_neg (fun hn => hc ⟨hn.1, hn.2.1⟩)]

/-- A byte outside the written word reads as before. -/
theorem Memory.byte_write_other {m : Memory} (h : m.wf = true) (w : Nat) (data : Word) (be : Enables) (y : Nat)
    (hy : y < 4 * w ∨ 4 * w + 4 ≤ y) : (m.write w data be).byte y = m.byte y := by
  have h0 := Memory.wf_setByte h w data be 0
  have h1 := Memory.wf_setByte h0 w data be 1
  have h2 := Memory.wf_setByte h1 w data be 2
  simp only [Memory.write, List.foldl]
  rw [Memory.byte_setByte h2, if_neg (by omega), Memory.byte_setByte h1, if_neg (by omega), Memory.byte_setByte h0,
    if_neg (by omega), Memory.byte_setByte h, if_neg (by omega)]

/-- A byte of the written word reads as written if it was enabled, else as before. -/
theorem Memory.byte_write {m : Memory} (h : m.wf = true) (w : Nat) (data : Word) (be : Enables) (i : Nat) (hi : i < 4)
    (hw : 4 * w + i < 16777216) :
    (m.write w data be).byte (4 * w + i) = if be.getLsbD i then data.byte i else m.byte (4 * w + i) := by
  have h0 := Memory.wf_setByte h w data be 0
  have h1 := Memory.wf_setByte h0 w data be 1
  have h2 := Memory.wf_setByte h1 w data be 2
  simp only [Memory.write, List.foldl]
  rw [Memory.byte_setByte h2, Memory.byte_setByte h1, Memory.byte_setByte h0, Memory.byte_setByte h]
  obtain rfl | rfl | rfl | rfl : i = 0 ∨ i = 1 ∨ i = 2 ∨ i = 3 := by omega
  · simp [show 4 * w < 16777216 by omega]
  · simp [show 4 * w + 1 < 16777216 by omega]
  · simp [show 4 * w + 2 < 16777216 by omega]
  · simp [show 4 * w + 3 < 16777216 by omega]

end Sys2Proof.Machine
end

