-- ==== Sys2Proof/Laws/Bounds.lean ====
section
/-!
SUPPORT. The operations that are not quiet keep the bounds of the part (`ChipOk`), one lemma each.
-/

namespace Sys2Proof.Machine

open Sys2Proof.Safety

/-! ## Parts of the chip that carry no bound -/

/-- A change of the loader that leaves its phase, or stops it. -/
theorem ok_modLoader {c : Chip} {f : Loader → Loader} (hf : (f c.loader).phase = c.loader.phase) (h : ChipOk c) : ChipOk (c.modLoader f) :=
  ⟨h.1, h.2.1, h.2.2.1, h.2.2.2.1, fun hp => h.2.2.2.2 (fun he => hp (hf.trans he))⟩

/-- A change of the hold that leaves its causes. -/
theorem ok_modHold {c : Chip} {f : Hold → Hold} (hl : (f c.hold).line = c.hold.line) (hr : (f c.hold).request = c.hold.request)
    (h : ChipOk c) : ChipOk (c.modHold f) := by
  refine ⟨h.1, h.2.1, h.2.2.1, ?_, h.2.2.2.2⟩
  show c.port.mode = .held ↔ _
  rw [show (c.modHold f).hold = f c.hold from rfl, hl, hr]
  exact h.2.2.2.1

@[simp] theorem ok_advance {c : Chip} (dt) (h : ChipOk c) : ChipOk (c.advance dt) := h
/-- A change of the request unit that leaves its indices within the ring. -/
theorem ok_modReq {c : Chip} {f : RequestUnit → RequestUnit} (hp : (f c.req).produce < 32) (hc : (f c.req).consume < 32)
    (h : ChipOk c) : ChipOk (c.modReq f) := ⟨h.1, h.2.1, ⟨hp, hc, h.2.2.1.2.2⟩, h.2.2.2⟩

/-- A change of the port that leaves the mode. -/
theorem ok_modPort {c : Chip} {f : Port → Port} (hp : postsOk (f c.port)) (hc : countsOk (f c.port)) (hm : (f c.port).mode = c.port.mode)
    (h : ChipOk c) : ChipOk (c.modPort f) := by
  refine ⟨hp, hc, h.2.2.1, ?_, ?_⟩
  · show (f c.port).mode = .held ↔ _
    rw [hm]
    exact h.2.2.2.1
  · intro hl
    exact hm.trans (h.2.2.2.2 hl)

/-! ## Arbiter, port -/

@[simp] theorem ok_granted {c : Chip} (r) (h : ChipOk c) : ChipOk (c.granted r) := (Quietly.granted r (Quietly.refl c)).chipOk h

theorem ok_onGrant {c : Chip} {r f} (hf : ∀ c, ChipOk c → ChipOk (f c)) (h : ChipOk c) : ChipOk (c.onGrant r f) := by
  unfold Chip.onGrant
  split
  · exact hf _ (ok_granted r h)
  · exact h

theorem ok_expire {c : Chip} {t : Timer} {f} (hf : ∀ c, ChipOk c → ChipOk (f c)) (h : ChipOk c) : ChipOk (c.expire t f) := by
  unfold Chip.expire
  split
  · exact hf _ (ok_advance _ h)
  · exact h

@[simp] theorem ok_fencedWrite {c : Chip} (w) (h : ChipOk c) : ChipOk (c.fencedWrite w) := by
  have hc : ChipOk (c.modPort (Port.countFenced w)) := by
    refine ok_modPort ?_ ⟨?_, ?_⟩ ?_ h
    · simp only [postsOk, Port.countFenced]
      split <;> exact h.1
    · simp only [Port.countFenced]
      split <;> exact h.2.1.1
    · simp only [Port.countFenced]
      split <;> dsimp only <;> omega
    · simp only [Port.countFenced]
      split <;> rfl
  exact (Quietly.hand (src := srcDevice) _ (Quietly.refl _)).chipOk hc

@[simp] theorem ok_cancel {c : Chip} (w be) (h : ChipOk c) : ChipOk (c.modPort fun p => { p with posts := cancelPostings p.posts w be }) :=
  ⟨Nat.le_trans (cancelPostings_length _ _ _) h.1, h.2.1, h.2.2⟩

@[simp] theorem ok_acknowledge {c : Chip} (h : ChipOk c) : ChipOk (c.modPort Port.acknowledge) := h

@[simp] theorem ok_readGrant {c : Chip} (m) (h : ChipOk c) : ChipOk (c.readGrant m) := by
  unfold Chip.readGrant
  split
  · exact ok_onGrant (fun _ h => h) h
  · exact ok_onGrant (fun _ h => h) h
  · exact h

/-! ## The hold -/

/-- New causes keep the part's bounds: with the first the device is HELD, with the last gone it is LIVE (R166). Causes are present only in LIVE or
HELD. -/
theorem ok_setCauses {c : Chip} (line req) (hr : c.running = true ∨ (line = .absent ∧ req = false)) (h : ChipOk c) :
    ChipOk (c.setCauses line req) := by
  unfold Chip.setCauses
  split
  · exact h
  · dsimp only
    split
    · next hp =>
      have h' : ChipOk ((c.modHold fun x => { x with line := line, request := req }).modPort fun p => { p with mode := .held }) := by
        refine ⟨h.1, h.2.1, h.2.2.1, ?_, ?_⟩
        · simp only [Bool.and_eq_true, Bool.or_eq_true, bne_iff_ne] at hp
          exact ⟨fun _ => hp.1, fun _ => rfl⟩
        · intro hl
          have hm := h.2.2.2.2 hl
          simp only [Bool.and_eq_true] at hp
          have hp' : c.port.mode = .live := by simpa [Chip.isLive, Chip.modHold] using hp.2
          rw [hm] at hp'
          cases hp'
      refine Quietly.chipOk ?_ h'
      simp (maxDischargeDepth := 60) [Chip.enterHeld]
    · split
      · next hp =>
        have h' : ChipOk ((c.modHold fun x => { x with line := line, request := req }).modPort fun p => { p with mode := .live }) := by
          refine ⟨h.1, h.2.1, h.2.2.1, ?_, ?_⟩
          · simp at hp
            simp [causesOk, Chip.modPort, Chip.modHold, hp]
          · intro hl
            have hm := h.2.2.2.2 hl
            simp only [Bool.and_eq_true] at hp
            have hp' : c.port.mode = .held := by simpa [Chip.isHeld, Chip.modHold] using hp.2
            rw [hm] at hp'
            cases hp'
        refine Quietly.chipOk ?_ h'
        simp (maxDischargeDepth := 60) [Chip.leaveHeld]
      · next hn hp =>
        refine (Quietly.mirrorDevice (Quietly.refl _)).chipOk ?_
        refine ⟨h.1, h.2.1, h.2.2.1, ?_, h.2.2.2.2⟩
        simp only [causesOk, Chip.modHold]
        simp [Chip.isLive, Chip.isHeld, Chip.modHold] at hn hp
        simp [Chip.running] at hr
        cases hm : c.port.mode <;> simp [hm] at hn hp hr ⊢ <;> grind

@[simp] theorem ok_lineSettled {c : Chip} (a) (h : ChipOk c) : ChipOk (c.lineSettled a) := by
  unfold Chip.lineSettled
  split
  · exact h
  · next hr =>
    simp at hr
    split
    · exact ok_setCauses _ _ (.inl hr) h
    · exact ok_setCauses _ _ (.inl hr) h

@[simp] theorem ok_stopSettles {c : Chip} (h : ChipOk c) : ChipOk c.stopSettles := ok_lineSettled _ (ok_modHold rfl rfl h)

theorem ok_lineAtLive {c : Chip} (hr : c.running = true) (h : ChipOk c) : ChipOk c.lineAtLive := by
  unfold Chip.lineAtLive
  split
  · exact ok_setCauses _ _ (.inl hr) h
  · exact h
  · exact ok_setCauses _ _ (.inl hr) h

/-! ## Requests -/

@[simp] theorem ok_answer {c : Chip} (r d) (h : ChipOk c) : ChipOk (c.answer r d) := by
  have hq : Quietly c ((c.postRequest (c.recordAddr / 4 + 3) (replyWord r d)).postRequest
      (Chip.controlWord 1 (c.postRequest (c.recordAddr / 4 + 3) (replyWord r d))) (BitVec.ofNat 32 ((c.req.consume + 1) % 32))) := by
    simp
  have hc := hq.chipOk h
  refine ok_modReq ?_ ?_ hc
  · exact hc.2.2.1.1
  · exact Nat.mod_lt _ (by omega)

/-- A request is taken in LIVE or HELD (R195). -/
theorem ok_take {c : Chip} {m fits f} (hf : ∀ r c, c.running = true → ChipOk c → ChipOk (f r c)) (h : ChipOk c) :
    ChipOk (c.take m fits f) := by
  unfold Chip.take
  split
  · next ht =>
    have hr : c.running = true := by
      simp [Chip.mayTake] at ht
      exact ht.1.1.1.1.1.1.1
    unfold Chip.onGrant
    split
    · exact hf _ _ ((Quietly.granted .loader (Quietly.refl c)).running_eq.trans hr) (ok_granted _ h)
    · exact h
  · exact h

@[simp] theorem ok_verdict {c : Chip} (o why seq) (h : ChipOk c) : ChipOk (c.verdict o why seq) := by
  unfold Chip.verdict
  split
  · exact Quietly.chipOk (by simp) h
  · exact Quietly.chipOk (by simp) h
  · exact ok_answer _ _ h
  · exact ok_answer _ _ h

@[simp] theorem ok_judge {c : Chip} (o r) (h : ChipOk c) : ChipOk (c.judge o r) := by
  unfold Chip.judge
  refine ok_verdict _ _ _ ?_
  exact Quietly.chipOk (by split <;> simp) h

@[simp] theorem ok_offerReturn {c : Chip} (m) (h : ChipOk c) : ChipOk (c.offerReturn m) := by
  unfold Chip.offerReturn
  split
  · exact Quietly.chipOk (by simp) h
  · split
    · exact h
    · exact ok_judge _ _ (Quietly.chipOk (by simp) h)

@[simp] theorem ok_startSceneRequest {c : Chip} (r) (h : ChipOk c) : ChipOk (c.startSceneRequest r) := by
  unfold Chip.startSceneRequest
  split
  · exact Quietly.chipOk (Quietly.modTrig _ (Quietly.refl _)) (ok_modReq h.2.2.1.1 h.2.2.1.2.1 h)
  · exact ok_answer _ _ h

/-- A stop's slots are taken one by one, quietly. -/
theorem stop_quiet (p : Slot → Bool) (xs : List SlotId) (x : Nat × Chip) :
    Quietly x.2 (xs.foldl (fun x i => stopSlot p i x) x).2 := by
  induction xs generalizing x with
  | nil => exact Quietly.refl _
  | cons i xs ih =>
    refine Quietly.trans ?_ (ih _)
    unfold stopSlot
    dsimp only
    split <;> simp

@[simp] theorem ok_stop {c : Chip} (q p) (h : ChipOk c) : ChipOk (c.stop q p) := by
  have hs : ChipOk ((List.finRange 12).foldl (fun x i => stopSlot p i x) (0, c.removeEntries q)).2 :=
    (Quietly.trans (Quietly.removeEntries q (Quietly.refl c)) (stop_quiet p _ (0, c.removeEntries q))).chipOk h
  unfold Chip.stop
  dsimp only
  split <;> exact ok_answer _ _ hs

@[simp] theorem ok_stopSceneRequest {c : Chip} (r) (h : ChipOk c) : ChipOk (c.stopSceneRequest r) := by
  unfold Chip.stopSceneRequest
  dsimp only
  split <;> simp [h]

@[simp] theorem ok_stopBayRequest {c : Chip} (r) (h : ChipOk c) : ChipOk (c.stopBayRequest r) := by
  unfold Chip.stopBayRequest
  dsimp only
  split <;> simp [h]

theorem ok_holdRequest {c : Chip} (hr : c.running = true) (h : ChipOk c) : ChipOk c.holdRequest :=
  ok_answer _ _ (ok_setCauses _ _ (.inl hr) h)

@[simp] theorem ok_releaseRequest {c : Chip} (h : ChipOk c) : ChipOk c.releaseRequest := by
  unfold Chip.releaseRequest
  split
  · exact ok_answer _ _ h
  · exact ok_answer _ _ (ok_setCauses _ _ (.inr ⟨rfl, rfl⟩) h)

@[simp] theorem ok_guardBayRequest {c : Chip} (r code) (h : ChipOk c) : ChipOk (c.guardBayRequest r code) := by
  unfold Chip.guardBayRequest
  split
  · exact ok_answer _ _ (Quietly.chipOk (by simp) h)
  · exact ok_answer _ _ h

theorem ok_armRequest {c : Chip} {r f} (hf : ∀ t c, Quietly c (f t c)) (h : ChipOk c) : ChipOk (c.armRequest r f) := by
  unfold Chip.armRequest
  split
  · split
    · exact ok_answer _ _ ((hf _ c).chipOk h)
    · exact ok_answer _ _ h
  · exact ok_answer _ _ h

@[simp] theorem ok_serviceRequest {c : Chip} (r code) (h : ChipOk c) : ChipOk (c.serviceRequest r code) := by
  unfold Chip.serviceRequest
  split
  · refine ok_answer _ _ ?_
    split
    · exact Quietly.chipOk (by simp) h
    · exact h
  · exact ok_answer _ _ h

@[simp] theorem ok_clearReports {c : Chip} (h : ChipOk c) : ChipOk c.clearReports := by
  refine ⟨h.1, ⟨h.2.1.1, Nat.zero_le _⟩, h.2.2.1, ?_, ?_⟩
  · refine ⟨fun hx => ?_, fun hx => ?_⟩
    · have hx' : (if c.isHeld then Mode.live else c.port.mode) = .held := hx
      split at hx'
      · cases hx'
      · next hn => simp [Chip.isHeld, hx'] at hn
    · rcases hx with hx | hx
      · exact absurd rfl hx
      · cases hx
  · intro hl
    have := h.2.2.2.2 hl
    simp [Chip.clearReports, Chip.isHeld, Port.clearFenced, this]

/-- A change of the request unit that keeps both its indices. -/
theorem ok_resetWait {c : Chip} (x : Bool) (h : ChipOk c) : ChipOk (c.modReq fun q => { q with resetWait := x }) := ok_modReq h.2.2.1.1 h.2.2.1.2.1 h

@[simp] theorem ok_resetNow {c : Chip} (h : ChipOk c) : ChipOk c.resetNow :=
  ok_clearReports (Quietly.chipOk (by simp) (ok_resetWait false h))

@[simp] theorem ok_resetDue {c : Chip} (h : ChipOk c) : ChipOk c.resetDue := by
  unfold Chip.resetDue
  split <;> simp [h]

@[simp] theorem ok_resetShowRequest {c : Chip} (r) (h : ChipOk c) : ChipOk (c.resetShowRequest r) := by
  unfold Chip.resetShowRequest
  split
  · exact ok_answer _ _ h
  · exact ok_resetDue (ok_resetWait true (ok_answer .done 0 h))

@[simp] theorem ok_settle {c : Chip} (h : ChipOk c) : ChipOk c.settle :=
  ((Quietly.refl _).wake.arbitrate).chipOk (ok_resetDue ((Quietly.refl c).beforeReset.chipOk h))

/-! ## Indices and notices -/

@[simp] theorem ok_produceCandidate {c : Chip} (w) (h : ChipOk c) : ChipOk (c.produceCandidate w) := by
  unfold Chip.produceCandidate
  split
  · next hw => exact ok_modReq hw h.2.2.1.2.1 h
  · exact Quietly.chipOk (by simp) h

@[simp] theorem ok_produceCapture {c : Chip} (d be) (h : ChipOk c) : ChipOk (c.produceCapture d be) := by
  unfold Chip.produceCapture
  split
  · exact ok_modReq h.2.2.1.1 h.2.2.1.2.1 h
  · exact ok_produceCandidate _ h

@[simp] theorem ok_consumeCapture {c : Chip} (d be) (h : ChipOk c) : ChipOk (c.consumeCapture d be) := by
  unfold Chip.consumeCapture
  dsimp only
  split
  · next hw => exact ⟨h.1, h.2.1, ⟨h.2.2.1.1, h.2.2.1.2.1, h.2.2.1.2.2.1, hw⟩, h.2.2.2⟩
  · exact Quietly.chipOk (by simp) h

@[simp] theorem ok_consumeRead {c : Chip} (w) (h : ChipOk c) : ChipOk (c.consumeRead w) := by
  unfold Chip.consumeRead
  split
  · exact h
  · split
    · next hw => exact ok_modReq h.2.2.1.1 hw h
    · exact Quietly.chipOk (by simp) (ok_modReq (f := fun q => { q with consume := 0 }) h.2.2.1.1 (by simp) h)

@[simp] theorem ok_produceRead {c : Chip} (w) (h : ChipOk c) : ChipOk (c.produceRead w) := by
  unfold Chip.produceRead
  split
  · next hw => exact ok_modReq hw h.2.2.1.2.1 h
  · exact Quietly.chipOk (by simp) (ok_modReq (f := fun q => { q with produce := q.consume }) h.2.2.1.2.1 h.2.2.1.2.1 h)

theorem ok_captures {c : Chip} (xs : List (Word × Enables)) (h : ChipOk c) :
    ChipOk (xs.foldl (fun c x => c.produceCapture x.1 x.2) c) := by
  induction xs generalizing c with
  | nil => exact h
  | cons x xs ih => exact ih (ok_produceCapture _ _ h)

@[simp] theorem ok_indexReturn {c : Chip} (m) (h : ChipOk c) : ChipOk (c.indexReturn m) := by
  have hr := ok_produceRead (m.word (Chip.controlWord 0 (c.consumeRead (m.word (c.controlWord 1)))))
    (ok_consumeRead (m.word (c.controlWord 1)) h)
  unfold Chip.indexReturn
  refine ok_captures _ (ok_modReq ?_ ?_ ?_)
  · have := ok_produceRead (m.word (c.controlWord 0)) (ok_consumeRead (m.word (c.controlWord 1)) h)
    exact this.2.2.1.1
  · have := ok_produceRead (m.word (c.controlWord 0)) (ok_consumeRead (m.word (c.controlWord 1)) h)
    exact this.2.2.1.2.1
  · exact ok_produceRead _ (ok_consumeRead _ h)

/-- A change of the produce index that stays within the ring. -/
theorem ok_produce {c : Chip} {n : Nat} (hn : n < 64) (h : ChipOk c) : ChipOk (c.modNotice fun u => { u with produce := n }) :=
  ⟨h.1, h.2.1, ⟨h.2.2.1.1, h.2.2.1.2.1, hn, h.2.2.1.2.2.2⟩, h.2.2.2⟩

@[simp] theorem ok_postRecord {c : Chip} (src n) (h : ChipOk c) : ChipOk (c.postRecord src n) := by
  unfold Chip.postRecord
  exact ok_produce (Nat.mod_lt _ (by omega)) (Quietly.chipOk (by simp (maxDischargeDepth := 60)) h)

@[simp] theorem ok_drainNotice {c : Chip} (h : ChipOk c) : ChipOk c.drainNotice := by
  unfold Chip.drainNotice
  split
  · exact h
  · split
    · exact h
    · dsimp only
      refine ok_postRecord _ _ ?_
      split
      · exact ⟨h.1, ⟨h.2.1.1, Nat.zero_le _⟩, h.2.2⟩
      · exact h

/-! ## LOADING and resets -/

@[simp] theorem ok_beginLoading {c : Chip} (h : ChipOk c) : ChipOk c.beginLoading :=
  ⟨h.1, h.2.1, h.2.2.1, by simp [causesOk, Chip.beginLoading], fun _ => rfl⟩
@[simp] theorem ok_endResetShow {c : Chip} (h : ChipOk c) : ChipOk c.endResetShow :=
  ok_beginLoading (ok_modReq h.2.2.1.1 h.2.2.1.2.1 h)

theorem ok_headerRead {c : Chip} (ws) (hp : c.loader.phase = .header) (h : ChipOk c) : ChipOk (c.headerRead ws) := by
  have hm : c.port.mode = .loading := h.2.2.2.2 (by rw [hp]; decide)
  have hc : ¬(c.hold.line ≠ .absent ∨ c.hold.request = true) := fun hc => by
    have := h.2.2.2.1.2 hc
    rw [hm] at this
    cases this
  unfold Chip.headerRead
  split
  · exact ⟨h.1, h.2.1, h.2.2.1, h.2.2.2.1, fun _ => hm⟩
  · exact ⟨h.1, h.2.1, h.2.2.1, ⟨fun e => by simp [Chip.mapFails] at e, fun e => absurd e hc⟩, fun e => absurd rfl e⟩

@[simp] theorem ok_headerGrant {c : Chip} (m) (h : ChipOk c) : ChipOk (c.headerGrant m) := by
  unfold Chip.headerGrant
  split
  · next hp =>
    unfold Chip.onGrant
    split
    · have hg := ok_granted .loader h
      dsimp only
      split
      · exact ok_modLoader rfl hg
      · exact ok_headerRead _ ((congrArg Loader.phase (Quietly.granted .loader (Quietly.refl c)).loader_eq).trans (by simpa using hp)) hg
    · exact h
  · exact h

@[simp] theorem ok_headerGrants {c : Chip} (m n) (h : ChipOk c) : ChipOk (c.headerGrants m n) := by
  induction n generalizing c with
  | zero => exact h
  | succ n ih => exact ih (ok_headerGrant m h)

@[simp] theorem Quietly.tableEntries {c₀ c : Chip} (m t g) (h : Quietly c₀ c) : Quietly c₀ (c.tableEntries m t g) := by
  unfold Chip.tableEntries grantEntries
  split <;> simp [h]

@[simp] theorem ok_tableGrant {c : Chip} (m t) (h : ChipOk c) : ChipOk (c.tableGrant m t) := by
  unfold Chip.tableGrant
  split
  · refine ok_onGrant (fun c h => ?_) h
    dsimp only
    have he : ChipOk ((c.tableEntries m t (c.loader.made t)).modLoader (Loader.count t)) :=
      ok_modLoader (by cases t <;> rfl) (Quietly.chipOk (by simp) h)
    split
    · exact Quietly.chipOk (by simp) he
    · exact he
  · exact h

/-- The entry to LIVE is made from LOADING. -/
theorem ok_enterLive {c : Chip} (hm : c.port.mode = .loading) (h : ChipOk c) : ChipOk c.enterLive := by
  have hc : ¬(c.hold.line ≠ .absent ∨ c.hold.request = true) := fun hc => by
    have := h.2.2.2.1.2 hc
    rw [hm] at this
    cases this
  have q1 : Quietly c (c.postNotice (c.controlWord 2) 0#32) := by simp
  generalize hd : (c.postNotice (c.controlWord 2) 0#32).modPort (fun p => { p with mode := .live }) = d
  have dh : d.hold = c.hold := by rw [← hd]; exact q1.hold_eq
  have dm : d.port.mode = .live := by rw [← hd]; rfl
  have dr : d.req = c.req := by rw [← hd]; exact q1.req_eq
  have h1 := q1.chipOk h
  have dp : postsOk d.port := by rw [← hd]; exact h1.1
  have dc : countsOk d.port := by rw [← hd]; exact h1.2.1
  have q2 : Quietly d (d.mirrorAll d.mirrorImage) := Quietly.mirrorAll _ (Quietly.refl _)
  unfold Chip.enterLive
  rw [hd]
  dsimp only
  generalize d.mirrorAll d.mirrorImage = e at q2 ⊢
  have em : e.port.mode = .live := q2.mode_eq.trans dm
  have q3 : ∀ x : Chip, Quietly x (forAll 32 Chip.timeAnew x) := fun x =>
    Quietly.forAll (fun i c => Quietly.timeAnew i (Quietly.refl c)) (Quietly.refl _)
  refine ok_lineAtLive ?_ ((q3 _).chipOk ⟨q2.keeps quiet_posts dp, ?_, ?_, ?_, ?_⟩)
  · unfold Chip.running
    rw [(q3 _).mode_eq]
    simp [em]
  · exact ⟨q2.keeps quiet_hostCount dc.1, Nat.le_trans (Nat.le_of_eq q2.fencedCount_eq) dc.2⟩
  · refine ⟨?_, ?_, Nat.zero_lt_succ _, Nat.zero_lt_succ _⟩
    · show e.req.produce < 32
      rw [q2.req_eq, dr]
      exact h.2.2.1.1
    · show e.req.consume < 32
      rw [q2.req_eq, dr]
      exact h.2.2.1.2.1
  · refine ⟨fun hx => ?_, fun hx => ?_⟩
    · exact nomatch Eq.trans (Eq.symm em) hx
    · rw [q2.hold_eq, dh] at hx
      exact absurd hx hc
  · exact fun hx => absurd rfl hx

/-- The part at its reset values is within its bounds. -/
@[simp] theorem ok_cleared (c : Chip) : ChipOk c.cleared := by
  refine ⟨?_, ⟨?_, ?_⟩, ⟨?_, ?_, ?_, ?_⟩, ?_, ?_⟩ <;>
    simp [Chip.cleared, postsOk, causesOk, loaderOk, Port.reset, Chip.reset, RequestUnit.reset, NoticeUnit.reset, Hold.reset]

@[simp] theorem ok_inReset {c : Chip} (h : ChipOk c) : ChipOk c.inReset := ⟨h.1, h.2.1, h.2.2.1, h.2.2.2.1, fun hl => absurd rfl hl⟩

@[simp] theorem ok_capture {c : Chip} (w d be) (h : ChipOk c) : ChipOk (c.capture w d be) := by
  unfold Chip.capture
  split
  · split <;> simp [h]
  · split
    · simp [h]
    · split
      · simp [h]
      · split
        · exact Quietly.chipOk (by simp) h
        · exact h

end Sys2Proof.Machine
end

