-- ==== Sys2Proof/Laws/State.lean ====
section
/-!
SUPPORT. What each update of a part of the chip, or of the machine, does to each part: one lemma per field per update, by rfl; and reading a
table after a change at one place.
-/

namespace Sys2Proof.Machine

/-! `modPort` -/
@[simp] theorem Chip.modPort_port (f : Port → Port) (c : Chip) : (c.modPort f).port = f c.port := rfl
@[simp] theorem Chip.modPort_loader (f : Port → Port) (c : Chip) : (c.modPort f).loader = c.loader := rfl
@[simp] theorem Chip.modPort_req (f : Port → Port) (c : Chip) : (c.modPort f).req = c.req := rfl
@[simp] theorem Chip.modPort_notice (f : Port → Port) (c : Chip) : (c.modPort f).notice = c.notice := rfl
@[simp] theorem Chip.modPort_slots (f : Port → Port) (c : Chip) : (c.modPort f).slots = c.slots := rfl
@[simp] theorem Chip.modPort_fetch (f : Port → Port) (c : Chip) : (c.modPort f).fetch = c.fetch := rfl
@[simp] theorem Chip.modPort_claims (f : Port → Port) (c : Chip) : (c.modPort f).claims = c.claims := rfl
@[simp] theorem Chip.modPort_trig (f : Port → Port) (c : Chip) : (c.modPort f).trig = c.trig := rfl
@[simp] theorem Chip.modPort_lamp (f : Port → Port) (c : Chip) : (c.modPort f).lamp = c.lamp := rfl
@[simp] theorem Chip.modPort_voices (f : Port → Port) (c : Chip) : (c.modPort f).voices = c.voices := rfl
@[simp] theorem Chip.modPort_links (f : Port → Port) (c : Chip) : (c.modPort f).links = c.links := rfl
@[simp] theorem Chip.modPort_drives (f : Port → Port) (c : Chip) : (c.modPort f).drives = c.drives := rfl
@[simp] theorem Chip.modPort_bays (f : Port → Port) (c : Chip) : (c.modPort f).bays = c.bays := rfl
@[simp] theorem Chip.modPort_guardIn (f : Port → Port) (c : Chip) : (c.modPort f).guardIn = c.guardIn := rfl
@[simp] theorem Chip.modPort_hold (f : Port → Port) (c : Chip) : (c.modPort f).hold = c.hold := rfl
@[simp] theorem Chip.modPort_signals (f : Port → Port) (c : Chip) : (c.modPort f).signals = c.signals := rfl

/-! `modLoader` -/
@[simp] theorem Chip.modLoader_port (f : Loader → Loader) (c : Chip) : (c.modLoader f).port = c.port := rfl
@[simp] theorem Chip.modLoader_loader (f : Loader → Loader) (c : Chip) : (c.modLoader f).loader = f c.loader := rfl
@[simp] theorem Chip.modLoader_req (f : Loader → Loader) (c : Chip) : (c.modLoader f).req = c.req := rfl
@[simp] theorem Chip.modLoader_notice (f : Loader → Loader) (c : Chip) : (c.modLoader f).notice = c.notice := rfl
@[simp] theorem Chip.modLoader_slots (f : Loader → Loader) (c : Chip) : (c.modLoader f).slots = c.slots := rfl
@[simp] theorem Chip.modLoader_fetch (f : Loader → Loader) (c : Chip) : (c.modLoader f).fetch = c.fetch := rfl
@[simp] theorem Chip.modLoader_claims (f : Loader → Loader) (c : Chip) : (c.modLoader f).claims = c.claims := rfl
@[simp] theorem Chip.modLoader_trig (f : Loader → Loader) (c : Chip) : (c.modLoader f).trig = c.trig := rfl
@[simp] theorem Chip.modLoader_lamp (f : Loader → Loader) (c : Chip) : (c.modLoader f).lamp = c.lamp := rfl
@[simp] theorem Chip.modLoader_voices (f : Loader → Loader) (c : Chip) : (c.modLoader f).voices = c.voices := rfl
@[simp] theorem Chip.modLoader_links (f : Loader → Loader) (c : Chip) : (c.modLoader f).links = c.links := rfl
@[simp] theorem Chip.modLoader_drives (f : Loader → Loader) (c : Chip) : (c.modLoader f).drives = c.drives := rfl
@[simp] theorem Chip.modLoader_bays (f : Loader → Loader) (c : Chip) : (c.modLoader f).bays = c.bays := rfl
@[simp] theorem Chip.modLoader_guardIn (f : Loader → Loader) (c : Chip) : (c.modLoader f).guardIn = c.guardIn := rfl
@[simp] theorem Chip.modLoader_hold (f : Loader → Loader) (c : Chip) : (c.modLoader f).hold = c.hold := rfl
@[simp] theorem Chip.modLoader_signals (f : Loader → Loader) (c : Chip) : (c.modLoader f).signals = c.signals := rfl

/-! `modReq` -/
@[simp] theorem Chip.modReq_port (f : RequestUnit → RequestUnit) (c : Chip) : (c.modReq f).port = c.port := rfl
@[simp] theorem Chip.modReq_loader (f : RequestUnit → RequestUnit) (c : Chip) : (c.modReq f).loader = c.loader := rfl
@[simp] theorem Chip.modReq_req (f : RequestUnit → RequestUnit) (c : Chip) : (c.modReq f).req = f c.req := rfl
@[simp] theorem Chip.modReq_notice (f : RequestUnit → RequestUnit) (c : Chip) : (c.modReq f).notice = c.notice := rfl
@[simp] theorem Chip.modReq_slots (f : RequestUnit → RequestUnit) (c : Chip) : (c.modReq f).slots = c.slots := rfl
@[simp] theorem Chip.modReq_fetch (f : RequestUnit → RequestUnit) (c : Chip) : (c.modReq f).fetch = c.fetch := rfl
@[simp] theorem Chip.modReq_claims (f : RequestUnit → RequestUnit) (c : Chip) : (c.modReq f).claims = c.claims := rfl
@[simp] theorem Chip.modReq_trig (f : RequestUnit → RequestUnit) (c : Chip) : (c.modReq f).trig = c.trig := rfl
@[simp] theorem Chip.modReq_lamp (f : RequestUnit → RequestUnit) (c : Chip) : (c.modReq f).lamp = c.lamp := rfl
@[simp] theorem Chip.modReq_voices (f : RequestUnit → RequestUnit) (c : Chip) : (c.modReq f).voices = c.voices := rfl
@[simp] theorem Chip.modReq_links (f : RequestUnit → RequestUnit) (c : Chip) : (c.modReq f).links = c.links := rfl
@[simp] theorem Chip.modReq_drives (f : RequestUnit → RequestUnit) (c : Chip) : (c.modReq f).drives = c.drives := rfl
@[simp] theorem Chip.modReq_bays (f : RequestUnit → RequestUnit) (c : Chip) : (c.modReq f).bays = c.bays := rfl
@[simp] theorem Chip.modReq_guardIn (f : RequestUnit → RequestUnit) (c : Chip) : (c.modReq f).guardIn = c.guardIn := rfl
@[simp] theorem Chip.modReq_hold (f : RequestUnit → RequestUnit) (c : Chip) : (c.modReq f).hold = c.hold := rfl
@[simp] theorem Chip.modReq_signals (f : RequestUnit → RequestUnit) (c : Chip) : (c.modReq f).signals = c.signals := rfl

/-! `modNotice` -/
@[simp] theorem Chip.modNotice_port (f : NoticeUnit → NoticeUnit) (c : Chip) : (c.modNotice f).port = c.port := rfl
@[simp] theorem Chip.modNotice_loader (f : NoticeUnit → NoticeUnit) (c : Chip) : (c.modNotice f).loader = c.loader := rfl
@[simp] theorem Chip.modNotice_req (f : NoticeUnit → NoticeUnit) (c : Chip) : (c.modNotice f).req = c.req := rfl
@[simp] theorem Chip.modNotice_notice (f : NoticeUnit → NoticeUnit) (c : Chip) : (c.modNotice f).notice = f c.notice := rfl
@[simp] theorem Chip.modNotice_slots (f : NoticeUnit → NoticeUnit) (c : Chip) : (c.modNotice f).slots = c.slots := rfl
@[simp] theorem Chip.modNotice_fetch (f : NoticeUnit → NoticeUnit) (c : Chip) : (c.modNotice f).fetch = c.fetch := rfl
@[simp] theorem Chip.modNotice_claims (f : NoticeUnit → NoticeUnit) (c : Chip) : (c.modNotice f).claims = c.claims := rfl
@[simp] theorem Chip.modNotice_trig (f : NoticeUnit → NoticeUnit) (c : Chip) : (c.modNotice f).trig = c.trig := rfl
@[simp] theorem Chip.modNotice_lamp (f : NoticeUnit → NoticeUnit) (c : Chip) : (c.modNotice f).lamp = c.lamp := rfl
@[simp] theorem Chip.modNotice_voices (f : NoticeUnit → NoticeUnit) (c : Chip) : (c.modNotice f).voices = c.voices := rfl
@[simp] theorem Chip.modNotice_links (f : NoticeUnit → NoticeUnit) (c : Chip) : (c.modNotice f).links = c.links := rfl
@[simp] theorem Chip.modNotice_drives (f : NoticeUnit → NoticeUnit) (c : Chip) : (c.modNotice f).drives = c.drives := rfl
@[simp] theorem Chip.modNotice_bays (f : NoticeUnit → NoticeUnit) (c : Chip) : (c.modNotice f).bays = c.bays := rfl
@[simp] theorem Chip.modNotice_guardIn (f : NoticeUnit → NoticeUnit) (c : Chip) : (c.modNotice f).guardIn = c.guardIn := rfl
@[simp] theorem Chip.modNotice_hold (f : NoticeUnit → NoticeUnit) (c : Chip) : (c.modNotice f).hold = c.hold := rfl
@[simp] theorem Chip.modNotice_signals (f : NoticeUnit → NoticeUnit) (c : Chip) : (c.modNotice f).signals = c.signals := rfl

/-! `modSlot` -/
@[simp] theorem Chip.modSlot_port (i : SlotId) (f : Slot → Slot) (c : Chip) : (c.modSlot i f).port = c.port := rfl
@[simp] theorem Chip.modSlot_loader (i : SlotId) (f : Slot → Slot) (c : Chip) : (c.modSlot i f).loader = c.loader := rfl
@[simp] theorem Chip.modSlot_req (i : SlotId) (f : Slot → Slot) (c : Chip) : (c.modSlot i f).req = c.req := rfl
@[simp] theorem Chip.modSlot_notice (i : SlotId) (f : Slot → Slot) (c : Chip) : (c.modSlot i f).notice = c.notice := rfl
@[simp] theorem Chip.modSlot_slots (i : SlotId) (f : Slot → Slot) (c : Chip) : (c.modSlot i f).slots = updAt c.slots i f := rfl
@[simp] theorem Chip.modSlot_fetch (i : SlotId) (f : Slot → Slot) (c : Chip) : (c.modSlot i f).fetch = c.fetch := rfl
@[simp] theorem Chip.modSlot_claims (i : SlotId) (f : Slot → Slot) (c : Chip) : (c.modSlot i f).claims = c.claims := rfl
@[simp] theorem Chip.modSlot_trig (i : SlotId) (f : Slot → Slot) (c : Chip) : (c.modSlot i f).trig = c.trig := rfl
@[simp] theorem Chip.modSlot_lamp (i : SlotId) (f : Slot → Slot) (c : Chip) : (c.modSlot i f).lamp = c.lamp := rfl
@[simp] theorem Chip.modSlot_voices (i : SlotId) (f : Slot → Slot) (c : Chip) : (c.modSlot i f).voices = c.voices := rfl
@[simp] theorem Chip.modSlot_links (i : SlotId) (f : Slot → Slot) (c : Chip) : (c.modSlot i f).links = c.links := rfl
@[simp] theorem Chip.modSlot_drives (i : SlotId) (f : Slot → Slot) (c : Chip) : (c.modSlot i f).drives = c.drives := rfl
@[simp] theorem Chip.modSlot_bays (i : SlotId) (f : Slot → Slot) (c : Chip) : (c.modSlot i f).bays = c.bays := rfl
@[simp] theorem Chip.modSlot_guardIn (i : SlotId) (f : Slot → Slot) (c : Chip) : (c.modSlot i f).guardIn = c.guardIn := rfl
@[simp] theorem Chip.modSlot_hold (i : SlotId) (f : Slot → Slot) (c : Chip) : (c.modSlot i f).hold = c.hold := rfl
@[simp] theorem Chip.modSlot_signals (i : SlotId) (f : Slot → Slot) (c : Chip) : (c.modSlot i f).signals = c.signals := rfl

/-! `modFetch` -/
@[simp] theorem Chip.modFetch_port (i : SlotId) (f : SlotFetch → SlotFetch) (c : Chip) : (c.modFetch i f).port = c.port := rfl
@[simp] theorem Chip.modFetch_loader (i : SlotId) (f : SlotFetch → SlotFetch) (c : Chip) : (c.modFetch i f).loader = c.loader := rfl
@[simp] theorem Chip.modFetch_req (i : SlotId) (f : SlotFetch → SlotFetch) (c : Chip) : (c.modFetch i f).req = c.req := rfl
@[simp] theorem Chip.modFetch_notice (i : SlotId) (f : SlotFetch → SlotFetch) (c : Chip) : (c.modFetch i f).notice = c.notice := rfl
@[simp] theorem Chip.modFetch_slots (i : SlotId) (f : SlotFetch → SlotFetch) (c : Chip) : (c.modFetch i f).slots = c.slots := rfl
@[simp] theorem Chip.modFetch_fetch (i : SlotId) (f : SlotFetch → SlotFetch) (c : Chip) : (c.modFetch i f).fetch = updAt c.fetch i f := rfl
@[simp] theorem Chip.modFetch_claims (i : SlotId) (f : SlotFetch → SlotFetch) (c : Chip) : (c.modFetch i f).claims = c.claims := rfl
@[simp] theorem Chip.modFetch_trig (i : SlotId) (f : SlotFetch → SlotFetch) (c : Chip) : (c.modFetch i f).trig = c.trig := rfl
@[simp] theorem Chip.modFetch_lamp (i : SlotId) (f : SlotFetch → SlotFetch) (c : Chip) : (c.modFetch i f).lamp = c.lamp := rfl
@[simp] theorem Chip.modFetch_voices (i : SlotId) (f : SlotFetch → SlotFetch) (c : Chip) : (c.modFetch i f).voices = c.voices := rfl
@[simp] theorem Chip.modFetch_links (i : SlotId) (f : SlotFetch → SlotFetch) (c : Chip) : (c.modFetch i f).links = c.links := rfl
@[simp] theorem Chip.modFetch_drives (i : SlotId) (f : SlotFetch → SlotFetch) (c : Chip) : (c.modFetch i f).drives = c.drives := rfl
@[simp] theorem Chip.modFetch_bays (i : SlotId) (f : SlotFetch → SlotFetch) (c : Chip) : (c.modFetch i f).bays = c.bays := rfl
@[simp] theorem Chip.modFetch_guardIn (i : SlotId) (f : SlotFetch → SlotFetch) (c : Chip) : (c.modFetch i f).guardIn = c.guardIn := rfl
@[simp] theorem Chip.modFetch_hold (i : SlotId) (f : SlotFetch → SlotFetch) (c : Chip) : (c.modFetch i f).hold = c.hold := rfl
@[simp] theorem Chip.modFetch_signals (i : SlotId) (f : SlotFetch → SlotFetch) (c : Chip) : (c.modFetch i f).signals = c.signals := rfl

/-! `modClaims` -/
@[simp] theorem Chip.modClaims_port (f : ClaimTable → ClaimTable) (c : Chip) : (c.modClaims f).port = c.port := rfl
@[simp] theorem Chip.modClaims_loader (f : ClaimTable → ClaimTable) (c : Chip) : (c.modClaims f).loader = c.loader := rfl
@[simp] theorem Chip.modClaims_req (f : ClaimTable → ClaimTable) (c : Chip) : (c.modClaims f).req = c.req := rfl
@[simp] theorem Chip.modClaims_notice (f : ClaimTable → ClaimTable) (c : Chip) : (c.modClaims f).notice = c.notice := rfl
@[simp] theorem Chip.modClaims_slots (f : ClaimTable → ClaimTable) (c : Chip) : (c.modClaims f).slots = c.slots := rfl
@[simp] theorem Chip.modClaims_fetch (f : ClaimTable → ClaimTable) (c : Chip) : (c.modClaims f).fetch = c.fetch := rfl
@[simp] theorem Chip.modClaims_claims (f : ClaimTable → ClaimTable) (c : Chip) : (c.modClaims f).claims = f c.claims := rfl
@[simp] theorem Chip.modClaims_trig (f : ClaimTable → ClaimTable) (c : Chip) : (c.modClaims f).trig = c.trig := rfl
@[simp] theorem Chip.modClaims_lamp (f : ClaimTable → ClaimTable) (c : Chip) : (c.modClaims f).lamp = c.lamp := rfl
@[simp] theorem Chip.modClaims_voices (f : ClaimTable → ClaimTable) (c : Chip) : (c.modClaims f).voices = c.voices := rfl
@[simp] theorem Chip.modClaims_links (f : ClaimTable → ClaimTable) (c : Chip) : (c.modClaims f).links = c.links := rfl
@[simp] theorem Chip.modClaims_drives (f : ClaimTable → ClaimTable) (c : Chip) : (c.modClaims f).drives = c.drives := rfl
@[simp] theorem Chip.modClaims_bays (f : ClaimTable → ClaimTable) (c : Chip) : (c.modClaims f).bays = c.bays := rfl
@[simp] theorem Chip.modClaims_guardIn (f : ClaimTable → ClaimTable) (c : Chip) : (c.modClaims f).guardIn = c.guardIn := rfl
@[simp] theorem Chip.modClaims_hold (f : ClaimTable → ClaimTable) (c : Chip) : (c.modClaims f).hold = c.hold := rfl
@[simp] theorem Chip.modClaims_signals (f : ClaimTable → ClaimTable) (c : Chip) : (c.modClaims f).signals = c.signals := rfl

/-! `modTrig` -/
@[simp] theorem Chip.modTrig_port (f : TriggerUnit → TriggerUnit) (c : Chip) : (c.modTrig f).port = c.port := rfl
@[simp] theorem Chip.modTrig_loader (f : TriggerUnit → TriggerUnit) (c : Chip) : (c.modTrig f).loader = c.loader := rfl
@[simp] theorem Chip.modTrig_req (f : TriggerUnit → TriggerUnit) (c : Chip) : (c.modTrig f).req = c.req := rfl
@[simp] theorem Chip.modTrig_notice (f : TriggerUnit → TriggerUnit) (c : Chip) : (c.modTrig f).notice = c.notice := rfl
@[simp] theorem Chip.modTrig_slots (f : TriggerUnit → TriggerUnit) (c : Chip) : (c.modTrig f).slots = c.slots := rfl
@[simp] theorem Chip.modTrig_fetch (f : TriggerUnit → TriggerUnit) (c : Chip) : (c.modTrig f).fetch = c.fetch := rfl
@[simp] theorem Chip.modTrig_claims (f : TriggerUnit → TriggerUnit) (c : Chip) : (c.modTrig f).claims = c.claims := rfl
@[simp] theorem Chip.modTrig_trig (f : TriggerUnit → TriggerUnit) (c : Chip) : (c.modTrig f).trig = f c.trig := rfl
@[simp] theorem Chip.modTrig_lamp (f : TriggerUnit → TriggerUnit) (c : Chip) : (c.modTrig f).lamp = c.lamp := rfl
@[simp] theorem Chip.modTrig_voices (f : TriggerUnit → TriggerUnit) (c : Chip) : (c.modTrig f).voices = c.voices := rfl
@[simp] theorem Chip.modTrig_links (f : TriggerUnit → TriggerUnit) (c : Chip) : (c.modTrig f).links = c.links := rfl
@[simp] theorem Chip.modTrig_drives (f : TriggerUnit → TriggerUnit) (c : Chip) : (c.modTrig f).drives = c.drives := rfl
@[simp] theorem Chip.modTrig_bays (f : TriggerUnit → TriggerUnit) (c : Chip) : (c.modTrig f).bays = c.bays := rfl
@[simp] theorem Chip.modTrig_guardIn (f : TriggerUnit → TriggerUnit) (c : Chip) : (c.modTrig f).guardIn = c.guardIn := rfl
@[simp] theorem Chip.modTrig_hold (f : TriggerUnit → TriggerUnit) (c : Chip) : (c.modTrig f).hold = c.hold := rfl
@[simp] theorem Chip.modTrig_signals (f : TriggerUnit → TriggerUnit) (c : Chip) : (c.modTrig f).signals = c.signals := rfl

/-! `modInput` -/
@[simp] theorem Chip.modInput_port (i : InputId) (f : Input → Input) (c : Chip) : (c.modInput i f).port = c.port := rfl
@[simp] theorem Chip.modInput_loader (i : InputId) (f : Input → Input) (c : Chip) : (c.modInput i f).loader = c.loader := rfl
@[simp] theorem Chip.modInput_req (i : InputId) (f : Input → Input) (c : Chip) : (c.modInput i f).req = c.req := rfl
@[simp] theorem Chip.modInput_notice (i : InputId) (f : Input → Input) (c : Chip) : (c.modInput i f).notice = c.notice := rfl
@[simp] theorem Chip.modInput_slots (i : InputId) (f : Input → Input) (c : Chip) : (c.modInput i f).slots = c.slots := rfl
@[simp] theorem Chip.modInput_fetch (i : InputId) (f : Input → Input) (c : Chip) : (c.modInput i f).fetch = c.fetch := rfl
@[simp] theorem Chip.modInput_claims (i : InputId) (f : Input → Input) (c : Chip) : (c.modInput i f).claims = c.claims := rfl
@[simp] theorem Chip.modInput_trig (i : InputId) (f : Input → Input) (c : Chip) : (c.modInput i f).trig = { c.trig with inputs := updAt c.trig.inputs i f } := rfl
@[simp] theorem Chip.modInput_lamp (i : InputId) (f : Input → Input) (c : Chip) : (c.modInput i f).lamp = c.lamp := rfl
@[simp] theorem Chip.modInput_voices (i : InputId) (f : Input → Input) (c : Chip) : (c.modInput i f).voices = c.voices := rfl
@[simp] theorem Chip.modInput_links (i : InputId) (f : Input → Input) (c : Chip) : (c.modInput i f).links = c.links := rfl
@[simp] theorem Chip.modInput_drives (i : InputId) (f : Input → Input) (c : Chip) : (c.modInput i f).drives = c.drives := rfl
@[simp] theorem Chip.modInput_bays (i : InputId) (f : Input → Input) (c : Chip) : (c.modInput i f).bays = c.bays := rfl
@[simp] theorem Chip.modInput_guardIn (i : InputId) (f : Input → Input) (c : Chip) : (c.modInput i f).guardIn = c.guardIn := rfl
@[simp] theorem Chip.modInput_hold (i : InputId) (f : Input → Input) (c : Chip) : (c.modInput i f).hold = c.hold := rfl
@[simp] theorem Chip.modInput_signals (i : InputId) (f : Input → Input) (c : Chip) : (c.modInput i f).signals = c.signals := rfl

/-! `modLampUnit` -/
@[simp] theorem Chip.modLampUnit_port (f : LampUnit → LampUnit) (c : Chip) : (c.modLampUnit f).port = c.port := rfl
@[simp] theorem Chip.modLampUnit_loader (f : LampUnit → LampUnit) (c : Chip) : (c.modLampUnit f).loader = c.loader := rfl
@[simp] theorem Chip.modLampUnit_req (f : LampUnit → LampUnit) (c : Chip) : (c.modLampUnit f).req = c.req := rfl
@[simp] theorem Chip.modLampUnit_notice (f : LampUnit → LampUnit) (c : Chip) : (c.modLampUnit f).notice = c.notice := rfl
@[simp] theorem Chip.modLampUnit_slots (f : LampUnit → LampUnit) (c : Chip) : (c.modLampUnit f).slots = c.slots := rfl
@[simp] theorem Chip.modLampUnit_fetch (f : LampUnit → LampUnit) (c : Chip) : (c.modLampUnit f).fetch = c.fetch := rfl
@[simp] theorem Chip.modLampUnit_claims (f : LampUnit → LampUnit) (c : Chip) : (c.modLampUnit f).claims = c.claims := rfl
@[simp] theorem Chip.modLampUnit_trig (f : LampUnit → LampUnit) (c : Chip) : (c.modLampUnit f).trig = c.trig := rfl
@[simp] theorem Chip.modLampUnit_lamp (f : LampUnit → LampUnit) (c : Chip) : (c.modLampUnit f).lamp = f c.lamp := rfl
@[simp] theorem Chip.modLampUnit_voices (f : LampUnit → LampUnit) (c : Chip) : (c.modLampUnit f).voices = c.voices := rfl
@[simp] theorem Chip.modLampUnit_links (f : LampUnit → LampUnit) (c : Chip) : (c.modLampUnit f).links = c.links := rfl
@[simp] theorem Chip.modLampUnit_drives (f : LampUnit → LampUnit) (c : Chip) : (c.modLampUnit f).drives = c.drives := rfl
@[simp] theorem Chip.modLampUnit_bays (f : LampUnit → LampUnit) (c : Chip) : (c.modLampUnit f).bays = c.bays := rfl
@[simp] theorem Chip.modLampUnit_guardIn (f : LampUnit → LampUnit) (c : Chip) : (c.modLampUnit f).guardIn = c.guardIn := rfl
@[simp] theorem Chip.modLampUnit_hold (f : LampUnit → LampUnit) (c : Chip) : (c.modLampUnit f).hold = c.hold := rfl
@[simp] theorem Chip.modLampUnit_signals (f : LampUnit → LampUnit) (c : Chip) : (c.modLampUnit f).signals = c.signals := rfl

/-! `modLamp` -/
@[simp] theorem Chip.modLamp_port (i : LampId) (f : Lamp → Lamp) (c : Chip) : (c.modLamp i f).port = c.port := rfl
@[simp] theorem Chip.modLamp_loader (i : LampId) (f : Lamp → Lamp) (c : Chip) : (c.modLamp i f).loader = c.loader := rfl
@[simp] theorem Chip.modLamp_req (i : LampId) (f : Lamp → Lamp) (c : Chip) : (c.modLamp i f).req = c.req := rfl
@[simp] theorem Chip.modLamp_notice (i : LampId) (f : Lamp → Lamp) (c : Chip) : (c.modLamp i f).notice = c.notice := rfl
@[simp] theorem Chip.modLamp_slots (i : LampId) (f : Lamp → Lamp) (c : Chip) : (c.modLamp i f).slots = c.slots := rfl
@[simp] theorem Chip.modLamp_fetch (i : LampId) (f : Lamp → Lamp) (c : Chip) : (c.modLamp i f).fetch = c.fetch := rfl
@[simp] theorem Chip.modLamp_claims (i : LampId) (f : Lamp → Lamp) (c : Chip) : (c.modLamp i f).claims = c.claims := rfl
@[simp] theorem Chip.modLamp_trig (i : LampId) (f : Lamp → Lamp) (c : Chip) : (c.modLamp i f).trig = c.trig := rfl
@[simp] theorem Chip.modLamp_lamp (i : LampId) (f : Lamp → Lamp) (c : Chip) : (c.modLamp i f).lamp = { c.lamp with lamps := updAt c.lamp.lamps i f } := rfl
@[simp] theorem Chip.modLamp_voices (i : LampId) (f : Lamp → Lamp) (c : Chip) : (c.modLamp i f).voices = c.voices := rfl
@[simp] theorem Chip.modLamp_links (i : LampId) (f : Lamp → Lamp) (c : Chip) : (c.modLamp i f).links = c.links := rfl
@[simp] theorem Chip.modLamp_drives (i : LampId) (f : Lamp → Lamp) (c : Chip) : (c.modLamp i f).drives = c.drives := rfl
@[simp] theorem Chip.modLamp_bays (i : LampId) (f : Lamp → Lamp) (c : Chip) : (c.modLamp i f).bays = c.bays := rfl
@[simp] theorem Chip.modLamp_guardIn (i : LampId) (f : Lamp → Lamp) (c : Chip) : (c.modLamp i f).guardIn = c.guardIn := rfl
@[simp] theorem Chip.modLamp_hold (i : LampId) (f : Lamp → Lamp) (c : Chip) : (c.modLamp i f).hold = c.hold := rfl
@[simp] theorem Chip.modLamp_signals (i : LampId) (f : Lamp → Lamp) (c : Chip) : (c.modLamp i f).signals = c.signals := rfl

/-! `modVoice` -/
@[simp] theorem Chip.modVoice_port (i : VoiceId) (f : Channel → Channel) (c : Chip) : (c.modVoice i f).port = c.port := rfl
@[simp] theorem Chip.modVoice_loader (i : VoiceId) (f : Channel → Channel) (c : Chip) : (c.modVoice i f).loader = c.loader := rfl
@[simp] theorem Chip.modVoice_req (i : VoiceId) (f : Channel → Channel) (c : Chip) : (c.modVoice i f).req = c.req := rfl
@[simp] theorem Chip.modVoice_notice (i : VoiceId) (f : Channel → Channel) (c : Chip) : (c.modVoice i f).notice = c.notice := rfl
@[simp] theorem Chip.modVoice_slots (i : VoiceId) (f : Channel → Channel) (c : Chip) : (c.modVoice i f).slots = c.slots := rfl
@[simp] theorem Chip.modVoice_fetch (i : VoiceId) (f : Channel → Channel) (c : Chip) : (c.modVoice i f).fetch = c.fetch := rfl
@[simp] theorem Chip.modVoice_claims (i : VoiceId) (f : Channel → Channel) (c : Chip) : (c.modVoice i f).claims = c.claims := rfl
@[simp] theorem Chip.modVoice_trig (i : VoiceId) (f : Channel → Channel) (c : Chip) : (c.modVoice i f).trig = c.trig := rfl
@[simp] theorem Chip.modVoice_lamp (i : VoiceId) (f : Channel → Channel) (c : Chip) : (c.modVoice i f).lamp = c.lamp := rfl
@[simp] theorem Chip.modVoice_voices (i : VoiceId) (f : Channel → Channel) (c : Chip) : (c.modVoice i f).voices = updAt c.voices i f := rfl
@[simp] theorem Chip.modVoice_links (i : VoiceId) (f : Channel → Channel) (c : Chip) : (c.modVoice i f).links = c.links := rfl
@[simp] theorem Chip.modVoice_drives (i : VoiceId) (f : Channel → Channel) (c : Chip) : (c.modVoice i f).drives = c.drives := rfl
@[simp] theorem Chip.modVoice_bays (i : VoiceId) (f : Channel → Channel) (c : Chip) : (c.modVoice i f).bays = c.bays := rfl
@[simp] theorem Chip.modVoice_guardIn (i : VoiceId) (f : Channel → Channel) (c : Chip) : (c.modVoice i f).guardIn = c.guardIn := rfl
@[simp] theorem Chip.modVoice_hold (i : VoiceId) (f : Channel → Channel) (c : Chip) : (c.modVoice i f).hold = c.hold := rfl
@[simp] theorem Chip.modVoice_signals (i : VoiceId) (f : Channel → Channel) (c : Chip) : (c.modVoice i f).signals = c.signals := rfl

/-! `modLink` -/
@[simp] theorem Chip.modLink_port (i : LinkId) (f : Link → Link) (c : Chip) : (c.modLink i f).port = c.port := rfl
@[simp] theorem Chip.modLink_loader (i : LinkId) (f : Link → Link) (c : Chip) : (c.modLink i f).loader = c.loader := rfl
@[simp] theorem Chip.modLink_req (i : LinkId) (f : Link → Link) (c : Chip) : (c.modLink i f).req = c.req := rfl
@[simp] theorem Chip.modLink_notice (i : LinkId) (f : Link → Link) (c : Chip) : (c.modLink i f).notice = c.notice := rfl
@[simp] theorem Chip.modLink_slots (i : LinkId) (f : Link → Link) (c : Chip) : (c.modLink i f).slots = c.slots := rfl
@[simp] theorem Chip.modLink_fetch (i : LinkId) (f : Link → Link) (c : Chip) : (c.modLink i f).fetch = c.fetch := rfl
@[simp] theorem Chip.modLink_claims (i : LinkId) (f : Link → Link) (c : Chip) : (c.modLink i f).claims = c.claims := rfl
@[simp] theorem Chip.modLink_trig (i : LinkId) (f : Link → Link) (c : Chip) : (c.modLink i f).trig = c.trig := rfl
@[simp] theorem Chip.modLink_lamp (i : LinkId) (f : Link → Link) (c : Chip) : (c.modLink i f).lamp = c.lamp := rfl
@[simp] theorem Chip.modLink_voices (i : LinkId) (f : Link → Link) (c : Chip) : (c.modLink i f).voices = c.voices := rfl
@[simp] theorem Chip.modLink_links (i : LinkId) (f : Link → Link) (c : Chip) : (c.modLink i f).links = updAt c.links i f := rfl
@[simp] theorem Chip.modLink_drives (i : LinkId) (f : Link → Link) (c : Chip) : (c.modLink i f).drives = c.drives := rfl
@[simp] theorem Chip.modLink_bays (i : LinkId) (f : Link → Link) (c : Chip) : (c.modLink i f).bays = c.bays := rfl
@[simp] theorem Chip.modLink_guardIn (i : LinkId) (f : Link → Link) (c : Chip) : (c.modLink i f).guardIn = c.guardIn := rfl
@[simp] theorem Chip.modLink_hold (i : LinkId) (f : Link → Link) (c : Chip) : (c.modLink i f).hold = c.hold := rfl
@[simp] theorem Chip.modLink_signals (i : LinkId) (f : Link → Link) (c : Chip) : (c.modLink i f).signals = c.signals := rfl

/-! `modDrive` -/
@[simp] theorem Chip.modDrive_port (i : DriveId) (f : Drive → Drive) (c : Chip) : (c.modDrive i f).port = c.port := rfl
@[simp] theorem Chip.modDrive_loader (i : DriveId) (f : Drive → Drive) (c : Chip) : (c.modDrive i f).loader = c.loader := rfl
@[simp] theorem Chip.modDrive_req (i : DriveId) (f : Drive → Drive) (c : Chip) : (c.modDrive i f).req = c.req := rfl
@[simp] theorem Chip.modDrive_notice (i : DriveId) (f : Drive → Drive) (c : Chip) : (c.modDrive i f).notice = c.notice := rfl
@[simp] theorem Chip.modDrive_slots (i : DriveId) (f : Drive → Drive) (c : Chip) : (c.modDrive i f).slots = c.slots := rfl
@[simp] theorem Chip.modDrive_fetch (i : DriveId) (f : Drive → Drive) (c : Chip) : (c.modDrive i f).fetch = c.fetch := rfl
@[simp] theorem Chip.modDrive_claims (i : DriveId) (f : Drive → Drive) (c : Chip) : (c.modDrive i f).claims = c.claims := rfl
@[simp] theorem Chip.modDrive_trig (i : DriveId) (f : Drive → Drive) (c : Chip) : (c.modDrive i f).trig = c.trig := rfl
@[simp] theorem Chip.modDrive_lamp (i : DriveId) (f : Drive → Drive) (c : Chip) : (c.modDrive i f).lamp = c.lamp := rfl
@[simp] theorem Chip.modDrive_voices (i : DriveId) (f : Drive → Drive) (c : Chip) : (c.modDrive i f).voices = c.voices := rfl
@[simp] theorem Chip.modDrive_links (i : DriveId) (f : Drive → Drive) (c : Chip) : (c.modDrive i f).links = c.links := rfl
@[simp] theorem Chip.modDrive_drives (i : DriveId) (f : Drive → Drive) (c : Chip) : (c.modDrive i f).drives = updAt c.drives i f := rfl
@[simp] theorem Chip.modDrive_bays (i : DriveId) (f : Drive → Drive) (c : Chip) : (c.modDrive i f).bays = c.bays := rfl
@[simp] theorem Chip.modDrive_guardIn (i : DriveId) (f : Drive → Drive) (c : Chip) : (c.modDrive i f).guardIn = c.guardIn := rfl
@[simp] theorem Chip.modDrive_hold (i : DriveId) (f : Drive → Drive) (c : Chip) : (c.modDrive i f).hold = c.hold := rfl
@[simp] theorem Chip.modDrive_signals (i : DriveId) (f : Drive → Drive) (c : Chip) : (c.modDrive i f).signals = c.signals := rfl

/-! `modBay` -/
@[simp] theorem Chip.modBay_port (i : BayId) (f : Bay → Bay) (c : Chip) : (c.modBay i f).port = c.port := rfl
@[simp] theorem Chip.modBay_loader (i : BayId) (f : Bay → Bay) (c : Chip) : (c.modBay i f).loader = c.loader := rfl
@[simp] theorem Chip.modBay_req (i : BayId) (f : Bay → Bay) (c : Chip) : (c.modBay i f).req = c.req := rfl
@[simp] theorem Chip.modBay_notice (i : BayId) (f : Bay → Bay) (c : Chip) : (c.modBay i f).notice = c.notice := rfl
@[simp] theorem Chip.modBay_slots (i : BayId) (f : Bay → Bay) (c : Chip) : (c.modBay i f).slots = c.slots := rfl
@[simp] theorem Chip.modBay_fetch (i : BayId) (f : Bay → Bay) (c : Chip) : (c.modBay i f).fetch = c.fetch := rfl
@[simp] theorem Chip.modBay_claims (i : BayId) (f : Bay → Bay) (c : Chip) : (c.modBay i f).claims = c.claims := rfl
@[simp] theorem Chip.modBay_trig (i : BayId) (f : Bay → Bay) (c : Chip) : (c.modBay i f).trig = c.trig := rfl
@[simp] theorem Chip.modBay_lamp (i : BayId) (f : Bay → Bay) (c : Chip) : (c.modBay i f).lamp = c.lamp := rfl
@[simp] theorem Chip.modBay_voices (i : BayId) (f : Bay → Bay) (c : Chip) : (c.modBay i f).voices = c.voices := rfl
@[simp] theorem Chip.modBay_links (i : BayId) (f : Bay → Bay) (c : Chip) : (c.modBay i f).links = c.links := rfl
@[simp] theorem Chip.modBay_drives (i : BayId) (f : Bay → Bay) (c : Chip) : (c.modBay i f).drives = c.drives := rfl
@[simp] theorem Chip.modBay_bays (i : BayId) (f : Bay → Bay) (c : Chip) : (c.modBay i f).bays = updAt c.bays i f := rfl
@[simp] theorem Chip.modBay_guardIn (i : BayId) (f : Bay → Bay) (c : Chip) : (c.modBay i f).guardIn = c.guardIn := rfl
@[simp] theorem Chip.modBay_hold (i : BayId) (f : Bay → Bay) (c : Chip) : (c.modBay i f).hold = c.hold := rfl
@[simp] theorem Chip.modBay_signals (i : BayId) (f : Bay → Bay) (c : Chip) : (c.modBay i f).signals = c.signals := rfl

/-! `modHold` -/
@[simp] theorem Chip.modHold_port (f : Hold → Hold) (c : Chip) : (c.modHold f).port = c.port := rfl
@[simp] theorem Chip.modHold_loader (f : Hold → Hold) (c : Chip) : (c.modHold f).loader = c.loader := rfl
@[simp] theorem Chip.modHold_req (f : Hold → Hold) (c : Chip) : (c.modHold f).req = c.req := rfl
@[simp] theorem Chip.modHold_notice (f : Hold → Hold) (c : Chip) : (c.modHold f).notice = c.notice := rfl
@[simp] theorem Chip.modHold_slots (f : Hold → Hold) (c : Chip) : (c.modHold f).slots = c.slots := rfl
@[simp] theorem Chip.modHold_fetch (f : Hold → Hold) (c : Chip) : (c.modHold f).fetch = c.fetch := rfl
@[simp] theorem Chip.modHold_claims (f : Hold → Hold) (c : Chip) : (c.modHold f).claims = c.claims := rfl
@[simp] theorem Chip.modHold_trig (f : Hold → Hold) (c : Chip) : (c.modHold f).trig = c.trig := rfl
@[simp] theorem Chip.modHold_lamp (f : Hold → Hold) (c : Chip) : (c.modHold f).lamp = c.lamp := rfl
@[simp] theorem Chip.modHold_voices (f : Hold → Hold) (c : Chip) : (c.modHold f).voices = c.voices := rfl
@[simp] theorem Chip.modHold_links (f : Hold → Hold) (c : Chip) : (c.modHold f).links = c.links := rfl
@[simp] theorem Chip.modHold_drives (f : Hold → Hold) (c : Chip) : (c.modHold f).drives = c.drives := rfl
@[simp] theorem Chip.modHold_bays (f : Hold → Hold) (c : Chip) : (c.modHold f).bays = c.bays := rfl
@[simp] theorem Chip.modHold_guardIn (f : Hold → Hold) (c : Chip) : (c.modHold f).guardIn = c.guardIn := rfl
@[simp] theorem Chip.modHold_hold (f : Hold → Hold) (c : Chip) : (c.modHold f).hold = f c.hold := rfl
@[simp] theorem Chip.modHold_signals (f : Hold → Hold) (c : Chip) : (c.modHold f).signals = c.signals := rfl

/-! `signal` -/
@[simp] theorem Chip.signal_port (x : Signal) (c : Chip) : (c.signal x).port = c.port := rfl
@[simp] theorem Chip.signal_loader (x : Signal) (c : Chip) : (c.signal x).loader = c.loader := rfl
@[simp] theorem Chip.signal_req (x : Signal) (c : Chip) : (c.signal x).req = c.req := rfl
@[simp] theorem Chip.signal_notice (x : Signal) (c : Chip) : (c.signal x).notice = c.notice := rfl
@[simp] theorem Chip.signal_slots (x : Signal) (c : Chip) : (c.signal x).slots = c.slots := rfl
@[simp] theorem Chip.signal_fetch (x : Signal) (c : Chip) : (c.signal x).fetch = c.fetch := rfl
@[simp] theorem Chip.signal_claims (x : Signal) (c : Chip) : (c.signal x).claims = c.claims := rfl
@[simp] theorem Chip.signal_trig (x : Signal) (c : Chip) : (c.signal x).trig = c.trig := rfl
@[simp] theorem Chip.signal_lamp (x : Signal) (c : Chip) : (c.signal x).lamp = c.lamp := rfl
@[simp] theorem Chip.signal_voices (x : Signal) (c : Chip) : (c.signal x).voices = c.voices := rfl
@[simp] theorem Chip.signal_links (x : Signal) (c : Chip) : (c.signal x).links = c.links := rfl
@[simp] theorem Chip.signal_drives (x : Signal) (c : Chip) : (c.signal x).drives = c.drives := rfl
@[simp] theorem Chip.signal_bays (x : Signal) (c : Chip) : (c.signal x).bays = c.bays := rfl
@[simp] theorem Chip.signal_guardIn (x : Signal) (c : Chip) : (c.signal x).guardIn = c.guardIn := rfl
@[simp] theorem Chip.signal_hold (x : Signal) (c : Chip) : (c.signal x).hold = c.hold := rfl
@[simp] theorem Chip.signal_signals (x : Signal) (c : Chip) : (c.signal x).signals = c.signals ++ [x] := rfl

/-! `signalAll` -/
@[simp] theorem Chip.signalAll_port (x : List Signal) (c : Chip) : (c.signalAll x).port = c.port := rfl
@[simp] theorem Chip.signalAll_loader (x : List Signal) (c : Chip) : (c.signalAll x).loader = c.loader := rfl
@[simp] theorem Chip.signalAll_req (x : List Signal) (c : Chip) : (c.signalAll x).req = c.req := rfl
@[simp] theorem Chip.signalAll_notice (x : List Signal) (c : Chip) : (c.signalAll x).notice = c.notice := rfl
@[simp] theorem Chip.signalAll_slots (x : List Signal) (c : Chip) : (c.signalAll x).slots = c.slots := rfl
@[simp] theorem Chip.signalAll_fetch (x : List Signal) (c : Chip) : (c.signalAll x).fetch = c.fetch := rfl
@[simp] theorem Chip.signalAll_claims (x : List Signal) (c : Chip) : (c.signalAll x).claims = c.claims := rfl
@[simp] theorem Chip.signalAll_trig (x : List Signal) (c : Chip) : (c.signalAll x).trig = c.trig := rfl
@[simp] theorem Chip.signalAll_lamp (x : List Signal) (c : Chip) : (c.signalAll x).lamp = c.lamp := rfl
@[simp] theorem Chip.signalAll_voices (x : List Signal) (c : Chip) : (c.signalAll x).voices = c.voices := rfl
@[simp] theorem Chip.signalAll_links (x : List Signal) (c : Chip) : (c.signalAll x).links = c.links := rfl
@[simp] theorem Chip.signalAll_drives (x : List Signal) (c : Chip) : (c.signalAll x).drives = c.drives := rfl
@[simp] theorem Chip.signalAll_bays (x : List Signal) (c : Chip) : (c.signalAll x).bays = c.bays := rfl
@[simp] theorem Chip.signalAll_guardIn (x : List Signal) (c : Chip) : (c.signalAll x).guardIn = c.guardIn := rfl
@[simp] theorem Chip.signalAll_hold (x : List Signal) (c : Chip) : (c.signalAll x).hold = c.hold := rfl
@[simp] theorem Chip.signalAll_signals (x : List Signal) (c : Chip) : (c.signalAll x).signals = c.signals ++ x := rfl

/-! The machine. -/
@[simp] theorem State.mapChip_chip (f : Chip → Chip) (s : State) : (s.mapChip f).chip = f s.chip := rfl
@[simp] theorem State.mapChip_mem (f : Chip → Chip) (s : State) : (s.mapChip f).mem = s.mem := rfl
@[simp] theorem State.mapChip_pending (f : Chip → Chip) (s : State) : (s.mapChip f).pending = s.pending := rfl

/-! Tables. -/

/-- The changed entry. -/
@[simp] theorem updAt_self {α : Type} {n : Nat} (v : Vector α n) (i : Fin n) (f : α → α) : (updAt v i f)[i] = f v[i] := by
  simp [updAt]

/-- Every other entry. -/
theorem updAt_other {α : Type} {n : Nat} (v : Vector α n) (i j : Fin n) (f : α → α) (h : i ≠ j) : (updAt v i f)[j] = v[j] := by
  have h' : i.val ≠ j.val := fun e => h (Fin.ext e)
  simp [updAt, h']

/-- An entry of a table changed everywhere. -/
@[simp] theorem mapAll_get {α β : Type} {n : Nat} (f : α → β) (v : Vector α n) (i : Fin n) : (mapAll f v)[i] = f v[i] := by
  simp [mapAll]

/-- An entry of a tabulated table. -/
@[simp] theorem tabulate_get {α : Type} {n : Nat} (f : Fin n → α) (i : Fin n) : (tabulate n f)[i] = f i := by
  simp [tabulate]

/-- The indices a test selects. -/
@[simp] theorem mem_indices {n : Nat} (p : Fin n → Bool) (i : Fin n) : i ∈ indices p ↔ p i = true := by
  simp [indices]

/-- What every step of a fold over all indices keeps, the fold keeps. -/
theorem forAll_keeps {α : Type} (n : Nat) (f : Fin n → α → α) (P : α → Prop) (h : ∀ i a, P a → P (f i a)) (a : α) (ha : P a) :
    P (forAll n f a) := by
  unfold forAll
  induction List.finRange n generalizing a with
  | nil => exact ha
  | cons i is ih => exact ih _ (h i a ha)

/-- The same of a fold over a list. -/
theorem foldl_keeps {α β : Type} (xs : List β) (f : α → β → α) (P : α → Prop) (h : ∀ a b, P a → P (f a b)) (a : α) (ha : P a) :
    P (xs.foldl f a) := by
  induction xs generalizing a with
  | nil => exact ha
  | cons x xs ih => exact ih _ (h a x ha)

end Sys2Proof.Machine
end

