-- ==== Sys2Proof/Laws/Step.lean ====
section
/-!
SUPPORT. What the machine's shared halves of a step can do: the end of a step, an event, a pin, a host write at its turn.
-/

namespace Sys2Proof.Machine

open Sys2Proof.Safety

@[simp] theorem mapChip_pending (f : Chip → Chip) (s : State) : (s.mapChip f).pending = s.pending := rfl
@[simp] theorem mapChip_mem (f : Chip → Chip) (s : State) : (s.mapChip f).mem = s.mem := rfl
@[simp] theorem mapChip_chip (f : Chip → Chip) (s : State) : (s.mapChip f).chip = f s.chip := rfl

theorem inv_mapChip {f : Chip → Chip} {s : State} (hf : ChipOk s.chip → ChipOk (f s.chip)) (h : Sound s) : Sound (s.mapChip f) :=
  ⟨h.1, hf h.2⟩

/-! ## A host write at its turn -/

@[simp] theorem judgeWrite_pending (w : Nat) (data : Word) (be : Enables) (s : State) : (s.judgeWrite w data be).pending = s.pending := by
  unfold State.judgeWrite
  split <;> rfl

/-- A write at its turn changes memory only if it is not fenced, and then as a masked write of its word (R175, R186). -/
theorem judgeWrite_mem (w : Nat) (data : Word) (be : Enables) (s : State) :
    (s.judgeWrite w data be).mem = if s.chip.port.fenced w then s.mem else s.mem.write w data be := by
  unfold State.judgeWrite
  split <;> rfl

theorem inv_judgeWrite (w : Nat) (data : Word) (be : Enables) {s : State} (h : Sound s) : Sound (s.judgeWrite w data be) := by
  unfold State.judgeWrite
  split
  · exact ⟨h.1, ok_acknowledge (ok_fencedWrite w h.2)⟩
  · exact ⟨Memory.wf_write h.1 w data be, ok_acknowledge (ok_capture w data be (ok_cancel w be (ok_granted .host h.2)))⟩

@[simp] theorem serveWrite_pending (s : State) : s.serveWrite.pending = s.pending := by
  unfold State.serveWrite
  split
  · split <;> simp
  · rfl

theorem inv_serveWrite {s : State} (h : Sound s) : Sound s.serveWrite := by
  unfold State.serveWrite
  split
  · split
    · exact inv_judgeWrite _ _ _ h
    · exact h
  · exact h

theorem serveWrite_noWrite {s : State} (h : noWrite s) : s.serveWrite = s := by
  unfold State.serveWrite
  split
  · next hw => exact absurd hw (h _ _ _)
  · rfl

/-! ## The end of a step -/

@[simp] theorem settle_pending (s : State) : s.settle.pending = s.pending := by simp [State.settle]

theorem inv_settle {s : State} (h : Sound s) : Sound s.settle :=
  inv_mapChip ok_settle (inv_serveWrite (inv_mapChip ok_settle h))

theorem clearReports_host (c : Chip) : c.clearReports.port.host = c.port.host := rfl

/-- A RESET SHOW leaves the host cycle as it is (R192). -/
theorem resetDue_host (c : Chip) : c.resetDue.port.host = c.port.host := by
  unfold Chip.resetDue
  split
  · unfold Chip.resetNow
    dsimp only
    generalize hd : (c.modReq fun q => { q with resetWait := false }) = d
    have hp : d.port = c.port := by rw [← hd]; rfl
    rw [clearReports_host, (Quietly.mirrorAll _ (Quietly.clearShow (Quietly.refl d))).host_eq, hp]
  · rfl

/-- The end of a step leaves the host cycle to the write at its turn. -/
theorem settle_host (c : Chip) : c.settle.port.host = c.port.host := by
  unfold Chip.settle
  dsimp only
  rw [(Quietly.refl _).wake.arbitrate.host_eq, resetDue_host, (Quietly.refl c).beforeReset.host_eq]

/-- With no host write waiting the end of a step changes the part alone. -/
theorem settle_noWrite {s : State} (h : noWrite s) : s.settle = { s with chip := s.chip.settle.settle } := by
  have hn : noWrite (s.mapChip Chip.settle) := by
    intro w data be
    rw [mapChip_chip, settle_host]
    exact h w data be
  unfold State.settle
  rw [serveWrite_noWrite hn]
  rfl

/-- So it leaves memory as it is. -/
theorem settle_mem {s : State} (h : noWrite s) : s.settle.mem = s.mem := by rw [settle_noWrite h]

/-- And, with no RESET SHOW waiting, the core of the part. -/
theorem settle_quiet {s : State} (h : noWrite s) (hw : s.chip.req.resetWait = false) : Quietly s.chip s.settle.chip := by
  rw [settle_noWrite h]
  have h₁ := (Quietly.refl s.chip).settle hw
  refine h₁.settle ?_
  rw [h₁.keepsReq]
  exact hw

/-! ## Events -/

@[simp] theorem event_pending (f : Chip → Chip) (s : State) : (s.event f).pending = s.pending := by
  unfold State.event
  split <;> simp

@[simp] theorem pin_pending (f : Chip → Chip) (s : State) : (s.pin f).pending = s.pending := by
  unfold State.pin
  split <;> simp

@[simp] theorem local_pending (f : Chip → Chip) (s : State) : (s.local_ f).pending = s.pending := by
  unfold State.local_
  split <;> simp

/-- While the RESET line is asserted an event has no effect (log 11). -/
theorem event_reset {f : Chip → Chip} {s : State} (h : s.chip.port.resetLine = true) : s.event f = s := if_pos h

theorem event_run {f : Chip → Chip} {s : State} (h : s.chip.port.resetLine = false) : s.event f = (s.mapChip f).settle := by
  simp [State.event, h]

theorem inv_event {f : Chip → Chip} {s : State} (hf : ∀ c, ChipOk c → ChipOk (f c)) (h : Sound s) : Sound (s.event f) := by
  unfold State.event
  split
  · exact h
  · exact inv_settle (inv_mapChip (hf _) h)

theorem inv_pin {f : Chip → Chip} {s : State} (hf : ∀ c, ChipOk c → ChipOk (f c)) (h : Sound s) : Sound (s.pin f) := by
  unfold State.pin
  split
  · exact inv_mapChip (hf _) h
  · exact inv_settle (inv_mapChip (hf _) h)

theorem inv_local {f : Chip → Chip} {s : State} (hf : ∀ c, ChipOk c → ChipOk (f c)) (h : Sound s) : Sound (s.local_ f) := by
  unfold State.local_
  split
  · exact h
  · exact inv_mapChip (hf _) h

@[simp] theorem landPosting_pending (s : State) : s.landPosting.pending = s.pending := by
  unfold State.landPosting State.landFirst
  split
  · split <;> simp
  · rfl

end Sys2Proof.Machine
end

