-- ==== Sys2Proof/Laws/Within.lean ====
section
/-!
SUPPORT. Which parts of the chip an operation changes. `Within ps c₀ c`: `c` agrees with `c₀` in every part outside `ps`. One lemma for each operation of
the blocks, with a membership for each part it may change, so that a frame `Same ps c c₀` is one `simp`.
-/

set_option linter.unusedSimpArgs false
set_option linter.unusedVariables false

namespace Sys2Proof.Machine

open Sys2Proof.Safety

/-- `c` differs from `c₀` in the parts of `ps` alone. -/
def Within (ps : List Part) (c₀ c : Chip) : Prop := Same ps c c₀

theorem Within.same {ps : List Part} {c₀ c : Chip} (h : Within ps c₀ c) : Same ps c c₀ := h

@[simp] theorem Within.refl (ps : List Part) (c : Chip) : Within ps c c := by
  intro p _
  cases p <;> simp [sameAt]

theorem sameAt.trans {a b c : Chip} {p : Part} (h : sameAt a b p) (g : sameAt b c p) : sameAt a c p := by
  cases p <;> simp_all [sameAt]

theorem Within.trans {ps : List Part} {a b c : Chip} (h : Within ps a b) (g : Within ps b c) : Within ps a c :=
  fun p hp => sameAt.trans (g p hp) (h p hp)

/-- A change that touches parts of `ps` alone. -/
theorem Within.step {ps : List Part} {c₀ c d : Chip} (hs : Within ps c d) (h : Within ps c₀ c) : Within ps c₀ d := h.trans hs

/-! ## The changes themselves -/

@[simp] theorem Within.modSlot {ps : List Part} {c₀ c : Chip} (i f) (hl : Part.slots ∈ ps) (h : Within ps c₀ c) : Within ps c₀ (c.modSlot i f) := by
  intro p hp
  have := h p hp
  cases p <;> first | exact absurd hl hp | exact this

@[simp] theorem Within.modFetch {ps : List Part} {c₀ c : Chip} (i f) (hl : Part.fetch ∈ ps) (h : Within ps c₀ c) : Within ps c₀ (c.modFetch i f) := by
  intro p hp
  have := h p hp
  cases p <;> first | exact absurd hl hp | exact this

@[simp] theorem Within.modClaims {ps : List Part} {c₀ c : Chip} (f) (hl : Part.claims ∈ ps) (h : Within ps c₀ c) : Within ps c₀ (c.modClaims f) := by
  intro p hp
  have := h p hp
  cases p <;> first | exact absurd hl hp | exact this

@[simp] theorem Within.claims {ps : List Part} {c₀ c : Chip} (x) (hl : Part.claims ∈ ps) (h : Within ps c₀ c) : Within ps c₀ { c with claims := x } := by
  intro p hp
  have := h p hp
  cases p <;> first | exact absurd hl hp | exact this

@[simp] theorem Within.modTrig {ps : List Part} {c₀ c : Chip} (f) (hl : Part.trig ∈ ps) (h : Within ps c₀ c) : Within ps c₀ (c.modTrig f) := by
  intro p hp
  have := h p hp
  cases p <;> first | exact absurd hl hp | exact this

@[simp] theorem Within.modInput {ps : List Part} {c₀ c : Chip} (t f) (hl : Part.trig ∈ ps) (h : Within ps c₀ c) : Within ps c₀ (c.modInput t f) :=
  Within.modTrig _ hl h

@[simp] theorem Within.modLampUnit {ps : List Part} {c₀ c : Chip} (f) (hl : Part.lamp ∈ ps) (h : Within ps c₀ c) :
    Within ps c₀ (c.modLampUnit f) := by
  intro p hp
  have := h p hp
  cases p <;> first | exact absurd hl hp | exact this

@[simp] theorem Within.modLamp {ps : List Part} {c₀ c : Chip} (x f) (hl : Part.lamp ∈ ps) (h : Within ps c₀ c) : Within ps c₀ (c.modLamp x f) :=
  Within.modLampUnit _ hl h

@[simp] theorem Within.modVoice {ps : List Part} {c₀ c : Chip} (v f) (hl : Part.voices ∈ ps) (h : Within ps c₀ c) : Within ps c₀ (c.modVoice v f) := by
  intro p hp
  have := h p hp
  cases p <;> first | exact absurd hl hp | exact this

@[simp] theorem Within.modLink {ps : List Part} {c₀ c : Chip} (k f) (hl : Part.links ∈ ps) (h : Within ps c₀ c) : Within ps c₀ (c.modLink k f) := by
  intro p hp
  have := h p hp
  cases p <;> first | exact absurd hl hp | exact this

@[simp] theorem Within.links {ps : List Part} {c₀ c : Chip} (x) (hl : Part.links ∈ ps) (h : Within ps c₀ c) : Within ps c₀ { c with links := x } := by
  intro p hp
  have := h p hp
  cases p <;> first | exact absurd hl hp | exact this

@[simp] theorem Within.modDrive {ps : List Part} {c₀ c : Chip} (d f) (hl : Part.drives ∈ ps) (h : Within ps c₀ c) : Within ps c₀ (c.modDrive d f) := by
  intro p hp
  have := h p hp
  cases p <;> first | exact absurd hl hp | exact this

@[simp] theorem Within.modBay {ps : List Part} {c₀ c : Chip} (b f) (hl : Part.bays ∈ ps) (h : Within ps c₀ c) : Within ps c₀ (c.modBay b f) := by
  intro p hp
  have := h p hp
  cases p <;> first | exact absurd hl hp | exact this

@[simp] theorem Within.guardIn {ps : List Part} {c₀ c : Chip} (x) (hl : Part.guardIn ∈ ps) (h : Within ps c₀ c) :
    Within ps c₀ { c with guardIn := x } := by
  intro p hp
  have := h p hp
  cases p <;> first | exact absurd hl hp | exact this

@[simp] theorem Within.modNotice {ps : List Part} {c₀ c : Chip} (x : NoticeUnit → Vector (Option Notice) 77) (hl : Part.sources ∈ ps)
    (h : Within ps c₀ c) : Within ps c₀ (c.modNotice fun n => { n with sources := x n }) := by
  intro p hp
  have := h p hp
  cases p <;> first | exact absurd hl hp | exact this

@[simp] theorem Within.grantBus {ps : List Part} {c₀ c : Chip} (r) (hl : Part.arbiter ∈ ps) (h : Within ps c₀ c) : Within ps c₀ (c.grantBus r) := by
  obtain ⟨a, b, n, _, e⟩ := grantBus_cases r c
  rw [e]
  intro p hp
  have := h p hp
  cases p <;> first | exact absurd hl hp | exact this

@[simp] theorem Within.freeBus {ps : List Part} {c₀ c : Chip} (x : Option Requester) (hl : Part.arbiter ∈ ps) (h : Within ps c₀ c) :
    Within ps c₀ (c.modPort fun p => { p with bus := x }) := by
  intro p hp
  have := h p hp
  cases p <;> first | exact absurd hl hp | exact this

@[simp] theorem Within.granted {ps : List Part} {c₀ c : Chip} (r) (hl : Part.arbiter ∈ ps) (h : Within ps c₀ c) : Within ps c₀ (c.granted r) := by
  unfold Chip.granted
  split <;> simp [h, hl]

@[simp] theorem Within.arbitrate {ps : List Part} {c₀ c : Chip} (hl : Part.arbiter ∈ ps) (h : Within ps c₀ c) : Within ps c₀ c.arbitrate := by
  unfold Chip.arbitrate
  split
  · exact h
  · split <;> simp [h, hl]

@[simp] theorem Within.unfence {ps : List Part} {c₀ c : Chip} (i) (hl : Part.spans ∈ ps) (h : Within ps c₀ c) :
    Within ps c₀ (c.modPort (Port.unfence i)) := by
  intro p hp
  have := h p hp
  cases p <;> first | exact absurd hl hp | exact this

@[simp] theorem Within.sceneSpan {ps : List Part} {c₀ c : Chip} (x : Port → Vector (Option Span) 12) (hl : Part.spans ∈ ps)
    (h : Within ps c₀ c) : Within ps c₀ (c.modPort fun p => { p with sceneSpan := x p }) := by
  intro p hp
  have := h p hp
  cases p <;> first | exact absurd hl hp | exact this

@[simp] theorem Within.cueSpan {ps : List Part} {c₀ c : Chip} (x : Port → Vector (Option Span) 12) (hl : Part.spans ∈ ps)
    (h : Within ps c₀ c) : Within ps c₀ (c.modPort fun p => { p with cueSpan := x p }) := by
  intro p hp
  have := h p hp
  cases p <;> first | exact absurd hl hp | exact this

@[simp] theorem Within.clipSpan {ps : List Part} {c₀ c : Chip} (x : Port → Vector (Option Span) 8) (hl : Part.spans ∈ ps)
    (h : Within ps c₀ c) : Within ps c₀ (c.modPort fun p => { p with clipSpan := x p }) := by
  intro p hp
  have := h p hp
  cases p <;> first | exact absurd hl hp | exact this

@[simp] theorem Within.signal {ps : List Part} {c₀ c : Chip} (x) (hl : Part.signals ∈ ps) (h : Within ps c₀ c) : Within ps c₀ (c.signal x) := by
  intro p hp
  have := h p hp
  cases p <;> first | exact absurd hl hp | exact this

@[simp] theorem Within.signalAll {ps : List Part} {c₀ c : Chip} (x) (hl : Part.signals ∈ ps) (h : Within ps c₀ c) :
    Within ps c₀ (c.signalAll x) := by
  intro p hp
  have := h p hp
  cases p <;> first | exact absurd hl hp | exact this

@[simp] theorem Within.requestFetch {ps : List Part} {c₀ c : Chip} (i k) (hl : Part.fetch ∈ ps) (h : Within ps c₀ c) :
    Within ps c₀ (c.requestFetch i k) := Within.modFetch _ _ hl h

@[simp] theorem Within.abandonFetch {ps : List Part} {c₀ c : Chip} (i) (hl : Part.fetch ∈ ps) (h : Within ps c₀ c) :
    Within ps c₀ (c.abandonFetch i) := Within.modFetch _ _ hl h

@[simp] theorem Within.fetchDone {ps : List Part} {c₀ c : Chip} (i) (hl : Part.fetch ∈ ps) (h : Within ps c₀ c) :
    Within ps c₀ (c.fetchDone i) := Within.modFetch _ _ hl h

@[simp] theorem Within.post {ps : List Part} {c₀ c : Chip} (who x) (hl : Part.postings ∈ ps) (h : Within ps c₀ c) :
    Within ps c₀ (c.modPort (Port.post who x)) := by
  refine h.trans ?_
  intro p hp
  cases p <;> first | exact absurd hl hp | exact rfl | skip
  · simp only [sameAt, Chip.modPort, Port.core]
    unfold Port.post Port.setBacklog
    repeat' split
    all_goals simp [Port.rest]
  all_goals first | exact ⟨rfl, rfl, rfl⟩ | (simp only [sameAt, Chip.modPort]; unfold Port.post Port.setBacklog; (repeat' split) <;> simp)

@[simp] theorem Within.postNotice {ps : List Part} {c₀ c : Chip} (w x) (hl : Part.postings ∈ ps) (h : Within ps c₀ c) :
    Within ps c₀ (c.postNotice w x) := Within.post _ _ hl h

@[simp] theorem Within.postRequest {ps : List Part} {c₀ c : Chip} (w x) (hl : Part.postings ∈ ps) (h : Within ps c₀ c) :
    Within ps c₀ (c.postRequest w x) := Within.post _ _ hl h

/-! ## Choice and repetition -/

@[simp] theorem Within.ite {ps : List Part} {c₀ a b : Chip} {p : Prop} [Decidable p] (ha : Within ps c₀ a) (hb : Within ps c₀ b) :
    Within ps c₀ (if p then a else b) := by split <;> assumption

@[simp] theorem Within.foldl {α : Type} {ps : List Part} {c₀ : Chip} {f : Chip → α → Chip} {xs : List α} {c : Chip}
    (hf : ∀ c a, Within ps c (f c a)) (h : Within ps c₀ c) : Within ps c₀ (xs.foldl f c) := by
  induction xs generalizing c with
  | nil => exact h
  | cons a xs ih => exact ih (h.trans (hf c a))

@[simp] theorem Within.forAll {ps : List Part} {c₀ : Chip} {n : Nat} {f : Fin n → Chip → Chip} {c : Chip}
    (hf : ∀ i c, Within ps c (f i c)) (h : Within ps c₀ c) : Within ps c₀ (forAll n f c) := Within.foldl (fun c i => hf i c) h

/-! ## The operations of the blocks -/

@[simp] theorem Within.mirrorAll {ps : List Part} {c₀ c : Chip} (xs : List MirrorWord) (h0 : Part.postings ∈ ps) (h : Within ps c₀ c) :
    Within ps c₀ (c.mirrorAll xs) := by
  refine Within.foldl (fun c x => ?_) h
  unfold Chip.mirror
  split
  · exact Within.post _ _ h0 (Within.refl _ _)
  · exact Within.refl _ _

@[simp] theorem Within.hand {ps : List Part} {c₀ c : Chip} (src : Fin 77) (b : NoticeBody) (h0 : Part.sources ∈ ps)
    (h : Within ps c₀ c) : Within ps c₀ (Chip.hand src b c) := by
  unfold Chip.hand
  (try dsimp only)
  repeat' split
  all_goals simp (maxDischargeDepth := 60) [h, h0]

@[simp] theorem Within.mirror {ps : List Part} {c₀ c : Chip} (x : MirrorWord) (h0 : Part.postings ∈ ps)
    (h : Within ps c₀ c) : Within ps c₀ (Chip.mirror x c) := by
  unfold Chip.mirror
  (try dsimp only)
  repeat' split
  all_goals simp (maxDischargeDepth := 60) [h, h0]

@[simp] theorem Within.mirrorDevice {ps : List Part} {c₀ c : Chip} (h0 : Part.postings ∈ ps)
    (h : Within ps c₀ c) : Within ps c₀ (Chip.mirrorDevice c) := by
  unfold Chip.mirrorDevice
  (try dsimp only)
  repeat' split
  all_goals simp (maxDischargeDepth := 60) [h, h0]

@[simp] theorem Within.mirrorSlot {ps : List Part} {c₀ c : Chip} (i : SlotId) (h0 : Part.postings ∈ ps)
    (h : Within ps c₀ c) : Within ps c₀ (Chip.mirrorSlot i c) := by
  unfold Chip.mirrorSlot
  (try dsimp only)
  repeat' split
  all_goals simp (maxDischargeDepth := 60) [h, h0]

@[simp] theorem Within.mirrorDrive {ps : List Part} {c₀ c : Chip} (d : DriveId) (h0 : Part.postings ∈ ps)
    (h : Within ps c₀ c) : Within ps c₀ (Chip.mirrorDrive d c) := by
  unfold Chip.mirrorDrive
  (try dsimp only)
  repeat' split
  all_goals simp (maxDischargeDepth := 60) [h, h0]

@[simp] theorem Within.mirrorVoice {ps : List Part} {c₀ c : Chip} (v : VoiceId) (h0 : Part.postings ∈ ps)
    (h : Within ps c₀ c) : Within ps c₀ (Chip.mirrorVoice v c) := by
  unfold Chip.mirrorVoice
  (try dsimp only)
  repeat' split
  all_goals simp (maxDischargeDepth := 60) [h, h0]

@[simp] theorem Within.mirrorInput {ps : List Part} {c₀ c : Chip} (t : InputId) (h0 : Part.postings ∈ ps)
    (h : Within ps c₀ c) : Within ps c₀ (Chip.mirrorInput t c) := by
  unfold Chip.mirrorInput
  (try dsimp only)
  repeat' split
  all_goals simp (maxDischargeDepth := 60) [h, h0]

@[simp] theorem Within.mirrorLamp {ps : List Part} {c₀ c : Chip} (l : LampId) (h0 : Part.postings ∈ ps)
    (h : Within ps c₀ c) : Within ps c₀ (Chip.mirrorLamp l c) := by
  unfold Chip.mirrorLamp
  (try dsimp only)
  repeat' split
  all_goals simp (maxDischargeDepth := 60) [h, h0]

@[simp] theorem Within.mirrorBay {ps : List Part} {c₀ c : Chip} (b : BayId) (h0 : Part.postings ∈ ps)
    (h : Within ps c₀ c) : Within ps c₀ (Chip.mirrorBay b c) := by
  unfold Chip.mirrorBay
  (try dsimp only)
  repeat' split
  all_goals simp (maxDischargeDepth := 60) [h, h0]

@[simp] theorem Within.restoreLamp {ps : List Part} {c₀ c : Chip} (l : LampId) (h0 : Part.lamp ∈ ps) (h1 : Part.postings ∈ ps)
    (h : Within ps c₀ c) : Within ps c₀ (Chip.restoreLamp l c) := by
  unfold Chip.restoreLamp
  (try dsimp only)
  repeat' split
  all_goals simp (maxDischargeDepth := 60) [h, h0, h1]

@[simp] theorem Within.lampCue {ps : List Part} {c₀ c : Chip} (l : LampId) (lv : Nat) (fade : Nat) (h0 : Part.lamp ∈ ps) (h1 : Part.postings ∈ ps)
    (h : Within ps c₀ c) : Within ps c₀ (Chip.lampCue l lv fade c) := by
  unfold Chip.lampCue
  (try dsimp only)
  repeat' split
  all_goals simp (maxDischargeDepth := 60) [h, h0, h1]

@[simp] theorem Within.lampReleased {ps : List Part} {c₀ c : Chip} (l : LampId) (shadowLevel : Option Nat) (h0 : Part.lamp ∈ ps) (h1 : Part.postings ∈ ps)
    (h : Within ps c₀ c) : Within ps c₀ (Chip.lampReleased l shadowLevel c) := by
  unfold Chip.lampReleased
  (try dsimp only)
  repeat' split
  all_goals simp (maxDischargeDepth := 60) [h, h0, h1]

@[simp] theorem Within.demandShown {ps : List Part} {c₀ c : Chip} (l : LampId) (old : Demand) (new : Demand) (h0 : Part.lamp ∈ ps) (h1 : Part.postings ∈ ps)
    (h : Within ps c₀ c) : Within ps c₀ (Chip.demandShown l old new c) := by
  unfold Chip.demandShown
  (try dsimp only)
  repeat' split
  all_goals simp (maxDischargeDepth := 60) [h, h0, h1]

@[simp] theorem Within.lampDemand {ps : List Part} {c₀ c : Chip} (l : LampId) (new : Demand) (h0 : Part.lamp ∈ ps) (h1 : Part.postings ∈ ps)
    (h : Within ps c₀ c) : Within ps c₀ (Chip.lampDemand l new c) := by
  unfold Chip.lampDemand
  (try dsimp only)
  repeat' split
  all_goals simp (maxDischargeDepth := 60) [h, h0, h1]

@[simp] theorem Within.lampEntryRead {ps : List Part} {c₀ c : Chip} (l : LampId) (w : Word) (h0 : Part.lamp ∈ ps) (h1 : Part.postings ∈ ps)
    (h : Within ps c₀ c) : Within ps c₀ (Chip.lampEntryRead l w c) := by
  unfold Chip.lampEntryRead
  (try dsimp only)
  repeat' split
  all_goals simp (maxDischargeDepth := 60) [h, h0, h1]

@[simp] theorem Within.lampCapture {ps : List Part} {c₀ c : Chip} (l : LampId) (data : Word) (be : Enables) (h0 : Part.lamp ∈ ps) (h1 : Part.postings ∈ ps)
    (h : Within ps c₀ c) : Within ps c₀ (Chip.lampCapture l data be c) := by
  unfold Chip.lampCapture
  (try dsimp only)
  repeat' split
  all_goals simp (maxDischargeDepth := 60) [h, h0, h1]

@[simp] theorem Within.lampFrame {ps : List Part} {c₀ c : Chip} (h0 : Part.lamp ∈ ps)
    (h : Within ps c₀ c) : Within ps c₀ (Chip.lampFrame c) := by
  unfold Chip.lampFrame
  (try dsimp only)
  repeat' split
  all_goals simp (maxDischargeDepth := 60) [h, h0]

@[simp] theorem Within.lampFadeDone {ps : List Part} {c₀ c : Chip} (l : LampId) (target : Nat) (h0 : Part.lamp ∈ ps) (h1 : Part.postings ∈ ps)
    (h : Within ps c₀ c) : Within ps c₀ (Chip.lampFadeDone l target c) := by
  unfold Chip.lampFadeDone
  (try dsimp only)
  repeat' split
  all_goals simp (maxDischargeDepth := 60) [h, h0, h1]

@[simp] theorem Within.lampsEnterHeld {ps : List Part} {c₀ c : Chip} (h0 : Part.postings ∈ ps)
    (h : Within ps c₀ c) : Within ps c₀ (Chip.lampsEnterHeld c) := by
  unfold Chip.lampsEnterHeld
  (try dsimp only)
  repeat' split
  all_goals simp (maxDischargeDepth := 60) [h, h0]

@[simp] theorem Within.lampLeaveHeld {ps : List Part} {c₀ c : Chip} (l : LampId) (h0 : Part.lamp ∈ ps) (h1 : Part.postings ∈ ps)
    (h : Within ps c₀ c) : Within ps c₀ (Chip.lampLeaveHeld l c) := by
  unfold Chip.lampLeaveHeld
  (try dsimp only)
  repeat' split
  all_goals simp (maxDischargeDepth := 60) [h, h0, h1]

@[simp] theorem Within.lampsLeaveHeld {ps : List Part} {c₀ c : Chip} (h0 : Part.lamp ∈ ps) (h1 : Part.postings ∈ ps)
    (h : Within ps c₀ c) : Within ps c₀ (Chip.lampsLeaveHeld c) := by
  unfold Chip.lampsLeaveHeld
  (try dsimp only)
  repeat' split
  all_goals simp (maxDischargeDepth := 60) [h, h0, h1]

@[simp] theorem Within.refreshDemand {ps : List Part} {c₀ c : Chip} (t : InputId) (h0 : Part.lamp ∈ ps) (h1 : Part.postings ∈ ps)
    (h : Within ps c₀ c) : Within ps c₀ (Chip.refreshDemand t c) := by
  unfold Chip.refreshDemand
  (try dsimp only)
  repeat' split
  all_goals simp (maxDischargeDepth := 60) [h, h0, h1]

@[simp] theorem Within.enterInput {ps : List Part} {c₀ c : Chip} (t : InputId) (st : InputState) (h0 : Part.trig ∈ ps) (h1 : Part.lamp ∈ ps) (h2 : Part.postings ∈ ps)
    (h : Within ps c₀ c) : Within ps c₀ (Chip.enterInput t st c) := by
  unfold Chip.enterInput
  (try dsimp only)
  repeat' split
  all_goals simp (maxDischargeDepth := 60) [h, h0, h1, h2]

@[simp] theorem Within.timeAnew {ps : List Part} {c₀ c : Chip} (t : InputId) (h0 : Part.trig ∈ ps) (h1 : Part.lamp ∈ ps) (h2 : Part.postings ∈ ps)
    (h : Within ps c₀ c) : Within ps c₀ (Chip.timeAnew t c) := by
  unfold Chip.timeAnew
  (try dsimp only)
  repeat' split
  all_goals simp (maxDischargeDepth := 60) [h, h0, h1, h2]

@[simp] theorem Within.enterArmed {ps : List Part} {c₀ c : Chip} (t : InputId) (h0 : Part.trig ∈ ps) (h1 : Part.lamp ∈ ps) (h2 : Part.postings ∈ ps)
    (h : Within ps c₀ c) : Within ps c₀ (Chip.enterArmed t c) := by
  unfold Chip.enterArmed
  (try dsimp only)
  repeat' split
  all_goals simp (maxDischargeDepth := 60) [h, h0, h1, h2]

@[simp] theorem Within.fire {ps : List Part} {c₀ c : Chip} (t : InputId) (h0 : Part.trig ∈ ps)
    (h : Within ps c₀ c) : Within ps c₀ (Chip.fire t c) := by
  unfold Chip.fire
  (try dsimp only)
  repeat' split
  all_goals simp (maxDischargeDepth := 60) [h, h0]

@[simp] theorem Within.dwellFire {ps : List Part} {c₀ c : Chip} (t : InputId) (h0 : Part.trig ∈ ps) (h1 : Part.lamp ∈ ps) (h2 : Part.postings ∈ ps)
    (h : Within ps c₀ c) : Within ps c₀ (Chip.dwellFire t c) := by
  unfold Chip.dwellFire
  (try dsimp only)
  repeat' split
  all_goals simp (maxDischargeDepth := 60) [h, h0, h1, h2]

@[simp] theorem Within.startSettled {ps : List Part} {c₀ c : Chip} (t : InputId) (h0 : Part.trig ∈ ps) (h1 : Part.lamp ∈ ps) (h2 : Part.postings ∈ ps)
    (h : Within ps c₀ c) : Within ps c₀ (Chip.startSettled t c) := by
  unfold Chip.startSettled
  (try dsimp only)
  repeat' split
  all_goals simp (maxDischargeDepth := 60) [h, h0, h1, h2]

@[simp] theorem Within.stopDwelling {ps : List Part} {c₀ c : Chip} (t : InputId) (h0 : Part.trig ∈ ps) (h1 : Part.lamp ∈ ps) (h2 : Part.postings ∈ ps)
    (h : Within ps c₀ c) : Within ps c₀ (Chip.stopDwelling t c) := by
  unfold Chip.stopDwelling
  (try dsimp only)
  repeat' split
  all_goals simp (maxDischargeDepth := 60) [h, h0, h1, h2]

@[simp] theorem Within.sceneEnd {ps : List Part} {c₀ c : Chip} (t : InputId) (cooldown : Nat) (h0 : Part.trig ∈ ps) (h1 : Part.lamp ∈ ps) (h2 : Part.postings ∈ ps)
    (h : Within ps c₀ c) : Within ps c₀ (Chip.sceneEnd t cooldown c) := by
  unfold Chip.sceneEnd
  (try dsimp only)
  repeat' split
  all_goals simp (maxDischargeDepth := 60) [h, h0, h1, h2]

@[simp] theorem Within.sceneEndOf {ps : List Part} {c₀ c : Chip} (o : Option Origin) (cooldown : Nat) (h0 : Part.trig ∈ ps) (h1 : Part.lamp ∈ ps) (h2 : Part.postings ∈ ps)
    (h : Within ps c₀ c) : Within ps c₀ (Chip.sceneEndOf o cooldown c) := by
  unfold Chip.sceneEndOf
  (try dsimp only)
  repeat' split
  all_goals simp (maxDischargeDepth := 60) [h, h0, h1, h2]

@[simp] theorem Within.arm {ps : List Part} {c₀ c : Chip} (t : InputId) (h0 : Part.trig ∈ ps) (h1 : Part.lamp ∈ ps) (h2 : Part.postings ∈ ps)
    (h : Within ps c₀ c) : Within ps c₀ (Chip.arm t c) := by
  unfold Chip.arm
  (try dsimp only)
  repeat' split
  all_goals simp (maxDischargeDepth := 60) [h, h0, h1, h2]

@[simp] theorem Within.disarm {ps : List Part} {c₀ c : Chip} (t : InputId) (h0 : Part.trig ∈ ps) (h1 : Part.lamp ∈ ps) (h2 : Part.postings ∈ ps)
    (h : Within ps c₀ c) : Within ps c₀ (Chip.disarm t c) := by
  unfold Chip.disarm
  (try dsimp only)
  repeat' split
  all_goals simp (maxDischargeDepth := 60) [h, h0, h1, h2]

@[simp] theorem Within.removeEntries {ps : List Part} {c₀ c : Chip} (p : QueueEntry → Bool) (h0 : Part.trig ∈ ps) (h1 : Part.lamp ∈ ps) (h2 : Part.postings ∈ ps)
    (h : Within ps c₀ c) : Within ps c₀ (Chip.removeEntries p c) := by
  unfold Chip.removeEntries
  (try dsimp only)
  repeat' split
  all_goals simp (maxDischargeDepth := 60) [h, h0, h1, h2]

@[simp] theorem Within.appendEntry {ps : List Part} {c₀ c : Chip} (scene : Fin 64) (o : Origin) (bay : Nat) (cooldown : Nat) (h0 : Part.trig ∈ ps) (h1 : Part.postings ∈ ps)
    (h : Within ps c₀ c) : Within ps c₀ (Chip.appendEntry scene o bay cooldown c) := by
  unfold Chip.appendEntry
  (try dsimp only)
  repeat' split
  all_goals simp (maxDischargeDepth := 60) [h, h0, h1]

@[simp] theorem Within.freeSlot {ps : List Part} {c₀ c : Chip} (i : SlotId) (h0 : Part.slots ∈ ps) (h1 : Part.spans ∈ ps) (h2 : Part.fetch ∈ ps) (h3 : Part.trig ∈ ps) (h4 : Part.lamp ∈ ps) (h5 : Part.sources ∈ ps) (h6 : Part.postings ∈ ps)
    (h : Within ps c₀ c) : Within ps c₀ (Chip.freeSlot i c) := by
  unfold Chip.freeSlot
  (try dsimp only)
  repeat' split
  all_goals simp (maxDischargeDepth := 60) [h, h0, h1, h2, h3, h4, h5, h6]

@[simp] theorem Within.joinList {ps : List Part} {c₀ c : Chip} (i : SlotId) (h0 : Part.claims ∈ ps)
    (h : Within ps c₀ c) : Within ps c₀ (Chip.joinList i c) := by
  unfold Chip.joinList
  (try dsimp only)
  repeat' split
  all_goals simp (maxDischargeDepth := 60) [h, h0]

@[simp] theorem Within.takeLamp {ps : List Part} {c₀ c : Chip} (i : SlotId) (l : LampId) (h0 : Part.slots ∈ ps) (h1 : Part.claims ∈ ps) (h2 : Part.lamp ∈ ps) (h3 : Part.postings ∈ ps)
    (h : Within ps c₀ c) : Within ps c₀ (Chip.takeLamp i l c) := by
  unfold Chip.takeLamp
  (try dsimp only)
  repeat' split
  all_goals simp (maxDischargeDepth := 60) [h, h0, h1, h2, h3]

@[simp] theorem Within.takeDrive {ps : List Part} {c₀ c : Chip} (i : SlotId) (d : DriveId) (h0 : Part.claims ∈ ps)
    (h : Within ps c₀ c) : Within ps c₀ (Chip.takeDrive i d c) := by
  unfold Chip.takeDrive
  (try dsimp only)
  repeat' split
  all_goals simp (maxDischargeDepth := 60) [h, h0]

@[simp] theorem Within.takeVoice {ps : List Part} {c₀ c : Chip} (i : SlotId) (v : VoiceId) (h0 : Part.claims ∈ ps)
    (h : Within ps c₀ c) : Within ps c₀ (Chip.takeVoice i v c) := by
  unfold Chip.takeVoice
  (try dsimp only)
  repeat' split
  all_goals simp (maxDischargeDepth := 60) [h, h0]

@[simp] theorem Within.grant {ps : List Part} {c₀ c : Chip} (i : SlotId) (h0 : Part.slots ∈ ps) (h1 : Part.fetch ∈ ps) (h2 : Part.claims ∈ ps) (h3 : Part.lamp ∈ ps) (h4 : Part.postings ∈ ps)
    (h : Within ps c₀ c) : Within ps c₀ (Chip.grant i c) := by
  unfold Chip.grant
  (try dsimp only)
  repeat' split
  all_goals simp (maxDischargeDepth := 60) [h, h0, h1, h2, h3, h4]

@[simp] theorem Within.refuse {ps : List Part} {c₀ c : Chip} (i : SlotId) (h0 : Part.slots ∈ ps) (h1 : Part.spans ∈ ps) (h2 : Part.fetch ∈ ps) (h3 : Part.claims ∈ ps) (h4 : Part.trig ∈ ps) (h5 : Part.lamp ∈ ps) (h6 : Part.sources ∈ ps) (h7 : Part.postings ∈ ps)
    (h : Within ps c₀ c) : Within ps c₀ (Chip.refuse i c) := by
  unfold Chip.refuse
  (try dsimp only)
  repeat' split
  all_goals simp (maxDischargeDepth := 60) [h, h0, h1, h2, h3, h4, h5, h6, h7]

@[simp] theorem Within.reserveLamp {ps : List Part} {c₀ c : Chip} (i : SlotId) (l : LampId) (h0 : Part.claims ∈ ps)
    (h : Within ps c₀ c) : Within ps c₀ (Chip.reserveLamp i l c) := by
  unfold Chip.reserveLamp
  (try dsimp only)
  repeat' split
  all_goals simp (maxDischargeDepth := 60) [h, h0]

@[simp] theorem Within.reserveDrive {ps : List Part} {c₀ c : Chip} (i : SlotId) (d : DriveId) (h0 : Part.claims ∈ ps)
    (h : Within ps c₀ c) : Within ps c₀ (Chip.reserveDrive i d c) := by
  unfold Chip.reserveDrive
  (try dsimp only)
  repeat' split
  all_goals simp (maxDischargeDepth := 60) [h, h0]

@[simp] theorem Within.reserveVoices {ps : List Part} {c₀ c : Chip} (i : SlotId) (h0 : Part.claims ∈ ps)
    (h : Within ps c₀ c) : Within ps c₀ (Chip.reserveVoices i c) := by
  unfold Chip.reserveVoices
  (try dsimp only)
  repeat' split
  all_goals simp (maxDischargeDepth := 60) [h, h0]

@[simp] theorem Within.reserve {ps : List Part} {c₀ c : Chip} (i : SlotId) (h0 : Part.claims ∈ ps)
    (h : Within ps c₀ c) : Within ps c₀ (Chip.reserve i c) := by
  unfold Chip.reserve
  (try dsimp only)
  repeat' split
  all_goals simp (maxDischargeDepth := 60) [h, h0]

@[simp] theorem Within.walk {ps : List Part} {c₀ c : Chip} (a0 : List SlotId) (a1 : Bool) (h0 : Part.slots ∈ ps) (h1 : Part.spans ∈ ps) (h2 : Part.fetch ∈ ps) (h3 : Part.claims ∈ ps) (h4 : Part.trig ∈ ps) (h5 : Part.lamp ∈ ps) (h6 : Part.sources ∈ ps) (h7 : Part.postings ∈ ps)
    (h : Within ps c₀ c) : Within ps c₀ (Chip.walk a0 a1 c) := by
  induction a0 generalizing a1 c with
  | nil => exact h
  | cons i ws ih =>
    unfold Chip.walk
    dsimp only
    split
    · exact ih _ (by simp (maxDischargeDepth := 60) [h, h0, h1, h2, h3, h4, h5, h6, h7])
    · split
      · exact ih _ (by simp (maxDischargeDepth := 60) [h, h0, h1, h2, h3, h4, h5, h6, h7])
      · exact ih _ (by split <;> simp (maxDischargeDepth := 60) [h, h0, h1, h2, h3, h4, h5, h6, h7])

@[simp] theorem Within.review {ps : List Part} {c₀ c : Chip} (h0 : Part.slots ∈ ps) (h1 : Part.spans ∈ ps) (h2 : Part.fetch ∈ ps) (h3 : Part.claims ∈ ps) (h4 : Part.trig ∈ ps) (h5 : Part.lamp ∈ ps) (h6 : Part.sources ∈ ps) (h7 : Part.postings ∈ ps)
    (h : Within ps c₀ c) : Within ps c₀ (Chip.review c) := by
  unfold Chip.review
  (try dsimp only)
  repeat' split
  all_goals simp (maxDischargeDepth := 60) [h, h0, h1, h2, h3, h4, h5, h6, h7]

@[simp] theorem Within.enterClaiming {ps : List Part} {c₀ c : Chip} (i : SlotId) (h0 : Part.slots ∈ ps) (h1 : Part.spans ∈ ps) (h2 : Part.fetch ∈ ps) (h3 : Part.claims ∈ ps) (h4 : Part.trig ∈ ps) (h5 : Part.lamp ∈ ps) (h6 : Part.sources ∈ ps) (h7 : Part.postings ∈ ps)
    (h : Within ps c₀ c) : Within ps c₀ (Chip.enterClaiming i c) := by
  unfold Chip.enterClaiming
  (try dsimp only)
  repeat' split
  all_goals simp (maxDischargeDepth := 60) [h, h0, h1, h2, h3, h4, h5, h6, h7]

@[simp] theorem Within.endEarly {ps : List Part} {c₀ c : Chip} (i : SlotId) (cause : Cause) (h0 : Part.slots ∈ ps) (h1 : Part.spans ∈ ps) (h2 : Part.fetch ∈ ps) (h3 : Part.claims ∈ ps) (h4 : Part.trig ∈ ps) (h5 : Part.lamp ∈ ps) (h6 : Part.sources ∈ ps) (h7 : Part.postings ∈ ps)
    (h : Within ps c₀ c) : Within ps c₀ (Chip.endEarly i cause c) := by
  unfold Chip.endEarly
  (try dsimp only)
  repeat' split
  all_goals simp (maxDischargeDepth := 60) [h, h0, h1, h2, h3, h4, h5, h6, h7]

@[simp] theorem Within.releaseLamp {ps : List Part} {c₀ c : Chip} (i : SlotId) (l : LampId) (h0 : Part.claims ∈ ps) (h1 : Part.lamp ∈ ps) (h2 : Part.postings ∈ ps)
    (h : Within ps c₀ c) : Within ps c₀ (Chip.releaseLamp i l c) := by
  unfold Chip.releaseLamp
  (try dsimp only)
  repeat' split
  all_goals simp (maxDischargeDepth := 60) [h, h0, h1, h2]

@[simp] theorem Within.releaseClaims {ps : List Part} {c₀ c : Chip} (i : SlotId) (h0 : Part.claims ∈ ps) (h1 : Part.lamp ∈ ps) (h2 : Part.postings ∈ ps)
    (h : Within ps c₀ c) : Within ps c₀ (Chip.releaseClaims i c) := by
  unfold Chip.releaseClaims
  (try dsimp only)
  repeat' split
  all_goals simp (maxDischargeDepth := 60) [h, h0, h1, h2]

@[simp] theorem Within.releaseSlot {ps : List Part} {c₀ c : Chip} (i : SlotId) (h0 : Part.slots ∈ ps) (h1 : Part.spans ∈ ps) (h2 : Part.fetch ∈ ps) (h3 : Part.claims ∈ ps) (h4 : Part.trig ∈ ps) (h5 : Part.lamp ∈ ps) (h6 : Part.sources ∈ ps) (h7 : Part.postings ∈ ps)
    (h : Within ps c₀ c) : Within ps c₀ (Chip.releaseSlot i c) := by
  unfold Chip.releaseSlot
  (try dsimp only)
  repeat' split
  all_goals simp (maxDischargeDepth := 60) [h, h0, h1, h2, h3, h4, h5, h6, h7]

@[simp] theorem Within.tellVoice {ps : List Part} {c₀ c : Chip} (v : VoiceId) (r : VoiceReport) (h0 : Part.signals ∈ ps)
    (h : Within ps c₀ c) : Within ps c₀ (Chip.tellVoice v r c) := by
  unfold Chip.tellVoice
  (try dsimp only)
  repeat' split
  all_goals simp (maxDischargeDepth := 60) [h, h0]

@[simp] theorem Within.voiceIdle {ps : List Part} {c₀ c : Chip} (v : VoiceId) (why : IdleWhy) (h0 : Part.spans ∈ ps) (h1 : Part.voices ∈ ps) (h2 : Part.signals ∈ ps) (h3 : Part.postings ∈ ps)
    (h : Within ps c₀ c) : Within ps c₀ (Chip.voiceIdle v why c) := by
  unfold Chip.voiceIdle
  (try dsimp only)
  repeat' split
  all_goals simp (maxDischargeDepth := 60) [h, h0, h1, h2, h3]

@[simp] theorem Within.speak {ps : List Part} {c₀ c : Chip} (v : VoiceId) (clip : Nat) (volume : Nat) (h0 : Part.voices ∈ ps)
    (h : Within ps c₀ c) : Within ps c₀ (Chip.speak v clip volume c) := by
  unfold Chip.speak
  (try dsimp only)
  repeat' split
  all_goals simp (maxDischargeDepth := 60) [h, h0]

@[simp] theorem Within.takeClip {ps : List Part} {c₀ c : Chip} (v : VoiceId) (e : ClipEntry) (d : DirRead) (h0 : Part.spans ∈ ps) (h1 : Part.voices ∈ ps) (h2 : Part.signals ∈ ps) (h3 : Part.postings ∈ ps)
    (h : Within ps c₀ c) : Within ps c₀ (Chip.takeClip v e d c) := by
  unfold Chip.takeClip
  (try dsimp only)
  repeat' split
  all_goals simp (maxDischargeDepth := 60) [h, h0, h1, h2, h3]

@[simp] theorem Within.dirReturn {ps : List Part} {c₀ c : Chip} (v : VoiceId) (d : DirRead) (e : Option ClipEntry) (h0 : Part.spans ∈ ps) (h1 : Part.voices ∈ ps) (h2 : Part.signals ∈ ps) (h3 : Part.postings ∈ ps)
    (h : Within ps c₀ c) : Within ps c₀ (Chip.dirReturn v d e c) := by
  unfold Chip.dirReturn
  (try dsimp only)
  repeat' split
  all_goals simp (maxDischargeDepth := 60) [h, h0, h1, h2, h3]

@[simp] theorem Within.burstReturn {ps : List Part} {c₀ c : Chip} (v : VoiceId) (b : Burst) (ws : List Word) (h0 : Part.voices ∈ ps) (h1 : Part.postings ∈ ps)
    (h : Within ps c₀ c) : Within ps c₀ (Chip.burstReturn v b ws c) := by
  unfold Chip.burstReturn
  (try dsimp only)
  repeat' split
  all_goals simp (maxDischargeDepth := 60) [h, h0, h1]

@[simp] theorem Within.passMarks {ps : List Part} {c₀ c : Chip} (v : VoiceId) (ks : List (Fin 4)) (h0 : Part.voices ∈ ps) (h1 : Part.signals ∈ ps)
    (h : Within ps c₀ c) : Within ps c₀ (Chip.passMarks v ks c) := by
  unfold Chip.passMarks
  (try dsimp only)
  repeat' split
  all_goals simp (maxDischargeDepth := 60) [h, h0, h1]

@[simp] theorem Within.starve {ps : List Part} {c₀ c : Chip} (v : VoiceId) (h0 : Part.voices ∈ ps) (h1 : Part.signals ∈ ps) (h2 : Part.sources ∈ ps) (h3 : Part.postings ∈ ps)
    (h : Within ps c₀ c) : Within ps c₀ (Chip.starve v c) := by
  unfold Chip.starve
  (try dsimp only)
  repeat' split
  all_goals simp (maxDischargeDepth := 60) [h, h0, h1, h2, h3]

@[simp] theorem Within.firstSample {ps : List Part} {c₀ c : Chip} (v : VoiceId) (h0 : Part.spans ∈ ps) (h1 : Part.voices ∈ ps) (h2 : Part.signals ∈ ps) (h3 : Part.sources ∈ ps) (h4 : Part.postings ∈ ps)
    (h : Within ps c₀ c) : Within ps c₀ (Chip.firstSample v c) := by
  unfold Chip.firstSample
  (try dsimp only)
  repeat' split
  all_goals simp (maxDischargeDepth := 60) [h, h0, h1, h2, h3, h4]

@[simp] theorem Within.sampleAt {ps : List Part} {c₀ c : Chip} (v : VoiceId) (h0 : Part.spans ∈ ps) (h1 : Part.voices ∈ ps) (h2 : Part.signals ∈ ps) (h3 : Part.sources ∈ ps) (h4 : Part.postings ∈ ps)
    (h : Within ps c₀ c) : Within ps c₀ (Chip.sampleAt v c) := by
  unfold Chip.sampleAt
  (try dsimp only)
  repeat' split
  all_goals simp (maxDischargeDepth := 60) [h, h0, h1, h2, h3, h4]

@[simp] theorem Within.voiceStop {ps : List Part} {c₀ c : Chip} (v : VoiceId) (fade : Nat) (ending : Bool) (h0 : Part.spans ∈ ps) (h1 : Part.voices ∈ ps) (h2 : Part.signals ∈ ps) (h3 : Part.postings ∈ ps)
    (h : Within ps c₀ c) : Within ps c₀ (Chip.voiceStop v fade ending c) := by
  unfold Chip.voiceStop
  (try dsimp only)
  repeat' split
  all_goals simp (maxDischargeDepth := 60) [h, h0, h1, h2, h3]

@[simp] theorem Within.voiceEnterHeld {ps : List Part} {c₀ c : Chip} (v : VoiceId) (h0 : Part.voices ∈ ps) (h1 : Part.postings ∈ ps)
    (h : Within ps c₀ c) : Within ps c₀ (Chip.voiceEnterHeld v c) := by
  unfold Chip.voiceEnterHeld
  (try dsimp only)
  repeat' split
  all_goals simp (maxDischargeDepth := 60) [h, h0, h1]

@[simp] theorem Within.voiceLeaveHeld {ps : List Part} {c₀ c : Chip} (v : VoiceId) (h0 : Part.voices ∈ ps) (h1 : Part.postings ∈ ps)
    (h : Within ps c₀ c) : Within ps c₀ (Chip.voiceLeaveHeld v c) := by
  unfold Chip.voiceLeaveHeld
  (try dsimp only)
  repeat' split
  all_goals simp (maxDischargeDepth := 60) [h, h0, h1]

@[simp] theorem Within.runLink {ps : List Part} {c₀ c : Chip} (l : LinkId) (f : Link → LinkStep) (h0 : Part.links ∈ ps) (h1 : Part.signals ∈ ps)
    (h : Within ps c₀ c) : Within ps c₀ (Chip.runLink l f c) := by
  unfold Chip.runLink
  (try dsimp only)
  repeat' split
  all_goals simp (maxDischargeDepth := 60) [h, h0, h1]

@[simp] theorem Within.loopStep {ps : List Part} {c₀ c : Chip} (l : LinkId) (pos : Nat) (ch : Option RxChar) (h0 : Part.links ∈ ps) (h1 : Part.sources ∈ ps)
    (h : Within ps c₀ c) : Within ps c₀ (Chip.loopStep l pos ch c) := by
  unfold Chip.loopStep
  (try dsimp only)
  repeat' split
  all_goals simp (maxDischargeDepth := 60) [h, h0, h1]

@[simp] theorem Within.tellDrive {ps : List Part} {c₀ c : Chip} (d : DriveId) (r : DriveReport) (h0 : Part.signals ∈ ps)
    (h : Within ps c₀ c) : Within ps c₀ (Chip.tellDrive d r c) := by
  unfold Chip.tellDrive
  (try dsimp only)
  repeat' split
  all_goals simp (maxDischargeDepth := 60) [h, h0]

@[simp] theorem Within.offerDrive {ps : List Part} {c₀ c : Chip} (d : DriveId) (h0 : Part.slots ∈ ps) (h1 : Part.spans ∈ ps) (h2 : Part.fetch ∈ ps) (h3 : Part.claims ∈ ps) (h4 : Part.trig ∈ ps) (h5 : Part.lamp ∈ ps) (h6 : Part.sources ∈ ps) (h7 : Part.postings ∈ ps)
    (h : Within ps c₀ c) : Within ps c₀ (Chip.offerDrive d c) := by
  unfold Chip.offerDrive
  (try dsimp only)
  repeat' split
  all_goals simp (maxDischargeDepth := 60) [h, h0, h1, h2, h3, h4, h5, h6, h7]

@[simp] theorem Within.driveTo {ps : List Part} {c₀ c : Chip} (d : DriveId) (st : DriveState) (h0 : Part.drives ∈ ps) (h1 : Part.signals ∈ ps) (h2 : Part.postings ∈ ps)
    (h : Within ps c₀ c) : Within ps c₀ (Chip.driveTo d st c) := by
  unfold Chip.driveTo
  (try dsimp only)
  repeat' split
  all_goals simp (maxDischargeDepth := 60) [h, h0, h1, h2]

@[simp] theorem Within.takePosition {ps : List Part} {c₀ c : Chip} (d : DriveId) (s : Option Sense) (h0 : Part.drives ∈ ps) (h1 : Part.postings ∈ ps)
    (h : Within ps c₀ c) : Within ps c₀ (Chip.takePosition d s c) := by
  unfold Chip.takePosition
  (try dsimp only)
  repeat' split
  all_goals simp (maxDischargeDepth := 60) [h, h0, h1]

@[simp] theorem Within.handFault {ps : List Part} {c₀ c : Chip} (d : DriveId) (h0 : Part.sources ∈ ps)
    (h : Within ps c₀ c) : Within ps c₀ (Chip.handFault d c) := by
  unfold Chip.handFault
  (try dsimp only)
  repeat' split
  all_goals simp (maxDischargeDepth := 60) [h, h0]

@[simp] theorem Within.enterFault {ps : List Part} {c₀ c : Chip} (d : DriveId) (why : FaultReason) (s : Option Sense) (tell : Option Sense → Option DriveReport) (h0 : Part.drives ∈ ps) (h1 : Part.signals ∈ ps) (h2 : Part.sources ∈ ps) (h3 : Part.postings ∈ ps)
    (h : Within ps c₀ c) : Within ps c₀ (Chip.enterFault d why s tell c) := by
  unfold Chip.enterFault
  (try dsimp only)
  repeat' split
  all_goals simp (maxDischargeDepth := 60) [h, h0, h1, h2, h3]

@[simp] theorem Within.endMove {ps : List Part} {c₀ c : Chip} (d : DriveId) (r : DriveReport) (h0 : Part.slots ∈ ps) (h1 : Part.spans ∈ ps) (h2 : Part.fetch ∈ ps) (h3 : Part.claims ∈ ps) (h4 : Part.trig ∈ ps) (h5 : Part.lamp ∈ ps) (h6 : Part.drives ∈ ps) (h7 : Part.signals ∈ ps) (h8 : Part.sources ∈ ps) (h9 : Part.postings ∈ ps)
    (h : Within ps c₀ c) : Within ps c₀ (Chip.endMove d r c) := by
  unfold Chip.endMove
  (try dsimp only)
  repeat' split
  all_goals simp (maxDischargeDepth := 60) [h, h0, h1, h2, h3, h4, h5, h6, h7, h8, h9]

@[simp] theorem Within.handMove {ps : List Part} {c₀ c : Chip} (d : DriveId) (h0 : Part.links ∈ ps) (h1 : Part.drives ∈ ps) (h2 : Part.signals ∈ ps)
    (h : Within ps c₀ c) : Within ps c₀ (Chip.handMove d c) := by
  unfold Chip.handMove
  (try dsimp only)
  repeat' split
  all_goals simp (maxDischargeDepth := 60) [h, h0, h1, h2]

@[simp] theorem Within.handService {ps : List Part} {c₀ c : Chip} (d : DriveId) (h0 : Part.links ∈ ps) (h1 : Part.drives ∈ ps) (h2 : Part.signals ∈ ps)
    (h : Within ps c₀ c) : Within ps c₀ (Chip.handService d c) := by
  unfold Chip.handService
  (try dsimp only)
  repeat' split
  all_goals simp (maxDischargeDepth := 60) [h, h0, h1, h2]

@[simp] theorem Within.handHalt {ps : List Part} {c₀ c : Chip} (d : DriveId) (h0 : Part.links ∈ ps) (h1 : Part.signals ∈ ps)
    (h : Within ps c₀ c) : Within ps c₀ (Chip.handHalt d c) := by
  unfold Chip.handHalt
  (try dsimp only)
  repeat' split
  all_goals simp (maxDischargeDepth := 60) [h, h0, h1]

@[simp] theorem Within.driveMove {ps : List Part} {c₀ c : Chip} (d : DriveId) (mv : Move) (h0 : Part.links ∈ ps) (h1 : Part.drives ∈ ps) (h2 : Part.signals ∈ ps) (h3 : Part.postings ∈ ps)
    (h : Within ps c₀ c) : Within ps c₀ (Chip.driveMove d mv c) := by
  unfold Chip.driveMove
  (try dsimp only)
  repeat' split
  all_goals simp (maxDischargeDepth := 60) [h, h0, h1, h2, h3]

@[simp] theorem Within.halting {ps : List Part} {c₀ c : Chip} (d : DriveId) (why : HaltCause) (h0 : Part.links ∈ ps) (h1 : Part.drives ∈ ps) (h2 : Part.signals ∈ ps) (h3 : Part.postings ∈ ps)
    (h : Within ps c₀ c) : Within ps c₀ (Chip.halting d why c) := by
  unfold Chip.halting
  (try dsimp only)
  repeat' split
  all_goals simp (maxDischargeDepth := 60) [h, h0, h1, h2, h3]

@[simp] theorem Within.driveHalt {ps : List Part} {c₀ c : Chip} (d : DriveId) (why : HaltCause) (h0 : Part.slots ∈ ps) (h1 : Part.spans ∈ ps) (h2 : Part.fetch ∈ ps) (h3 : Part.claims ∈ ps) (h4 : Part.trig ∈ ps) (h5 : Part.lamp ∈ ps) (h6 : Part.links ∈ ps) (h7 : Part.drives ∈ ps) (h8 : Part.signals ∈ ps) (h9 : Part.sources ∈ ps) (h10 : Part.postings ∈ ps)
    (h : Within ps c₀ c) : Within ps c₀ (Chip.driveHalt d why c) := by
  unfold Chip.driveHalt
  (try dsimp only)
  repeat' split
  all_goals simp (maxDischargeDepth := 60) [h, h0, h1, h2, h3, h4, h5, h6, h7, h8, h9, h10]

@[simp] theorem Within.motionEnd {ps : List Part} {c₀ c : Chip} (d : DriveId) (halted : Bool) (h0 : Part.slots ∈ ps) (h1 : Part.spans ∈ ps) (h2 : Part.fetch ∈ ps) (h3 : Part.claims ∈ ps) (h4 : Part.trig ∈ ps) (h5 : Part.lamp ∈ ps) (h6 : Part.links ∈ ps) (h7 : Part.drives ∈ ps) (h8 : Part.signals ∈ ps) (h9 : Part.sources ∈ ps) (h10 : Part.postings ∈ ps)
    (h : Within ps c₀ c) : Within ps c₀ (Chip.motionEnd d halted c) := by
  unfold Chip.motionEnd
  (try dsimp only)
  repeat' split
  all_goals simp (maxDischargeDepth := 60) [h, h0, h1, h2, h3, h4, h5, h6, h7, h8, h9, h10]

@[simp] theorem Within.acceptedFaulty {ps : List Part} {c₀ c : Chip} (d : DriveId) (s : Option Sense) (h0 : Part.links ∈ ps) (h1 : Part.drives ∈ ps) (h2 : Part.signals ∈ ps) (h3 : Part.sources ∈ ps) (h4 : Part.postings ∈ ps)
    (h : Within ps c₀ c) : Within ps c₀ (Chip.acceptedFaulty d s c) := by
  unfold Chip.acceptedFaulty
  (try dsimp only)
  repeat' split
  all_goals simp (maxDischargeDepth := 60) [h, h0, h1, h2, h3, h4]

@[simp] theorem Within.moveAccepted {ps : List Part} {c₀ c : Chip} (d : DriveId) (h0 : Part.drives ∈ ps) (h1 : Part.signals ∈ ps) (h2 : Part.postings ∈ ps)
    (h : Within ps c₀ c) : Within ps c₀ (Chip.moveAccepted d c) := by
  unfold Chip.moveAccepted
  (try dsimp only)
  repeat' split
  all_goals simp (maxDischargeDepth := 60) [h, h0, h1, h2]

@[simp] theorem Within.takeKeptEnd {ps : List Part} {c₀ c : Chip} (d : DriveId) (h0 : Part.slots ∈ ps) (h1 : Part.spans ∈ ps) (h2 : Part.fetch ∈ ps) (h3 : Part.claims ∈ ps) (h4 : Part.trig ∈ ps) (h5 : Part.lamp ∈ ps) (h6 : Part.links ∈ ps) (h7 : Part.drives ∈ ps) (h8 : Part.signals ∈ ps) (h9 : Part.sources ∈ ps) (h10 : Part.postings ∈ ps)
    (h : Within ps c₀ c) : Within ps c₀ (Chip.takeKeptEnd d c) := by
  unfold Chip.takeKeptEnd
  (try dsimp only)
  repeat' split
  all_goals simp (maxDischargeDepth := 60) [h, h0, h1, h2, h3, h4, h5, h6, h7, h8, h9, h10]

@[simp] theorem Within.moveBusy {ps : List Part} {c₀ c : Chip} (d : DriveId) (h0 : Part.drives ∈ ps) (h1 : Part.signals ∈ ps) (h2 : Part.sources ∈ ps) (h3 : Part.postings ∈ ps)
    (h : Within ps c₀ c) : Within ps c₀ (Chip.moveBusy d c) := by
  unfold Chip.moveBusy
  (try dsimp only)
  repeat' split
  all_goals simp (maxDischargeDepth := 60) [h, h0, h1, h2, h3]

@[simp] theorem Within.moveGone {ps : List Part} {c₀ c : Chip} (d : DriveId) (h0 : Part.drives ∈ ps)
    (h : Within ps c₀ c) : Within ps c₀ (Chip.moveGone d c) := by
  unfold Chip.moveGone
  (try dsimp only)
  repeat' split
  all_goals simp (maxDischargeDepth := 60) [h, h0]

@[simp] theorem Within.moveTurned {ps : List Part} {c₀ c : Chip} (d : DriveId) (h0 : Part.drives ∈ ps)
    (h : Within ps c₀ c) : Within ps c₀ (Chip.moveTurned d c) := by
  unfold Chip.moveTurned
  (try dsimp only)
  repeat' split
  all_goals simp (maxDischargeDepth := 60) [h, h0]

@[simp] theorem Within.moveDone {ps : List Part} {c₀ c : Chip} (d : DriveId) (st : Status) (s : Option Sense) (h0 : Part.slots ∈ ps) (h1 : Part.spans ∈ ps) (h2 : Part.fetch ∈ ps) (h3 : Part.claims ∈ ps) (h4 : Part.trig ∈ ps) (h5 : Part.lamp ∈ ps) (h6 : Part.links ∈ ps) (h7 : Part.drives ∈ ps) (h8 : Part.signals ∈ ps) (h9 : Part.sources ∈ ps) (h10 : Part.postings ∈ ps)
    (h : Within ps c₀ c) : Within ps c₀ (Chip.moveDone d st s c) := by
  unfold Chip.moveDone
  (try dsimp only)
  repeat' split
  all_goals simp (maxDischargeDepth := 60) [h, h0, h1, h2, h3, h4, h5, h6, h7, h8, h9, h10]

@[simp] theorem Within.moveRefused {ps : List Part} {c₀ c : Chip} (d : DriveId) (h0 : Part.drives ∈ ps) (h1 : Part.signals ∈ ps) (h2 : Part.sources ∈ ps) (h3 : Part.postings ∈ ps)
    (h : Within ps c₀ c) : Within ps c₀ (Chip.moveRefused d c) := by
  unfold Chip.moveRefused
  (try dsimp only)
  repeat' split
  all_goals simp (maxDischargeDepth := 60) [h, h0, h1, h2, h3]

@[simp] theorem Within.faultReport {ps : List Part} {c₀ c : Chip} (d : DriveId) (s : Option Sense) (h0 : Part.links ∈ ps) (h1 : Part.drives ∈ ps) (h2 : Part.signals ∈ ps) (h3 : Part.sources ∈ ps) (h4 : Part.postings ∈ ps)
    (h : Within ps c₀ c) : Within ps c₀ (Chip.faultReport d s c) := by
  unfold Chip.faultReport
  (try dsimp only)
  repeat' split
  all_goals simp (maxDischargeDepth := 60) [h, h0, h1, h2, h3, h4]

@[simp] theorem Within.haltDone {ps : List Part} {c₀ c : Chip} (d : DriveId) (st : Status) (s : Option Sense) (h0 : Part.slots ∈ ps) (h1 : Part.spans ∈ ps) (h2 : Part.fetch ∈ ps) (h3 : Part.claims ∈ ps) (h4 : Part.trig ∈ ps) (h5 : Part.lamp ∈ ps) (h6 : Part.links ∈ ps) (h7 : Part.drives ∈ ps) (h8 : Part.signals ∈ ps) (h9 : Part.sources ∈ ps) (h10 : Part.postings ∈ ps)
    (h : Within ps c₀ c) : Within ps c₀ (Chip.haltDone d st s c) := by
  unfold Chip.haltDone
  (try dsimp only)
  repeat' split
  all_goals simp (maxDischargeDepth := 60) [h, h0, h1, h2, h3, h4, h5, h6, h7, h8, h9, h10]

@[simp] theorem Within.moveWithdrawn {ps : List Part} {c₀ c : Chip} (d : DriveId) (h0 : Part.slots ∈ ps) (h1 : Part.spans ∈ ps) (h2 : Part.fetch ∈ ps) (h3 : Part.claims ∈ ps) (h4 : Part.trig ∈ ps) (h5 : Part.lamp ∈ ps) (h6 : Part.links ∈ ps) (h7 : Part.drives ∈ ps) (h8 : Part.signals ∈ ps) (h9 : Part.sources ∈ ps) (h10 : Part.postings ∈ ps)
    (h : Within ps c₀ c) : Within ps c₀ (Chip.moveWithdrawn d c) := by
  unfold Chip.moveWithdrawn
  (try dsimp only)
  repeat' split
  all_goals simp (maxDischargeDepth := 60) [h, h0, h1, h2, h3, h4, h5, h6, h7, h8, h9, h10]

@[simp] theorem Within.serviceOver {ps : List Part} {c₀ c : Chip} (d : DriveId) (h0 : Part.slots ∈ ps) (h1 : Part.spans ∈ ps) (h2 : Part.fetch ∈ ps) (h3 : Part.claims ∈ ps) (h4 : Part.trig ∈ ps) (h5 : Part.lamp ∈ ps) (h6 : Part.drives ∈ ps) (h7 : Part.sources ∈ ps) (h8 : Part.postings ∈ ps)
    (h : Within ps c₀ c) : Within ps c₀ (Chip.serviceOver d c) := by
  unfold Chip.serviceOver
  (try dsimp only)
  repeat' split
  all_goals simp (maxDischargeDepth := 60) [h, h0, h1, h2, h3, h4, h5, h6, h7, h8]

@[simp] theorem Within.serviceLost {ps : List Part} {c₀ c : Chip} (d : DriveId) (h0 : Part.slots ∈ ps) (h1 : Part.spans ∈ ps) (h2 : Part.fetch ∈ ps) (h3 : Part.claims ∈ ps) (h4 : Part.trig ∈ ps) (h5 : Part.lamp ∈ ps) (h6 : Part.drives ∈ ps) (h7 : Part.sources ∈ ps) (h8 : Part.postings ∈ ps)
    (h : Within ps c₀ c) : Within ps c₀ (Chip.serviceLost d c) := by
  unfold Chip.serviceLost
  (try dsimp only)
  repeat' split
  all_goals simp (maxDischargeDepth := 60) [h, h0, h1, h2, h3, h4, h5, h6, h7, h8]

@[simp] theorem Within.serviceBusy {ps : List Part} {c₀ c : Chip} (d : DriveId) (h0 : Part.slots ∈ ps) (h1 : Part.spans ∈ ps) (h2 : Part.fetch ∈ ps) (h3 : Part.claims ∈ ps) (h4 : Part.trig ∈ ps) (h5 : Part.lamp ∈ ps) (h6 : Part.drives ∈ ps) (h7 : Part.sources ∈ ps) (h8 : Part.postings ∈ ps)
    (h : Within ps c₀ c) : Within ps c₀ (Chip.serviceBusy d c) := by
  unfold Chip.serviceBusy
  (try dsimp only)
  repeat' split
  all_goals simp (maxDischargeDepth := 60) [h, h0, h1, h2, h3, h4, h5, h6, h7, h8]

@[simp] theorem Within.senseDone {ps : List Part} {c₀ c : Chip} (d : DriveId) (st : Status) (s : Sense) (h0 : Part.slots ∈ ps) (h1 : Part.spans ∈ ps) (h2 : Part.fetch ∈ ps) (h3 : Part.claims ∈ ps) (h4 : Part.trig ∈ ps) (h5 : Part.lamp ∈ ps) (h6 : Part.links ∈ ps) (h7 : Part.drives ∈ ps) (h8 : Part.signals ∈ ps) (h9 : Part.sources ∈ ps) (h10 : Part.postings ∈ ps)
    (h : Within ps c₀ c) : Within ps c₀ (Chip.senseDone d st s c) := by
  unfold Chip.senseDone
  (try dsimp only)
  repeat' split
  all_goals simp (maxDischargeDepth := 60) [h, h0, h1, h2, h3, h4, h5, h6, h7, h8, h9, h10]

@[simp] theorem Within.clearTaken {ps : List Part} {c₀ c : Chip} (d : DriveId) (h0 : Part.slots ∈ ps) (h1 : Part.spans ∈ ps) (h2 : Part.fetch ∈ ps) (h3 : Part.claims ∈ ps) (h4 : Part.trig ∈ ps) (h5 : Part.lamp ∈ ps) (h6 : Part.drives ∈ ps) (h7 : Part.signals ∈ ps) (h8 : Part.sources ∈ ps) (h9 : Part.postings ∈ ps)
    (h : Within ps c₀ c) : Within ps c₀ (Chip.clearTaken d c) := by
  unfold Chip.clearTaken
  (try dsimp only)
  repeat' split
  all_goals simp (maxDischargeDepth := 60) [h, h0, h1, h2, h3, h4, h5, h6, h7, h8, h9]

@[simp] theorem Within.clearDone {ps : List Part} {c₀ c : Chip} (d : DriveId) (st : Status) (s : Option Sense) (h0 : Part.slots ∈ ps) (h1 : Part.spans ∈ ps) (h2 : Part.fetch ∈ ps) (h3 : Part.claims ∈ ps) (h4 : Part.trig ∈ ps) (h5 : Part.lamp ∈ ps) (h6 : Part.links ∈ ps) (h7 : Part.drives ∈ ps) (h8 : Part.signals ∈ ps) (h9 : Part.sources ∈ ps) (h10 : Part.postings ∈ ps)
    (h : Within ps c₀ c) : Within ps c₀ (Chip.clearDone d st s c) := by
  unfold Chip.clearDone
  (try dsimp only)
  repeat' split
  all_goals simp (maxDischargeDepth := 60) [h, h0, h1, h2, h3, h4, h5, h6, h7, h8, h9, h10]

@[simp] theorem Within.serviceDone {ps : List Part} {c₀ c : Chip} (d : DriveId) (cmd : Command) (st : Status) (s : Option Sense) (h0 : Part.slots ∈ ps) (h1 : Part.spans ∈ ps) (h2 : Part.fetch ∈ ps) (h3 : Part.claims ∈ ps) (h4 : Part.trig ∈ ps) (h5 : Part.lamp ∈ ps) (h6 : Part.links ∈ ps) (h7 : Part.drives ∈ ps) (h8 : Part.signals ∈ ps) (h9 : Part.sources ∈ ps) (h10 : Part.postings ∈ ps)
    (h : Within ps c₀ c) : Within ps c₀ (Chip.serviceDone d cmd st s c) := by
  unfold Chip.serviceDone
  (try dsimp only)
  repeat' split
  all_goals simp (maxDischargeDepth := 60) [h, h0, h1, h2, h3, h4, h5, h6, h7, h8, h9, h10]

@[simp] theorem Within.tellSense {ps : List Part} {c₀ c : Chip} (d : DriveId) (s : Option Sense) (h0 : Part.signals ∈ ps)
    (h : Within ps c₀ c) : Within ps c₀ (Chip.tellSense d s c) := by
  unfold Chip.tellSense
  split
  all_goals simp [h, h0]

@[simp] theorem Within.driveOnline {ps : List Part} {c₀ c : Chip} (d : DriveId) (i0 : Byte) (i1 : Byte) (s : Option Sense) (h0 : Part.slots ∈ ps) (h1 : Part.spans ∈ ps) (h2 : Part.fetch ∈ ps) (h3 : Part.claims ∈ ps) (h4 : Part.trig ∈ ps) (h5 : Part.lamp ∈ ps) (h6 : Part.drives ∈ ps) (h7 : Part.signals ∈ ps) (h8 : Part.sources ∈ ps) (h9 : Part.postings ∈ ps)
    (h : Within ps c₀ c) : Within ps c₀ (Chip.driveOnline d i0 i1 s c) := by
  unfold Chip.driveOnline
  (try dsimp only)
  repeat' split
  all_goals simp (maxDischargeDepth := 60) [h, h0, h1, h2, h3, h4, h5, h6, h7, h8, h9]

@[simp] theorem Within.driveOffline {ps : List Part} {c₀ c : Chip} (d : DriveId) (h0 : Part.drives ∈ ps) (h1 : Part.signals ∈ ps) (h2 : Part.sources ∈ ps) (h3 : Part.postings ∈ ps)
    (h : Within ps c₀ c) : Within ps c₀ (Chip.driveOffline d c) := by
  unfold Chip.driveOffline
  (try dsimp only)
  repeat' split
  all_goals simp (maxDischargeDepth := 60) [h, h0, h1, h2, h3]

@[simp] theorem Within.polled {ps : List Part} {c₀ c : Chip} (d : DriveId) (st : Status) (s : Option Sense) (h0 : Part.slots ∈ ps) (h1 : Part.spans ∈ ps) (h2 : Part.fetch ∈ ps) (h3 : Part.claims ∈ ps) (h4 : Part.trig ∈ ps) (h5 : Part.lamp ∈ ps) (h6 : Part.links ∈ ps) (h7 : Part.drives ∈ ps) (h8 : Part.signals ∈ ps) (h9 : Part.sources ∈ ps) (h10 : Part.postings ∈ ps)
    (h : Within ps c₀ c) : Within ps c₀ (Chip.polled d st s c) := by
  unfold Chip.polled
  (try dsimp only)
  repeat' split
  all_goals simp (maxDischargeDepth := 60) [h, h0, h1, h2, h3, h4, h5, h6, h7, h8, h9, h10]

@[simp] theorem Within.driveDone {ps : List Part} {c₀ c : Chip} (d : DriveId) (cmd : Command) (st : Status) (s : Option Sense) (h0 : Part.slots ∈ ps) (h1 : Part.spans ∈ ps) (h2 : Part.fetch ∈ ps) (h3 : Part.claims ∈ ps) (h4 : Part.trig ∈ ps) (h5 : Part.lamp ∈ ps) (h6 : Part.links ∈ ps) (h7 : Part.drives ∈ ps) (h8 : Part.signals ∈ ps) (h9 : Part.sources ∈ ps) (h10 : Part.postings ∈ ps)
    (h : Within ps c₀ c) : Within ps c₀ (Chip.driveDone d cmd st s c) := by
  unfold Chip.driveDone
  (try dsimp only)
  repeat' split
  all_goals simp (maxDischargeDepth := 60) [h, h0, h1, h2, h3, h4, h5, h6, h7, h8, h9, h10]

@[simp] theorem Within.driveRefused {ps : List Part} {c₀ c : Chip} (d : DriveId) (cmd : Command) (h0 : Part.slots ∈ ps) (h1 : Part.spans ∈ ps) (h2 : Part.fetch ∈ ps) (h3 : Part.claims ∈ ps) (h4 : Part.trig ∈ ps) (h5 : Part.lamp ∈ ps) (h6 : Part.drives ∈ ps) (h7 : Part.signals ∈ ps) (h8 : Part.sources ∈ ps) (h9 : Part.postings ∈ ps)
    (h : Within ps c₀ c) : Within ps c₀ (Chip.driveRefused d cmd c) := by
  unfold Chip.driveRefused
  (try dsimp only)
  repeat' split
  all_goals simp (maxDischargeDepth := 60) [h, h0, h1, h2, h3, h4, h5, h6, h7, h8, h9]

@[simp] theorem Within.driveReport {ps : List Part} {c₀ c : Chip} (d : DriveId) (r : LinkReport) (h0 : Part.slots ∈ ps) (h1 : Part.spans ∈ ps) (h2 : Part.fetch ∈ ps) (h3 : Part.claims ∈ ps) (h4 : Part.trig ∈ ps) (h5 : Part.lamp ∈ ps) (h6 : Part.links ∈ ps) (h7 : Part.drives ∈ ps) (h8 : Part.signals ∈ ps) (h9 : Part.sources ∈ ps) (h10 : Part.postings ∈ ps)
    (h : Within ps c₀ c) : Within ps c₀ (Chip.driveReport d r c) := by
  unfold Chip.driveReport
  (try dsimp only)
  repeat' split
  all_goals simp (maxDischargeDepth := 60) [h, h0, h1, h2, h3, h4, h5, h6, h7, h8, h9, h10]

@[simp] theorem Within.linkReport {ps : List Part} {c₀ c : Chip} (l : LinkId) (a : AddrId) (r : LinkReport) (h0 : Part.slots ∈ ps) (h1 : Part.spans ∈ ps) (h2 : Part.fetch ∈ ps) (h3 : Part.claims ∈ ps) (h4 : Part.trig ∈ ps) (h5 : Part.lamp ∈ ps) (h6 : Part.links ∈ ps) (h7 : Part.drives ∈ ps) (h8 : Part.signals ∈ ps) (h9 : Part.sources ∈ ps) (h10 : Part.postings ∈ ps)
    (h : Within ps c₀ c) : Within ps c₀ (Chip.linkReport l a r c) := by
  unfold Chip.linkReport
  (try dsimp only)
  repeat' split
  all_goals simp (maxDischargeDepth := 60) [h, h0, h1, h2, h3, h4, h5, h6, h7, h8, h9, h10]

@[simp] theorem Within.settleExpired {ps : List Part} {c₀ c : Chip} (d : DriveId) (h0 : Part.slots ∈ ps) (h1 : Part.spans ∈ ps) (h2 : Part.fetch ∈ ps) (h3 : Part.claims ∈ ps) (h4 : Part.trig ∈ ps) (h5 : Part.lamp ∈ ps) (h6 : Part.links ∈ ps) (h7 : Part.drives ∈ ps) (h8 : Part.signals ∈ ps) (h9 : Part.sources ∈ ps) (h10 : Part.postings ∈ ps)
    (h : Within ps c₀ c) : Within ps c₀ (Chip.settleExpired d c) := by
  unfold Chip.settleExpired
  (try dsimp only)
  repeat' split
  all_goals simp (maxDischargeDepth := 60) [h, h0, h1, h2, h3, h4, h5, h6, h7, h8, h9, h10]

@[simp] theorem Within.retryExpired {ps : List Part} {c₀ c : Chip} (d : DriveId) (h0 : Part.links ∈ ps) (h1 : Part.drives ∈ ps) (h2 : Part.signals ∈ ps)
    (h : Within ps c₀ c) : Within ps c₀ (Chip.retryExpired d c) := by
  unfold Chip.retryExpired
  (try dsimp only)
  repeat' split
  all_goals simp (maxDischargeDepth := 60) [h, h0, h1, h2]

@[simp] theorem Within.recallMove {ps : List Part} {c₀ c : Chip} (d : DriveId) (h0 : Part.links ∈ ps) (h1 : Part.signals ∈ ps)
    (h : Within ps c₀ c) : Within ps c₀ (Chip.recallMove d c) := by
  unfold Chip.recallMove
  (try dsimp only)
  repeat' split
  all_goals simp (maxDischargeDepth := 60) [h, h0, h1]

@[simp] theorem Within.guardDrive {ps : List Part} {c₀ c : Chip} (d : DriveId) (h0 : Part.slots ∈ ps) (h1 : Part.spans ∈ ps) (h2 : Part.fetch ∈ ps) (h3 : Part.claims ∈ ps) (h4 : Part.trig ∈ ps) (h5 : Part.lamp ∈ ps) (h6 : Part.links ∈ ps) (h7 : Part.drives ∈ ps) (h8 : Part.signals ∈ ps) (h9 : Part.sources ∈ ps) (h10 : Part.postings ∈ ps)
    (h : Within ps c₀ c) : Within ps c₀ (Chip.guardDrive d c) := by
  unfold Chip.guardDrive
  (try dsimp only)
  repeat' split
  all_goals simp (maxDischargeDepth := 60) [h, h0, h1, h2, h3, h4, h5, h6, h7, h8, h9, h10]

@[simp] theorem Within.haltBay {ps : List Part} {c₀ c : Chip} (b : BayId) (h0 : Part.slots ∈ ps) (h1 : Part.spans ∈ ps) (h2 : Part.fetch ∈ ps) (h3 : Part.claims ∈ ps) (h4 : Part.trig ∈ ps) (h5 : Part.lamp ∈ ps) (h6 : Part.links ∈ ps) (h7 : Part.drives ∈ ps) (h8 : Part.signals ∈ ps) (h9 : Part.sources ∈ ps) (h10 : Part.postings ∈ ps)
    (h : Within ps c₀ c) : Within ps c₀ (Chip.haltBay b c) := by
  unfold Chip.haltBay
  (try dsimp only)
  repeat' split
  all_goals simp (maxDischargeDepth := 60) [h, h0, h1, h2, h3, h4, h5, h6, h7, h8, h9, h10]

@[simp] theorem Within.bayWork {ps : List Part} {c₀ c : Chip} (b : BayId) (h0 : Part.slots ∈ ps) (h1 : Part.spans ∈ ps) (h2 : Part.fetch ∈ ps) (h3 : Part.claims ∈ ps) (h4 : Part.trig ∈ ps) (h5 : Part.lamp ∈ ps) (h6 : Part.links ∈ ps) (h7 : Part.drives ∈ ps) (h8 : Part.bays ∈ ps) (h9 : Part.signals ∈ ps) (h10 : Part.sources ∈ ps) (h11 : Part.postings ∈ ps)
    (h : Within ps c₀ c) : Within ps c₀ (Chip.bayWork b c) := by
  unfold Chip.bayWork
  (try dsimp only)
  repeat' split
  all_goals simp (maxDischargeDepth := 60) [h, h0, h1, h2, h3, h4, h5, h6, h7, h8, h9, h10, h11]

@[simp] theorem Within.driveEntryRead {ps : List Part} {c₀ c : Chip} (m : Memory) (d : DriveId) (h0 : Part.drives ∈ ps)
    (h : Within ps c₀ c) : Within ps c₀ (Chip.driveEntryRead m d c) := by
  unfold Chip.driveEntryRead
  (try dsimp only)
  repeat' split
  all_goals simp (maxDischargeDepth := 60) [h, h0]

@[simp] theorem Within.drivesRead {ps : List Part} {c₀ c : Chip} (h0 : Part.links ∈ ps)
    (h : Within ps c₀ c) : Within ps c₀ (Chip.drivesRead c) := by
  unfold Chip.drivesRead
  (try dsimp only)
  repeat' split
  all_goals simp (maxDischargeDepth := 60) [h, h0]

@[simp] theorem Within.slotTo {ps : List Part} {c₀ c : Chip} (i : SlotId) (st : SlotState) (h0 : Part.slots ∈ ps) (h1 : Part.postings ∈ ps)
    (h : Within ps c₀ c) : Within ps c₀ (Chip.slotTo i st c) := by
  unfold Chip.slotTo
  (try dsimp only)
  repeat' split
  all_goals simp (maxDischargeDepth := 60) [h, h0, h1]

@[simp] theorem Within.waitOn {ps : List Part} {c₀ c : Chip} (i : SlotId) (k : WaitCond) (h0 : Part.slots ∈ ps) (h1 : Part.postings ∈ ps)
    (h : Within ps c₀ c) : Within ps c₀ (Chip.waitOn i k c) := by
  unfold Chip.waitOn
  (try dsimp only)
  repeat' split
  all_goals simp (maxDischargeDepth := 60) [h, h0, h1]

@[simp] theorem Within.endingTest {ps : List Part} {c₀ c : Chip} (i : SlotId) (h0 : Part.slots ∈ ps) (h1 : Part.spans ∈ ps) (h2 : Part.fetch ∈ ps) (h3 : Part.claims ∈ ps) (h4 : Part.trig ∈ ps) (h5 : Part.lamp ∈ ps) (h6 : Part.sources ∈ ps) (h7 : Part.postings ∈ ps)
    (h : Within ps c₀ c) : Within ps c₀ (Chip.endingTest i c) := by
  unfold Chip.endingTest
  (try dsimp only)
  repeat' split
  all_goals simp (maxDischargeDepth := 60) [h, h0, h1, h2, h3, h4, h5, h6, h7]

@[simp] theorem Within.endVoice {ps : List Part} {c₀ c : Chip} (v : Option VoiceId) (h0 : Part.spans ∈ ps) (h1 : Part.voices ∈ ps) (h2 : Part.signals ∈ ps) (h3 : Part.postings ∈ ps)
    (h : Within ps c₀ c) : Within ps c₀ (Chip.endVoice v c) := by
  unfold Chip.endVoice
  (try dsimp only)
  repeat' split
  all_goals simp (maxDischargeDepth := 60) [h, h0, h1, h2, h3]

@[simp] theorem Within.enterEnding {ps : List Part} {c₀ c : Chip} (i : SlotId) (cause : Cause) (h0 : Part.slots ∈ ps) (h1 : Part.spans ∈ ps) (h2 : Part.fetch ∈ ps) (h3 : Part.claims ∈ ps) (h4 : Part.trig ∈ ps) (h5 : Part.lamp ∈ ps) (h6 : Part.voices ∈ ps) (h7 : Part.links ∈ ps) (h8 : Part.drives ∈ ps) (h9 : Part.signals ∈ ps) (h10 : Part.sources ∈ ps) (h11 : Part.postings ∈ ps)
    (h : Within ps c₀ c) : Within ps c₀ (Chip.enterEnding i cause c) := by
  unfold Chip.enterEnding
  (try dsimp only)
  repeat' split
  all_goals simp (maxDischargeDepth := 60) [h, h0, h1, h2, h3, h4, h5, h6, h7, h8, h9, h10, h11]

@[simp] theorem Within.endSlot {ps : List Part} {c₀ c : Chip} (i : SlotId) (cause : Cause) (h0 : Part.slots ∈ ps) (h1 : Part.spans ∈ ps) (h2 : Part.fetch ∈ ps) (h3 : Part.claims ∈ ps) (h4 : Part.trig ∈ ps) (h5 : Part.lamp ∈ ps) (h6 : Part.voices ∈ ps) (h7 : Part.links ∈ ps) (h8 : Part.drives ∈ ps) (h9 : Part.signals ∈ ps) (h10 : Part.sources ∈ ps) (h11 : Part.postings ∈ ps)
    (h : Within ps c₀ c) : Within ps c₀ (Chip.endSlot i cause c) := by
  unfold Chip.endSlot
  (try dsimp only)
  repeat' split
  all_goals simp (maxDischargeDepth := 60) [h, h0, h1, h2, h3, h4, h5, h6, h7, h8, h9, h10, h11]

@[simp] theorem Within.failSlot {ps : List Part} {c₀ c : Chip} (i : SlotId) (cause : Cause) (cue : Nat) (h0 : Part.slots ∈ ps) (h1 : Part.spans ∈ ps) (h2 : Part.fetch ∈ ps) (h3 : Part.claims ∈ ps) (h4 : Part.trig ∈ ps) (h5 : Part.lamp ∈ ps) (h6 : Part.voices ∈ ps) (h7 : Part.links ∈ ps) (h8 : Part.drives ∈ ps) (h9 : Part.signals ∈ ps) (h10 : Part.sources ∈ ps) (h11 : Part.postings ∈ ps)
    (h : Within ps c₀ c) : Within ps c₀ (Chip.failSlot i cause cue c) := by
  unfold Chip.failSlot
  (try dsimp only)
  repeat' split
  all_goals simp (maxDischargeDepth := 60) [h, h0, h1, h2, h3, h4, h5, h6, h7, h8, h9, h10, h11]

@[simp] theorem Within.completeCue {ps : List Part} {c₀ c : Chip} (i : SlotId) (r : CueRec) (jumps : Bool) (h0 : Part.slots ∈ ps) (h1 : Part.spans ∈ ps) (h2 : Part.fetch ∈ ps) (h3 : Part.claims ∈ ps) (h4 : Part.trig ∈ ps) (h5 : Part.lamp ∈ ps) (h6 : Part.voices ∈ ps) (h7 : Part.links ∈ ps) (h8 : Part.drives ∈ ps) (h9 : Part.signals ∈ ps) (h10 : Part.sources ∈ ps) (h11 : Part.postings ∈ ps)
    (h : Within ps c₀ c) : Within ps c₀ (Chip.completeCue i r jumps c) := by
  unfold Chip.completeCue
  (try dsimp only)
  repeat' split
  all_goals simp (maxDischargeDepth := 60) [h, h0, h1, h2, h3, h4, h5, h6, h7, h8, h9, h10, h11]

@[simp] theorem Within.markIssued {ps : List Part} {c₀ c : Chip} (i : SlotId) (following : Option Nat) (h0 : Part.slots ∈ ps) (h1 : Part.fetch ∈ ps) (h2 : Part.postings ∈ ps)
    (h : Within ps c₀ c) : Within ps c₀ (Chip.markIssued i following c) := by
  unfold Chip.markIssued
  (try dsimp only)
  repeat' split
  all_goals simp (maxDischargeDepth := 60) [h, h0, h1, h2]

@[simp] theorem Within.issueLamp {ps : List Part} {c₀ c : Chip} (i : SlotId) (r : CueRec) (l : LampId) (level : Nat) (fade : Nat) (h0 : Part.slots ∈ ps) (h1 : Part.spans ∈ ps) (h2 : Part.fetch ∈ ps) (h3 : Part.claims ∈ ps) (h4 : Part.trig ∈ ps) (h5 : Part.lamp ∈ ps) (h6 : Part.voices ∈ ps) (h7 : Part.links ∈ ps) (h8 : Part.drives ∈ ps) (h9 : Part.signals ∈ ps) (h10 : Part.sources ∈ ps) (h11 : Part.postings ∈ ps)
    (h : Within ps c₀ c) : Within ps c₀ (Chip.issueLamp i r l level fade c) := by
  unfold Chip.issueLamp
  (try dsimp only)
  repeat' split
  all_goals simp (maxDischargeDepth := 60) [h, h0, h1, h2, h3, h4, h5, h6, h7, h8, h9, h10, h11]

@[simp] theorem Within.issueSpeak {ps : List Part} {c₀ c : Chip} (i : SlotId) (v : Fin 2) (clip : Nat) (volume : Nat) (h0 : Part.slots ∈ ps) (h1 : Part.voices ∈ ps) (h2 : Part.postings ∈ ps)
    (h : Within ps c₀ c) : Within ps c₀ (Chip.issueSpeak i v clip volume c) := by
  unfold Chip.issueSpeak
  (try dsimp only)
  repeat' split
  all_goals simp (maxDischargeDepth := 60) [h, h0, h1, h2]

@[simp] theorem Within.issueHush {ps : List Part} {c₀ c : Chip} (i : SlotId) (r : CueRec) (v : Fin 2) (fade : Nat) (h0 : Part.slots ∈ ps) (h1 : Part.spans ∈ ps) (h2 : Part.fetch ∈ ps) (h3 : Part.claims ∈ ps) (h4 : Part.trig ∈ ps) (h5 : Part.lamp ∈ ps) (h6 : Part.voices ∈ ps) (h7 : Part.links ∈ ps) (h8 : Part.drives ∈ ps) (h9 : Part.signals ∈ ps) (h10 : Part.sources ∈ ps) (h11 : Part.postings ∈ ps)
    (h : Within ps c₀ c) : Within ps c₀ (Chip.issueHush i r v fade c) := by
  unfold Chip.issueHush
  (try dsimp only)
  repeat' split
  all_goals simp (maxDischargeDepth := 60) [h, h0, h1, h2, h3, h4, h5, h6, h7, h8, h9, h10, h11]

@[simp] theorem Within.flagMarkMissed {ps : List Part} {c₀ c : Chip} (i : SlotId) (h0 : Part.slots ∈ ps)
    (h : Within ps c₀ c) : Within ps c₀ (Chip.flagMarkMissed i c) := by
  unfold Chip.flagMarkMissed
  (try dsimp only)
  repeat' split
  all_goals simp (maxDischargeDepth := 60) [h, h0]

@[simp] theorem Within.issueWait {ps : List Part} {c₀ c : Chip} (i : SlotId) (r : CueRec) (k : WaitCond) (timeout : Nat) (h0 : Part.slots ∈ ps) (h1 : Part.spans ∈ ps) (h2 : Part.fetch ∈ ps) (h3 : Part.claims ∈ ps) (h4 : Part.trig ∈ ps) (h5 : Part.lamp ∈ ps) (h6 : Part.voices ∈ ps) (h7 : Part.links ∈ ps) (h8 : Part.drives ∈ ps) (h9 : Part.signals ∈ ps) (h10 : Part.sources ∈ ps) (h11 : Part.postings ∈ ps)
    (h : Within ps c₀ c) : Within ps c₀ (Chip.issueWait i r k timeout c) := by
  unfold Chip.issueWait
  (try dsimp only)
  repeat' split
  all_goals simp (maxDischargeDepth := 60) [h, h0, h1, h2, h3, h4, h5, h6, h7, h8, h9, h10, h11]

@[simp] theorem Within.issueLoop {ps : List Part} {c₀ c : Chip} (i : SlotId) (r : CueRec) (rel : Nat) (count : Nat) (h0 : Part.slots ∈ ps) (h1 : Part.spans ∈ ps) (h2 : Part.fetch ∈ ps) (h3 : Part.claims ∈ ps) (h4 : Part.trig ∈ ps) (h5 : Part.lamp ∈ ps) (h6 : Part.voices ∈ ps) (h7 : Part.links ∈ ps) (h8 : Part.drives ∈ ps) (h9 : Part.signals ∈ ps) (h10 : Part.sources ∈ ps) (h11 : Part.postings ∈ ps)
    (h : Within ps c₀ c) : Within ps c₀ (Chip.issueLoop i r rel count c) := by
  unfold Chip.issueLoop
  (try dsimp only)
  repeat' split
  all_goals simp (maxDischargeDepth := 60) [h, h0, h1, h2, h3, h4, h5, h6, h7, h8, h9, h10, h11]

@[simp] theorem Within.handCueMove {ps : List Part} {c₀ c : Chip} (i : SlotId) (cue : Nat) (r : CueRec) (d : DriveId) (k : MoveCode) (arg : Half) (h0 : Part.slots ∈ ps) (h1 : Part.links ∈ ps) (h2 : Part.drives ∈ ps) (h3 : Part.signals ∈ ps) (h4 : Part.postings ∈ ps)
    (h : Within ps c₀ c) : Within ps c₀ (Chip.handCueMove i cue r d k arg c) := by
  unfold Chip.handCueMove
  (try dsimp only)
  repeat' split
  all_goals simp (maxDischargeDepth := 60) [h, h0, h1, h2, h3, h4]

@[simp] theorem Within.issueMove {ps : List Part} {c₀ c : Chip} (i : SlotId) (r : CueRec) (d : DriveId) (k : MoveCode) (arg : Half) (h0 : Part.slots ∈ ps) (h1 : Part.fetch ∈ ps) (h2 : Part.links ∈ ps) (h3 : Part.drives ∈ ps) (h4 : Part.signals ∈ ps) (h5 : Part.postings ∈ ps)
    (h : Within ps c₀ c) : Within ps c₀ (Chip.issueMove i r d k arg c) := by
  unfold Chip.issueMove
  (try dsimp only)
  repeat' split
  all_goals simp (maxDischargeDepth := 60) [h, h0, h1, h2, h3, h4, h5]

@[simp] theorem Within.moveTests {ps : List Part} {c₀ c : Chip} (i : SlotId) (r : CueRec) (d : DriveId) (k : MoveCode) (arg : Half) (h0 : Part.slots ∈ ps) (h1 : Part.fetch ∈ ps) (h2 : Part.links ∈ ps) (h3 : Part.drives ∈ ps) (h4 : Part.signals ∈ ps) (h5 : Part.postings ∈ ps)
    (h : Within ps c₀ c) : Within ps c₀ (Chip.moveTests i r d k arg c) := by
  unfold Chip.moveTests
  (try dsimp only)
  repeat' split
  all_goals simp (maxDischargeDepth := 60) [h, h0, h1, h2, h3, h4, h5]

@[simp] theorem Within.retryMove {ps : List Part} {c₀ c : Chip} (i : SlotId) (h0 : Part.slots ∈ ps) (h1 : Part.fetch ∈ ps) (h2 : Part.links ∈ ps) (h3 : Part.drives ∈ ps) (h4 : Part.signals ∈ ps) (h5 : Part.postings ∈ ps)
    (h : Within ps c₀ c) : Within ps c₀ (Chip.retryMove i c) := by
  unfold Chip.retryMove
  (try dsimp only)
  repeat' split
  all_goals simp (maxDischargeDepth := 60) [h, h0, h1, h2, h3, h4, h5]

@[simp] theorem Within.issueCue {ps : List Part} {c₀ c : Chip} (i : SlotId) (r : CueRec) (h0 : Part.slots ∈ ps) (h1 : Part.spans ∈ ps) (h2 : Part.fetch ∈ ps) (h3 : Part.claims ∈ ps) (h4 : Part.trig ∈ ps) (h5 : Part.lamp ∈ ps) (h6 : Part.voices ∈ ps) (h7 : Part.links ∈ ps) (h8 : Part.drives ∈ ps) (h9 : Part.signals ∈ ps) (h10 : Part.sources ∈ ps) (h11 : Part.postings ∈ ps)
    (h : Within ps c₀ c) : Within ps c₀ (Chip.issueCue i r c) := by
  unfold Chip.issueCue
  (try dsimp only)
  repeat' split
  all_goals simp (maxDischargeDepth := 60) [h, h0, h1, h2, h3, h4, h5, h6, h7, h8, h9, h10, h11]

@[simp] theorem Within.tryIssue {ps : List Part} {c₀ c : Chip} (i : SlotId) (h0 : Part.slots ∈ ps) (h1 : Part.spans ∈ ps) (h2 : Part.fetch ∈ ps) (h3 : Part.claims ∈ ps) (h4 : Part.trig ∈ ps) (h5 : Part.lamp ∈ ps) (h6 : Part.voices ∈ ps) (h7 : Part.links ∈ ps) (h8 : Part.drives ∈ ps) (h9 : Part.signals ∈ ps) (h10 : Part.sources ∈ ps) (h11 : Part.postings ∈ ps)
    (h : Within ps c₀ c) : Within ps c₀ (Chip.tryIssue i c) := by
  unfold Chip.tryIssue
  (try dsimp only)
  repeat' split
  all_goals simp (maxDischargeDepth := 60) [h, h0, h1, h2, h3, h4, h5, h6, h7, h8, h9, h10, h11]

@[simp] theorem Within.completeWait {ps : List Part} {c₀ c : Chip} (i : SlotId) (h0 : Part.slots ∈ ps) (h1 : Part.spans ∈ ps) (h2 : Part.fetch ∈ ps) (h3 : Part.claims ∈ ps) (h4 : Part.trig ∈ ps) (h5 : Part.lamp ∈ ps) (h6 : Part.voices ∈ ps) (h7 : Part.links ∈ ps) (h8 : Part.drives ∈ ps) (h9 : Part.signals ∈ ps) (h10 : Part.sources ∈ ps) (h11 : Part.postings ∈ ps)
    (h : Within ps c₀ c) : Within ps c₀ (Chip.completeWait i c) := by
  unfold Chip.completeWait
  (try dsimp only)
  repeat' split
  all_goals simp (maxDischargeDepth := 60) [h, h0, h1, h2, h3, h4, h5, h6, h7, h8, h9, h10, h11]

@[simp] theorem Within.tryResume {ps : List Part} {c₀ c : Chip} (i : SlotId) (d : DriveId) (h0 : Part.slots ∈ ps) (h1 : Part.links ∈ ps) (h2 : Part.drives ∈ ps) (h3 : Part.signals ∈ ps) (h4 : Part.postings ∈ ps)
    (h : Within ps c₀ c) : Within ps c₀ (Chip.tryResume i d c) := by
  unfold Chip.tryResume
  (try dsimp only)
  repeat' split
  all_goals simp (maxDischargeDepth := 60) [h, h0, h1, h2, h3, h4]

@[simp] theorem Within.haltAnswered {ps : List Part} {c₀ c : Chip} (i : SlotId) (d : DriveId) (m : IssuedMove) (h0 : Part.slots ∈ ps) (h1 : Part.spans ∈ ps) (h2 : Part.fetch ∈ ps) (h3 : Part.claims ∈ ps) (h4 : Part.trig ∈ ps) (h5 : Part.lamp ∈ ps) (h6 : Part.voices ∈ ps) (h7 : Part.links ∈ ps) (h8 : Part.drives ∈ ps) (h9 : Part.signals ∈ ps) (h10 : Part.sources ∈ ps) (h11 : Part.postings ∈ ps)
    (h : Within ps c₀ c) : Within ps c₀ (Chip.haltAnswered i d m c) := by
  unfold Chip.haltAnswered
  (try dsimp only)
  repeat' split
  all_goals simp (maxDischargeDepth := 60) [h, h0, h1, h2, h3, h4, h5, h6, h7, h8, h9, h10, h11]

@[simp] theorem Within.slotSettled {ps : List Part} {c₀ c : Chip} (i : SlotId) (d : DriveId) (h0 : Part.slots ∈ ps) (h1 : Part.spans ∈ ps) (h2 : Part.fetch ∈ ps) (h3 : Part.claims ∈ ps) (h4 : Part.trig ∈ ps) (h5 : Part.lamp ∈ ps) (h6 : Part.voices ∈ ps) (h7 : Part.links ∈ ps) (h8 : Part.drives ∈ ps) (h9 : Part.signals ∈ ps) (h10 : Part.sources ∈ ps) (h11 : Part.postings ∈ ps)
    (h : Within ps c₀ c) : Within ps c₀ (Chip.slotSettled i d c) := by
  unfold Chip.slotSettled
  (try dsimp only)
  repeat' split
  all_goals simp (maxDischargeDepth := 60) [h, h0, h1, h2, h3, h4, h5, h6, h7, h8, h9, h10, h11]

@[simp] theorem Within.slotHalted {ps : List Part} {c₀ c : Chip} (i : SlotId) (d : DriveId) (h0 : Part.slots ∈ ps) (h1 : Part.spans ∈ ps) (h2 : Part.fetch ∈ ps) (h3 : Part.claims ∈ ps) (h4 : Part.trig ∈ ps) (h5 : Part.lamp ∈ ps) (h6 : Part.voices ∈ ps) (h7 : Part.links ∈ ps) (h8 : Part.drives ∈ ps) (h9 : Part.signals ∈ ps) (h10 : Part.sources ∈ ps) (h11 : Part.postings ∈ ps)
    (h : Within ps c₀ c) : Within ps c₀ (Chip.slotHalted i d c) := by
  unfold Chip.slotHalted
  (try dsimp only)
  repeat' split
  all_goals simp (maxDischargeDepth := 60) [h, h0, h1, h2, h3, h4, h5, h6, h7, h8, h9, h10, h11]

@[simp] theorem Within.slotFault {ps : List Part} {c₀ c : Chip} (i : SlotId) (d : DriveId) (s : Sense) (cause : Cause) (h0 : Part.slots ∈ ps) (h1 : Part.spans ∈ ps) (h2 : Part.fetch ∈ ps) (h3 : Part.claims ∈ ps) (h4 : Part.trig ∈ ps) (h5 : Part.lamp ∈ ps) (h6 : Part.voices ∈ ps) (h7 : Part.links ∈ ps) (h8 : Part.drives ∈ ps) (h9 : Part.signals ∈ ps) (h10 : Part.sources ∈ ps) (h11 : Part.postings ∈ ps)
    (h : Within ps c₀ c) : Within ps c₀ (Chip.slotFault i d s cause c) := by
  unfold Chip.slotFault
  (try dsimp only)
  repeat' split
  all_goals simp (maxDischargeDepth := 60) [h, h0, h1, h2, h3, h4, h5, h6, h7, h8, h9, h10, h11]

@[simp] theorem Within.slotRejected {ps : List Part} {c₀ c : Chip} (i : SlotId) (d : DriveId) (s : Sense) (h0 : Part.slots ∈ ps) (h1 : Part.spans ∈ ps) (h2 : Part.fetch ∈ ps) (h3 : Part.claims ∈ ps) (h4 : Part.trig ∈ ps) (h5 : Part.lamp ∈ ps) (h6 : Part.voices ∈ ps) (h7 : Part.links ∈ ps) (h8 : Part.drives ∈ ps) (h9 : Part.signals ∈ ps) (h10 : Part.sources ∈ ps) (h11 : Part.postings ∈ ps)
    (h : Within ps c₀ c) : Within ps c₀ (Chip.slotRejected i d s c) := by
  unfold Chip.slotRejected
  (try dsimp only)
  repeat' split
  all_goals simp (maxDischargeDepth := 60) [h, h0, h1, h2, h3, h4, h5, h6, h7, h8, h9, h10, h11]

@[simp] theorem Within.driveToRunning {ps : List Part} {c₀ c : Chip} (i : SlotId) (d : DriveId) (r : DriveReport) (h0 : Part.slots ∈ ps) (h1 : Part.spans ∈ ps) (h2 : Part.fetch ∈ ps) (h3 : Part.claims ∈ ps) (h4 : Part.trig ∈ ps) (h5 : Part.lamp ∈ ps) (h6 : Part.voices ∈ ps) (h7 : Part.links ∈ ps) (h8 : Part.drives ∈ ps) (h9 : Part.signals ∈ ps) (h10 : Part.sources ∈ ps) (h11 : Part.postings ∈ ps)
    (h : Within ps c₀ c) : Within ps c₀ (Chip.driveToRunning i d r c) := by
  unfold Chip.driveToRunning
  (try dsimp only)
  repeat' split
  all_goals simp (maxDischargeDepth := 60) [h, h0, h1, h2, h3, h4, h5, h6, h7, h8, h9, h10, h11]

@[simp] theorem Within.driveToEnding {ps : List Part} {c₀ c : Chip} (i : SlotId) (d : DriveId) (r : DriveReport) (h0 : Part.slots ∈ ps) (h1 : Part.spans ∈ ps) (h2 : Part.fetch ∈ ps) (h3 : Part.claims ∈ ps) (h4 : Part.trig ∈ ps) (h5 : Part.lamp ∈ ps) (h6 : Part.sources ∈ ps) (h7 : Part.postings ∈ ps)
    (h : Within ps c₀ c) : Within ps c₀ (Chip.driveToEnding i d r c) := by
  unfold Chip.driveToEnding
  (try dsimp only)
  repeat' split
  all_goals simp (maxDischargeDepth := 60) [h, h0, h1, h2, h3, h4, h5, h6, h7]

@[simp] theorem Within.driveToSlot {ps : List Part} {c₀ c : Chip} (i : SlotId) (d : DriveId) (r : DriveReport) (h0 : Part.slots ∈ ps) (h1 : Part.spans ∈ ps) (h2 : Part.fetch ∈ ps) (h3 : Part.claims ∈ ps) (h4 : Part.trig ∈ ps) (h5 : Part.lamp ∈ ps) (h6 : Part.voices ∈ ps) (h7 : Part.links ∈ ps) (h8 : Part.drives ∈ ps) (h9 : Part.signals ∈ ps) (h10 : Part.sources ∈ ps) (h11 : Part.postings ∈ ps)
    (h : Within ps c₀ c) : Within ps c₀ (Chip.driveToSlot i d r c) := by
  unfold Chip.driveToSlot
  (try dsimp only)
  repeat' split
  all_goals simp (maxDischargeDepth := 60) [h, h0, h1, h2, h3, h4, h5, h6, h7, h8, h9, h10, h11]

@[simp] theorem Within.driveStateToSlot {ps : List Part} {c₀ c : Chip} (d : DriveId) (i : SlotId) (h0 : Part.slots ∈ ps) (h1 : Part.spans ∈ ps) (h2 : Part.fetch ∈ ps) (h3 : Part.claims ∈ ps) (h4 : Part.trig ∈ ps) (h5 : Part.lamp ∈ ps) (h6 : Part.voices ∈ ps) (h7 : Part.links ∈ ps) (h8 : Part.drives ∈ ps) (h9 : Part.signals ∈ ps) (h10 : Part.sources ∈ ps) (h11 : Part.postings ∈ ps)
    (h : Within ps c₀ c) : Within ps c₀ (Chip.driveStateToSlot d i c) := by
  unfold Chip.driveStateToSlot
  (try dsimp only)
  repeat' split
  all_goals simp (maxDischargeDepth := 60) [h, h0, h1, h2, h3, h4, h5, h6, h7, h8, h9, h10, h11]

@[simp] theorem Within.bayToSlot {ps : List Part} {c₀ c : Chip} (b : BayId) (i : SlotId) (h0 : Part.slots ∈ ps) (h1 : Part.fetch ∈ ps) (h2 : Part.links ∈ ps) (h3 : Part.drives ∈ ps) (h4 : Part.signals ∈ ps) (h5 : Part.postings ∈ ps)
    (h : Within ps c₀ c) : Within ps c₀ (Chip.bayToSlot b i c) := by
  unfold Chip.bayToSlot
  (try dsimp only)
  repeat' split
  all_goals simp (maxDischargeDepth := 60) [h, h0, h1, h2, h3, h4, h5]

@[simp] theorem Within.clipStarted {ps : List Part} {c₀ c : Chip} (i : SlotId) (v : Fin 2) (h0 : Part.slots ∈ ps) (h1 : Part.spans ∈ ps) (h2 : Part.fetch ∈ ps) (h3 : Part.claims ∈ ps) (h4 : Part.trig ∈ ps) (h5 : Part.lamp ∈ ps) (h6 : Part.voices ∈ ps) (h7 : Part.links ∈ ps) (h8 : Part.drives ∈ ps) (h9 : Part.signals ∈ ps) (h10 : Part.sources ∈ ps) (h11 : Part.postings ∈ ps)
    (h : Within ps c₀ c) : Within ps c₀ (Chip.clipStarted i v c) := by
  unfold Chip.clipStarted
  (try dsimp only)
  repeat' split
  all_goals simp (maxDischargeDepth := 60) [h, h0, h1, h2, h3, h4, h5, h6, h7, h8, h9, h10, h11]

@[simp] theorem Within.voiceToRunning {ps : List Part} {c₀ c : Chip} (i : SlotId) (v : Fin 2) (r : VoiceReport) (h0 : Part.slots ∈ ps) (h1 : Part.spans ∈ ps) (h2 : Part.fetch ∈ ps) (h3 : Part.claims ∈ ps) (h4 : Part.trig ∈ ps) (h5 : Part.lamp ∈ ps) (h6 : Part.voices ∈ ps) (h7 : Part.links ∈ ps) (h8 : Part.drives ∈ ps) (h9 : Part.signals ∈ ps) (h10 : Part.sources ∈ ps) (h11 : Part.postings ∈ ps)
    (h : Within ps c₀ c) : Within ps c₀ (Chip.voiceToRunning i v r c) := by
  unfold Chip.voiceToRunning
  (try dsimp only)
  repeat' split
  all_goals simp (maxDischargeDepth := 60) [h, h0, h1, h2, h3, h4, h5, h6, h7, h8, h9, h10, h11]

@[simp] theorem Within.flagUnderrun {ps : List Part} {c₀ c : Chip} (i : SlotId) (h0 : Part.slots ∈ ps)
    (h : Within ps c₀ c) : Within ps c₀ (Chip.flagUnderrun i c) := by
  unfold Chip.flagUnderrun
  (try dsimp only)
  repeat' split
  all_goals simp (maxDischargeDepth := 60) [h, h0]

@[simp] theorem Within.voiceToSlot {ps : List Part} {c₀ c : Chip} (i : SlotId) (v : VoiceId) (r : VoiceReport) (h0 : Part.slots ∈ ps) (h1 : Part.spans ∈ ps) (h2 : Part.fetch ∈ ps) (h3 : Part.claims ∈ ps) (h4 : Part.trig ∈ ps) (h5 : Part.lamp ∈ ps) (h6 : Part.voices ∈ ps) (h7 : Part.links ∈ ps) (h8 : Part.drives ∈ ps) (h9 : Part.signals ∈ ps) (h10 : Part.sources ∈ ps) (h11 : Part.postings ∈ ps)
    (h : Within ps c₀ c) : Within ps c₀ (Chip.voiceToSlot i v r c) := by
  unfold Chip.voiceToSlot
  (try dsimp only)
  repeat' split
  all_goals simp (maxDischargeDepth := 60) [h, h0, h1, h2, h3, h4, h5, h6, h7, h8, h9, h10, h11]

@[simp] theorem Within.inputToSlot {ps : List Part} {c₀ c : Chip} (t : InputId) (i : SlotId) (h0 : Part.slots ∈ ps) (h1 : Part.spans ∈ ps) (h2 : Part.fetch ∈ ps) (h3 : Part.claims ∈ ps) (h4 : Part.trig ∈ ps) (h5 : Part.lamp ∈ ps) (h6 : Part.voices ∈ ps) (h7 : Part.links ∈ ps) (h8 : Part.drives ∈ ps) (h9 : Part.signals ∈ ps) (h10 : Part.sources ∈ ps) (h11 : Part.postings ∈ ps)
    (h : Within ps c₀ c) : Within ps c₀ (Chip.inputToSlot t i c) := by
  unfold Chip.inputToSlot
  (try dsimp only)
  repeat' split
  all_goals simp (maxDischargeDepth := 60) [h, h0, h1, h2, h3, h4, h5, h6, h7, h8, h9, h10, h11]

@[simp] theorem Within.waitExpired {ps : List Part} {c₀ c : Chip} (i : SlotId) (h0 : Part.slots ∈ ps) (h1 : Part.spans ∈ ps) (h2 : Part.fetch ∈ ps) (h3 : Part.claims ∈ ps) (h4 : Part.trig ∈ ps) (h5 : Part.lamp ∈ ps) (h6 : Part.voices ∈ ps) (h7 : Part.links ∈ ps) (h8 : Part.drives ∈ ps) (h9 : Part.signals ∈ ps) (h10 : Part.sources ∈ ps) (h11 : Part.postings ∈ ps)
    (h : Within ps c₀ c) : Within ps c₀ (Chip.waitExpired i c) := by
  unfold Chip.waitExpired
  (try dsimp only)
  repeat' split
  all_goals simp (maxDischargeDepth := 60) [h, h0, h1, h2, h3, h4, h5, h6, h7, h8, h9, h10, h11]

@[simp] theorem Within.admitOne {ps : List Part} {c₀ c : Chip} (i : SlotId) (e : QueueEntry) (h0 : Part.slots ∈ ps) (h1 : Part.spans ∈ ps) (h2 : Part.fetch ∈ ps) (h3 : Part.trig ∈ ps) (h4 : Part.postings ∈ ps)
    (h : Within ps c₀ c) : Within ps c₀ (Chip.admitOne i e c) := by
  unfold Chip.admitOne
  (try dsimp only)
  repeat' split
  all_goals simp (maxDischargeDepth := 60) [h, h0, h1, h2, h3, h4]

@[simp] theorem Within.admitAll {ps : List Part} {c₀ c : Chip} (a0 : Nat) (h0 : Part.slots ∈ ps) (h1 : Part.spans ∈ ps) (h2 : Part.fetch ∈ ps) (h3 : Part.trig ∈ ps) (h4 : Part.postings ∈ ps)
    (h : Within ps c₀ c) : Within ps c₀ (Chip.admitAll a0 c) := by
  induction a0 generalizing c with
  | zero => exact h
  | succ n ih =>
    unfold Chip.admitAll
    split
    · split
      · exact ih (by simp [h, h0, h1, h2, h3, h4])
      · exact h
    · exact h

@[simp] theorem Within.definitionReturn {ps : List Part} {c₀ c : Chip} (i : SlotId) (d : Option SceneDef) (h0 : Part.slots ∈ ps) (h1 : Part.spans ∈ ps) (h2 : Part.fetch ∈ ps) (h3 : Part.claims ∈ ps) (h4 : Part.trig ∈ ps) (h5 : Part.lamp ∈ ps) (h6 : Part.sources ∈ ps) (h7 : Part.postings ∈ ps)
    (h : Within ps c₀ c) : Within ps c₀ (Chip.definitionReturn i d c) := by
  unfold Chip.definitionReturn
  (try dsimp only)
  repeat' split
  all_goals simp (maxDischargeDepth := 60) [h, h0, h1, h2, h3, h4, h5, h6, h7]

@[simp] theorem Within.checkReturn {ps : List Part} {c₀ c : Chip} (i : SlotId) (k : Nat) (r : CueRec) (h0 : Part.slots ∈ ps) (h1 : Part.spans ∈ ps) (h2 : Part.fetch ∈ ps) (h3 : Part.claims ∈ ps) (h4 : Part.trig ∈ ps) (h5 : Part.lamp ∈ ps) (h6 : Part.voices ∈ ps) (h7 : Part.links ∈ ps) (h8 : Part.drives ∈ ps) (h9 : Part.signals ∈ ps) (h10 : Part.sources ∈ ps) (h11 : Part.postings ∈ ps)
    (h : Within ps c₀ c) : Within ps c₀ (Chip.checkReturn i k r c) := by
  unfold Chip.checkReturn
  (try dsimp only)
  repeat' split
  all_goals simp (maxDischargeDepth := 60) [h, h0, h1, h2, h3, h4, h5, h6, h7, h8, h9, h10, h11]

@[simp] theorem Within.recordReturn {ps : List Part} {c₀ c : Chip} (i : SlotId) (k : Nat) (r : CueRec) (h0 : Part.slots ∈ ps) (h1 : Part.spans ∈ ps) (h2 : Part.fetch ∈ ps) (h3 : Part.claims ∈ ps) (h4 : Part.trig ∈ ps) (h5 : Part.lamp ∈ ps) (h6 : Part.voices ∈ ps) (h7 : Part.links ∈ ps) (h8 : Part.drives ∈ ps) (h9 : Part.signals ∈ ps) (h10 : Part.sources ∈ ps) (h11 : Part.postings ∈ ps)
    (h : Within ps c₀ c) : Within ps c₀ (Chip.recordReturn i k r c) := by
  unfold Chip.recordReturn
  (try dsimp only)
  repeat' split
  all_goals simp (maxDischargeDepth := 60) [h, h0, h1, h2, h3, h4, h5, h6, h7, h8, h9, h10, h11]

@[simp] theorem Within.handModeChange {ps : List Part} {c₀ c : Chip} (h0 : Part.sources ∈ ps)
    (h : Within ps c₀ c) : Within ps c₀ (Chip.handModeChange c) := by
  unfold Chip.handModeChange
  (try dsimp only)
  repeat' split
  all_goals simp (maxDischargeDepth := 60) [h, h0]

@[simp] theorem Within.allBays {ps : List Part} {c₀ c : Chip} (h0 : Part.slots ∈ ps) (h1 : Part.spans ∈ ps) (h2 : Part.fetch ∈ ps) (h3 : Part.claims ∈ ps) (h4 : Part.trig ∈ ps) (h5 : Part.lamp ∈ ps) (h6 : Part.links ∈ ps) (h7 : Part.drives ∈ ps) (h8 : Part.bays ∈ ps) (h9 : Part.signals ∈ ps) (h10 : Part.sources ∈ ps) (h11 : Part.postings ∈ ps)
    (h : Within ps c₀ c) : Within ps c₀ (Chip.allBays c) := by
  unfold Chip.allBays
  (try dsimp only)
  repeat' split
  all_goals simp (maxDischargeDepth := 60) [h, h0, h1, h2, h3, h4, h5, h6, h7, h8, h9, h10, h11]

@[simp] theorem Within.restartSlots {ps : List Part} {c₀ c : Chip} (scene : Fin 64) (p : SlotState → Bool) (h0 : Part.slots ∈ ps) (h1 : Part.spans ∈ ps) (h2 : Part.fetch ∈ ps) (h3 : Part.claims ∈ ps) (h4 : Part.trig ∈ ps) (h5 : Part.lamp ∈ ps) (h6 : Part.voices ∈ ps) (h7 : Part.links ∈ ps) (h8 : Part.drives ∈ ps) (h9 : Part.signals ∈ ps) (h10 : Part.sources ∈ ps) (h11 : Part.postings ∈ ps)
    (h : Within ps c₀ c) : Within ps c₀ (Chip.restartSlots scene p c) := by
  unfold Chip.restartSlots
  (try dsimp only)
  repeat' split
  all_goals simp (maxDischargeDepth := 60) [h, h0, h1, h2, h3, h4, h5, h6, h7, h8, h9, h10, h11]

@[simp] theorem Within.restart {ps : List Part} {c₀ c : Chip} (scene : Fin 64) (h0 : Part.slots ∈ ps) (h1 : Part.spans ∈ ps) (h2 : Part.fetch ∈ ps) (h3 : Part.claims ∈ ps) (h4 : Part.trig ∈ ps) (h5 : Part.lamp ∈ ps) (h6 : Part.voices ∈ ps) (h7 : Part.links ∈ ps) (h8 : Part.drives ∈ ps) (h9 : Part.signals ∈ ps) (h10 : Part.sources ∈ ps) (h11 : Part.postings ∈ ps)
    (h : Within ps c₀ c) : Within ps c₀ (Chip.restart scene c) := by
  unfold Chip.restart
  (try dsimp only)
  repeat' split
  all_goals simp (maxDischargeDepth := 60) [h, h0, h1, h2, h3, h4, h5, h6, h7, h8, h9, h10, h11]

@[simp] theorem Within.acceptOffer {ps : List Part} {c₀ c : Chip} (o : Offer) (r : RawScene) (h0 : Part.slots ∈ ps) (h1 : Part.spans ∈ ps) (h2 : Part.fetch ∈ ps) (h3 : Part.claims ∈ ps) (h4 : Part.trig ∈ ps) (h5 : Part.lamp ∈ ps) (h6 : Part.voices ∈ ps) (h7 : Part.links ∈ ps) (h8 : Part.drives ∈ ps) (h9 : Part.signals ∈ ps) (h10 : Part.sources ∈ ps) (h11 : Part.postings ∈ ps)
    (h : Within ps c₀ c) : Within ps c₀ (Chip.acceptOffer o r c) := by
  unfold Chip.acceptOffer
  (try dsimp only)
  repeat' split
  all_goals simp (maxDischargeDepth := 60) [h, h0, h1, h2, h3, h4, h5, h6, h7, h8, h9, h10, h11]

@[simp] theorem Within.inputRefused {ps : List Part} {c₀ c : Chip} (t : InputId) (scene : Fin 64) (why : Dropped) (h0 : Part.trig ∈ ps) (h1 : Part.lamp ∈ ps) (h2 : Part.sources ∈ ps) (h3 : Part.postings ∈ ps)
    (h : Within ps c₀ c) : Within ps c₀ (Chip.inputRefused t scene why c) := by
  unfold Chip.inputRefused
  (try dsimp only)
  repeat' split
  all_goals simp (maxDischargeDepth := 60) [h, h0, h1, h2, h3]

@[simp] theorem Within.startService {ps : List Part} {c₀ c : Chip} (d : DriveId) (k : ServiceCmd) (h0 : Part.links ∈ ps) (h1 : Part.drives ∈ ps) (h2 : Part.signals ∈ ps)
    (h : Within ps c₀ c) : Within ps c₀ (Chip.startService d k c) := by
  unfold Chip.startService
  (try dsimp only)
  repeat' split
  all_goals simp (maxDischargeDepth := 60) [h, h0, h1, h2]

@[simp] theorem Within.carryService {ps : List Part} {c₀ c : Chip} (d : DriveId) (k : ServiceCode) (arg : Half) (h0 : Part.links ∈ ps) (h1 : Part.drives ∈ ps) (h2 : Part.signals ∈ ps) (h3 : Part.postings ∈ ps)
    (h : Within ps c₀ c) : Within ps c₀ (Chip.carryService d k arg c) := by
  unfold Chip.carryService
  (try dsimp only)
  repeat' split
  all_goals simp (maxDischargeDepth := 60) [h, h0, h1, h2, h3]

@[simp] theorem Within.triggerEntryRead {ps : List Part} {c₀ c : Chip} (m : Memory) (t : InputId) (h0 : Part.trig ∈ ps)
    (h : Within ps c₀ c) : Within ps c₀ (Chip.triggerEntryRead m t c) := by
  unfold Chip.triggerEntryRead
  (try dsimp only)
  repeat' split
  all_goals simp (maxDischargeDepth := 60) [h, h0]

@[simp] theorem Within.triggerStart {ps : List Part} {c₀ c : Chip} (t : InputId) (h0 : Part.slots ∈ ps) (h1 : Part.spans ∈ ps) (h2 : Part.fetch ∈ ps) (h3 : Part.claims ∈ ps) (h4 : Part.trig ∈ ps) (h5 : Part.lamp ∈ ps) (h6 : Part.links ∈ ps) (h7 : Part.drives ∈ ps) (h8 : Part.bays ∈ ps) (h9 : Part.guardIn ∈ ps) (h10 : Part.signals ∈ ps) (h11 : Part.sources ∈ ps) (h12 : Part.postings ∈ ps)
    (h : Within ps c₀ c) : Within ps c₀ (Chip.triggerStart t c) := by
  have g := Within.modInput t (fun x => { x with running := true, filter := some (Config.ms x.entry.debounce) }) h4 h
  unfold Chip.triggerStart
  generalize c.modInput t _ = d at g ⊢
  dsimp only
  split
  · exact Within.enterInput _ _ h4 h5 h12 g
  · exact Within.bayWork _ h0 h1 h2 h3 h4 h5 h6 h7 h8 h10 h11 h12 (Within.guardIn _ h9 g)
  · exact g

@[simp] theorem Within.bayEntryRead {ps : List Part} {c₀ c : Chip} (m : Memory) (b : BayId) (h0 : Part.lamp ∈ ps)
    (h : Within ps c₀ c) : Within ps c₀ (Chip.bayEntryRead m b c) := by
  unfold Chip.bayEntryRead
  (try dsimp only)
  repeat' split
  all_goals simp (maxDischargeDepth := 60) [h, h0]

@[simp] theorem Within.houseEntryRead {ps : List Part} {c₀ c : Chip} (m : Memory) (l : LampId) (h0 : Part.lamp ∈ ps) (h1 : Part.postings ∈ ps)
    (h : Within ps c₀ c) : Within ps c₀ (Chip.houseEntryRead m l c) := by
  unfold Chip.houseEntryRead
  (try dsimp only)
  repeat' split
  all_goals simp (maxDischargeDepth := 60) [h, h0, h1]

@[simp] theorem Within.framesStart {ps : List Part} {c₀ c : Chip} (h0 : Part.lamp ∈ ps)
    (h : Within ps c₀ c) : Within ps c₀ (Chip.framesStart c) := by
  unfold Chip.framesStart
  (try dsimp only)
  repeat' split
  all_goals simp (maxDischargeDepth := 60) [h, h0]

@[simp] theorem Within.tableRead {ps : List Part} {c₀ c : Chip} (t : LoadTable) (h0 : Part.slots ∈ ps) (h1 : Part.spans ∈ ps) (h2 : Part.fetch ∈ ps) (h3 : Part.claims ∈ ps) (h4 : Part.trig ∈ ps) (h5 : Part.lamp ∈ ps) (h6 : Part.links ∈ ps) (h7 : Part.drives ∈ ps) (h8 : Part.bays ∈ ps) (h9 : Part.guardIn ∈ ps) (h10 : Part.signals ∈ ps) (h11 : Part.sources ∈ ps) (h12 : Part.postings ∈ ps)
    (h : Within ps c₀ c) : Within ps c₀ (Chip.tableRead t c) := by
  unfold Chip.tableRead
  (try dsimp only)
  repeat' split
  all_goals simp (maxDischargeDepth := 60) [h, h0, h1, h2, h3, h4, h5, h6, h7, h8, h9, h10, h11, h12]

@[simp] theorem Within.handle {ps : List Part} {c₀ c : Chip} (x : Signal) (h0 : Part.slots ∈ ps) (h1 : Part.spans ∈ ps) (h2 : Part.fetch ∈ ps) (h3 : Part.claims ∈ ps) (h4 : Part.trig ∈ ps) (h5 : Part.lamp ∈ ps) (h6 : Part.voices ∈ ps) (h7 : Part.links ∈ ps) (h8 : Part.drives ∈ ps) (h9 : Part.signals ∈ ps) (h10 : Part.sources ∈ ps) (h11 : Part.postings ∈ ps)
    (h : Within ps c₀ c) : Within ps c₀ (Chip.handle x c) := by
  unfold Chip.handle
  (try dsimp only)
  repeat' split
  all_goals simp (maxDischargeDepth := 60) [h, h0, h1, h2, h3, h4, h5, h6, h7, h8, h9, h10, h11]

@[simp] theorem Within.admissions {ps : List Part} {c₀ c : Chip} (h0 : Part.slots ∈ ps) (h1 : Part.spans ∈ ps) (h2 : Part.fetch ∈ ps) (h3 : Part.trig ∈ ps) (h4 : Part.postings ∈ ps)
    (h : Within ps c₀ c) : Within ps c₀ (Chip.admissions c) := by
  unfold Chip.admissions
  (try dsimp only)
  repeat' split
  all_goals simp (maxDischargeDepth := 60) [h, h0, h1, h2, h3, h4]

@[simp] theorem Within.guardSettled {ps : List Part} {c₀ c : Chip} (t : InputId) (h0 : Part.slots ∈ ps) (h1 : Part.spans ∈ ps) (h2 : Part.fetch ∈ ps) (h3 : Part.claims ∈ ps) (h4 : Part.trig ∈ ps) (h5 : Part.lamp ∈ ps) (h6 : Part.links ∈ ps) (h7 : Part.drives ∈ ps) (h8 : Part.bays ∈ ps) (h9 : Part.guardIn ∈ ps) (h10 : Part.signals ∈ ps) (h11 : Part.sources ∈ ps) (h12 : Part.postings ∈ ps)
    (h : Within ps c₀ c) : Within ps c₀ (Chip.guardSettled t c) := by
  unfold Chip.guardSettled
  (try dsimp only)
  repeat' split
  all_goals simp (maxDischargeDepth := 60) [h, h0, h1, h2, h3, h4, h5, h6, h7, h8, h9, h10, h11, h12]

@[simp] theorem Within.inputSettles {ps : List Part} {c₀ c : Chip} (t : InputId) (h0 : Part.slots ∈ ps) (h1 : Part.spans ∈ ps) (h2 : Part.fetch ∈ ps) (h3 : Part.claims ∈ ps) (h4 : Part.trig ∈ ps) (h5 : Part.lamp ∈ ps) (h6 : Part.links ∈ ps) (h7 : Part.drives ∈ ps) (h8 : Part.bays ∈ ps) (h9 : Part.guardIn ∈ ps) (h10 : Part.signals ∈ ps) (h11 : Part.sources ∈ ps) (h12 : Part.postings ∈ ps)
    (h : Within ps c₀ c) : Within ps c₀ (Chip.inputSettles t c) := by
  unfold Chip.inputSettles
  (try dsimp only)
  repeat' split
  all_goals simp (maxDischargeDepth := 60) [h, h0, h1, h2, h3, h4, h5, h6, h7, h8, h9, h10, h11, h12]

@[simp] theorem Within.alternate {ps : List Part} {c₀ c : Chip} (t : InputId) (h0 : Part.trig ∈ ps) (h1 : Part.lamp ∈ ps) (h2 : Part.postings ∈ ps)
    (h : Within ps c₀ c) : Within ps c₀ (Chip.alternate t c) := by
  unfold Chip.alternate
  (try dsimp only)
  repeat' split
  all_goals simp (maxDischargeDepth := 60) [h, h0, h1, h2]

end Sys2Proof.Machine
end

