-- ==== Sys2Proof/Laws/Narration.lean ====
section
/-!
SUPPORT. What the operations of the voice channels do, each said once: a clip's start with its first burst (R100), the entry to IDLE (R111), the marks
that pass (R108), and whom a report reaches.
-/

namespace Sys2Proof.Machine

open Sys2Proof.Safety

/-! ## A mirror update changes postings alone -/

theorem mirror_voices (x : MirrorWord) (c : Chip) : (c.mirror x).voices = c.voices := by
  unfold Chip.mirror; split <;> rfl

theorem mirror_signals (x : MirrorWord) (c : Chip) : (c.mirror x).signals = c.signals := by
  unfold Chip.mirror; split <;> rfl

theorem mirror_claims (x : MirrorWord) (c : Chip) : (c.mirror x).claims = c.claims := by
  unfold Chip.mirror; split <;> rfl

theorem post_spans (who : Producer) (x : Posting) (p : Port) :
    (p.post who x).clipSpan = p.clipSpan ∧ (p.post who x).sceneSpan = p.sceneSpan ∧ (p.post who x).cueSpan = p.cueSpan := by
  unfold Port.post; split <;> (try split) <;> cases who <;> simp [Port.setBacklog]

theorem mirror_spans (x : MirrorWord) (c : Chip) :
    (c.mirror x).port.clipSpan = c.port.clipSpan ∧ (c.mirror x).port.sceneSpan = c.port.sceneSpan ∧ (c.mirror x).port.cueSpan = c.port.cueSpan := by
  unfold Chip.mirror; split <;> simp [Chip.modPort, post_spans]

/-! ## A table changed twice -/

theorem updAt_updAt {α : Type} {n : Nat} (v : Vector α n) (i : Fin n) (f g : α → α) : updAt (updAt v i f) i g = updAt v i (fun x => g (f x)) := by
  ext j hj
  simp [updAt]

/-! ## Reports to the owner (R98) -/

theorem tellVoice_signals (v : VoiceId) (r : VoiceReport) (c : Chip) : (c.tellVoice v r).signals = c.signals ++ toldOwner v r c := by
  unfold Chip.tellVoice toldOwner; split <;> simp_all [Chip.signal]

theorem tellVoice_rest (v : VoiceId) (r : VoiceReport) (c : Chip) : (c.tellVoice v r).voices = c.voices ∧ (c.tellVoice v r).claims = c.claims ∧ (c.tellVoice v r).port = c.port := by
  unfold Chip.tellVoice; split <;> simp [Chip.signal]

theorem toldOwner_congr {c d : Chip} (h : c.claims = d.claims) (v r) : toldOwner v r c = toldOwner v r d := by
  simp [toldOwner, Chip.voiceOwner, h]

/-! ## Starting a clip (R99, R100) -/

/-- A valid clip has a word (R97). -/
theorem parseClip_len {b l m a e} (h : parseClip b l m a = some e) : 1 ≤ e.len := by
  unfold parseClip at h
  simp only [Option.ite_none_right_eq_some, Bool.and_eq_true, decide_eq_true_eq] at h
  have h2 := Option.some.inj h.2
  subst h2
  have := h.1
  simp only at this ⊢
  omega

/-- A channel that a clip has taken asks for the first burst, of up to 8 words, urgently (R100, R102, R104). -/
theorem settle_take (e : ClipEntry) (d : DirRead) (x : Channel) (he : 1 ≤ e.len) (hb : x.burst = none) (hd : x.dirRead = none) :
    (Channel.take e d x).settle = { Channel.take e d x with
      fetchPos := min 8 e.len
      filling := min 8 e.len != e.len
      burst := some ⟨0, min 8 e.len, false⟩
      urgent := true } := by
  have : 0 < e.len := he
  simp [Channel.take, Channel.settle, Channel.askBurst, Channel.markUrgent, Channel.requests, Channel.length, hb, hd, Config.fifoHigh, Config.burstWords,
    Config.fifoUrgent, this]

/-- A clip with no stop pending takes the channel: span, first burst, report (R100). Its frame is `Within.takeClip`. -/
theorem takeClip_spec (v : VoiceId) (e : ClipEntry) (d : DirRead) (b : Chip) (hs : d.stopPending = false) :
    let c := b.takeClip v e d
    c.voices[v] = (Channel.take e d b.voices[v]).settle ∧ OtherVoices v c b
      ∧ c.port.clipSpan = updAt b.port.clipSpan v (fun _ => some ⟨e.base, e.base + 4 * e.len - 1⟩)
      ∧ c.port.sceneSpan = b.port.sceneSpan ∧ c.port.cueSpan = b.port.cueSpan
      ∧ c.signals = b.signals ++ toldOwner v .started b := by
  intro c
  have hv : c.voices = updAt (updAt b.voices v (Channel.take e d)) v Channel.settle := by
    simp [c, Chip.takeClip, hs, Chip.mirrorVoice, mirror_voices, tellVoice_rest]
  refine ⟨?_, fun u hu => ?_, ?_, ?_, ?_, ?_⟩
  · rw [hv, updAt_self, updAt_self]
  · rw [hv, updAt_other _ _ _ _ hu.symm, updAt_other _ _ _ _ hu.symm]
  all_goals
    simp only [c, Chip.takeClip, hs, Chip.mirrorVoice, mirror_spans, mirror_signals, tellVoice_rest, tellVoice_signals, Bool.false_eq_true, if_false]
    rfl

/-- With a stop pending it takes the channel, its first burst asked for, and leaves it at once (R100, R111). -/
theorem takeClip_stopPending (v : VoiceId) (e : ClipEntry) (d : DirRead) (b : Chip) (hs : d.stopPending = true) :
    b.takeClip v e d = (b.takeClip v e { d with stopPending := false }).voiceIdle v .stop := by
  simp [Chip.takeClip, hs]
  rfl

/-! ## Entry to IDLE (R111) -/

/-- The channel's record is emptied, its span goes, and the owner is told. -/
theorem voiceIdle_spec (v : VoiceId) (why : IdleWhy) (b : Chip) :
    let c := b.voiceIdle v why
    c.voices[v] = b.voices[v].idled ∧ OtherVoices v c b ∧ c.port.clipSpan = updAt b.port.clipSpan v (fun _ => none)
      ∧ c.port.sceneSpan = b.port.sceneSpan ∧ c.port.cueSpan = b.port.cueSpan
      ∧ c.signals = b.signals ++ toldOwner v (.idle why) b := by
  intro c
  have hv : c.voices = updAt b.voices v Channel.idled := by simp [c, Chip.voiceIdle, Chip.mirrorVoice, mirror_voices, tellVoice_rest]
  refine ⟨?_, fun u hu => ?_, ?_, ?_, ?_, ?_⟩
  · rw [hv, updAt_self]
  · rw [hv, updAt_other _ _ _ _ hu.symm]
  all_goals
    simp only [c, Chip.voiceIdle, Chip.mirrorVoice, mirror_spans, mirror_signals, tellVoice_rest, tellVoice_signals]
    rfl

/-! ## Marks (R108) -/

/-- The marks become passed, and the owner is told of each. -/
theorem passMarks_spec (v : VoiceId) (ks : List (Fin 4)) (c : Chip) :
    (c.passMarks v ks).signals = c.signals ++ ks.flatMap (fun k => toldOwner v (.mark k) c)
    ∧ (c.passMarks v ks).claims = c.claims ∧ OtherVoices v (c.passMarks v ks) c
    ∧ (c.passMarks v ks).voices[v] = { c.voices[v] with marks := tabulate 4 fun k => c.voices[v].marks[k] || decide (k ∈ ks) } := by
  induction ks generalizing c with
  | nil =>
    refine ⟨by simp [Chip.passMarks], rfl, fun _ _ => rfl, ?_⟩
    show c.voices[v] = _
    have : (tabulate 4 fun k => c.voices[v].marks[k] || decide (k ∈ ([]: List (Fin 4)))) = c.voices[v].marks := by
      ext j hj
      simp [tabulate]
    rw [this]
  | cons k ks ih =>
    let d := (c.modVoice v fun ch => { ch with marks := updAt ch.marks k fun _ => true }).tellVoice v (.mark k)
    obtain ⟨a, b, e, f⟩ := ih d
    have hd : d.claims = c.claims := by simp [d, tellVoice_rest, Chip.modVoice]
    have hv : d.voices = updAt c.voices v (fun ch => { ch with marks := updAt ch.marks k fun _ => true }) := by simp [d, tellVoice_rest, Chip.modVoice]
    refine ⟨?_, b.trans hd, ?_, ?_⟩
    · show (d.passMarks v ks).signals = _
      rw [a]
      simp only [List.flatMap_cons, ← List.append_assoc]
      congr 1
      · simp only [d, tellVoice_signals]; rfl
      · congr 1; funext k; exact toldOwner_congr hd _ _
    · intro u hu
      refine (e u hu).trans ?_
      rw [hv]; exact updAt_other _ _ _ _ hu.symm
    · show (d.passMarks v ks).voices[v] = _
      rw [f]
      have : d.voices[v] = { c.voices[v] with marks := updAt c.voices[v].marks k fun _ => true } := by rw [hv]; exact updAt_self _ _ _
      rw [this]
      have e2 : ∀ (p q : Vector Bool 4) (x : Channel), p = q → {x with marks := p} = {x with marks := q} := by intro p q x h; rw [h]
      apply e2
      ext j hj
      by_cases h : (k:Nat) = j
      · subst h; simp [tabulate, updAt]
      · have : ¬ (⟨j,hj⟩ : Fin 4) = k := by intro h'; exact h (by rw [← h'])
        simp [tabulate, updAt, this, h]

end Sys2Proof.Machine
end

