-- ==== Sys2Proof/Laws/Guards.lean ====
section
/-!
SUPPORT. What the guard of its bay does at one drive (R153, R159, R160), in the words of the statements: `guardDrive_spec`.
-/

namespace Sys2Proof.Machine

open Sys2Proof.Safety

/-! ## Reports to the owner, and what a mirror update leaves -/

theorem tellDrive_signals (d : DriveId) (r : DriveReport) (c : Chip) : (c.tellDrive d r).signals = c.signals ++ toldDrive d r c := by
  unfold Chip.tellDrive toldDrive; split <;> simp_all [Chip.signal]

theorem tellDrive_rest (d : DriveId) (r : DriveReport) (c : Chip) :
    (c.tellDrive d r).drives = c.drives ∧ (c.tellDrive d r).claims = c.claims ∧ (c.tellDrive d r).links = c.links := by
  unfold Chip.tellDrive; split <;> simp [Chip.signal]

theorem toldDrive_congr {c d : Chip} (h : c.claims = d.claims) (v r) : toldDrive v r c = toldDrive v r d := by
  simp [toldDrive, Chip.driveOwner, h]

theorem mirror_drives (x : MirrorWord) (c : Chip) : (c.mirror x).drives = c.drives := by
  unfold Chip.mirror; split <;> rfl

theorem mirror_links (x : MirrorWord) (c : Chip) : (c.mirror x).links = c.links := by
  unfold Chip.mirror; split <;> rfl

theorem updAt_congr {α : Type} {n : Nat} (v : Vector α n) (i : Fin n) (f g : α → α) (h : f v[i] = g v[i]) : updAt v i f = updAt v i g := by
  simp only [updAt, h]

theorem updAt_id {α : Type} {n : Nat} (v : Vector α n) (i : Fin n) (f : α → α) (h : f v[i] = v[i]) : updAt v i f = v := by
  simp only [updAt, h]; simp

/-! ## One drive -/

/-- A change of state: mirror, owner, slots (R158, R162). -/
theorem driveTo_spec (d : DriveId) (st : DriveState) (c : Chip) (h : c.drives[d].state ≠ st) :
    (c.driveTo d st).drives = updAt c.drives d (fun x => { x with state := st }) ∧ (c.driveTo d st).claims = c.claims ∧ (c.driveTo d st).links = c.links
    ∧ (c.driveTo d st).signals = c.signals ++ toldChange d c := by
  simp only [Chip.driveTo, if_neg h, Chip.signal, tellDrive_rest, tellDrive_signals, Chip.mirrorDrive, mirror_drives, mirror_links, mirror_signals, mirror_claims]
  refine ⟨rfl, rfl, rfl, ?_⟩
  simp only [toldChange, List.append_assoc]
  congr 1
  congr 1
  exact toldDrive_congr (by simp [mirror_claims, Chip.modDrive]) _ _

/-- A HALT handed to the controller changes that controller and the reports under way. -/
theorem handHalt_spec (d : DriveId) (c : Chip) (en : DriveEntry) (he : c.drives[d].entry = en) :
    (c.handHalt d).drives = c.drives ∧ (c.handHalt d).claims = c.claims
    ∧ (c.handHalt d).links = updAt c.links en.link (fun k => (k.halt en.addr .halt).link)
    ∧ (c.handHalt d).signals = c.signals ++ (c.links[en.link].halt en.addr .halt).reports.map fun r => .link en.link r.1 r.2 := by
  subst he
  refine ⟨rfl, rfl, ?_, rfl⟩
  rfl

/-- A review of an empty list does nothing (R39). -/
theorem review_nobody (c : Chip) (h : c.claims.waiting = []) : c.review = c := by simp [Chip.review, h, Chip.walk]

/-- A drive in motion, or with its move at the link, is HALTING (R153). -/
theorem halting_spec (d : DriveId) (c : Chip) (h : c.drives[d].state ≠ .halting) :
   let e := c.halting d .guard
   e.drives = updAt c.drives d (fun x => haltingDrive x .guard) ∧ e.claims = c.claims ∧
   e.links = updAt c.links c.drives[d].entry.link (fun k => (k.halt c.drives[d].entry.addr .halt).link) ∧
   e.signals = c.signals ++ toldDrive d .guardHalting c ++ toldChange d c
     ++ (c.links[c.drives[d].entry.link].halt c.drives[d].entry.addr .halt).reports.map fun r => .link c.drives[d].entry.link r.1 r.2 := by
  intro e
  let c1 := c.modDrive d fun x => { x.openWindow with haltCause := some .guard, retry := none }
  let c2 := c1.tellDrive d .guardHalting
  have hc2 : c2.drives = updAt c.drives d fun x => { x.openWindow with haltCause := some .guard, retry := none } := by simp [c2, tellDrive_rest, c1, Chip.modDrive]
  have e1 : c2.drives[d].state = c.drives[d].state := by rw [hc2, updAt_self]; rfl
  obtain ⟨a1, a2, a3, a4⟩ := driveTo_spec d .halting c2 (by rw [e1]; exact h)
  have he : e = (c2.driveTo d .halting).handHalt d := rfl
  have ee : (c2.driveTo d .halting).drives[d].entry = c.drives[d].entry := by rw [a1, updAt_self, hc2, updAt_self]; rfl
  obtain ⟨b1, b2, b3, b4⟩ := handHalt_spec d (c2.driveTo d .halting) _ ee
  have el : c2.links = c.links := by simp [c2, tellDrive_rest, c1, Chip.modDrive]
  have ec : c2.claims = c.claims := by simp [c2, tellDrive_rest, c1, Chip.modDrive]
  rw [← he] at b1 b2 b3 b4
  refine ⟨?_, ?_, ?_, ?_⟩
  · rw [b1, a1, hc2, updAt_updAt]; rfl
  · rw [b2, a2, ec]
  · rw [b3, a3, el]
  · rw [b4, a4, show (c2.driveTo d .halting).links = c.links from a3.trans el]
    simp only [c2, tellDrive_signals]
    have : c1.signals = c.signals := rfl
    rw [this, toldDrive_congr (c := c1) (d := c) rfl]
    have : toldChange d (c1.tellDrive d .guardHalting) = toldChange d c := by simp only [toldChange]; rw [toldDrive_congr (d := c)]; exact ec
    rw [this]

/-- A move that waits for its retry is withdrawn (R153). A review can follow only where the drive has no owner and a slot waits (R38). -/
theorem withdrawn_spec (d : DriveId) (c : Chip) (h : c.drives[d].state ≠ .idle) :
   let e := c.endMove d .withdrawn
   e.drives = updAt c.drives d idleDrive ∧ e.links = c.links ∧
   ((c.driveOwner d ≠ none ∨ c.claims.waiting = []) → e.claims = c.claims ∧
   e.signals = c.signals ++ toldDrive d .withdrawn c ++ toldChange d c) := by
  intro e
  let c1 := c.modDrive d fun x => { x.dropMove.stopTimers with haltCause := none }
  let c2 := c1.tellDrive d .withdrawn
  have hc2 : c2.drives = updAt c.drives d fun x => { x.dropMove.stopTimers with haltCause := none } := by simp [c2, tellDrive_rest, c1, Chip.modDrive]
  have e1 : c2.drives[d].state = c.drives[d].state := by rw [hc2, updAt_self]; rfl
  obtain ⟨a1, a2, a3, a4⟩ := driveTo_spec d .idle c2 (by rw [e1]; exact h)
  have el : c2.links = c.links := by simp [c2, tellDrive_rest, c1, Chip.modDrive]
  have ec : c2.claims = c.claims := by simp [c2, tellDrive_rest, c1, Chip.modDrive]
  have he : e = (c2.driveTo d .idle).offerDrive d := rfl
  have hw : Within [.slots, .spans, .fetch, .claims, .trig, .lamp, .sources, .postings] (c2.driveTo d .idle) e := by rw [he]; simp
  refine ⟨?_, ?_, ?_⟩
  · have : e.drives = (c2.driveTo d .idle).drives := hw .drives (by decide)
    rw [this, a1, hc2, updAt_updAt]; rfl
  · have : e.links = (c2.driveTo d .idle).links := hw .links (by decide)
    rw [this, a3, el]
  · intro hn
    have : e = c2.driveTo d .idle := by
      rw [he]; unfold Chip.offerDrive
      split
      · rename_i hh
        rcases hn with hn | hn
        · simp [Chip.driveOwner, a2, ec] at hh
          exact absurd hh.1 hn
        · exact review_nobody _ (by rw [a2, ec]; exact hn)
      · rfl
    rw [this]
    refine ⟨a2.trans ec, ?_⟩
    rw [a4]
    simp only [c2, tellDrive_signals]
    have h1 : c1.signals = c.signals := rfl
    rw [h1, toldDrive_congr (c := c1) (d := c) rfl]
    have : toldChange d (c1.tellDrive d .withdrawn) = toldChange d c := by simp only [toldChange]; rw [toldDrive_congr (d := c)]; exact ec
    rw [this]

/-- What the guard does at drive `d`. -/
def GuardsDrive (d : DriveId) (c e : Chip) : Prop :=
  e.drives = updAt c.drives d (fun x => haltedDrive x .guard)
  ∧ e.links = updAt c.links c.drives[d].entry.link (fun k => guardHalt c.drives[d] k)
  ∧ (¬(c.drives[d].state = .starting ∧ c.drives[d].atLink = false ∧ c.driveOwner d = none) ∨ c.claims.waiting = [] →
      e.claims = c.claims ∧ e.signals = c.signals ++ guardTold d c c.links[c.drives[d].entry.link])

/-- The guard at a drive, whatever its state (R153, R159, R160). -/
theorem guardDrive_spec (d : DriveId) (c : Chip) : GuardsDrive d c (c.guardDrive d) := by
  unfold Chip.guardDrive
  have nofault : ∀ e : Chip, e.drives[d].state ≠ .faulted → e.recallMove d = e := by
    intro e he; unfold Chip.recallMove; simp [-Fin.getElem_fin, he]
  have hD : ∀ s, c.drives[d].state = s → (s = .offline ∨ s = .idle ∨ s = .halting ∨ s = .faulted) → c.driveHalt d .guard = c := by
    intro s h1 h2; unfold Chip.driveHalt; rcases h2 with h|h|h|h <;> subst h <;> rw [h1]
  have still : ∀ s, c.drives[d].state = s → (s = .offline ∨ s = .idle ∨ s = .halting) → GuardsDrive d c c := by
    intro s h1 h2
    refine ⟨(updAt_id _ _ _ ?_).symm, (updAt_id _ _ _ ?_).symm, fun _ => ⟨rfl, ?_⟩⟩
    · rcases h2 with h|h|h <;> subst h <;> simp only [haltedDrive, h1]
    · rcases h2 with h|h|h <;> subst h <;> simp [-Fin.getElem_fin, guardHalt, guardStep, LinkStep.silent, h1]
    · rcases h2 with h|h|h <;> subst h <;> simp [-Fin.getElem_fin, guardTold, guardStep, LinkStep.silent, h1]
  rcases hs : c.drives[d].state with _|_|_|_|_|_
  · rw [hD _ hs (by simp), nofault c (by simp [-Fin.getElem_fin, hs])]; exact still _ hs (by simp)
  · rw [hD _ hs (by simp), nofault c (by simp [-Fin.getElem_fin, hs])]; exact still _ hs (by simp)
  · by_cases hl : c.drives[d].atLink = true
    · obtain ⟨a, b, e, f⟩ := halting_spec d c (by simp [-Fin.getElem_fin, hs])
      have hh : c.driveHalt d .guard = c.halting d .guard := by simp only [Chip.driveHalt, hs, hl, if_true]
      rw [hh, nofault]
      · refine ⟨?_, ?_, fun _ => ⟨b, ?_⟩⟩
        · rw [a]; exact updAt_congr _ _ _ _ (by simp only [haltedDrive, hs, hl, if_true])
        · rw [e]; exact updAt_congr _ _ _ _ (by simp [-Fin.getElem_fin, guardHalt, guardStep, hs, hl])
        · rw [f]; simp [-Fin.getElem_fin, guardTold, guardStep, hs, hl]
      · rw [a, updAt_self]; simp [-Fin.getElem_fin, haltingDrive]
    · obtain ⟨a, b, e⟩ := withdrawn_spec d c (by simp [-Fin.getElem_fin, hs])
      have hh : c.driveHalt d .guard = c.endMove d .withdrawn := by simp only [Chip.driveHalt, hs, hl]; rfl
      rw [hh, nofault]
      · refine ⟨?_, ?_, fun hn => ?_⟩
        · rw [a]; exact updAt_congr _ _ _ _ (by simp only [haltedDrive, hs, hl]; rfl)
        · rw [b]; exact (updAt_id _ _ _ (by simp [-Fin.getElem_fin, guardHalt, guardStep, hs, hl, LinkStep.silent])).symm
        · have hl' : c.drives[d].atLink = false := by simpa using hl
          obtain ⟨p, q⟩ := e (by
            rcases hn with hn | hn
            · exact Or.inl fun h => hn ⟨hs, hl', h⟩
            · exact Or.inr hn)
          refine ⟨p, ?_⟩
          rw [q]; simp [-Fin.getElem_fin, guardTold, guardStep, hs, hl, LinkStep.silent]
      · rw [a, updAt_self]; simp [-Fin.getElem_fin, idleDrive]
  · obtain ⟨a, b, e, f⟩ := halting_spec d c (by simp [-Fin.getElem_fin, hs])
    have hh : c.driveHalt d .guard = c.halting d .guard := by simp only [Chip.driveHalt, hs]
    rw [hh, nofault]
    · refine ⟨?_, ?_, fun _ => ⟨b, ?_⟩⟩
      · rw [a]; exact updAt_congr _ _ _ _ (by simp only [haltedDrive, hs])
      · rw [e]; exact updAt_congr _ _ _ _ (by simp [-Fin.getElem_fin, guardHalt, guardStep, hs])
      · rw [f]; simp [-Fin.getElem_fin, guardTold, guardStep, hs]
    · rw [a, updAt_self]; simp [-Fin.getElem_fin, haltingDrive]
  · rw [hD _ hs (by simp), nofault c (by simp [-Fin.getElem_fin, hs])]; exact still _ hs (by simp)
  · rw [hD _ hs (by simp)]
    have hq : ∀ (k : Link) a, k.holdsMove a = (k.queue ++ (k.current.map fun y => y.txn).toList).any fun t => t.cmd.isMove && t.addr == a := by
      intro k a; unfold Link.holdsMove queuedMove; cases k.current <;> simp
    unfold Chip.recallMove
    simp only [hs, hq]
    split
    · rename_i hc
      obtain ⟨a, b, e, f⟩ := handHalt_spec d c _ rfl
      have hx := (Bool.and_eq_true _ _ ▸ hc).2
      refine ⟨?_, ?_, fun _ => ⟨b, ?_⟩⟩
      · rw [a]; exact (updAt_id _ _ _ (by simp only [haltedDrive, hs])).symm
      · rw [e]; apply updAt_congr; simp only [guardHalt, guardStep]; rw [if_pos (Or.inr (Or.inr ⟨hs, hx⟩))]
      · rw [f]; simp only [guardTold, hs, guardStep, List.nil_append]; rw [if_pos (Or.inr (Or.inr ⟨trivial, hx⟩))]
    · rename_i hc
      have hx : ¬ _ := fun h => hc (Bool.and_eq_true _ _ ▸ ⟨rfl, h⟩)
      have hg : guardStep c.drives[d] c.links[c.drives[d].entry.link] = .silent c.links[c.drives[d].entry.link] := by
        simp only [guardStep]; rw [if_neg]; simp only [hs]; rintro (h|h|h); cases h; cases h.1; exact hx h.2
      refine ⟨(updAt_id _ _ _ (by simp only [haltedDrive, hs])).symm, (updAt_id _ _ _ ?_).symm, fun _ => ⟨rfl, ?_⟩⟩
      · simp only [guardHalt]; rw [hg]; rfl
      · simp only [guardTold, hs]; rw [hg]; simp [-Fin.getElem_fin, LinkStep.silent]

end Sys2Proof.Machine
end

