-- ==== Sys2Proof/Laws/Pair.lean ====
section
/-!
SUPPORT. What the levels of a link pair say (R117, R127): a character comes back as sent, a pair shows a controller at most another's dominant level, and
the bits of a frame.
-/

namespace Sys2Proof

/-- A character has 11 levels. -/
@[simp] theorem charLevels_length (b : Byte) : (charLevels b).length = 11 := by simp [charLevels]

/-- A character that comes as it was sent has its data, and neither a parity nor a framing error. -/
theorem sent_taken : ∀ b : Byte, (RxChar.sent b).data = b ∧ (RxChar.sent b).parityOk = true ∧ (RxChar.sent b).framingOk = true := by
  decide +kernel

/-- On a sound pair the controller finds no fault: with its own level among the stations', it finds what it drives, or is overridden. -/
theorem bitCheck_onPair (driven : Level) (others : List Level) :
    bitCheck driven (Level.onPair (driven :: others)) =
      if driven = .recessive ∧ .dominant ∈ others then .lost else .agree := by
  cases driven
  · simp [Level.onPair, bitCheck]
  · by_cases h : Level.dominant ∈ others <;> simp [Level.onPair, bitCheck, h]

end Sys2Proof
end

