-- ==== Sys2Proof/WellFormed.lean ====
section
/-!
DEFINITION. Which commands are well formed. Operand types carry most of it (a slot is 0–11, a word number has 22 bits). The
one relation left is that the header is read in four grants (R178), so a MAP_HEADER_READ makes one to four of them.
-/

namespace Sys2Proof

/-- One to four header grants (R178). -/
def grantsOk (n : Nat) : Bool := 1 ≤ n && n ≤ 4

/-- The command is one the part can meet. -/
def Instr.wellFormed : Instr → Bool
  | .mapHeaderRead n => grantsOk n
  | .powerOnReset | .resetLineAsserted | .resetLineReleased | .hostRead _ | .heldReadEnd | .hostReadGrant
  | .hostWrite _ _ _ | .loadWordWrite _ _ | .requestProduceIndexWrite _ _ | .noticeConsumeIndexWrite _ _
  | .lampHouseTableWrite _ _ _ | .postingLands | .tableRead _ | .loopbackCheck _ _ | .enterLive | .requestIndexRead
  | .stopRawChange _ | .stopFilterSettle | .triggerRawChange _ _ | .triggerFilterSettle _ | .dwellTimerExpiry _
  | .cooldownTimerExpiry _ | .indicatorAlternationStep _ | .offerVerdict | .definitionReadReturn _ | .cueCheckRead _
  | .claimWaitTimerExpiry _ | .cueRecordArrives _ | .offsetTimerExpiry _ | .waitTimerExpiry _ | .runLimitTimerExpiry _
  | .lampFrameStart | .lampFadeEnd _ | .directoryReadReturn _ | .burstArrives _ | .sampleTime _ | .voiceFadeEnd _
  | .pairStartBit _ | .quietWaitEnd _ | .serviceLineChange _ _ | .arbitrationLost _ | .pairDriveFault _ | .frameSent _
  | .replyCharacter _ _ | .replyTimeout _ | .probeTimerExpiry _ _ | .retryTimerExpiry _ | .settleTimerExpiry _
  | .startScene | .stopScene | .stopBay | .hold | .release | .guardBaySet | .guardBayClear | .armTrigger | .disarmTrigger
  | .driveServiceHome | .driveServiceSense | .driveServiceClear | .resetShow | .resetShowDrainEnd | .unknownKind
  | .noticeDrain => true

end Sys2Proof
end

