-- ==== Sys2Proof/Laws/PerInstr.lean ====
section
/-!
SUPPORT. The family F: a command is ill formed only as a MAP_HEADER_READ of no grant or of more than four (R178).
-/

namespace Sys2Proof.Laws.F

def Statement (i : Instr) : Prop := i.wellFormed = false ↔ ∃ n, i = .mapHeaderRead n ∧ (n = 0 ∨ 4 < n)

/-- A well-formed command that is no MAP_HEADER_READ. -/
theorem of_wellFormed {i : Instr} (h : i.wellFormed = true) (g : ∀ n, i ≠ .mapHeaderRead n) : Statement i :=
  ⟨fun f => absurd (h.symm.trans f) nofun, fun ⟨n, e, _⟩ => absurd e (g n)⟩

theorem powerOnReset : Statement .powerOnReset := of_wellFormed rfl nofun

theorem resetLineAsserted : Statement .resetLineAsserted := of_wellFormed rfl nofun

theorem resetLineReleased : Statement .resetLineReleased := of_wellFormed rfl nofun

theorem hostRead (word : WordNo) : Statement (.hostRead word) := of_wellFormed rfl nofun

theorem heldReadEnd : Statement .heldReadEnd := of_wellFormed rfl nofun

theorem hostReadGrant : Statement .hostReadGrant := of_wellFormed rfl nofun

theorem hostWrite (word : WordNo) (data : Word) (be : Enables) : Statement (.hostWrite word data be) := of_wellFormed rfl nofun

theorem loadWordWrite (data : Word) (be : Enables) : Statement (.loadWordWrite data be) := of_wellFormed rfl nofun

theorem requestProduceIndexWrite (data : Word) (be : Enables) : Statement (.requestProduceIndexWrite data be) := of_wellFormed rfl nofun

theorem noticeConsumeIndexWrite (data : Word) (be : Enables) : Statement (.noticeConsumeIndexWrite data be) := of_wellFormed rfl nofun

theorem lampHouseTableWrite (lamp : LampId) (data : Word) (be : Enables) : Statement (.lampHouseTableWrite lamp data be) := of_wellFormed rfl nofun

theorem postingLands : Statement .postingLands := of_wellFormed rfl nofun

theorem mapHeaderRead (grants : Nat) : Statement (.mapHeaderRead grants) := by
  simp only [Statement, Instr.wellFormed, grantsOk, Instr.mapHeaderRead.injEq, exists_eq_left', Bool.and_eq_false_iff, decide_eq_false_iff_not]
  omega

theorem tableRead (table : LoadTable) : Statement (.tableRead table) := of_wellFormed rfl nofun

theorem loopbackCheck (link : LinkId) (ch : Option RxChar) : Statement (.loopbackCheck link ch) := of_wellFormed rfl nofun

theorem enterLive : Statement .enterLive := of_wellFormed rfl nofun

theorem requestIndexRead : Statement .requestIndexRead := of_wellFormed rfl nofun

theorem stopRawChange (high : Bool) : Statement (.stopRawChange high) := of_wellFormed rfl nofun

theorem stopFilterSettle : Statement .stopFilterSettle := of_wellFormed rfl nofun

theorem triggerRawChange (input : InputId) (high : Bool) : Statement (.triggerRawChange input high) := of_wellFormed rfl nofun

theorem triggerFilterSettle (input : InputId) : Statement (.triggerFilterSettle input) := of_wellFormed rfl nofun

theorem dwellTimerExpiry (input : InputId) : Statement (.dwellTimerExpiry input) := of_wellFormed rfl nofun

theorem cooldownTimerExpiry (input : InputId) : Statement (.cooldownTimerExpiry input) := of_wellFormed rfl nofun

theorem indicatorAlternationStep (input : InputId) : Statement (.indicatorAlternationStep input) := of_wellFormed rfl nofun

theorem offerVerdict : Statement .offerVerdict := of_wellFormed rfl nofun

theorem definitionReadReturn (slot : SlotId) : Statement (.definitionReadReturn slot) := of_wellFormed rfl nofun

theorem cueCheckRead (slot : SlotId) : Statement (.cueCheckRead slot) := of_wellFormed rfl nofun

theorem claimWaitTimerExpiry (slot : SlotId) : Statement (.claimWaitTimerExpiry slot) := of_wellFormed rfl nofun

theorem cueRecordArrives (slot : SlotId) : Statement (.cueRecordArrives slot) := of_wellFormed rfl nofun

theorem offsetTimerExpiry (slot : SlotId) : Statement (.offsetTimerExpiry slot) := of_wellFormed rfl nofun

theorem waitTimerExpiry (slot : SlotId) : Statement (.waitTimerExpiry slot) := of_wellFormed rfl nofun

theorem runLimitTimerExpiry (slot : SlotId) : Statement (.runLimitTimerExpiry slot) := of_wellFormed rfl nofun

theorem lampFrameStart : Statement .lampFrameStart := of_wellFormed rfl nofun

theorem lampFadeEnd (lamp : LampId) : Statement (.lampFadeEnd lamp) := of_wellFormed rfl nofun

theorem directoryReadReturn (voice : VoiceId) : Statement (.directoryReadReturn voice) := of_wellFormed rfl nofun

theorem burstArrives (voice : VoiceId) : Statement (.burstArrives voice) := of_wellFormed rfl nofun

theorem sampleTime (voice : VoiceId) : Statement (.sampleTime voice) := of_wellFormed rfl nofun

theorem voiceFadeEnd (voice : VoiceId) : Statement (.voiceFadeEnd voice) := of_wellFormed rfl nofun

theorem pairStartBit (link : LinkId) : Statement (.pairStartBit link) := of_wellFormed rfl nofun

theorem quietWaitEnd (link : LinkId) : Statement (.quietWaitEnd link) := of_wellFormed rfl nofun

theorem serviceLineChange (link : LinkId) (pulled : Bool) : Statement (.serviceLineChange link pulled) := of_wellFormed rfl nofun

theorem arbitrationLost (link : LinkId) : Statement (.arbitrationLost link) := of_wellFormed rfl nofun

theorem pairDriveFault (link : LinkId) : Statement (.pairDriveFault link) := of_wellFormed rfl nofun

theorem frameSent (link : LinkId) : Statement (.frameSent link) := of_wellFormed rfl nofun

theorem replyCharacter (link : LinkId) (ch : RxChar) : Statement (.replyCharacter link ch) := of_wellFormed rfl nofun

theorem replyTimeout (link : LinkId) : Statement (.replyTimeout link) := of_wellFormed rfl nofun

theorem probeTimerExpiry (link : LinkId) (addr : AddrId) : Statement (.probeTimerExpiry link addr) := of_wellFormed rfl nofun

theorem retryTimerExpiry (drive : DriveId) : Statement (.retryTimerExpiry drive) := of_wellFormed rfl nofun

theorem settleTimerExpiry (drive : DriveId) : Statement (.settleTimerExpiry drive) := of_wellFormed rfl nofun

theorem startScene : Statement .startScene := of_wellFormed rfl nofun

theorem stopScene : Statement .stopScene := of_wellFormed rfl nofun

theorem stopBay : Statement .stopBay := of_wellFormed rfl nofun

theorem hold : Statement .hold := of_wellFormed rfl nofun

theorem release : Statement .release := of_wellFormed rfl nofun

theorem guardBaySet : Statement .guardBaySet := of_wellFormed rfl nofun

theorem guardBayClear : Statement .guardBayClear := of_wellFormed rfl nofun

theorem armTrigger : Statement .armTrigger := of_wellFormed rfl nofun

theorem disarmTrigger : Statement .disarmTrigger := of_wellFormed rfl nofun

theorem driveServiceHome : Statement .driveServiceHome := of_wellFormed rfl nofun

theorem driveServiceSense : Statement .driveServiceSense := of_wellFormed rfl nofun

theorem driveServiceClear : Statement .driveServiceClear := of_wellFormed rfl nofun

theorem resetShow : Statement .resetShow := of_wellFormed rfl nofun

theorem resetShowDrainEnd : Statement .resetShowDrainEnd := of_wellFormed rfl nofun

theorem unknownKind : Statement .unknownKind := of_wellFormed rfl nofun

theorem noticeDrain : Statement .noticeDrain := of_wellFormed rfl nofun

end Sys2Proof.Laws.F
end

