-- ==== Sys2Proof/Laws/Records.lean ====
section
/-!
SUPPORT. Fields of records: the readings of show memory as numbers of so many bytes (`numberAt`), the bytes of a posted word (`bytesOf`), what `finOf?` finds,
and the codes of the tables (section 11.3).
-/

namespace Sys2Proof.Machine
open Sys2Proof.Safety

theorem numberAt_one (m : Memory) (a : Nat) : numberAt m a 1 = (m.byte a).toNat := by simp [numberAt]

/-- A number put behind another of 8 bits. -/
theorem toNat_append_byte {n : Nat} (x : BitVec n) (b : Byte) : (x ++ b).toNat = b.toNat + 256 * x.toNat := by
  rw [BitVec.toNat_append, ← Nat.shiftLeft_add_eq_or_of_lt b.isLt, Nat.shiftLeft_eq]; omega

theorem half_toNat (m : Memory) (a : Nat) : (m.half a).toNat = numberAt m a 2 := by
  simp [Memory.half, toNat_append_byte, numberAt]

theorem nat32_eq (m : Memory) (a : Nat) : m.nat32 a = numberAt m a 4 := by
  simp only [Memory.nat32, Word.ofBytes, toNat_append_byte, numberAt, Nat.add_assoc, Nat.reduceAdd]
  omega

/-- A word made of four byte values shows them. -/
theorem bytesOf_ofNats (a b c d : Nat) : bytesOf 4 (Word.ofNats a b c d).toNat = [a % 256, b % 256, c % 256, d % 256] := by
  simp only [Word.ofNats, Word.ofBytes, toNat_append_byte, BitVec.toNat_ofNat, bytesOf]
  refine List.cons_eq_cons.2 ⟨by omega, List.cons_eq_cons.2 ⟨by omega, List.cons_eq_cons.2 ⟨by omega, List.cons_eq_cons.2 ⟨by omega, rfl⟩⟩⟩⟩

/-- Bytes above those asked for do not show. -/
theorem bytesOf_mod (n x : Nat) : bytesOf n (x % 256 ^ n) = bytesOf n x := by
  induction n generalizing x with
  | zero => rfl
  | succ n ih =>
    have h : x % 256 ^ (n + 1) / 256 = x / 256 % 256 ^ n := by
      rw [Nat.pow_succ', Nat.mod_mul_right_div_self]
    have g : x % 256 ^ (n + 1) % 256 = x % 256 := Nat.mod_mod_of_dvd _ (Nat.pow_succ' ▸ Nat.dvd_mul_right _ _)
    rw [bytesOf, bytesOf, h, g, ih]

/-- `finOf?` finds an index by its number. -/
theorem finOf?_eq_some {n x : Nat} {k : Fin n} : finOf? n x = some k ↔ k.val = x := by
  unfold finOf?
  split
  · next h => simp [Fin.ext_iff, eq_comm]
  · next h => simp; have := k.isLt; omega

theorem finOf?_eq_none {n x : Nat} : finOf? n x = none ↔ n ≤ x := by
  unfold finOf?; split <;> simp <;> omega

theorem finOf?_of_lt {n x : Nat} (h : x < n) : finOf? n x = some ⟨x, h⟩ := finOf?_eq_some.2 rfl

/-- Numbers within the range keep their places in a list. -/
theorem map_filterMap_finOf {n : Nat} {xs : List Nat} (h : ∀ x ∈ xs, x < n) : (xs.filterMap (finOf? n)).map Fin.val = xs := by
  induction xs with
  | nil => rfl
  | cons x xs ih => simp [finOf?_of_lt (h x (by simp)), ih fun y hy => h y (by simp [hy])]

/-- A byte is a code when its number is. -/
theorem byte_eq_iff {b : Byte} {n : Nat} (h : n < 256) : b = BitVec.ofNat 8 n ↔ b.toNat = n := by
  rw [← BitVec.toNat_inj, BitVec.toNat_ofNat]; omega

/-! ## The codes of the tables (section 11.3) -/

theorem levelOf_eq_some {n : Nat} {a : Bool} : levelOf n = some a ↔ n = if a then 1 else 0 := by
  unfold levelOf; split <;> cases a <;> simp_all

theorem moveCodeOf_eq_some {n : Nat} {k : MoveCode} :
    moveCodeOf n = some k ↔ (k = .goto ∧ n = 1) ∨ (k = .home ∧ n = 2) ∨ (k = .cycle ∧ n = 3) := by
  unfold moveCodeOf; split <;> cases k <;> simp_all

theorem debounceOf_eq (b : Byte) : debounceOf b = if b.toNat ≤ 3 then some (10 * 2 ^ b.toNat) else none := by
  unfold debounceOf; split <;> simp_all <;> omega

theorem indicatorOf_isSome {n : Nat} : (indicatorOf n).isSome = true ↔ n ≤ 95 ∨ n = 255 := by
  unfold indicatorOf
  split
  · simp [*]
  · by_cases g : n < 96
    · simp [finOf?_of_lt g]; omega
    · simp [finOf?_eq_none.2 (Nat.le_of_not_lt g)]; omega

/-- The sum of bytes, as the check of a frame and of a reply takes it (R118, R119). -/
theorem foldl_add_toNat (bs : List Byte) (z : Byte) : (bs.foldl (· + ·) z).toNat = (z.toNat + (bs.map BitVec.toNat).sum) % 256 := by
  induction bs generalizing z with
  | nil => simp; omega
  | cons b bs ih => simp [ih, Nat.add_assoc]

end Sys2Proof.Machine
end

