-- ==== Sys2Proof/Laws/Review.lean ====
section
/-!
SUPPORT. What a review of the claim waiting list does to the slots (R39): a slot that does not wait is left as it is (`review_other`), and a waiter becomes
FREE, or keeps its scene, origin, bay and definition and its state or enters TIMING (`review_waiter`).
-/

namespace Sys2Proof.Machine

open Sys2Proof.Safety

/-- The slot still runs the same instance: scene, origin, admission bay and definition are kept. -/
def SameInstance (s₀ s : Slot) : Prop :=
  s.scene = s₀.scene ∧ s.origin = s₀.origin ∧ s.admissionBay = s₀.admissionBay ∧ s.defn = s₀.defn

/-- Slot `i` went from what it was to what `P` says, and no other slot changed. -/
def AtSlot (P : Slot → Slot → Prop) (i : SlotId) (c₀ c : Chip) : Prop :=
  P c₀.slots[i] c.slots[i] ∧ ∀ j : SlotId, j ≠ i → c.slots[j] = c₀.slots[j]

/-- What a review leaves of a waiter: it is FREE, or its instance stands and it waits on or has entered TIMING. -/
def Reviewed (s₀ s : Slot) : Prop := s = .free ∨ (SameInstance s₀ s ∧ (s.state = s₀.state ∨ s.state = .timing))

theorem SameInstance.refl (s : Slot) : SameInstance s s := ⟨rfl, rfl, rfl, rfl⟩

theorem SameInstance.trans {a b c : Slot} (h : SameInstance a b) (g : SameInstance b c) : SameInstance a c :=
  ⟨g.1.trans h.1, g.2.1.trans h.2.1, g.2.2.1.trans h.2.2.1, g.2.2.2.trans h.2.2.2⟩

theorem AtSlot.mono {P Q : Slot → Slot → Prop} {i : SlotId} {a b : Chip} (h : AtSlot P i a b) (hPQ : ∀ s t, P s t → Q s t) : AtSlot Q i a b :=
  ⟨hPQ _ _ h.1, h.2⟩

theorem AtSlot.trans {P Q R : Slot → Slot → Prop} {i : SlotId} {a b c : Chip} (h : AtSlot P i a b) (g : AtSlot Q i b c)
    (hR : ∀ s t u, P s t → Q t u → R s u) : AtSlot R i a c :=
  ⟨hR _ _ _ h.1 g.1, fun j hj => (g.2 j hj).trans (h.2 j hj)⟩

/-- A change of other parts alone. -/
theorem AtSlot.rest {P : Slot → Slot → Prop} {i : SlotId} {a b c : Chip} (h : AtSlot P i a b) (hs : c.slots = b.slots) : AtSlot P i a c :=
  ⟨hs ▸ h.1, fun j hj => (congrArg (·[j]) hs).trans (h.2 j hj)⟩

/-- A change of other parts before it. -/
theorem AtSlot.pre {P : Slot → Slot → Prop} {i : SlotId} {a b c : Chip} (h : AtSlot P i b c) (hs : b.slots = a.slots) : AtSlot P i a c :=
  ⟨hs ▸ h.1, fun j hj => (h.2 j hj).trans (by rw [hs])⟩

theorem AtSlot.modSlot (i : SlotId) (f : Slot → Slot) (c : Chip) : AtSlot (fun s t => t = f s) i c (c.modSlot i f) :=
  ⟨updAt_self _ _ _, fun _ hj => updAt_other _ _ _ _ hj.symm⟩

/-- Every part but the slots. -/
def notSlots : List Part :=
  [.port, .postings, .spans, .arbiter, .loader, .req, .noticeIndex, .sources, .fetch, .claims, .trig, .lamp, .voices, .links, .drives, .bays, .guardIn, .hold, .signals]

/-- An operation whose parts are not the slots leaves the slots. -/
theorem slots_of_within {a b : Chip} (h : Within notSlots a b) : b.slots = a.slots := h .slots (by decide)

theorem mirrorSlot_slots (i : SlotId) (c : Chip) : (c.mirrorSlot i).slots = c.slots := slots_of_within (by simp [notSlots])
theorem mirrorLamp_slots (l : LampId) (c : Chip) : (c.mirrorLamp l).slots = c.slots := slots_of_within (by simp [notSlots])
theorem hand_slots (src : Fin 77) (b : NoticeBody) (c : Chip) : (c.hand src b).slots = c.slots := slots_of_within (by simp [notSlots])
theorem sceneEndOf_slots (o : Option Origin) (n : Nat) (c : Chip) : (c.sceneEndOf o n).slots = c.slots := slots_of_within (by simp [notSlots])
theorem reserve_slots (i : SlotId) (c : Chip) : (c.reserve i).slots = c.slots := slots_of_within (by simp [notSlots])

/-- Taking a lamp keeps the instance and its state (R44). -/
theorem takeLamp_atSlot (i : SlotId) (l : LampId) (c : Chip) : AtSlot SameInstance i c (c.takeLamp i l) := by
  have h : ∀ (d : Chip) (f : Slot → Slot), d.slots = c.slots → (∀ s, SameInstance s (f s)) → AtSlot SameInstance i c ((d.modSlot i f).mirrorLamp l) :=
    fun d f hd hf => (((AtSlot.modSlot i f d).mono fun s t h => h ▸ hf s).rest (mirrorLamp_slots l _)).pre hd
  exact h _ _ rfl fun s => ⟨rfl, rfl, rfl, rfl⟩

/-- Operations that keep one slot's instance, one after the other. -/
theorem AtSlot.foldl {α : Type} {i : SlotId} {f : Chip → α → Chip} (hf : ∀ c x, AtSlot SameInstance i c (f c x)) (xs : List α) (c : Chip) :
    AtSlot SameInstance i c (xs.foldl f c) := by
  induction xs generalizing c with
  | nil => exact ⟨.refl _, fun _ _ => rfl⟩
  | cons x xs ih => exact (hf c x).trans (ih _) fun _ _ _ => SameInstance.trans

theorem foldl_slots {α : Type} {f : Chip → α → Chip} (hf : ∀ c x, (f c x).slots = c.slots) (xs : List α) (c : Chip) : (xs.foldl f c).slots = c.slots := by
  induction xs generalizing c with
  | nil => rfl
  | cons x xs ih => exact (ih _).trans (hf c x)

/-- A grant keeps the instance and brings it to TIMING (R43 to R45). -/
theorem grant_atSlot (i : SlotId) (c : Chip) : AtSlot (fun s t => SameInstance s t ∧ t.state = .timing) i c (c.grant i) := by
  have last : ∀ (d : Chip) (vs : List VoiceId),
      AtSlot (fun s t => SameInstance s t ∧ t.state = .timing) i d ((((d.modSlot i (Slot.setVoices vs)).modSlot i Slot.start).requestFetch i (.run 0)).mirrorSlot i) :=
    fun d vs => ((AtSlot.modSlot i _ d).trans (AtSlot.modSlot i _ _) (R := fun s t => SameInstance s t ∧ t.state = .timing) fun s t u h g => by
      subst h g; exact ⟨⟨rfl, rfl, rfl, rfl⟩, rfl⟩).rest (mirrorSlot_slots i _)
  have lamps : AtSlot SameInstance i c (c.slots[i].claimLamps.foldl (fun c l => c.takeLamp i l) c) := AtSlot.foldl (fun c l => takeLamp_atSlot i l c) _ c
  unfold Chip.grant
  refine AtSlot.trans (lamps.rest ?_) (last _ _) fun _ _ _ h g => ⟨h.trans g.1, g.2⟩
  exact (foldl_slots (f := fun c v => c.takeVoice i v) (fun _ _ => rfl) _ _).trans (foldl_slots (f := fun c d => c.takeDrive i d) (fun _ _ => rfl) _ _)

/-- A slot becomes FREE and no other slot changes (R29, R32). -/
theorem freeSlot_atSlot (i : SlotId) (c : Chip) : AtSlot (fun _ t => t = .free) i c (c.freeSlot i) := by
  unfold Chip.freeSlot
  dsimp only
  have hd := sceneEndOf_slots c.slots[i].origin c.slots[i].cooldown ((c.modPort (Port.unfence i)).hand (srcSlot i) (.sceneEnded c.slots[i].sceneEnd))
  rw [hand_slots] at hd
  generalize Chip.sceneEndOf _ _ _ = d at hd ⊢
  have h := (AtSlot.modSlot i (fun _ => .free) d).pre hd
  refine h.rest ?_
  rw [mirrorSlot_slots]
  rfl

theorem refuse_atSlot (i : SlotId) (c : Chip) : AtSlot (fun _ t => t = .free) i c (c.refuse i) := by
  unfold Chip.refuse
  have h := (AtSlot.modSlot i (fun s => { s with cause := some .claimRefused }) (c.modClaims (ClaimTable.leave i))).pre (a := c) rfl
  exact h.trans (freeSlot_atSlot i _) fun _ _ _ _ g => g

/-- One waiter's turn in the walk (R39, R43, R49). -/
theorem walk_cons (w : SlotId) (ws : List SlotId) (head : Bool) (c : Chip) :
    ∃ head' d, Chip.walk (w :: ws) head c = Chip.walk ws head' d ∧ AtSlot Reviewed w c d := by
  rw [Chip.walk.eq_2]
  split
  · exact ⟨_, _, rfl, (grant_atSlot w c).mono fun _ _ h => Or.inr ⟨h.1, Or.inr h.2⟩⟩
  · split
    · exact ⟨_, _, rfl, (refuse_atSlot w c).mono fun _ _ h => Or.inl h⟩
    · have h := (AtSlot.modSlot w (fun s => { s with firstReview := false }) c).mono (Q := Reviewed) fun _ _ h => by
        subst h; exact Or.inr ⟨⟨rfl, rfl, rfl, rfl⟩, Or.inl rfl⟩
      refine ⟨_, _, rfl, ?_⟩
      split
      · exact h
      · exact h.rest (reserve_slots w _)

/-- The walk leaves a slot that is not on the list (R39). -/
theorem walk_other (ws : List SlotId) (head : Bool) (c : Chip) (j : SlotId) (hj : j ∉ ws) : (Chip.walk ws head c).slots[j] = c.slots[j] := by
  induction ws generalizing head c with
  | nil => rfl
  | cons w ws ih =>
    obtain ⟨head', d, hd, h⟩ := walk_cons w ws head c
    exact hd ▸ (ih head' d fun m => hj (List.mem_cons_of_mem _ m)).trans (h.2 j fun e => hj (e ▸ List.mem_cons_self))

/-- What the walk leaves of a waiter (R39, R43, R49). -/
theorem walk_waiter (ws : List SlotId) (head : Bool) (c : Chip) (hn : ws.Nodup) (w : SlotId) (hw : w ∈ ws) :
    Reviewed c.slots[w] (Chip.walk ws head c).slots[w] := by
  induction ws generalizing head c with
  | nil => cases hw
  | cons v ws ih =>
    obtain ⟨head', d, hd, h⟩ := walk_cons v ws head c
    have hv := List.nodup_cons.mp hn
    rw [hd]
    by_cases e : w = v
    · subst e
      exact (walk_other ws head' d w hv.1).symm ▸ h.1
    · exact h.2 w e ▸ ih head' d hv.2 ((List.mem_cons.mp hw).resolve_left e)

/-- A review leaves a slot that does not wait (R38, R39). -/
theorem review_other (c : Chip) (j : SlotId) (hj : j ∉ c.claims.waiting) : c.review.slots[j] = c.slots[j] := walk_other _ _ _ j hj

/-- What a review leaves of a waiter (R38, R39). -/
theorem review_waiter (c : Chip) (hc : waitersOk c) (w : SlotId) (hw : w ∈ c.claims.waiting) : Reviewed c.slots[w] c.review.slots[w] :=
  walk_waiter _ _ _ hc.1 w hw

end Sys2Proof.Machine
end

