-- ==== Sys2Proof/Tests/Slice0.lean ====
section
/-!
SUPPORT. The package's own tests: the ill-formed commands, a few words and values of the spec's own examples, one step of some commands on small states, and
for each statement with hypotheses a state and operands that meet them, clause by clause (`meets_<the statement>`).
-/

set_option Elab.async false

namespace Sys2Proof.Tests

open Sys2Proof.Machine Sys2Proof.Safety

/-! ## Small states -/

/-- Memory with the words given by (byte address, value). -/
def put (xs : List (Nat × Nat)) : Memory := xs.foldl (fun m x => m.write (x.1 / 4) (BitVec.ofNat 32 x.2) 0xF#4) []

/-- The regions of a small map, in descriptor order. -/
def regions : Vector Region 12 :=
  ⟨#[⟨0x100, 16⟩, ⟨0x200, 512⟩, ⟨0x400, 1024⟩, ⟨0x800, 1024⟩, ⟨0x1000, 2048⟩, ⟨0x2000, 4096⟩, ⟨0x4000, 8192⟩, ⟨0x8000, 0x4000⟩, ⟨0x10000, 384⟩,
    ⟨0x10200, 64⟩, ⟨0x10400, 512⟩, ⟨0x10800, 192⟩], rfl⟩

/-- Its header, in words. -/
def header : Memory :=
  put ([(0, 0x34325053), (8, 1), (12, 1023)] ++ (List.finRange 12).flatMap fun k => [(0x20 + 8 * k.val, regions[k].base), (0x24 + 8 * k.val, regions[k].len)])

/-- The part in LIVE, the STOP line settled inactive, nothing going on. -/
def live : Chip :=
  { Chip.reset with
    port := { Port.reset with mode := .live, decoder := some regions }
    loader := .idle
    hold := ⟨.absent, false, true, some true, none⟩ }

/-- The part HELD by a HOLD request. -/
def heldBy (line : LineCause) (request : Bool) : Chip :=
  { live with port := { live.port with mode := .held }, hold := { live.hold with line := line, request := request } }

/-- The part in LOADING, its tables being read: so many grants made of each. -/
def loadingAt (trigger bay lamp drive : Nat) : Chip :=
  { live with port := { live.port with mode := .loading }, loader := ⟨.tables, [], trigger, bay, lamp, drive⟩ }

def transparent : Chip := { live with port := { Port.reset with mode := .transparent } }

/-- With the RESET line asserted. -/
def inReset : Chip := { live with port := { live.port with resetLine := true } }

def st (c : Chip) : State := ⟨[], c, []⟩
def stm (m : List (Nat × Nat)) (c : Chip) : State := ⟨put m, c, []⟩

/-- A request record waits at the head of the ring. -/
def asks (kind flags tag a1 a2 a3 : Nat) (c : Chip) : State :=
  stm [(0x200, kind + 256 * flags + 65536 * tag), (0x204, a1 + 256 * a2 + 65536 * a3)] { c with req := { c.req with produce := 1 } }

/-- Postings wait. -/
def posting (ps : List Posting) (c : Chip) : Chip := { c with port := { c.port with posts := ps } }
def hosting (h : HostCycle) (c : Chip) : Chip := { c with port := { c.port with host := some h } }
def post5 : Posting := ⟨5, 7#32, 0xF#4, false⟩

/-- A channel waits urgently for its directory entry, and so nobody else gets the bus. -/
def busy (c : Chip) : Chip := c.modVoice 0 fun x => { x with dirRead := some ⟨1, 255, false, false, false⟩, urgent := true }

/-- Drive 5, address 4 of link A in bay 3, in a state. -/
def driveAt (state : DriveState) (c : Chip) : Chip :=
  (c.modDrive 5 fun x => { x with entry := ⟨0#8, 4#8, 3#8, 80#8, 1#8, true⟩, state := state }).modLink 0 fun k =>
    { k with addrs := updAt k.addrs 3 fun r => { r with configured := true, present := true } }

/-! ## Well-formedness and names -/

theorem test_header_read_of_no_grant_is_refused : (Instr.mapHeaderRead 0).wellFormed = false := by decide
theorem test_header_read_of_five_grants_is_refused : (Instr.mapHeaderRead 5).wellFormed = false := by decide
theorem test_header_read_of_one_and_four_grants : (Instr.mapHeaderRead 1).wellFormed = true ∧ (Instr.mapHeaderRead 4).wellFormed = true := by decide
theorem test_words_spell_no_command : decodeTableWord 32 0x34325053 = none ∧ decodeTableWord 0 0 = none := by decide

/-! ## Values of the spec's own examples -/

/-- The check of R118's example. -/
theorem test_select_frame : Txn.frame ⟨3, .goto, 1200#16, .move⟩ false = [0x04#8, 0x21#8, 0x04#8, 0xB0#8, 0xD9#8] := by decide
theorem test_sample_scale_drops_towards_zero : scaleSample 0xFFFF#16 128 = 0#16 ∧ scaleSample 0x8000#16 255 = 0x8000#16 := by decide +kernel
theorem test_fade_up_drops_the_fraction : (LampFade.value ⟨0, 800, 2000, Config.ms 1001⟩) = 400 := by decide
theorem test_fade_down_drops_the_travel : (LampFade.value ⟨800, 0, 2000, Config.ms 1001⟩) = 400 := by decide
theorem test_round_robin_wraps : roundRobin (7 : Fin 8) (fun i => i.val == 0 || i.val == 7) = some 0 ∧ roundRobin (0 : Fin 8) (fun i => i.val == 0) = some 0 := by
  decide +kernel
theorem test_memory_stays_canonical : (Memory.write [] 0 0x00000100#32 0xF#4) = [(1, 1#8)] ∧ Memory.write [(1, 1#8)] 0 0#32 0xF#4 = [] := by decide

/-! ## One step -/

/-- R177: the load word begins LOADING. -/
theorem test_load_word : (match exec (.loadWordWrite 0x34325053#32 0xF#4) (st transparent) with
    | .next t => decide (t.chip.port.mode = .loading ∧ t.chip.loader.phase = .header ∧ t.mem = put [(4, 0x34325053)])
    | _ => false) = true := by decide +kernel

/-- R175: a host write at its turn reaches memory. -/
theorem test_host_write : (match exec (.hostWrite 5#22 0x11223344#32 0x5#4) (st live) with
    | .next t => decide (t.mem = [(20, 0x44#8), (22, 0x22#8)] ∧ t.chip.port.host = none)
    | _ => false) = true := by decide +kernel

/-- R169, R171, R187: a HOLD request in LIVE; its reply waits behind the mirror's words. -/
theorem test_hold : (match exec .hold (asks 4 0 9 0 0 0 live) with
    | .next t => decide (t.chip.port.mode = .held ∧ t.chip.req.consume = 1 ∧ t.chip.hold.request = true
        ∧ t.chip.port.requestBacklog = [⟨0x20C / 4, 0x00020001#32, 0xF#4, false⟩, ⟨0x104 / 4, 1#32, 0xF#4, false⟩])
    | _ => false) = true := by decide +kernel

/-- R56, R59: a settled change of an ARMED START input to active fires. -/
theorem test_trigger_fires : (match exec (.triggerFilterSettle 3) (st (live.modInput 3 fun x => { x with
      entry := { x.entry with role := .start, activeHigh := true, debounce := 10, scene := 9 }
      raw := true, settled := some false, running := true, filter := some 40000, state := .armed })) with
    | .next t => decide (t.chip.trig.offers = [⟨9, .trigger 3⟩] ∧ t.chip.trig.inputs[(3 : Fin 32)].offerOut = true)
    | _ => false) = true := by decide +kernel

/-- R133, R159: a HALT takes back a queued move of its drive, also behind a HALT queued before. -/
theorem test_halt_withdraws_a_queued_move :
    (let q : List Txn := [⟨3, .halt, 0#16, .halt⟩, ⟨3, .goto, 1200#16, .move⟩]
     let k : Link := { live.links[(0 : LinkId)].modAddr 3 (fun r => { r with present := true }) with queue := q }
     let r := k.halt 3 .halt
     decide (r.link.queue = [⟨3, .halt, 0#16, .halt⟩] ∧ r.reports = [(3, .withdrawn .goto)])) = true := by decide +kernel

/-- R110's own examples. -/
theorem test_gain_fade : (GainFade.value ⟨200, 250, Config.ms 100⟩) = 120 ∧ (GainFade.value ⟨200, 250, Config.ms 101⟩) = 120 := by decide

/-- R191, R190: a held read asks once the posting it waits for has landed, and is chosen before the slack posting behind. -/
theorem test_held_read_goes_before_a_slack_posting :
    (let c := posting [post5, { post5 with word := 6 }] (hosting (.read 5#22 (some 1)) live)
     match exec .postingLands (st c) with
     | .next t => match exec .heldReadEnd t with
       | .next u => decide (t.chip.port.host = some (.read 5#22 (some 0)) ∧ t.chip.port.bus = some .host
          ∧ u.chip.port.host = none ∧ u.chip.port.readData = 7#32 ∧ u.chip.port.posts.length = 1)
       | _ => false
     | _ => false) = true := by decide +kernel

/-- R152, R159: the move a FAULTED drive has left in the queue is withdrawn when its bay becomes guarded. -/
theorem test_faulted_drive_sends_no_move_into_a_guarded_bay :
    (let c := (driveAt .faulted live).modLink 0 fun k => { k with queue := [⟨3, .goto, 1200#16, .move⟩] }
     let d := c.haltBay 3
     decide (d.links[(0 : LinkId)].queue = [] ∧ d.signals = [.link 0 3 (.withdrawn .goto)] ∧ d.drives = c.drives)) = true := by decide +kernel

/-- R178, R181: power-on reset leaves the machine at State.reset, the free bus granted to the loader. -/
theorem test_power_on_grants_the_loader : (match exec .powerOnReset State.reset with
    | .next t => decide (t = State.reset ∧ t.chip.port.bus = some .loader)
    | _ => false) = true := by decide +kernel

/-- R75: a second DISARM of a SPENT input hands no update. -/
theorem test_second_disarm_hands_no_update :
    (let c := Chip.disarm 4 (live.modInput 4 fun x => { x with entry := { x.entry with role := .start }, state := .spent })
     decide (c.port.posts.length = 1 ∧ Chip.disarm 4 c = c)) = true := by decide +kernel

/-- R152, R161: a service window that expired before a fault took the IDLE drive to FAULTED stays so, and a REFUSED that follows is not retried. -/
theorem test_expired_service_window_outlasts_a_fault :
    (let c := (driveAt .idle live).modDrive 5 fun x => { x with service := some .clear, atLink := true, windowExpired := true }
     let d := (c.handle (.link 0 3 (.polled (Status.ofByte 8#8) (some ⟨8#8, 0#8, 0#8, 0#8⟩)))).handle (.link 0 3 (.refused .clear))
     let x := d.drives[(5 : DriveId)]
     decide (x.state = .faulted ∧ x.reason = some .busyTimeout ∧ x.service = none ∧ x.retry = none ∧ x.windowExpired = false)) = true := by
  decide +kernel

/-- R20, R205: a halted MOVE that is issued again updates its slot's two words and is not counted. -/
theorem test_move_issued_again_updates_the_mirror :
    (let r := parseCue (put [(0, 0x01001804), (4, 0x00000005)]) 0
     let c := (driveAt .idle live).modSlot 2 fun x => { x with
       state := .waiting, cond := some (.guard 3), current := some ⟨1, some r, true⟩, issued := 1 }
     let d := c.issueMove 2 r 5 .goto 0#16
     decide (d.port.posts.map (fun p => p.word - live.base rMirror / 4) = [8, 9, 33] ∧ d.slots[(2 : SlotId)].issued = 1)) = true := by decide +kernel

/-- R27, R31, R146: a drive of an ENDING slot that comes ONLINE with sense sets FAULT DURING ENDING (drive 6 is still to stop). -/
theorem test_online_with_sense_is_a_fault_during_ending :
    (let s : Sense := ⟨8#8, 0#8, 7#8, 0#8⟩
     let c := (((driveAt .offline live).modDrive 6 fun x => { x with state := .moving }).modSlot 2 fun x => { x with state := .ending }).modClaims fun t =>
       { t with drives := updAt (updAt t.drives 5 fun _ => ⟨some 2, none⟩) 6 fun _ => ⟨some 2, none⟩ }
     let d := c.handle (.link 0 3 (.online 1#8 2#8 (some s)))
     let e := d.handle (.drive 2 5 (.fault (some s)))
     decide (d.signals = [.drive 2 5 (.fault (some s)), .drive 2 5 .changed, .driveState 5] ∧ d.drives[(5 : DriveId)].state = .faulted
       ∧ e.slots[(2 : SlotId)].flags.faultDuring = true ∧ e.slots[(2 : SlotId)].fault = some (5, s))) = true := by decide +kernel

/-- R117, R126: a pair on which a frame is cut short has 2 ms of quiet still to pass. -/
theorem test_cut_frame_is_no_quiet :
    (let k := ({ live.links[(0 : LinkId)] with state := .quietWait, quiet := 0, queue := [⟨3, .halt, 0#16, .halt⟩] }.quietEnd false).link
     decide (k.state = .sending ∧ k.quiet = Config.us 220 + Config.ms 2 ∧ k.unconfigure.quiet = Config.ms 2)) = true := by decide +kernel

/-! ## The hypotheses of the statements -/

theorem meets_StepRunsFrontCommand : ({ st live with pending := [.noticeDrain, .hold] } : State).pending = .noticeDrain :: [.hold] := rfl

theorem meets_EmptyQueueStepIsOneTick :
    ((st live).pending = [] ∧ runs (st live)) ∧ ((st inReset).pending = [] ∧ ¬runs (st inReset))
    ∧ live.isHeld = false ∧ (heldBy .settled true).isHeld = true
    ∧ (live.voices[(0 : VoiceId)].state ≠ .fading)
    ∧ (∀ elapsed ∈ [0, Config.ms 250], let x := { live.voices[(0 : VoiceId)] with state := .fading, fade := some ⟨200, 250, elapsed⟩ }
        x.state = .fading ∧ x.fade = some ⟨200, 250, elapsed⟩ ∧ (elapsed = 0 ∨ Config.ms 250 ≤ elapsed)) := by
  delta runs; decide +kernel

theorem sound_st (c : Chip) (h : c.port.posts.length ≤ 32 ∧ c.port.hostCount ≤ 8 ∧ c.port.fencedCount ≤ 65535 ∧ c.req.produce < 32 ∧ c.req.consume < 32
    ∧ c.notice.produce < 64 ∧ c.notice.consume < 64 ∧ (c.port.mode = .held ↔ (c.hold.line ≠ .absent ∨ c.hold.request = true))
    ∧ (c.loader.phase ≠ .off → c.port.mode = .loading)) : ChipOk c :=
  ⟨h.1, ⟨h.2.1, h.2.2.1⟩, ⟨h.2.2.2.1, h.2.2.2.2.1, h.2.2.2.2.2.1, h.2.2.2.2.2.2.1⟩, h.2.2.2.2.2.2.2.1, h.2.2.2.2.2.2.2.2⟩

theorem sound_live : Sound (st live) := ⟨rfl, sound_st _ (by decide +kernel)⟩

theorem meets_InvariantKeptByEveryStep : Sound (st live) ∧ ∃ t, step (st live) = .next t := ⟨sound_live, _, rfl⟩

theorem noWrite_of (s : State) (h : s.chip.port.host = none) : noWrite s := by
  intro w d be; rw [h]; exact nofun

theorem meets_EndOfStepFrameAndGrant :
    let c := posting [post5] { live with port := { live.port with bus := some .drain } }
    (noWrite (st live) ∧ noReset (st live) ∧ postsOk live.port ∧ countsOk live.port ∧ Calm live)
    ∧ noWrite (st (hosting (.read 5#22 none) live)) ∧ Calm (hosting (.read 5#22 none) live)
    ∧ (noWrite (st c) ∧ Calm c ∧ c.port.bus = some .drain ∧ c.wake.waits .drain = true)
    ∧ (Calm { live with port := { live.port with bus := some .drain } } ∧ live.wake.waits .drain = false)
    ∧ (let k : Link := { live.links[(0 : LinkId)] with queue := [⟨3, .halt, 0#16, .halt⟩] }
       k.state = .idle ∧ k.queue ≠ [])
    ∧ (∀ level ∈ [32, 33, 223], let x : Channel :=
         { live.voices[(0 : VoiceId)] with filling := true, copy := some ⟨0x8000, 4096, false, 0, Vector.replicate 4 0⟩, fifo := List.replicate level 0#32 }
       x.filling = true ∧ x.burst = none ∧ x.dirRead = none ∧ x.fetchPos < x.length ∧ x.fifo.length < 224)
    ∧ ¬live.voices[(0 : VoiceId)].filling = true :=
  ⟨⟨noWrite_of _ rfl, rfl, (by delta postsOk; decide), (by delta countsOk; decide), (by delta Calm; decide +kernel)⟩, (fun _ _ _ h => by cases h),
    (by delta Calm; decide +kernel), ⟨noWrite_of _ rfl, (by delta Calm; decide +kernel), rfl, rfl⟩, ⟨(by delta Calm; decide +kernel), rfl⟩,
    (by decide), (by decide +kernel), (by decide)⟩

theorem meets_ResetsPutEveryBlockAtItsResetValue :
    (runs (st live) ∧ ¬runs (st inReset))
    ∧ (let c : Chip := posting [post5] { live with port := { live.port with bus := some .drain } }
       runs (st c) ∧ c.port.posts = post5 :: [] ∧ c.port.bus = some .drain)
    ∧ (let c := busy (posting [post5] live)
       runs (st c) ∧ c.port.posts = post5 :: [] ∧ c.port.bus ≠ some .drain)
    ∧ (let c := hosting (.write 5#22 1#32 1#4) live
       runs (st c) ∧ c.port.posts = [] ∧ c.port.host = some (.write 5#22 1#32 1#4))
    ∧ (let c := hosting (.read 5#22 (some 2)) live
       runs (st c) ∧ c.port.host = some (.read 5#22 (some 2))) := by delta runs; decide +kernel

theorem meets_ResetLineHoldsThePartUntilReleased : ¬runs (st inReset) ∧ isEvent .noticeDrain = true ∧ (st inReset).chip.port.host = none := by
  delta runs; decide +kernel

theorem meets_HostReadsReturnWhatMemoryHolds :
    (runs (st live) ∧ live.port.host = none ∧ runs (st (hosting (.read 5#22 none) live)) ∧ (hosting (.read 5#22 none) live).port.host ≠ none)
    ∧ (∀ k ∈ [none, some 0],
        let c := hosting (.read 5#22 k) live
        (runs (st c) ∧ c.port.host = some (.read 5#22 k) ∧ c.turn .host = true) ∧ runs (st (busy c)) ∧ (busy c).turn .host = false)
    ∧ (hosting (.read 5#22 (some 1)) live).port.host = some (.read 5#22 (some 1)) := by delta runs; decide +kernel

/-- Scene 0 of the table is fenced for slot 0. -/
def fencing : Chip := { live with port := { live.port with sceneSpan := updAt live.port.sceneSpan 0 fun _ => some ⟨0x1000, 0x101F⟩ } }

theorem meets_HostWriteWaitsOrMeetsTheFence :
    (runs (st (busy live)) ∧ (busy live).port.host = none ∧ (taken (st (busy live)) 5#22 1#32 0xF#4).turn .host = false)
    ∧ (let a := taken (st fencing) 0x407#22 1#32 0xF#4
       runs (st fencing) ∧ fencing.port.host = none ∧ a.turn .host = true ∧ a.port.fenced 0x407 = true ∧ a.port.fencedFirst = none)
    ∧ (let c : Chip := { fencing with port := { fencing.port with fencedFirst := some 0x1000, fencedCount := 65535 } }
       let a := taken (st c) 0x400#22 1#32 0#4
       runs (st c) ∧ c.port.host = none ∧ a.turn .host = true ∧ a.port.fenced 0x400 = true ∧ a.port.fencedFirst = some 0x1000) := by
  delta runs; decide +kernel

theorem meets_GrantedHostWritesReachMemory :
    (st live).mem.wf = true
    ∧ (grants (st live) 0x408#22 1#32 0x9#4 ∧ nobodyCaptures (taken (st live) 0x408#22 1#32 0x9#4) 0x408 1#32 0x9#4)
    ∧ (grants (st live) 1#22 0x34325053#32 0xF#4 ∧ nobodyCaptures (taken (st live) 1#22 0x34325053#32 0xF#4) 1 0x34325053#32 0xF#4)
    ∧ (grants (st transparent) 0x408#22 1#32 0x9#4 ∧ nobodyCaptures (taken (st transparent) 0x408#22 1#32 0x9#4) 0x408 1#32 0x9#4)
    ∧ (grants (st transparent) 1#22 0x34325053#32 0xE#4
        ∧ nobodyCaptures (taken (st transparent) 1#22 0x34325053#32 0xE#4) 1 0x34325053#32 0xE#4)
    ∧ (grants (st transparent) 1#22 0x34325053#32 0xF#4 ∧ (taken (st transparent) 1#22 0x34325053#32 0xF#4).port.mode = .transparent) := by
  delta grants runs nobodyCaptures; decide +kernel

theorem meets_HostIndexWritesAreCaptured :
    (live.port.decoder.isSome = true ∧ live.running = true)
    ∧ (live.controlWord 0 < 4194304 ∧ live.controlWord 3 < 4194304)
    ∧ (grants (st live) 0x40#22 31#32 0xF#4 ∧ live.req.indexRead = false ∧ (Word.merge (BitVec.ofNat 32 live.req.produce) 31#32 0xF#4).toNat < 32)
    ∧ (grants (st live) 0x40#22 32#32 0xF#4 ∧ 32 ≤ (Word.merge (BitVec.ofNat 32 live.req.produce) 32#32 0xF#4).toNat)
    ∧ (let c : Chip := { live with req := { live.req with indexRead := true } }
       c.running = true ∧ c.port.decoder.isSome = true ∧ c.controlWord 0 < 4194304 ∧ c.req.indexRead = true ∧ c.turn .loader = true
         ∧ grants (st c) 0x40#22 3#32 0xF#4)
    ∧ (grants (st live) 0x43#22 63#32 0xF#4 ∧ (Word.merge (BitVec.ofNat 32 live.notice.consume) 63#32 0xF#4).toNat < 64)
    ∧ (grants (st live) 0x43#22 64#32 0xF#4 ∧ 64 ≤ (Word.merge (BitVec.ofNat 32 live.notice.consume) 64#32 0xF#4).toNat) := by
  delta grants runs; decide +kernel

theorem meets_LampHouseTableWriteIsCaptured :
    let c := live.modLamp 95 fun x => { x with copy := some 0x02000300#32 }
    c.port.mode ≠ .transparent ∧ c.regionLen rLampHouse ≠ 0 ∧ c.base rLampHouse / 4 + 95 < 4194304
      ∧ BitVec.ofNat 22 (c.base rLampHouse / 4 + 95) = 0x405F#22 ∧ grants (st c) 0x405F#22 5#32 0x3#4 ∧ c.lampOfWord 0x405F = some 95
      ∧ c.isControl 0 0x405F = false ∧ c.isControl 3 0x405F = false
      ∧ (let x := (taken (st c) 0x405F#22 5#32 0x3#4).lamp.lamps[(95 : LampId)]
         x.copy = some 0x02000300#32 ∧ x.demand = .none ∧ x.momentary ≠ houseLevel (Word.merge 0x02000300#32 5#32 0x3#4)
           ∧ houseLevel (Word.merge 0x02000300#32 5#32 0x3#4) ≠ houseLevel 0x02000300#32 ∧ x.momentary = houseLevel (Word.merge 0x02000300#32 0#32 0x3#4)) := by
  delta grants runs; decide +kernel

theorem meets_PostingsAreMadeCancelledAndLand :
    (let c := posting [post5, { post5 with word := 6 }] (hosting (.read 5#22 (some 1)) live)
     runs (st c) ∧ c.port.posts = post5 :: [{ post5 with word := 6 }] ∧ c.turn .drain = true)
    ∧ (let ps := [post5, { post5 with word := 6 }]
       post5 ∈ ps ∧ post5.word = 5 ∧ post5.mask &&& ~~~(0x3#4) ≠ 0#4 ∧ { post5 with word := 6 } ∈ ps ∧ ({ post5 with word := 6 } : Posting).word ≠ 5
        ∧ ({ post5 with mask := 0xC#4 } : Posting) ∈ cancelPostings ps 5 0x3#4)
    ∧ (let m : Posting := ⟨0x200, 1#32, 1#4, true⟩
       ([m].any fun p => m.mirror && p.mirror && p.word == m.word) = true
        ∧ ((List.replicate 31 post5).any fun p => m.mirror && p.mirror && p.word == m.word) = false
        ∧ ((List.replicate 32 post5).any fun p => m.mirror && p.mirror && p.word == m.word) = false) := by delta runs; decide +kernel

theorem meets_ArbiterChoosesByClass :
    let normal := live.modVoice 2 fun x => { x with burst := some ⟨0, 8, false⟩ }
    let cue := live.modFetch 3 fun _ => ⟨some (.definition, false), none⟩
    let loader : Chip := { live with req := { live.req with indexRead := true } }
    let slack := posting [post5] live
    let pressed : Chip := { slack with port := { slack.port with resetDrain := true } }
    let host := hosting (.read 5#22 none)
    let passed (c : Chip) : Chip := { c with port := { c.port with hostCount := 8 } }
    (busy live).port.resetLine = false ∧ (∃ v, (busy live).clipWaits true v = true)
      ∧ (¬(∃ v, pressed.clipWaits true v = true) ∧ pressed.port.posts ≠ [] ∧ pressed.port.pressed = true)
      ∧ ((host live).port.hostAsks = true ∧ (host (passed live)).lowChoice = none ∧ (host (passed cue)).lowChoice.isSome = true)
      ∧ ((∃ v, normal.clipWaits false v = true) ∧ ¬∃ v, normal.clipWaits true v = true)
      ∧ ((∃ k, cue.cueWaits k = true) ∧ ¬∃ v, cue.clipWaits false v = true)
      ∧ (loader.loaderWaits = true ∧ ¬∃ k, loader.cueWaits k = true)
      ∧ (slack.loaderWaits = false ∧ slack.port.posts ≠ [] ∧ slack.port.pressed = false)
      ∧ (live.loaderWaits = false ∧ live.port.posts = [] ∧ (¬∃ k, live.cueWaits k = true) ∧ live.port.hostAsks = false)
      ∧ (({ cue with port := { cue.port with bus := some (.cue 3) } } : Chip).port.bus = some (.cue 3) ∧ cue.port.bus ≠ some (.cue 3)) := by decide +kernel

/-! ### LOADING -/

/-- The part whose loader alone may use the bus. -/
theorem loaderOnly_of (c : Chip) (hv : ∀ v : VoiceId, c.voices[v].requests = false) (hk : ∀ k, c.cueWaits k = false)
    (h : c.port.posts = [] ∧ c.port.hostAsks = false ∧ (c.port.bus = none ∨ c.port.bus = some .loader)) : loaderOnly c :=
  ⟨fun r hr => by
      cases r with
      | clip v => exact hv v
      | drain => simp [Chip.waits, h.1]
      | host => exact h.2.1
      | cue k => exact hk k
      | loader => exact absurd rfl hr,
    h.2.2⟩

theorem meets_HeaderGrantsReadAndTestTheMap :
    let fresh := State.reset.chip
    (runs State.reset ∧ fresh.loader.phase = .header) ∧ loaderOnly fresh
    ∧ (fresh.loader.words.length + 8 * 1 ≤ 32 ∧ fresh.loader.words.length + 8 * 4 ≤ 32 ∧ fresh.turn .loader = true)
    ∧ (let c := hosting (.read 5#22 none) { fresh with port := { fresh.port with bus := none } }
       c.turn .loader = false ∧ c.loader.phase = .header)
    ∧ (let c := hosting (.read 5#22 none) fresh
       c.turn .loader = true ∧ c.loader.phase = .header ∧ (c.granted .loader).turn .loader = false)
    ∧ headerOk ((List.range 32).map header.word) = true ∧ headerOk ((List.range 32).map (Memory.word [])) = false :=
  ⟨by delta runs; decide +kernel, loaderOnly_of _ (by decide +kernel) (by decide +kernel) (by decide +kernel), by decide +kernel, by decide +kernel,
    by decide +kernel, by decide +kernel, by decide +kernel⟩

theorem meets_TablesAreTaken :
    (∀ c ∈ [loadingAt 15 1 0 0, loadingAt 14 0 0 0, loadingAt 16 2 11 5, loadingAt 16 2 0 0],
      runs (st c) ∧ c.loader.phase = .tables ∧ c.turn .loader = true ∧ (hosting (.read 5#22 none) c).turn .loader = false)
    ∧ ((loadingAt 14 0 0 0).loader.trigger < 15 ∧ (loadingAt 15 1 0 0).loader.trigger = 15 ∧ (loadingAt 15 1 0 0).loader.bay < 2)
    ∧ (∀ d : DriveId, (loadingAt 15 1 0 0).drives[d].state = .offline)
    ∧ ((loadingAt 16 2 11 5).loader.lamp < 12 ∧ (loadingAt 16 2 11 5).loader.bay = 2 ∧ (loadingAt 16 2 11 5).loader.drive < 6) := by
  delta runs
  exact ⟨by simp only [List.forall_mem_cons]; decide +kernel, by decide, by decide +kernel, by decide⟩

/-- A trigger table whose entry 30 is a START input and 31 a GUARD input of bay 15. -/
def triggerTable : Memory := put [(0x105E0, 0x00000101), (0x105E4, 0xFF000900), (0x105E8, 0x00010000), (0x105F0, 0x00000102), (0x105F4, 0xFF0F0000)]

theorem meets_TablesAreTaken_roles :
    (parseTrigger triggerTable 0x105E0).role = .start ∧ (parseTrigger triggerTable 0x105E0).armed = true ∧ (parseTrigger triggerTable 0x105F0).role = .guard
      ∧ (parseTrigger triggerTable 0x105F0).bay = 15 := by decide +kernel

/-- A START input in mode DWELL, every field at the end of its range but the dwell time code. -/
def dwellEntry (code : Nat) : Memory := put [(0x105E0, 0x01030101), (0x105E4, 0x5F003F00 + code), (0x105E8, 0x000103FF)]

theorem meets_TablesAreTaken_ranges :
    (let e := parseTrigger (dwellEntry 20) 0x105E0
     e.role = .start ∧ e.debounce = 80 ∧ e.dwell = 10000 ∧ e.scene = 63 ∧ e.lamp = some 95 ∧ e.level = 1023 ∧ e.dwellMode = true)
    ∧ (parseTrigger (dwellEntry 1) 0x105E0).role = .start ∧ (parseTrigger (dwellEntry 0) 0x105E0).role = .none
    ∧ (parseTrigger (dwellEntry 21) 0x105E0).role = .none := by decide +kernel

/-- Drive 0 on link B at address 12, in bay 15, and drive 1 with the same link and address. -/
def driveTable : Memory := put [(0x10800, 0x500F0C01), (0x10804, 1), (0x10808, 0x500F0C01), (0x1080C, 1)]

theorem meets_TablesAreTaken_drives :
    (parseDrive [] driveTable 0x10800).enabled = true ∧ (parseDrive [parseDrive [] driveTable 0x10800] driveTable 0x10808).enabled = false
      ∧ (parseDrive [] driveTable 0x10810).enabled = false := by decide +kernel

/-- Link A with a configured address and its check at position `p`. -/
def checking (p : Loopback) : Chip :=
  (loadingAt 16 2 12 6).modLink 0 fun k => { k with addrs := updAt k.addrs 3 fun r => { r with configured := true }, loopback := p }

theorem meets_LoopbackCharactersAreJudged :
    let good (pos : Nat) : RxChar := .sent (loopChar pos)
    (∀ p : Fin 4, runs (st (checking (.running p.val))) ∧ (checking (.running p.val)).port.mode = .loading
        ∧ (checking (.running p.val)).loader.drive = 6 ∧ (checking (.running p.val)).links[(0 : LinkId)].loopPos = some p.val
        ∧ (good p.val).data = loopChar p.val ∧ (good p.val).parityOk = true ∧ (good p.val).framingOk = true)
      ∧ (checking .notRun).links[(0 : LinkId)].loopPos = some 0 ∧ (good 1).data ≠ loopChar 0
      ∧ ¬(∃ x, (none : Option RxChar) = some x ∧ x.data = loopChar 3 ∧ x.parityOk = true ∧ x.framingOk = true) := by
  delta runs
  exact ⟨by decide +kernel, by decide +kernel, by decide +kernel, nofun⟩

/-- LOADING is over; START input 4, of lamp 7, is ARMED in mode DWELL and settled active. -/
def dwellReady (level : Option Bool) : Chip :=
  { (loadingAt 16 2 12 6).modInput 4 fun x => { x with
      entry := { x.entry with role := .start, activeHigh := true, dwellMode := true, dwell := 2000, lamp := some 7, level := 500 }
      running := true
      settled := some true
      state := .armed } with
    hold := { live.hold with settled := level } }

theorem meets_LoadingEndsInLive :
    (∀ level : Option Bool, let c := dwellReady level
      runs (st c) ∧ c.loaded = true ∧ c.hold.line = .absent ∧ c.hold.request = false ∧ c.port.posts = [] ∧ c.port.noticeBacklog = []
        ∧ c.hold.settled = level
        ∧ (let x := c.trig.inputs[(4 : InputId)]
           c.port.resetDrain = false ∧ x.entry.role = .start ∧ x.state = .armed ∧ x.entry.dwellMode = true ∧ x.level = some true ∧ x.offerOut = false
             ∧ x.entry.lamp = some 7)
        ∧ c.trig.inputs[(5 : InputId)].entry.role ≠ .start ∧ ∀ t : InputId, c.trig.inputs[t].entry.lamp ≠ some 8) := by
  delta runs
  intro level
  match level with
  | none => decide +kernel
  | some false => decide +kernel
  | some true => decide +kernel

/-- The request unit waits for the indices. -/
def reading (keep : Bool) : Chip := { live with req := { live.req with indexRead := true, keepConsume := keep } }

theorem meets_RequestIndicesAreReadAtTheEntryToLive :
    (∀ keep, runs (st (reading keep)) ∧ (reading keep).req.indexRead = true ∧ (reading keep).turn .loader = true ∧ (reading keep).req.captures = [])
    ∧ (((put [(0x104, 31), (0x100, 31)]).word (live.controlWord 1)).toNat < 32 ∧ ((put [(0x104, 31), (0x100, 31)]).word (live.controlWord 0)).toNat < 32)
    ∧ (32 ≤ ((put [(0x104, 32), (0x100, 32)]).word (live.controlWord 1)).toNat ∧ 32 ≤ ((put [(0x104, 32), (0x100, 32)]).word (live.controlWord 0)).toNat)
    ∧ ((reading false).granted .loader).port.posts = [] ∧ ((reading false).granted .loader).port.requestBacklog = [] := by
  delta runs; decide +kernel

/-! ### The hold and the inputs -/

theorem meets_StopLineFormsAndClearsTheHold :
    (let c : Chip := { live with hold := { live.hold with raw := false, filter := some 40000 } }
     runs (st c) ∧ c.hold.filter = some 40000 ∧ (c.advance 40000).running = true ∧ (c.advance 40000).port.mode = .live)
    ∧ Sound (st { live with hold := { live.hold with raw := false, filter := some 40000 } })
    ∧ (let c : Chip := { heldBy .settled false with hold := { (heldBy .settled false).hold with filter := some 40000 } }
       runs (st c) ∧ (c.advance 40000).port.mode = .held ∧ c.hold.raw = true ∧ (c.advance 40000).hold.line ≠ .absent
         ∧ (c.advance 40000).hold.request = false)
    ∧ Sound (st { heldBy .settled false with hold := { (heldBy .settled false).hold with filter := some 40000 } })
    ∧ (let c : Chip := { transparent with hold := { live.hold with filter := some 3 } }
       runs (st c) ∧ (c.advance 3).running = false) ∧ Sound (st { transparent with hold := { live.hold with filter := some 3 } }) := by
  refine ⟨by delta runs; decide +kernel, ⟨rfl, sound_st _ (by decide +kernel)⟩, by delta runs; decide +kernel, ⟨rfl, sound_st _ (by decide +kernel)⟩,
    by delta runs; decide +kernel, ⟨rfl, sound_st _ (by decide +kernel)⟩⟩

/-- Input 4 a START input with indicator lamp 7, in a state. -/
def startInput (state : InputState) (dwell : Bool) (f : Input → Input) : Chip :=
  live.modInput 4 fun x => f { x with
    entry := { x.entry with role := .start, activeHigh := true, debounce := 10, dwellMode := dwell, dwell := 2000, scene := 9, lamp := some 7, level := 500 }
    running := true
    settled := some false
    state := state }

theorem meets_StartInputsFireOnSettledChanges :
    (let c := startInput .armed false fun x => { x with raw := true, filter := some 40000 }
     runs (st c) ∧ c.trig.inputs[(4 : InputId)].filter = some 40000 ∧ c.trig.inputs[(4 : InputId)].entry.role ≠ .guard)
    ∧ (let c := startInput .armed true fun x => { x with raw := true, filter := some 0 }
       runs (st c) ∧ c.trig.inputs[(4 : InputId)].filter = some 0 ∧ c.trig.inputs[(4 : InputId)].entry.role ≠ .guard)
    ∧ (let c := startInput .dwelling true fun x => { x with settled := some true, filter := some 0 }
       runs (st c) ∧ c.trig.inputs[(4 : InputId)].filter = some 0 ∧ c.trig.inputs[(4 : InputId)].state = .dwelling) := by
  delta runs; decide +kernel

/-- Input 5 a GUARD input of bay 3, where drive 6 moves. -/
def guardInput : Chip :=
  (live.modInput 5 fun x => { x with
    entry := { x.entry with role := .guard, activeHigh := true, debounce := 10, bay := 3 }, running := true, settled := some false, raw := true
    filter := some 12 }).modDrive 6 fun x => { x with entry := ⟨0#8, 4#8, 3#8, 80#8, 1#8, true⟩, state := .moving }

theorem meets_GuardInputsGuardTheirBay :
    ∀ raw : Bool, ∀ state ∈ [DriveState.moving, .starting], ∀ atLink,
      let c := (guardInput.modInput 5 fun x => { x with raw := raw }).modDrive 6 fun x => { x with state := state, atLink := atLink }
      let a := c.advance 12
      runs (st c) ∧ c.trig.inputs[(5 : InputId)].filter = some 12 ∧ c.trig.inputs[(5 : InputId)].entry.role = .guard ∧ a.claims.waiting = []
        ∧ a.drives[(6 : DriveId)].entry.enabled = true ∧ a.drives[(6 : DriveId)].entry.bay = 3 ∧ a.drives[(6 : DriveId)].state = state
        ∧ a.bays[(3 : BayId)].guarded = false := by
  delta runs; decide +kernel

theorem meets_InputTimersExpire :
    (let c := startInput .dwelling true fun x => { x with dwell := some 9 }
     runs (st c) ∧ c.trig.inputs[(4 : InputId)].dwell = some 9)
    ∧ (let c := startInput .cooldown true fun x => { x with cooldown := some 0, settled := some true }
       runs (st c) ∧ c.trig.inputs[(4 : InputId)].cooldown = some 0 ∧ c.trig.inputs[(4 : InputId)].level = some true)
    ∧ (let c := (startInput .dwelling true fun x => { x with alt := some 9, phaseOn := true }).modLamp 7 fun x =>
         { x with copy := some 0x02000000#32, demand := .alternating 500 true }
       let a := c.advance 9
       let x := a.trig.inputs[(4 : InputId)]
       runs (st c) ∧ c.trig.inputs[(4 : InputId)].alt = some 9 ∧ x.entry.role = .start ∧ x.state = .dwelling ∧ x.entry.lamp = some 7
         ∧ (∀ u : InputId, u < 4 → a.trig.inputs[u].entry.lamp = some 7 → a.trig.inputs[u].demand = .none) ∧ a.isHeld = false
         ∧ a.lampOwner 7 = none ∧ a.lamp.lamps[(7 : LampId)].copy ≠ none
         ∧ a.lamp.lamps[(7 : LampId)].demand = .alternating x.entry.level x.phaseOn) := by
  delta runs; decide +kernel

/-! ### Offers and admission -/

/-- A definition with its policy code; nothing else of it is judged with an offer. -/
def scene (valid : Bool) (policy : Nat) : RawScene := ⟨valid, 0, 3, policy, 0, 1, 0, 5, 0, 0, [], []⟩

/-- Scene 9 in slot 2 in a state, and `n` entries of scene 8 in the queue. -/
def flying (state : SlotState) (n : Nat) : Chip :=
  { live.modSlot 2 fun x => { x with scene := 9, state := state } with
    trig := { live.trig with queue := List.replicate n ⟨8, .request 1#16, 0#16, 3, 5⟩ } }

/-- Slot `i` alone is on the claim waiting list. -/
def waits (i : SlotId) (c : Chip) : Chip := c.modClaims fun t => { t with waiting := [i] }

theorem waitersOk_waits (i : SlotId) (c : Chip) (h : c.slots[i].state = .claiming) : waitersOk (waits i c) :=
  ⟨by simp [waits, Chip.modClaims], fun w hw => by cases List.mem_singleton.mp hw; exact h⟩

theorem meets_OffersAreJudgedInOrder :
    (scene false 0).valid = false
    ∧ ((scene true 3).valid = true ∧ (scene true 3).policy ≠ 1 ∧ (scene true 3).policy ≠ 2
        ∧ (∃ i : SlotId, (flying .ending 0).slots[i].scene = (9 : Fin 64).val ∧ (flying .ending 0).slots[i].state ≠ .free))
    ∧ (¬((∃ e ∈ live.trig.queue, e.scene = 9) ∨ ∃ i : SlotId, live.slots[i].scene = (9 : Fin 64).val ∧ live.slots[i].state ≠ .free))
    ∧ (∃ i : SlotId, (flying .claiming 0).slots[i].scene = (9 : Fin 64).val ∧ (flying .claiming 0).slots[i].state = .claiming)
    ∧ (∃ e ∈ (flying .free 16).trig.queue, e.scene = 8) ∧ 16 ≤ (flying .free 16).trig.queue.length ∧ ¬16 ≤ (flying .free 15).trig.queue.length
    ∧ ((scene true 1).policy = 1 ∧ (scene true 2).policy = 2) := by decide +kernel

/-- The first offer is scene 9's. -/
def offering (o : Origin) (c : Chip) : Chip := { c with trig := { c.trig with offers := [⟨9, o⟩] } }

/-- Scene 9's definition in memory, valid, with its policy. -/
def scene9 (policy : Nat) : List (Nat × Nat) :=
  [(0x1120, 1 + 65536 * 3 + 16777216 * policy), (0x1124, 0x00010000), (0x1128, 0x00050000), (0x1130, 0xFFFFFFFF), (0x1134, 0xFFFFFFFF), (0x1138, 0xFFFFFFFF)]

theorem meets_VerdictsReachTheirOrigin :
    let judged (c : Chip) := ({ c.granted (.cue 12) with trig := { (c.granted (.cue 12)).trig with offers := [] } } : Chip)
    let read (p : Nat) := parseScene (put (scene9 p)) (live.base rScenes + 32 * 9)
    let stale : Chip := { live with trig := { live.trig with staleRead := true } }
    let byInput := offering (.trigger 4) (startInput .armed false id)
    let again := offering (.trigger 4) (flying .timing 0)
    (stale.turn (.cue 12) = true ∧ stale.trig.staleRead = true)
    ∧ (byInput.turn (.cue 12) = true ∧ byInput.trig.staleRead = false ∧ byInput.trig.offers = ⟨9, .trigger 4⟩ :: [])
    ∧ ((judged byInput).refusal 9 (parseScene [] 0) = some .undefinedScene ∧ (judged byInput).refusal 9 (read 0) = none ∧ (read 0).policy ≠ 2)
    ∧ ((judged (offering (.trigger 4) (flying .ending 0))).refusal 9 (read 0) = some .ignored)
    ∧ ((offering (.request 1#16) live).turn (.cue 12) = true ∧ (judged (offering (.request 1#16) live)).refusal 9 (read 1) = none
        ∧ (judged (offering (.request 1#16) live)).refusal 9 (parseScene [] 0) = some .undefinedScene)
    ∧ ((judged byInput).refusal 9 (read 2) = none ∧ (read 2).policy = 2
        ∧ ∀ i : SlotId, (judged byInput).slots[i].scene = (9 : Fin 64).val → (judged byInput).slots[i].state = .free ∨ (judged byInput).slots[i].state = .ending)
    ∧ (again.turn (.cue 12) = true ∧ (judged again).refusal 9 (read 2) = none
        ∧ (∀ j : SlotId, ((judged again).slots[j].scene = (9 : Fin 64).val ∧ (judged again).slots[j].state ≠ .free ∧ (judged again).slots[j].state ≠ .ending) ↔ j = 2)
        ∧ (judged again).slots[(2 : SlotId)].state = .timing)
    ∧ (let early := waits 2 (offering (.trigger 4) (flying .claiming 0))
       early.turn (.cue 12) = true ∧ (judged early).refusal 9 (read 2) = none
        ∧ (∀ j : SlotId, ((judged early).slots[j].scene = (9 : Fin 64).val ∧ (judged early).slots[j].state ≠ .free ∧ (judged early).slots[j].state ≠ .ending) ↔ j = 2)
        ∧ (judged early).slots[(2 : SlotId)].state = .claiming)
    ∧ (let none_ := offering (.request 1#16) live
       none_.turn (.cue 12) = true ∧ (judged none_).refusal 9 (read 2) = none
        ∧ ∀ i : SlotId, (judged none_).slots[i].scene = (9 : Fin 64).val → (judged none_).slots[i].state = .free ∨ (judged none_).slots[i].state = .ending)
    ∧ (let one := offering (.request 1#16) (flying .waiting 0)
       one.turn (.cue 12) = true ∧ one.trig.offers = ⟨9, .request 1#16⟩ :: [] ∧ (judged one).refusal 9 (read 2) = none
        ∧ (∀ j : SlotId, ((judged one).slots[j].scene = (9 : Fin 64).val ∧ (judged one).slots[j].state ≠ .free ∧ (judged one).slots[j].state ≠ .ending) ↔ j = 2)
        ∧ (judged one).slots[(2 : SlotId)].state = .waiting) := by decide +kernel

/-- The clause on one running instance, with the instance on the claim waiting list, and with another slot there. -/
theorem meets_VerdictsReachTheirOrigin_waiting :
    (let c := waits 2 (flying .claiming 0)
     waitersOk c ∧ (offering (.trigger 4) c).claims.waiting = [2] ∧ (offering (.trigger 4) c).turn (.cue 12) = true)
    ∧ (let c := waits 5 ((flying .timing 0).modSlot 5 fun x => { x with state := .claiming, scene := 8 })
       waitersOk c ∧ (offering (.request 1#16) c).claims.waiting = [5] ∧ (offering (.request 1#16) c).turn (.cue 12) = true) :=
  ⟨⟨waitersOk_waits 2 _ (by decide +kernel), by decide +kernel⟩, waitersOk_waits 5 _ (by decide +kernel), by decide +kernel⟩

theorem meets_AdmissionsFillTheFreeSlots :
    let c : Chip := { live with
      slots := tabulate 12 fun i => if i.val < 11 then { Slot.free with state := .ending } else .free
      trig := { live.trig with queue := List.replicate 16 ⟨63, .request 1#16, 0#16, 255, 5⟩ } }
    transparent.isLive = false ∧ ({ live with port := { live.port with resetDrain := true } } : Chip).port.resetDrain = true
    ∧ (c.isLive = true ∧ c.trig.queue = ⟨63, .request 1#16, 0#16, 255, 5⟩ :: c.trig.queue.tail ∧ c.slots[(11 : SlotId)].state = .free
         ∧ ∀ j : SlotId, j < 11 → c.slots[j].state ≠ .free)
    ∧ (noWrite (st c) ∧ noReset (st c) ∧ c.signals = [] ∧ c.port.resetDrain = false ∧ c.trig.queue.length ≤ 16)
    ∧ (((List.finRange 12).filter fun i : SlotId => c.slots[i].state == .free)[0]? = some 11
        ∧ c.trig.queue[0]? = some ⟨63, .request 1#16, 0#16, 255, 5⟩) :=
  ⟨by decide +kernel, by decide +kernel, by decide +kernel, ⟨noWrite_of _ rfl, rfl, rfl, rfl, by decide +kernel⟩, by decide +kernel⟩

/-! ### The slots -/

/-- Slot 2 with a read at the arbiter. -/
def fetching (k : FetchKind) (abandoned : Bool) (f : Slot → Slot) : Chip :=
  (live.modFetch 2 fun _ => ⟨some (k, abandoned), none⟩).modSlot 2 fun x => f { x with state := .checking, scene := 9, origin := some (.trigger 4) }

theorem meets_DefinitionReadOpensTheCheck :
    (runs (st (fetching .definition true id)) ∧ (fetching .definition true id).turn (slotRequester 2) = true
      ∧ (fetching .definition true id).fetch[(2 : SlotId)].cur = some (.definition, true))
    ∧ (let c := fetching .definition false id
       runs (stm (scene9 0) c) ∧ c.turn (slotRequester 2) = true ∧ c.fetch[(2 : SlotId)].cur = some (.definition, false)
         ∧ c.claims.waiting.contains 2 = false
         ∧ ((parseScene (put (scene9 0)) (live.base rScenes + 32 * c.slots[(2 : SlotId)].scene)).accept (c.regionLen rCues / 16)).isSome = true
         ∧ (parseScene [] (live.base rScenes + 32 * c.slots[(2 : SlotId)].scene)).accept (c.regionLen rCues / 16) = none)
    ∧ (let c := (fetching .definition false id).modInput 4 fun x => { x with state := .spent }
       let b := (c.granted (slotRequester 2)).fetchDone 2
       runs (st c) ∧ c.turn (slotRequester 2) = true ∧ b.slots[(2 : SlotId)].origin = some (.trigger 4) ∧ b.trig.inputs[(4 : InputId)].state = .spent) := by
  delta runs; decide +kernel

theorem meets_DefinitionReadOpensTheCheck_tests :
    let r (policy : Nat) : RawScene := ⟨true, 3, 15, policy, 4095, 1, 3600, 600, 60, 2, [95, 255, 0, 255], [23, 255]⟩
    (∀ policy ∈ [0, 1, 2], ((r policy).accept 4096).isSome = true) ∧ (r 3).accept 4096 = none ∧ (r 0).accept 4095 = none
    ∧ RawScene.accept 4096 { r 0 with lamps := [96] } = none ∧ RawScene.accept 4096 { r 0 with drives := [23, 23] } = none := by
  refine ⟨?_, ?_⟩ <;> simp only [List.forall_mem_cons] <;> decide +kernel

/-- A definition of two cues, claiming lamp 7. -/
def lampScene (claimWait : Nat) : SceneDef := ⟨0, 2, 3, 1, .ignore, 5, 5, claimWait, 0, [7], []⟩

/-- Cue 0: LAMP 7 to 300 over 0 ms, with LINK; cue 1: the same, without. -/
def lampCues : List (Nat × Nat) := [(0x2000, 0x00000101), (0x2004, 0x012C0007), (0x2010, 0x00000001), (0x2014, 0x012C0007)]

/-- Slot 2 checking cue `k`; lamp 7 is claimed by slot 1 if `taken`, at the same priority. -/
def checkingCue (k claimWait : Nat) (taken : Bool) : Chip :=
  let c := fetching (.check k) false fun x => { x with defn := some (lampScene claimWait) }
  if taken then (c.modSlot 1 fun x => { x with state := .timing, defn := some (lampScene 0) }).modClaims fun t =>
    { t with lamps := updAt t.lamps 7 fun _ => ⟨some 1, none, none⟩ }
  else c

/-- The slot once its last cue has passed. -/
def claimingOf (c : Chip) (d : SceneDef) : Chip :=
  ((c.granted (slotRequester 2)).fetchDone 2).modSlot 2 fun x =>
    { x with
      state := .claiming
      checkLoops := []
      firstReview := true
      claimTimer := if d.claimWait = 0 then none else some (Config.sec d.claimWait) }

theorem meets_CueCheckEndsInClaiming :
    let passes (m : Memory) (k : Nat) := cuePasses (lampScene 0) k [] (parseCue m (live.base rCues + 16 * (0 + k)))
    (∀ taken, runs (st (checkingCue 0 0 taken)) ∧ (checkingCue 0 0 taken).turn (slotRequester 2) = true
      ∧ (checkingCue 0 0 taken).fetch[(2 : SlotId)].cur = some (.check 0, false) ∧ (checkingCue 0 0 taken).slots[(2 : SlotId)].defn = some (lampScene 0)
      ∧ (checkingCue 0 0 taken).slots[(2 : SlotId)].state = .checking ∧ (checkingCue 0 0 taken).claims.waiting = []
      ∧ (checkingCue 0 0 taken).claims.waiting.contains 2 = false)
    ∧ (passes [] 0 = false ∧ passes (put lampCues) 0 = true ∧ 0 + 1 ≠ (lampScene 0).cueCount ∧ passes (put lampCues) 1 = true
        ∧ 1 + 1 = (lampScene 0).cueCount)
    ∧ ((checkingCue 1 0 false).turn (slotRequester 2) = true ∧ (claimingOf (checkingCue 1 0 false) (lampScene 0)).grantable 2 = true)
    ∧ ((checkingCue 1 0 true).turn (slotRequester 2) = true ∧ (claimingOf (checkingCue 1 0 true) (lampScene 0)).grantable 2 = false
        ∧ (lampScene 0).claimWait = 0)
    ∧ ((checkingCue 1 60 true).turn (slotRequester 2) = true ∧ (claimingOf (checkingCue 1 60 true) (lampScene 60)).grantable 2 = false
        ∧ (lampScene 60).claimWait ≠ 0) := by
  delta runs
  exact ⟨by decide +kernel, by decide +kernel, by decide +kernel, by decide +kernel, by decide +kernel⟩

/-- Cues at the ends of their ranges, and beyond them (R7), at cue index 3 of a scene with two voices, lamp 7 and drive 5, after a LOOP at index 1. -/
theorem meets_CueCheckEndsInClaiming_tests :
    let passes (k : Nat) (r : CueRec) := cuePasses { lampScene 0 with voices := 2, drives := [5] } k [1] r
    (∀ r ∈ [(⟨1#8, 0#8, 0#16, 7#8, 0#8, 1023#16, 60000#16⟩ : CueRec), ⟨2#8, 0#8, 0#16, 1#8, 255#8, 255#16, 0#16⟩,
        ⟨3#8, 0#8, 0#16, 1#8, 0#8, 10000#16, 0#16⟩, ⟨4#8, 0#8, 0#16, 5#8, 3#8, 0#16, 0#16⟩, ⟨5#8, 0#8, 0#16, 1#8, 1#8, 4#16, 0#16⟩,
        ⟨5#8, 0#8, 0#16, 2#8, 5#8, 0#16, 0#16⟩, ⟨5#8, 0#8, 0#16, 3#8, 31#8, 1#16, 0#16⟩, ⟨6#8, 0#8, 0#16, 1#8, 1#8, 0#16, 0#16⟩],
      passes 3 r = true ∧ r.op.isSome = true)
    ∧ (∀ r ∈ [(⟨1#8, 0#8, 0#16, 7#8, 0#8, 1024#16, 0#16⟩ : CueRec), ⟨2#8, 0#8, 0#16, 2#8, 0#8, 0#16, 0#16⟩, ⟨3#8, 0#8, 0#16, 1#8, 0#8, 10001#16, 0#16⟩,
        ⟨4#8, 0#8, 0#16, 5#8, 4#8, 0#16, 0#16⟩, ⟨5#8, 0#8, 0#16, 1#8, 1#8, 5#16, 0#16⟩, ⟨5#8, 0#8, 0#16, 2#8, 6#8, 0#16, 0#16⟩,
        ⟨5#8, 0#8, 0#16, 3#8, 31#8, 2#16, 0#16⟩, ⟨6#8, 0#8, 0#16, 2#8, 1#8, 0#16, 0#16⟩, ⟨6#8, 0#8, 0#16, 4#8, 1#8, 0#16, 0#16⟩,
        ⟨7#8, 0#8, 0#16, 0#8, 0#8, 0#16, 0#16⟩], passes 3 r = false)
    ∧ (let r : CueRec := ⟨1#8, 1#8, 0#16, 7#8, 0#8, 0#16, 0#16⟩
       passes 0 r = true ∧ passes 1 r = false) := by
  refine ⟨?_, ?_, ?_⟩ <;> simp only [List.forall_mem_cons] <;> decide +kernel

/-- Slots 1 and 2 in CLAIMING, of these priorities and claim wait limit, slot 1 on the list at its first review; the claim set is lamp 7, the drives and
`voices` channels. -/
def waitingList (p1 p2 wait voices : Nat) (drives : List DriveId) : Chip :=
  let scene (p : Nat) : SceneDef := { lampScene wait with priority := p, voices := voices, drives := drives }
  ((live.modSlot 1 fun x => { x with state := .claiming, defn := some (scene p1), firstReview := true }).modSlot 2 fun x =>
    { x with state := .claiming, defn := some (scene p2), firstReview := true }).modClaims fun t => { t with waiting := [1] }

theorem meets_ClaimListIsReviewedInOrder :
    (let r : RawScene := ⟨true, 0, 2, 0, 1, 2, 1, 0, 5, 0, [7, 95], [3]⟩
     (r.accept 512).isSome = true)
    ∧ (let c := waitingList 0 1 0 0 []
       c.claims.waiting.head? = some 1 ∧ c.slots[(1 : SlotId)].priority < c.slots[(2 : SlotId)].priority)
    ∧ (let c := waitingList 1 1 0 0 []
       c.claims.waiting.head? = some 1 ∧ c.slots[(2 : SlotId)].priority ≤ c.slots[(1 : SlotId)].priority)
    ∧ (waitingList 1 1 0 2 []).grantable 1 = true ∧ (waitingList 1 1 0 2 []).slots[(1 : SlotId)].claimLamps.Nodup
    ∧ (let c := waitingList 1 1 0 0 [5]
       c.grantable 1 = false ∧ c.slots[(1 : SlotId)].claimWait = 0 ∧ c.slots[(1 : SlotId)].firstReview = true)
    ∧ ((waitingList 1 1 60 0 [5]).grantable 1 = false ∧ (waitingList 1 1 60 0 [5]).slots[(1 : SlotId)].claimWait ≠ 0)
    ∧ (1 : SlotId) ∈ (waitingList 1 1 0 0 []).claims.waiting
    ∧ (let c := live.modDrive 5 fun x => { x with state := .idle }
       c.driveOwner 5 = none ∧ c.drives[(5 : DriveId)].state = .idle) := by decide +kernel

/-- Slot 2 in a state, running scene 9's cue 0. -/
def running (state : SlotState) (f : Slot → Slot) : Chip :=
  live.modSlot 2 fun x => f { x with
    state := state, scene := 9, defn := some (lampScene 0), origin := some (.request 1#16), current := some ⟨0, none, false⟩, offset := some 0 }

/-- A record of the cue kinds' fields. -/
def cue (kind flags offset b4 b5 h6 h8 : Nat) : CueRec :=
  ⟨BitVec.ofNat 8 kind, BitVec.ofNat 8 flags, BitVec.ofNat 16 offset, BitVec.ofNat 8 b4, BitVec.ofNat 8 b5, BitVec.ofNat 16 h6, BitVec.ofNat 16 h8⟩

theorem meets_SlotTimersExpire :
    (runs (st (heldBy .settled false)) ∧ (heldBy .settled false).isHeld = true)
    ∧ (let c := (running .claiming fun x => { x with claimTimer := some 0 }).modClaims fun t => { t with waiting := [2] }
       runs (st c) ∧ c.isHeld = false ∧ c.slots[(2 : SlotId)].state = .claiming ∧ c.slots[(2 : SlotId)].claimTimer = some 0 ∧ c.claims.waiting = [2])
    ∧ (let c := running .waiting fun x => { x with runTimer := some 9 }
       let plays := (c.modSlot 2 fun x => { x with voice0 := some 3 }).modVoice 3 fun x => { x with state := .playing }
       runs (st c) ∧ c.isHeld = false ∧ (c.slots[(2 : SlotId)].state = .timing ∨ c.slots[(2 : SlotId)].state = .waiting)
         ∧ c.slots[(2 : SlotId)].runTimer = some 9 ∧ ¬busyAtEnding (c.advance 9) 2 .runLimit
         ∧ runs (st plays) ∧ plays.slots[(2 : SlotId)].runTimer = some 9 ∧ busyAtEnding (plays.advance 9) 2 .runLimit)
    ∧ (let r := cue 5 0x10 0 2 5 0 100
       let c := running .waiting fun x => { x with current := some ⟨0, some r, true⟩, waitTimer := some 9 }
       runs (st c) ∧ c.isHeld = false ∧ c.slots[(2 : SlotId)].state = .waiting ∧ c.slots[(2 : SlotId)].waitTimer = some 9
         ∧ c.slots[(2 : SlotId)].record = some r ∧ r.strict = true)
    ∧ (let r := cue 5 3 0 2 5 0 100
       let c := running .waiting fun x => { x with current := some ⟨0, some r, true⟩, next := some ⟨1, none⟩, waitTimer := some 0 }
       runs (st c) ∧ c.slots[(2 : SlotId)].waitTimer = some 0 ∧ c.slots[(2 : SlotId)].record = some r ∧ r.strict = false ∧ r.link = true
         ∧ r.note = true ∧ c.slots[(2 : SlotId)].next = some ⟨1, none⟩) := by
  delta runs busyAtEnding; decide +kernel

theorem meets_CuesAreIssuedWhenDue :
    (let c := (running .timing id).modFetch 2 fun _ => ⟨some (.run 0, false), none⟩
     let r := parseCue (put lampCues) (c.slotCueAddr 2 0)
     runs (stm lampCues c) ∧ c.turn (slotRequester 2) = true ∧ c.fetch[(2 : SlotId)].cur = some (.run 0, false) ∧ c.slots[(2 : SlotId)].state = .timing
       ∧ c.slots[(2 : SlotId)].current = some ⟨0, none, false⟩ ∧ c.slots[(2 : SlotId)].offset = some 0 ∧ c.isHeld = false
       ∧ Config.ms r.offset.toNat ≤ 0 ∧ 0 < Config.ms (parseCue (put [(0x2000, 0x00010001)]) (c.slotCueAddr 2 0)).offset.toNat)
    ∧ (let c := (running .waiting fun x => { x with current := some ⟨0, some (cue 4 1 0 5 1 0 0), true⟩, next := some ⟨1, none⟩ }).modFetch 2 fun _ =>
         ⟨some (.run 1, false), none⟩
       runs (st c) ∧ c.turn (slotRequester 2) = true ∧ c.fetch[(2 : SlotId)].cur = some (.run 1, false)
         ∧ c.slots[(2 : SlotId)].current = some ⟨0, some (cue 4 1 0 5 1 0 0), true⟩ ∧ c.slots[(2 : SlotId)].next = some ⟨1, none⟩)
    ∧ (let r := cue 1 1 800 7 0 300 0
       let c := running .timing fun x => { x with current := some ⟨0, some r, false⟩, offset := some 100 }
       runs (st c) ∧ c.isHeld = false ∧ c.slots[(2 : SlotId)].state = .timing ∧ c.slots[(2 : SlotId)].current = some ⟨0, some r, false⟩
         ∧ c.slots[(2 : SlotId)].offset = some 100) := by
  delta runs; decide +kernel

/-- Slot 2, with channels 3 and 4, whose cue 0 of this record is due. -/
def due (r : CueRec) (f : Chip → Chip) : Chip :=
  f (running .timing fun x => { x with current := some ⟨0, some r, false⟩, voice0 := some 3, voice1 := some 4 })

theorem meets_LampSpeakAndHushAreIssued :
    (let r := cue 1 1 0 7 0 300 0
     Due (due r id) 2 0 r ∧ r.op = some (.lamp 7 300 0) ∧ r.link = true ∧ r.note = false ∧ (due r id).lampOwner 7 ≠ some 2)
    ∧ (let r := cue 1 1 0 7 0 1023 60000
       let c := due r fun c => c.modClaims fun t => { t with lamps := updAt t.lamps 7 fun _ => ⟨some 2, none, none⟩ }
       Due c 2 0 r ∧ r.op = some (.lamp 7 1023 60000) ∧ c.lampOwner 7 = some 2)
    ∧ (let r := cue 2 1 0 1 17 255 0
       Due (due r id) 2 0 r ∧ r.op = some (.speak 1 17 255))
    ∧ (let r := cue 3 1 0 0 0 500 0
       let c := due r fun c => c.modVoice 3 fun x => { x with state := .playing, clip := some 17, volume := 200 }
       Due c 2 0 r ∧ r.op = some (.hush 0 500) ∧ r.link = true ∧ r.note = false ∧ c.slots[(2 : SlotId)].voice 0 = some 3 ∧ c.voices[(3 : VoiceId)].state = .playing)
    ∧ (∀ state ∈ [ChannelState.playing, .starved, .fading, .priming, .paused], ∀ fade ∈ [0, 10000],
       let r := cue 3 1 0 0 0 fade 0
       let c := due r fun c => c.modVoice 3 fun x => { x with state := state, clip := some 17, volume := 200 }
       Due c 2 0 r ∧ r.op = some (.hush 0 fade) ∧ c.slots[(2 : SlotId)].voice 0 = some 3 ∧ c.voices[(3 : VoiceId)].state = state)
    ∧ (let r := cue 3 1 0 0 0 0 0
       Due (due r id) 2 0 r ∧ r.op = some (.hush 0 0) ∧ (due r id).voices[(3 : VoiceId)].state = .idle ∧ (due r id).slots[(2 : SlotId)].voice 0 = some 3) := by
  delta Due; decide +kernel

theorem meets_MoveWaitAndLoopAreIssued :
    (let r := cue 4 1 0 5 1 1200 0
     let guarded := due r fun c => (driveAt .idle c).modBay 3 fun b => { b with guarded := true }
     (Due guarded 2 0 r ∧ r.op = some (.move 5 .goto 1200#16) ∧ guarded.bays[guarded.drives[(5 : DriveId)].entry.bay].guarded = true)
     ∧ (let c := due r (driveAt .halting)
        Due c 2 0 r ∧ c.bays[c.drives[(5 : DriveId)].entry.bay].guarded = false ∧ c.drives[(5 : DriveId)].state = .halting)
     ∧ (let c := due r (driveAt .idle)
        Due c 2 0 r ∧ c.bays[c.drives[(5 : DriveId)].entry.bay].guarded = false ∧ c.drives[(5 : DriveId)].state = .idle
          ∧ c.links[(0 : LinkId)].addrs[(3 : AddrId)].present = true ∧ c.links[(0 : LinkId)].queue.length < 16)
     ∧ (∀ state ∈ [DriveState.faulted, .offline], let c := due r (driveAt state)
        Due c 2 0 r ∧ c.bays[c.drives[(5 : DriveId)].entry.bay].guarded = false ∧ c.drives[(5 : DriveId)].state = state))
    ∧ (let r := cue 5 1 0 2 5 0 65535
       (let c := due r (driveAt .moving)
        Due c 2 0 r ∧ r.op = some (.wait (.settle 5) 65535) ∧ c.drives[(5 : DriveId)].state = .moving)
       ∧ (let c := due r (driveAt .faulted)
          Due c 2 0 r ∧ r.link = true ∧ r.note = false ∧ c.drives[(5 : DriveId)].state = .faulted))
    ∧ (let r := cue 5 1 0 3 31 1 0
       Due (due r id) 2 0 r ∧ r.op = some (.wait (.input 31 true) 0) ∧ (due r id).trig.inputs[(31 : InputId)].level ≠ some true
         ∧ (let c := due r fun c => c.modInput 31 fun x => { x with settled := some x.entry.activeHigh }
            Due c 2 0 r ∧ r.link = true ∧ r.note = false ∧ c.trig.inputs[(31 : InputId)].level = some true))
    ∧ (let r := cue 5 1 0 1 1 4 0
       let plays := due r fun c => c.modVoice 4 fun x => { x with state := .playing }
       (Due plays 2 0 r ∧ r.op = some (.wait (.mark 1 3) 0) ∧ plays.slots[(2 : SlotId)].voice 1 = some 4
         ∧ plays.voices[(4 : VoiceId)].marks[(3 : Fin 4)] = false ∧ plays.voices[(4 : VoiceId)].state ≠ .idle)
       ∧ (let c := due r fun c => c.modVoice 4 fun x => { x with state := .playing, marks := Vector.replicate 4 true }
          Due c 2 0 r ∧ c.slots[(2 : SlotId)].voice 1 = some 4 ∧ c.voices[(4 : VoiceId)].marks[(3 : Fin 4)] = true)
       ∧ Due (due r id) 2 0 r ∧ (due r id).voices[(4 : VoiceId)].state = .idle ∧ r.link = true ∧ r.note = false)
    ∧ (let r := cue 6 1 0 1 2 0 0
       let c := live.modSlot 2 fun x => { x with
         state := .timing, scene := 9, defn := some (lampScene 0), current := some ⟨1, some r, false⟩, offset := some 0, loop := some (1, 0) }
       Due c 2 1 r ∧ r.op = some (.loop 1 2) ∧ r.note = false ∧ r.link = true
         ∧ Due (c.modSlot 2 fun x => { x with loop := none }) 2 1 r ∧ Due (c.modSlot 2 fun x => { x with loop := some (1, 1) }) 2 1 r) := by
  delta Due
  exact ⟨by decide +kernel, by decide +kernel, by decide +kernel, by decide +kernel, by decide +kernel⟩

/-- Slot 2, with channels 3 and 4, waits on `k` for its cue 0 of this record; cue 1 has not arrived. -/
def awaiting (k : WaitCond) (r : CueRec) (f : Slot → Slot) : Chip :=
  running .waiting fun x => f { x with current := some ⟨0, some r, true⟩, next := some ⟨1, none⟩, cond := some k, voice0 := some 3, voice1 := some 4 }

theorem awaits_of (k : WaitCond) (r : CueRec) (h : r.link = true ∧ r.note = false) :
    Awaits (awaiting k r id) 2 k r ∧ LinksTo (awaiting k r id).slots[(2 : SlotId)] r 1 := ⟨⟨rfl, rfl, 0, rfl⟩, h.1, h.2, rfl⟩

/-- MOVE 5 GOTO 1,200 with LINK and RESUME, and its record in the slot. -/
def resuming : CueRec := cue 4 0x09 0 5 1 1200 0
def resumingMove (n : Nat) : IssuedMove := ⟨5, n, resuming⟩

theorem meets_ReportsCompleteTheAwaitedCue :
    let linked := cue 4 1 0 5 1 1200 0
    (∀ k, Awaits (awaiting k linked id) 2 k linked ∧ LinksTo (awaiting k linked id).slots[(2 : SlotId)] linked 1)
    ∧ (∀ n, (running .timing id).slots[(2 : SlotId)].cond ≠ some n)
    ∧ (∀ state ∈ [DriveState.idle, .faulted, .offline, .starting, .moving, .halting], (driveAt state (awaiting (.settle 5) linked id)).drives[(5 : DriveId)].state = state)
    ∧ (∀ j : SlotId, j ≠ 2 → (running .waiting id).slots[j].cond = none ∧ (running .waiting id).slots[j].halted = [])
    -- a due MOVE
    ∧ (∀ k ∈ [WaitCond.settleBefore 5, .guard 3],
        let c := driveAt .idle (awaiting k linked fun x => { x with current := some ⟨0, some linked, false⟩ })
        c.slots[(2 : SlotId)].current = some ⟨0, some linked, false⟩ ∧ linked.op = some (.move 5 .goto 1200#16) ∧ c.drives[(5 : DriveId)].state = .idle
          ∧ c.drives[(5 : DriveId)].entry.bay = 3 ∧ c.bays[(3 : BayId)].guarded = false ∧ c.slots[(2 : SlotId)].halted = []
          ∧ c.slots[(2 : SlotId)].cond = some k)
    -- a halted MOVE, of the current cue and of an earlier one
    ∧ (∀ n ∈ [0, 7], ∀ answered, ∀ guarded,
        let c := (driveAt .idle (awaiting (.clipEnd 0) resuming fun x =>
          { x with moves := [resumingMove n], halted := [⟨5, n, answered⟩] })).modBay 3 fun b => { b with guarded := guarded }
        let x := c.slots[(2 : SlotId)]
        x.moves.find? (fun m => m.drive == 5) = some (resumingMove n) ∧ resuming.resume = true ∧ resuming.op = some (.move 5 .goto 1200#16)
          ∧ x.halted = [⟨5, n, answered⟩] ∧ (n = 0 → x.current = some ⟨n, some resuming, true⟩)
          ∧ (n = 7 → x.current.map (fun y => y.index) ≠ some n) ∧ c.bays[(3 : BayId)].guarded = guarded ∧ c.drives[(5 : DriveId)].state = .idle
          ∧ x.cond ≠ some (.settleBefore 5) ∧ x.cond ≠ some (.settle 5) ∧ x.cond ≠ some (.guard 3))
    ∧ (awaiting (.clipEntry 0) linked id).slots[(2 : SlotId)].voiceIndex 3 = some 0
    ∧ (awaiting (.mark 1 3) linked id).slots[(2 : SlotId)].voiceIndex 4 = some 1 ∧ linked.await = false ∧ (cue 2 5 0 1 17 255 0).await = true
    ∧ (let c := (awaiting (.input 31 true) linked id).modInput 31 fun x => { x with entry := { x.entry with activeHigh := true }, settled := some true }
       c.trig.inputs[(31 : InputId)].level = some true ∧ (running .waiting id).trig.inputs[(31 : InputId)].level ≠ some true) :=
  ⟨fun k => awaits_of k _ (by decide), fun _ => nofun, by decide +kernel, by decide +kernel, by decide +kernel, by decide +kernel, by decide +kernel,
    by decide +kernel, by decide, by decide, by decide +kernel⟩

/-- Slot 2 with lamp 7, drive 5 and channel 3, a trigger's or a request's scene. -/
def owning (state : SlotState) (origin : Origin) (drive : DriveState) (voice : ChannelState) (shadow : Option SlotId) : Chip :=
  ((driveAt drive (running state fun x => { x with origin := some origin, voice0 := some 3 })).modVoice 3 fun x => { x with state := voice }).modClaims fun t =>
    { t with
      lamps := updAt t.lamps 7 fun _ => ⟨some 2, shadow, none⟩
      drives := updAt t.drives 5 fun _ => ⟨some 2, none⟩
      voices := updAt t.voices 3 fun _ => ⟨some 2, none⟩ }

theorem meets_SlotsEndByWayOfEnding :
    (∀ state ∈ [SlotState.timing, .waiting], (owning state (.request 1#16) .moving .idle none).slots[(2 : SlotId)].state = state)
    ∧ busyAtEnding (owning .timing (.request 1#16) .moving .idle none) 2 .stopped ∧ ¬busyAtEnding (owning .timing (.request 1#16) .idle .idle none) 2 .stopped
    ∧ busyAtEnding (owning .timing (.request 1#16) .idle .playing none) 2 .normal ∧ (owning .timing (.request 1#16) .idle .idle none).claims.waiting = []
    ∧ (cue 1 0 0 7 0 300 0).link = false ∧ (cue 1 1 0 7 0 300 0).link = true ∧ (cue 1 2 0 7 0 300 0).note = true
    ∧ (let c := awaiting (.clipEntry 0) (cue 4 1 0 5 1 1200 0) fun x => { x with moves := [⟨5, 0, cue 4 1 0 5 1 1200 0⟩], halted := [⟨5, 0, false⟩] }
       let x := c.slots[(2 : SlotId)]
       x.moves.find? (fun m => m.drive == 5) = some ⟨5, 0, cue 4 1 0 5 1 1200 0⟩ ∧ (cue 4 1 0 5 1 1200 0).resume = false
         ∧ x.halted.find? (fun h => h.drive == 5) = some ⟨5, 0, false⟩ ∧ x.cond = some (.clipEntry 0) ∧ x.voiceIndex 3 = some 0)
    ∧ (∀ origin ∈ [Origin.request 1#16, .trigger 4], ∀ shadow ∈ [none, some 1], ∀ drive ∈ [DriveState.idle, .moving],
        let c := (owning .ending origin drive .idle shadow).modInput 4 fun x => { x with state := .spent }
        c.slots[(2 : SlotId)].state = .ending ∧ c.claims.waiting = [] ∧ c.slots[(2 : SlotId)].origin = some origin ∧ c.trig.inputs[(4 : InputId)].state = .spent
          ∧ c.slots[(2 : SlotId)].voice0 = some 3 ∧ c.voices[(3 : VoiceId)].state = .idle ∧ c.driveOwner 5 = some 2
          ∧ c.drives[(5 : DriveId)].state = drive ∧ c.slots[(2 : SlotId)].cooldown = 5) := by
  delta busyAtEnding
  refine ⟨?_, ?_, ?_, ?_, ?_, ?_, ?_, ?_, ?_, ?_⟩ <;> decide +kernel

/-! ### The lamps and the voice channels -/

theorem meets_LampFramesAndFades :
    (let c : Chip := { live with lamp := { live.lamp with frame := some 0 } }
     runs (st c) ∧ c.lamp.frame = some 0)
    ∧ (∀ f ∈ [(⟨0, 800, 60000, 4000⟩ : LampFade), ⟨800, 0, 60000, 4000⟩],
       let c := live.modLamp 7 fun x => { x with fade := some f }
       let h := (heldBy .settled true).modLamp 7 fun x => { x with fade := some f }
       runs (st c) ∧ c.lamp.lamps[(7 : LampId)].fade = some f ∧ c.isHeld = false ∧ runs (st h) ∧ h.lamp.lamps[(7 : LampId)].fade = some f ∧ h.isHeld = true
         ∧ 0 < f.dur ∧ (f.start ≤ f.target ∨ f.target < f.start))
    ∧ (0 : Nat) ≤ 800 ∧ Config.ms 60000 ≤ (⟨800, 0, 60000, Config.ms 60000⟩ : LampFade).elapsed := by
  delta runs; simp only [List.forall_mem_cons]; decide +kernel

/-- Lamp 7 with this house word and demand, owned by slot 2 with a shadow. -/
def lampOf (owner shadow : Option SlotId) (demand : Demand) (c : Chip) : Chip :=
  (c.modLamp 7 fun x => { x with copy := some 0x02000100#32, demand := demand }).modClaims fun t =>
    { t with lamps := updAt t.lamps 7 fun _ => ⟨owner, shadow, none⟩ }

theorem meets_LampsFollowOwnersAndDemands :
    (∀ c ∈ [live, heldBy .settled true], ∀ shadow ∈ [none, some (1 : SlotId)], ∀ demand ∈ [Demand.none, .steady 500, .alternating 500 true],
      let d := lampOf (some 2) shadow demand c
      d.claims.lamps[(7 : LampId)].owner = some 2 ∧ d.claims.lamps[(7 : LampId)].shadow = shadow ∧ d.isHeld = c.isHeld
        ∧ d.lamp.lamps[(7 : LampId)].copy = some 0x02000100#32 ∧ d.lamp.lamps[(7 : LampId)].demand = demand)
    ∧ (lampOf (some 1) (some 2) .none live).claims.lamps[(7 : LampId)].owner ≠ some 2 ∧ live.claims.lamps[(7 : LampId)].owner ≠ some 2
    ∧ (∀ demand ∈ [Demand.none, .steady 500, .alternating 500 true],
      let d := lampOf none none demand live
      d.lampOwner 7 = none ∧ d.isHeld = false ∧ d.lamp.lamps[(7 : LampId)].copy = some 0x02000100#32 ∧ d.lamp.lamps[(7 : LampId)].demand = demand
        ∧ d.lamp.lamps[(7 : LampId)].demand ≠ .steady 400 ∧ d.lamp.lamps[(7 : LampId)].demand ≠ .alternating 400 false)
    ∧ live.lamp.lamps[(7 : LampId)].copy = none := by
  refine ⟨?_, ?_, ?_, ?_, ?_⟩ <;> decide +kernel

/-- Channel 3 waits for clip 17's entry. -/
def asking (d : DirRead) : Chip := live.modVoice 3 fun x => { x with dirRead := some d }

/-- Clip 17's entry: 16 words at the start of the clip data, one mark. -/
def clip17 : List (Nat × Nat) := [(0x4220, 0x00010001), (0x4224, 0x8000), (0x4228, 16), (0x422C, 5)]

theorem meets_DirectoryReadTakesTheChannel :
    let entry (m : Memory) := parseClip (live.base rClipData) (live.regionLen rClipData) m (live.base rClips + 32 * 17)
    (∀ stop replaced abandoned, let d : DirRead := ⟨17, 255, stop, replaced, abandoned⟩
      runs (st (asking d)) ∧ (asking d).voices[(3 : VoiceId)].burst = none ∧ (asking d).voices[(3 : VoiceId)].dirRead = some d ∧ (asking d).turn (.clip 3) = true)
    ∧ entry [] = none ∧ (entry (put clip17)).isSome = true := by
  delta runs; decide +kernel

/-- Clip entries whose data end with the region and behind it, and with a mark at the last word and behind it (R97). -/
theorem meets_DirectoryReadTakesTheChannel_tests :
    let valid (base mark : Nat) := (parseClip 0x8000 0x4000 (put [(0, 0x00010101), (4, base), (8, 16), (12, mark)]) 0).isSome
    valid 0xBFC0 15 = true ∧ valid 0xBFC4 15 = false ∧ valid 0xBFC0 16 = false := by decide +kernel

/-- A clip stopped before its entry came asks for its first burst all the same, and abandons it (R100, R111). -/
theorem test_stopped_clip_abandons_its_first_burst :
    (match exec (.directoryReadReturn 3) { st (asking ⟨17, 255, true, false, false⟩) with mem := put clip17 } with
     | .next t => t.chip.voices[(3 : VoiceId)].state == .idle && t.chip.voices[(3 : VoiceId)].burst == some ⟨0, 8, true⟩
     | _ => false) = true := by decide +kernel

/-- The entry read. -/
def entry17 : ClipEntry := ⟨0x8000, 16, false, 1, ⟨#[5, 0, 0, 0], rfl⟩⟩

/-- Channel 3 with a burst of the clip's last words in flight. -/
def bursting (state : ChannelState) (abandoned : Bool) (c : Chip) : Chip := c.modVoice 3 fun x =>
  { x with state := state, clip := some 17, copy := some entry17, fetchPos := 16, burst := some ⟨8, 8, abandoned⟩, fifo := List.replicate 8 0#32 }

/-- Channel 3 priming a long clip, with 216 words and eight more in flight. -/
def filling (c : Chip) : Chip := c.modVoice 3 fun x =>
  { x with
    state := .priming, clip := some 17, copy := some { entry17 with len := 4096 }, fetchPos := 224, burst := some ⟨216, 8, false⟩
    fifo := List.replicate 216 0#32 }

theorem meets_BurstsFillTheFifo :
    (∀ state ∈ [ChannelState.starved, .priming, .playing], ∀ abandoned, runs (st (bursting state abandoned live))
      ∧ (bursting state abandoned live).voices[(3 : VoiceId)].burst = some ⟨8, 8, abandoned⟩ ∧ (bursting state abandoned live).turn (.clip 3) = true
      ∧ ((bursting state abandoned live).granted (.clip 3)).voices[(3 : VoiceId)].copy = some entry17
      ∧ ((bursting state abandoned live).granted (.clip 3)).voices[(3 : VoiceId)].fetchPos = entry17.len)
    ∧ (let c := bursting .priming false (heldBy .settled true)
       runs (st c) ∧ c.turn (.clip 3) = true ∧ (c.granted (.clip 3)).isHeld = true ∧ c.voices[(3 : VoiceId)].state = .priming)
    ∧ (∀ c ∈ [filling live, filling (heldBy .settled true)],
       let x := (c.granted (.clip 3)).voices[(3 : VoiceId)]
       runs (st c) ∧ c.turn (.clip 3) = true ∧ x.state = .priming ∧ x.fetchPos ≠ 4096
         ∧ 224 ≤ (x.fifo ++ (List.range 8).map fun k => (st c).mem.word (entry17.base / 4 + 216 + k)).length) := by
  delta runs; decide +kernel

/-- Channel 3 in a state with a FIFO, at a play position. -/
def sounding (state : ChannelState) (fifo : List Word) (held : Option Half) (pos : Nat) : Chip := live.modVoice 3 fun x =>
  { x with state := state, clip := some 17, copy := some entry17, fetchPos := 16, playPos := pos, fifo := fifo, held := held, volume := 255, sample := 9 }

theorem meets_SamplesAreOutput :
    let at_ (c : Chip) := (c.advance 9).voices[(3 : VoiceId)]
    (255 ≤ 255 ∧ runs (st live) ∧ ¬(live.voices[(3 : VoiceId)].state = .playing ∨ live.voices[(3 : VoiceId)].state = .fading))
    ∧ (runs (st (sounding .playing [] (some 3#16) 4)) ∧ (at_ (sounding .playing [] (some 3#16) 4)).state = .playing
        ∧ (at_ (sounding .playing [] (some 3#16) 4)).held = some 3#16)
    ∧ ((at_ (sounding .playing [7#32] none 4)).held = none ∧ (at_ (sounding .playing [7#32] none 4)).fifo = 7#32 :: [])
    ∧ (let c := (sounding .playing [7#32] none 5).modClaims fun t => { t with voices := updAt t.voices 3 fun _ => ⟨some 2, none⟩ }
       (at_ c).fifo = 7#32 :: [] ∧ (at_ c).playPos = 5 ∧ entry17.marks[(0 : Fin 4)] = 5 ∧ (at_ c).marks[(0 : Fin 4)] = false
         ∧ toldOwner 3 (.mark 0) (c.advance 9) = [.voice 2 3 (.mark 0)])
    ∧ ((at_ (sounding .playing [] none 15)).state = .playing ∧ (at_ (sounding .playing [] none 15)).fifo = []
        ∧ (at_ (sounding .playing [] none 15)).playPos < (at_ (sounding .playing [] none 15)).length)
    ∧ ((at_ (sounding .fading [] none 15)).state = .fading ∧ (at_ (sounding .fading [] none 15)).held = none
        ∧ (at_ (sounding .fading [] none 15)).playPos < (at_ (sounding .fading [] none 15)).length)
    ∧ ((at_ (sounding .playing [] none 16)).state = .playing ∧ (at_ (sounding .playing [] none 16)).length ≤ (at_ (sounding .playing [] none 16)).playPos)
    ∧ (let c := live.modVoice 3 fun x => { x with state := .fading, fade := some ⟨255, 250, 0⟩ }
       runs (st c) ∧ c.voices[(3 : VoiceId)].state = .fading ∧ c.voices[(3 : VoiceId)].fade = some ⟨255, 250, 0⟩) := by
  delta runs; decide +kernel

/-! ### The links and the drives -/

/-- Link A with address 4 present, in a state with a transaction in hand. -/
def linkAt (state : LinkState) (cur : Option Current) (f : Link → Link) : Chip :=
  (driveAt .moving live).modLink 0 fun k => f { k with state := state, current := cur }

def moveTxn : Current := ⟨⟨3, .goto, 1200#16, .move⟩, false, 0, false, none, none, none⟩

/-- Address 4's move halted before it was sent. -/
def haltTxn : Txn := ⟨3, .halt, 0#16, .halt⟩

theorem meets_LinksSendAfterQuiet :
    let at_ (c : Chip) := (c.advance c.links[(0 : LinkId)].quiet).links[(0 : LinkId)]
    (runs (st live) ∧ (at_ (linkAt .lost (some moveTxn) id)).state = .lost ∧ (at_ (linkAt .lost (some moveTxn) id)).current = some moveTxn)
    ∧ (let k := at_ (linkAt .quietWait (some moveTxn) id)
       k.state = .quietWait ∧ k.current = some moveTxn ∧ k.resetting = none
         ∧ ¬(∃ t ∈ k.queue, t.cmd = .halt ∧ t.addr = moveTxn.txn.addr))
    ∧ (∀ state ∈ [LinkState.quietWait, .lost], ∀ guarded : Bool,
        let c := (linkAt state (some moveTxn) fun k => { k with queue := [haltTxn] }).modBay 3 fun b => { b with guarded := guarded }
        let a := c.advance c.links[(0 : LinkId)].quiet
        let k := at_ c
        k.state = state ∧ k.current = some moveTxn ∧ k.resetting = none ∧ moveTxn.txn.cmd.isMove = true ∧ moveTxn.senseStep = false
          ∧ (∃ t ∈ k.queue, t.cmd = .halt ∧ t.addr = moveTxn.txn.addr)
          ∧ a.driveAt 0 3 = some 5 ∧ a.bays[a.drives[(5 : DriveId)].entry.bay].guarded = guarded)
    ∧ (let k := at_ (linkAt .quietWait none fun k => { k with queue := [haltTxn] })
       k.state = .quietWait ∧ k.current = none ∧ k.resetting = none ∧ k.queue = haltTxn :: [])
    ∧ (let k := at_ (linkAt .quietWait none fun k => { k with addrs := updAt k.addrs 11 fun r => { r with configured := true, due := true } })
       k.queue = [] ∧ k.addrs[(11 : AddrId)].configured = true ∧ k.addrs[(11 : AddrId)].present = false ∧ k.addrs[(11 : AddrId)].due = true
         ∧ ∀ b : AddrId, b < 11 → ¬(k.addrs[b].configured = true ∧ k.addrs[b].present = false ∧ k.addrs[b].due = true))
    ∧ (let k := at_ (linkAt .quietWait none fun k => { k with service := true })
       k.queue = [] ∧ k.service = true ∧ k.pollAddr = some 3
         ∧ ∀ b : AddrId, ¬(k.addrs[b].configured = true ∧ k.addrs[b].present = false ∧ k.addrs[b].due = true))
    ∧ (let k := at_ (linkAt .quietWait none id)
       k.state = .quietWait ∧ k.current = none ∧ k.resetting = none ∧ k.queue = [] ∧ k.service = false)
    ∧ (let c := linkAt .sending (some moveTxn) fun k => { k with frame := some 9 }
       runs (st c) ∧ c.links[(0 : LinkId)].state = .sending ∧ c.links[(0 : LinkId)].frame = some 9)
    ∧ (let c := linkAt .idle none fun k => { k with addrs := updAt k.addrs 0 fun r => { r with configured := true, probe := some 0 } }
       runs (st c) ∧ c.links[(0 : LinkId)].addrs[(0 : AddrId)].probe = some 0) := by
  delta runs; decide +kernel

/-- Addresses 4 and 9 are present (R135's sequence in section 6.10). -/
def polling (last : Nat) (again : Option AddrId) : Link :=
  { live.links[(0 : LinkId)] with
    addrs := tabulate 12 fun a => { live.links[(0 : LinkId)].addrs[a] with present := a == 3 || a == 8 }
    lastPolled := last
    pollAgain := again }

theorem meets_LinksSendAfterQuiet_poll :
    ((polling 9 (some 8)).pollAgain = some 8 ∧ (polling 9 (some 8)).addrs[(8 : AddrId)].present = true)
    ∧ (∀ b : AddrId, (polling 9 none).addrs[b].present = true → b.val < 9 ∧ 3 ≤ b)
    ∧ (∀ b : AddrId, (polling 4 (some 11)).addrs[b].present = true → 4 ≤ b.val → 8 ≤ b)
    ∧ (polling 4 (some 11)).addrs[(11 : AddrId)].present = false
    ∧ ((polling 9 none).pollAddr = some 3 ∧ (polling 4 (some 11)).pollAddr = some 8)
    ∧ ∀ b : AddrId, live.links[(0 : LinkId)].addrs[b].present = false := by decide +kernel

theorem meets_FailedAttemptsAreCounted :
    (∀ n ∈ [0, 1, 2], let x := { moveTxn with failed := n }
      let c := linkAt .sending (some x) id
      runs (st c) ∧ c.links[(0 : LinkId)].state = .sending ∧ c.links[(0 : LinkId)].resetting = none ∧ c.links[(0 : LinkId)].current = some x)
    ∧ (let x : Current := ⟨⟨0, .identify, 0#16, .probe⟩, false, 0, true, none, none, none⟩
       let c := linkAt .awaitReply (some x) fun k => { k with reply := some 20000 }
       runs (st c) ∧ c.links[(0 : LinkId)].state = .awaitReply ∧ c.links[(0 : LinkId)].resetting = none ∧ c.links[(0 : LinkId)].current = some x
         ∧ c.links[(0 : LinkId)].reply = some 20000)
    ∧ live.links[(0 : LinkId)].addrs[(11 : AddrId)].present = false := by
  delta runs; decide +kernel

theorem meets_HaltsAndResetsReachTheLinks :
    let k := (linkAt .idle none id).links[(0 : LinkId)]
    let waits (k : Link) := k.current = some moveTxn ∧ moveTxn.txn.cmd.isMove = true ∧ moveTxn.txn.addr = 3 ∧ moveTxn.senseStep = false
      ∧ (k.state = .quietWait ∨ k.state = .lost)
    let held (k : Link) := (∃ t ∈ k.queue, t.cmd = .halt ∧ t.addr = 3) ∨ ∃ x ∈ k.current.toList, x.txn.cmd = .halt ∧ x.txn.addr = 3
    let moves (k : Link) := k.queue.filter fun t => t.cmd.isMove && t.addr == 3
    let polls : List Txn := List.replicate 16 ⟨5, .sense, 0#16, .service⟩
    (k.addrs[(3 : AddrId)].present = true ∧ k.queue.length < 16 ∧ 16 ≤ ({ k with queue := polls } : Link).queue.length)
    ∧ moves { k with queue := [haltTxn, moveTxn.txn] } = [moveTxn.txn]
    ∧ (moves { k with queue := [haltTxn] } = [] ∧ held { k with queue := [haltTxn] })
    ∧ (∀ state ∈ [LinkState.quietWait, .lost], let y : Link := { k with state := state, current := some moveTxn }
        moves y = [] ∧ ¬held y ∧ waits y)
    ∧ (moves k = [] ∧ ¬held k ∧ k.current = none)
    ∧ (polls.filter fun t => !(t.cmd == .halt)) = List.replicate 15 ⟨5, .sense, 0#16, .service⟩ ++ [⟨5, .sense, 0#16, .service⟩]
    ∧ (∀ state ∈ [LinkState.quietWait, .sending, .awaitReply], ∀ rest ∈ [[], [(3 : AddrId), 11]], ∀ cur ∈ [none, some moveTxn],
        let c := linkAt state cur fun k => { k with resetting := some rest, reply := some 20000 }
        runs (st c) ∧ c.links[(0 : LinkId)].state = state ∧ c.links[(0 : LinkId)].current = cur ∧ c.links[(0 : LinkId)].resetting = some rest
          ∧ c.links[(0 : LinkId)].reply = some 20000) := by
  delta runs; decide +kernel

/-- A reply character of value `d`, received well. -/
def ok (d : Byte) : RxChar := .sent d

/-- The conditions of a character that makes the reply whole. -/
def wholeReply (x : Current) (rx : List Byte) : Bool :=
  !replyBad x.txn.addr x.command rx && 2 ≤ rx.length && replyLength x.command (Status.ofByte (rx.getD 1 0#8)) ≤ rx.length

/-- Address 4 is asked this, and has sent so much. -/
def replying (x : Current) (rx : List Byte) : Chip := linkAt .awaitReply (some x) fun k => { k with rx := rx, reply := some 20000 }

def transact (cmd : Command) (maker : Maker) : Current := ⟨⟨3, cmd, 0#16, maker⟩, false, 0, true, none, none, none⟩

theorem meets_RepliesCompleteTransactions :
    (runs (st live) ∧ live.links[(0 : LinkId)].state ≠ .awaitReply)
    ∧ (∀ x ∈ [moveTxn, transact .sense .service, transact .poll .poll, transact .identify .probe],
        let c := replying x [4#8]
        runs (st c) ∧ c.links[(0 : LinkId)].state = .awaitReply ∧ c.links[(0 : LinkId)].current = some x ∧ c.links[(0 : LinkId)].resetting = none)
    ∧ replyBad 3 .goto [5#8] = true ∧ replyBad 3 .goto [4#8] = false ∧ replyBad 3 .goto [4#8, 1#8, 6#8] = true
    ∧ (replyBad 3 .goto [4#8, 1#8] = false ∧ ¬(2 ≤ [4#8, 1#8].length ∧ replyLength .goto (Status.ofByte 1#8) ≤ [4#8, 1#8].length))
    ∧ wholeReply moveTxn [4#8, 8#8, 12#8] = true ∧ (Status.ofByte 8#8).fault = true
    ∧ wholeReply moveTxn [4#8, 1#8, 5#8] = true ∧ (Status.ofByte 1#8).fault = false
    ∧ wholeReply (transact .sense .service) [4#8, 1#8, 1#8, 2#8, 3#8, 4#8, 15#8] = true
    ∧ wholeReply (transact .poll .poll) [4#8, 0x41#8, 0x45#8] = true ∧ (Status.ofByte 0x41#8).more = true
    ∧ wholeReply (transact .identify .probe) [4#8, 1#8, 7#8, 8#8, 20#8] = true ∧ (Status.ofByte 1#8).accepted = true
    ∧ (let x : Current := { moveTxn with senseStep := true, status := some (Status.ofByte 8#8) }
       wholeReply x [4#8, 1#8, 1#8, 2#8, 3#8, 4#8, 15#8] = true ∧ (1#8).getLsbD 2 = false ∧ x.kept = none)
    ∧ (∀ accepted : Bool, ∀ b0 ∈ [4#8, 0xC4#8, 5#8], ∀ kept ∈ [none, some (⟨8#8, 0#8, 0#8, 0#8⟩ : Sense)],
        let x : Current :=
          { moveTxn with senseStep := true, status := some (Status.ofByte (if accepted then 9#8 else 8#8)), kept := kept }
        let rx := [4#8, 1#8, b0, 2#8, 3#8, 4#8]
        wholeReply x (rx ++ [rx.foldl (· + ·) 0#8]) = true ∧ b0.getLsbD 2 = true ∧ (b0 &&& 0x3B#8 ≠ 0#8 ↔ b0 = 5#8))
    ∧ (∀ st ∈ [8#8, 9#8], ∀ x ∈ [transact .poll .poll, transact .identify .probe],
        let y : Current :=
          { x with senseStep := true, status := some (Status.ofByte st), identity := if st = 9#8 then some (7#8, 8#8) else none }
        wholeReply y [4#8, 1#8, 1#8, 2#8, 3#8, 4#8, 15#8] = true ∧ (Status.ofByte st).accepted = decide (st = 9#8)) := by
  delta runs; refine ⟨?_, ?_, ?_, ?_, ?_, ?_, ?_, ?_, ?_, ?_, ?_, ?_, ?_, ?_, ?_, ?_, ?_, ?_⟩ <;> decide +kernel

/-- Drive 5 in a state with its timers. -/
def timed (state : DriveState) (f : Drive → Drive) : Chip := (driveAt state live).modDrive 5 fun x => f { x with settle := some 9 }

theorem meets_DriveTimersExpire :
    (let c := timed .starting fun x => { x with retry := some 0, move := some ⟨.goto, 1200#16, false⟩ }
     runs (st c) ∧ c.drives[(5 : DriveId)].retry = some 0 ∧ (c.advance 0).drives[(5 : DriveId)].move = some ⟨.goto, 1200#16, false⟩)
    ∧ (let c := timed .idle fun x => { x with retry := some 0, service := some .clear }
       runs (st c) ∧ c.drives[(5 : DriveId)].retry = some 0 ∧ (c.advance 0).drives[(5 : DriveId)].move = none
         ∧ (c.advance 0).drives[(5 : DriveId)].service = some .clear)
    ∧ (∀ state ∈ [DriveState.starting, .moving, .halting, .idle, .faulted], ∀ atLink,
        let c := timed state fun x => { x with atLink := atLink, service := some .clear }
        runs (st c) ∧ c.drives[(5 : DriveId)].settle = some 9 ∧ (c.advance 9).drives[(5 : DriveId)].state = state
          ∧ (c.advance 9).drives[(5 : DriveId)].atLink = atLink ∧ (c.advance 9).drives[(5 : DriveId)].service = some .clear)
    ∧ (let c := (timed .moving id).modClaims fun t => { t with drives := updAt t.drives 5 fun _ => ⟨some 2, none⟩ }
       (c.advance 9).driveOwner 5 = some 2) := by
  delta runs; decide +kernel

/-- A report of the drive at address 4 of link A. -/
theorem meets_DrivesTakeReportsOfMoves :
    (∀ state ∈ [DriveState.starting, .halting, .moving, .idle, .faulted, .offline], ∀ expired, ∀ kept ∈ [none, some true, some false],
      let c := (driveAt state live).modDrive 5 fun x => { x with windowExpired := expired, keptEnd := kept }
      c.driveAt 0 3 = some 5 ∧ c.drives[(5 : DriveId)].state = state ∧ c.drives[(5 : DriveId)].windowExpired = expired
        ∧ c.drives[(5 : DriveId)].keptEnd = kept ∧ c.claims.waiting = [])
    ∧ (∀ u : DriveId, ¬((driveAt .idle live).drives[u].entry.enabled = true ∧ (driveAt .idle live).drives[u].entry.link = 1))
    ∧ (∀ u : DriveId, u < 5 → (driveAt .idle live).drives[u].entry.enabled = false)
    ∧ Command.goto.isMove = true ∧ ((Status.ofByte 1#8).accepted = true ∧ (Status.ofByte 1#8).fault = false)
    ∧ ((Status.ofByte 9#8).accepted = true ∧ (Status.ofByte 9#8).fault = true) ∧ ((Status.ofByte 8#8).accepted = false ∧ (Status.ofByte 8#8).fault = true)
    ∧ ((Status.ofByte 0#8).accepted = false ∧ (Status.ofByte 0#8).fault = false) := by
  refine ⟨?_, ?_, ?_, ?_, ?_, ?_, ?_, ?_⟩ <;> decide +kernel

theorem meets_DrivesTakePollsAndServiceReports :
    (∀ state ∈ [DriveState.starting, .halting, .moving, .idle, .faulted, .offline], ∀ flag, ∀ cause ∈ [none, some HaltCause.settleTimeout, some .guard],
      ∀ service ∈ [none, some ServiceCmd.sense, some .clear],
      let c := (driveAt state live).modDrive 5 fun x =>
        { x with windowExpired := flag, atLink := flag, accepted := flag, haltCause := cause, service := service }
      let x := c.drives[(5 : DriveId)]
      c.driveAt 0 3 = some 5 ∧ x.state = state ∧ x.windowExpired = flag ∧ x.atLink = flag ∧ x.haltCause = cause ∧ x.service = service
        ∧ c.claims.waiting = [] ∧ c.port.resetDrain = false ∧ c.port.mode ≠ .transparent)
    ∧ (∀ fault settled attention halted accepted : Bool,
        let y : Status := ⟨accepted, settled, false, fault, attention, halted, false⟩
        y.fault = fault ∧ y.settled = settled ∧ y.attention = attention ∧ y.halted = halted ∧ y.accepted = accepted)
    ∧ (1#8 &&& 0x3B#8 ≠ 0#8 ∧ 0xC4#8 &&& 0x3B#8 = 0#8) := by
  refine ⟨?_, ?_, ?_⟩ <;> decide +kernel

/-! ### The requests -/

theorem meets_HoldRequestIsPerformed :
    takes (asks 4 0 9 0 0 0 live) (fun r => r.kind.toNat == 4) ∧ (live.hold.request = false ∧ live.port.mode = .live)
    ∧ takes (asks 4 0 9 0 0 0 (heldBy .absent true)) (fun r => r.kind.toNat == 4) ∧ (heldBy .absent true).hold.request = true
    ∧ takes (asks 4 0 9 0 0 0 (heldBy .unsettled false)) (fun r => r.kind.toNat == 4)
    ∧ ((heldBy .unsettled false).hold.request = false ∧ (heldBy .unsettled false).port.mode = .held) := by
  delta takes runs; decide +kernel

theorem sound_asks :
    Sound (asks 4 0 9 0 0 0 live) ∧ Sound (asks 4 0 9 0 0 0 (heldBy .absent true)) ∧ Sound (asks 4 0 9 0 0 0 (heldBy .unsettled false))
    ∧ Sound (asks 5 0 9 0 0 0 (heldBy .settled true)) ∧ Sound (asks 5 0 9 0 0 0 (heldBy .absent true)) ∧ Sound (asks 5 0 9 0 0 0 live) := by
  refine ⟨?_, ?_, ?_, ?_, ?_, ?_⟩ <;> exact ⟨by decide, sound_st _ (by decide +kernel)⟩

theorem meets_ReleaseRequestIsJudgedOnTheLine :
    (∀ c ∈ [heldBy .settled true, heldBy .absent true, live], takes (asks 5 0 9 0 0 0 c) (fun r => r.kind.toNat == 5))
    ∧ (heldBy .settled true).hold.line ≠ .absent ∧ ((heldBy .absent true).hold.line = .absent ∧ (heldBy .absent true).port.mode = .held)
    ∧ (live.hold.line = .absent ∧ live.port.mode = .live) := by
  delta takes runs
  exact ⟨by simp only [List.forall_mem_cons]; decide +kernel, by decide, by decide, by decide⟩

theorem meets_HeldIsEnteredAndLeftByEveryBlock :
    (∀ c ∈ [live, heldBy .settled true, driveAt .faulted live], c.claims.waiting = [] ∧ ∀ b : BayId, c.bays[b].guarded = false)
    ∧ (∀ state ∈ [ChannelState.playing, .starved, .paused, .idle], (live.modVoice 3 fun x => { x with state := state }).voices[(3 : VoiceId)].state = state)
    ∧ (let c := startInput .armed true fun x => { x with settled := some true }
       let x := c.trig.inputs[(4 : InputId)]
       c.port.resetDrain = false ∧ x.entry.role = .start ∧ x.state = .armed ∧ x.entry.dwellMode = true ∧ x.level = some true ∧ x.offerOut = false)
    ∧ (startInput .dwelling true id).trig.inputs[(4 : InputId)].state = .dwelling
    ∧ ((lampOf none none .none live).lamp.lamps[(7 : LampId)].copy = some 0x02000100#32
        ∧ ∀ t : InputId, (lampOf none none .none live).trig.inputs[t].entry.lamp ≠ some 7) := by
  refine ⟨?_, ?_, ?_, ?_, ?_, ?_⟩ <;> decide +kernel

theorem meets_StartAndStopRequests :
    takes (asks 1 0 9 63 0 0 live) (fun r => r.kind.toNat == 1) ∧ takes (asks 1 0 9 64 0 0 live) (fun r => r.kind.toNat == 1)
    ∧ takes (asks 2 0 9 64 0 0 live) (fun r => r.kind.toNat == 2) ∧ takes (asks 3 0 9 16 0 0 live) (fun r => r.kind.toNat == 3)
    ∧ (let b := (asks 2 0 9 63 0 0 live).chip.granted .loader
       takes (asks 2 0 9 63 0 0 live) (fun r => r.kind.toNat == 2) ∧ (b.trig.queue.filter fun e => e.scene.val == 63).length = 0
         ∧ ∀ j : SlotId, ¬(b.slots[j].scene = 63 ∧ b.slots[j].state ≠ .free ∧ b.slots[j].state ≠ .ending))
    ∧ (let s := asks 2 0 9 8 0 0 (flying .ending 3)
       let b := s.chip.granted .loader
       takes s (fun r => r.kind.toNat == 2) ∧ (b.trig.queue.filter fun e => e.scene.val == 8).length = 3
         ∧ ∀ j : SlotId, ¬(b.slots[j].scene = 8 ∧ b.slots[j].state ≠ .free ∧ b.slots[j].state ≠ .ending))
    ∧ (let s := asks 2 0 9 9 0 0 (waits 5 ((flying .timing 3).modSlot 5 fun x => { x with state := .claiming, scene := 8 }))
       let b := s.chip.granted .loader
       takes s (fun r => r.kind.toNat == 2) ∧ b.claims.waiting = [5] ∧ b.slots[(5 : SlotId)].state = .claiming ∧ (b.trig.queue.filter fun e => e.scene.val == 9).length = 0
         ∧ ∀ j : SlotId, (b.slots[j].scene = 9 ∧ b.slots[j].state ≠ .free ∧ b.slots[j].state ≠ .ending) ↔ j = 2)
    ∧ (let s := asks 3 0 9 3 0 0 (flying .free 2)
       takes s (fun r => r.kind.toNat == 3) ∧ ((s.chip.granted .loader).trig.queue.filter fun e => e.bay == 3).length = 2)
    ∧ (let s := asks 2 0 9 9 0 0 ((flying .timing 3).modSlot 11 fun x => { x with state := .checking, scene := 9 })
       let b := s.chip.granted .loader
       takes s (fun r => r.kind.toNat == 2) ∧ b.claims.waiting = []
         ∧ ((List.finRange 12).filter fun j : SlotId => b.slots[j].scene == 9 && b.slots[j].state != .free && b.slots[j].state != .ending).length = 2) := by
  delta takes runs; decide +kernel

theorem meets_GuardAndArmRequests :
    (∀ on : Bool, let s := asks 6 0 9 15 (if on then 1 else 0) 0 live
      takes s (fun r => r.kind.toNat == 6 && (r.arg2.toNat == (if on then 1 else 0) || 1 < r.arg2.toNat))
        ∧ (s.chip.recordNow s.mem).arg1.toNat = 15 ∧ (s.chip.recordNow s.mem).arg2.toNat ≤ 1)
    ∧ (∀ on : Bool, let s := asks 6 0 9 16 2 0 live
        takes s (fun r => r.kind.toNat == 6 && (r.arg2.toNat == (if on then 1 else 0) || 1 < r.arg2.toNat))
          ∧ 15 < (s.chip.recordNow s.mem).arg1.toNat)
    ∧ (∀ c ∈ [driveAt .moving live, driveAt .starting live, (driveAt .starting live).modDrive 5 fun x => { x with atLink := true }],
        let s := asks 6 0 9 3 1 0 c
        let b := s.chip.granted .loader
        takes s (fun r => r.kind.toNat == 6 && (r.arg2.toNat == 1 || 1 < r.arg2.toNat)) ∧ (s.chip.recordNow s.mem).arg1.toNat = 3
          ∧ b.bays[(3 : BayId)].guarded = false ∧ b.drives[(5 : DriveId)].entry.enabled = true ∧ b.drives[(5 : DriveId)].entry.bay = 3 ∧ b.claims.waiting = [])
    ∧ (∀ input ∈ [none, some ((3 : BayId), true)],
        let s := asks 6 0 9 3 0 0 { live.modBay 3 fun x => { x with hostGuard := true, host := true, guarded := true } with
          guardIn := updAt live.guardIn 9 fun _ => input }
        takes s (fun r => r.kind.toNat == 6 && (r.arg2.toNat == 0 || 1 < r.arg2.toNat)) ∧ (s.chip.recordNow s.mem).arg1.toNat = 3
          ∧ (s.chip.granted .loader).bays[(3 : BayId)].guarded = true ∧ (s.chip.granted .loader).guardIn[(9 : InputId)] = input)
    ∧ (let s := asks 7 0 9 4 0 0 (startInput .disarmed true fun x => { x with settled := some true })
       takes s (fun r => r.kind.toNat == 7) ∧ (s.chip.granted .loader).trig.inputs[(4 : InputId)].entry.role = .start
         ∧ (s.chip.granted .loader).trig.inputs[(4 : InputId)].level = some true)
    ∧ (let s := asks 7 0 9 32 0 0 live
       takes s (fun r => r.kind.toNat == 7) ∧ 31 < (s.chip.recordNow s.mem).arg1.toNat)
    ∧ (let s := asks 8 0 9 4 0 0 (startInput .spent false id)
       takes s (fun r => r.kind.toNat == 8) ∧ (s.chip.granted .loader).trig.inputs[(4 : InputId)].state = .spent
         ∧ (s.chip.granted .loader).trig.inputs[(4 : InputId)].entry.role = .start)
    ∧ (let s := asks 8 0 9 31 0 0 live
       takes s (fun r => r.kind.toNat == 8) ∧ (s.chip.granted .loader).trig.inputs[(31 : InputId)].entry.role ≠ .start) := by
  delta takes runs
  refine ⟨?_, ?_, ?_, ?_, ?_, ?_, ?_, ?_⟩ <;> simp only [List.forall_mem_cons] <;> decide +kernel

theorem meets_DriveServiceIsJudgedInOrder :
    (∀ code ∈ [1, 2, 3], let s := asks 9 0 9 5 code 700 (driveAt .idle live)
      let b := s.chip.granted .loader
      takes s (fun r => r.kind.toNat == 9 && (r.arg2.toNat == code || r.arg2.toNat == 0 || 3 < r.arg2.toNat))
        ∧ (s.chip.recordNow s.mem).arg1.toNat = 5 ∧ (s.chip.recordNow s.mem).arg2.toNat = code ∧ b.driveOwner 5 = none
        ∧ b.drives[(5 : DriveId)].state = .idle ∧ b.bays[b.drives[(5 : DriveId)].entry.bay].guarded = false ∧ b.drives[(5 : DriveId)].service = none
        ∧ b.drives[(5 : DriveId)].move = none)
    ∧ (let s := asks 9 0 9 24 4 0 live
       takes s (fun r => r.kind.toNat == 9 && (r.arg2.toNat == 1 || r.arg2.toNat == 0 || 3 < r.arg2.toNat)) ∧ 23 < (s.chip.recordNow s.mem).arg1.toNat)
    ∧ (let s := asks 9 0 9 5 1 0 ((driveAt .moving live).modClaims fun t => { t with drives := updAt t.drives 5 fun _ => ⟨some 2, none⟩ })
       takes s (fun r => r.kind.toNat == 9 && (r.arg2.toNat == 1 || r.arg2.toNat == 0 || 3 < r.arg2.toNat)) ∧ (s.chip.granted .loader).driveOwner 5 ≠ none)
    ∧ ((live.granted .loader).driveOwner 23 = none ∧ (live.granted .loader).drives[(23 : DriveId)].state = .offline)
    ∧ (let c := (driveAt .faulted live).modBay 3 fun b => { b with guarded := true }
       (c.granted .loader).driveOwner 5 = none ∧ (c.granted .loader).drives[(5 : DriveId)].state ≠ .offline
         ∧ (c.granted .loader).bays[(c.granted .loader).drives[(5 : DriveId)].entry.bay].guarded = true)
    ∧ (((driveAt .faulted live).granted .loader).drives[(5 : DriveId)].state ≠ .idle
        ∧ ((driveAt .faulted live).granted .loader).bays[((driveAt .faulted live).granted .loader).drives[(5 : DriveId)].entry.bay].guarded = false) := by
  delta takes runs
  exact ⟨by simp only [List.forall_mem_cons]; decide +kernel, by decide +kernel, by decide +kernel, by decide +kernel, by decide +kernel, by decide +kernel⟩

theorem meets_ResetShowIsBusyOrCarriedOut :
    (let s := asks 10 0 9 0 0 0 (flying .ending 2)
     let b := s.chip.granted .loader
     takes s (fun r => r.kind.toNat == 10) ∧ (s.chip.recordNow s.mem).flags.getLsbD 0 = false
       ∧ (b.slots.toList.filter fun x => x.state != .free).length + b.trig.queue.length = 3)
    ∧ (let s := asks 10 1 9 0 0 0 (flying .ending 2)
       takes s (fun r => r.kind.toNat == 10) ∧ (s.chip.recordNow s.mem).flags.getLsbD 0 = true)
    ∧ (let s := asks 10 0 9 0 0 0 live
       let b := s.chip.granted .loader
       takes s (fun r => r.kind.toNat == 10) ∧ (b.slots.toList.filter fun x => x.state != .free).length + b.trig.queue.length = 0) := by
  delta takes runs; decide +kernel

theorem meets_ResetShowClearsTheShow :
    let c : Chip := { live with port := { live.port with resetDrain := true } }
    let due : Chip := { live with req := { live.req with resetWait := true } }
    let late := { due with port := { due.port with requestBacklog := [post5] } }
    (runs (st c) ∧ c.port.resetDrain = true ∧ c.port.posts = [] ∧ c.port.noticeBacklog = [] ∧ c.port.requestBacklog = [])
    ∧ (due.req.resetWait = true ∧ due.port.noticeBacklog = [] ∧ due.port.requestBacklog = []) ∧ (live.req.resetWait = false)
    ∧ late.port.requestBacklog ≠ []
    ∧ (let b : Chip := { late with port := { late.port with waiting := [.requestUnit] } }
       b.signals = [] ∧ b.trig.queue = [] ∧ b.req.resetWait = true ∧ b.port.settlePostings.noticeBacklog = []
         ∧ b.port.settlePostings.requestBacklog = []) := by
  delta runs; decide +kernel

/-! ### Replies and notices -/

theorem meets_RepliesLandBeforeTheIndex :
    takes (asks 0 0 9 0 0 0 live) (fun r => r.kind.toNat == 0 || 10 < r.kind.toNat)
    ∧ takes (asks 11 0 9 0 0 0 live) (fun r => r.kind.toNat == 0 || 10 < r.kind.toNat)
    ∧ ((posting (List.replicate 30 post5) live).port.requestBacklog = [] ∧ (posting (List.replicate 30 post5) live).port.posts.length ≤ 30) := by
  delta takes runs; decide +kernel

/-- A notice at source 1, the ring empty. -/
def noticing (c : Chip) : Chip := { c with notice := { c.notice with sources := updAt c.notice.sources 1 fun _ => some ⟨.sceneNote 3 400, 0⟩ } }

theorem meets_NoticesMergeAndDrainInTurn :
    (runs (st live) ∧ live.notice.sources = Vector.replicate 77 none)
    ∧ (runs (st transparent) ∧ transparent.mayDrain = false)
    ∧ (let c := noticing (posting (List.replicate 27 post5) live)
       runs (st c) ∧ c.running = true ∧ c.port.resetDrain = false ∧ c.port.noticeBacklog = [] ∧ (c.notice.produce + 1) % 64 ≠ c.notice.consume
         ∧ c.port.posts.length ≤ 27 ∧ c.notice.sources[(1 : Fin 77)] = some ⟨.sceneNote 3 400, 0⟩
         ∧ ∀ j : Fin 77, c.notice.sources[j] ≠ none → ((1 : Fin 77).val + 76 - c.notice.pointer.val) % 77 ≤ (j.val + 76 - c.notice.pointer.val) % 77) := by
  delta runs; decide +kernel

theorem meets_NoticesMergeAndDrainInTurn_rank :
    (transparent.port.mode = .transparent) ∧ (live.port.mode ≠ .transparent ∧ live.port.resetDrain = false)
    ∧ live.notice.sources[(1 : Fin 77)] = none ∧ (noticing live).notice.sources[(1 : Fin 77)] = some ⟨.sceneNote 3 400, 0⟩
    ∧ (NoticeBody.sceneNote 3 400).rank ≤ (NoticeBody.sceneNote 4 500).rank
    ∧ (NoticeBody.modeChange .live ⟨false, false, false⟩ none).rank < (NoticeBody.fencedWrite 0 1).rank
    ∧ ([4, 3, 2, 1][1]? = some (NoticeBody.fencedWrite 0 1).encode.kind
        ∧ [4, 3, 2, 1][3]? = some (NoticeBody.modeChange .live ⟨false, false, false⟩ none).encode.kind)
    ∧ ((NoticeBody.triggerDropped 3 9 .ignored).encode.kind = 7 ∧ (NoticeBody.guardChange 3 9 none).encode.kind = 8)
    ∧ ({ Slot.free with cause := some .stopped } : Slot).cause = some .stopped := by decide +kernel

/-- Section 11.6, byte by byte: a request's scene 9 ended by GUARD ABORT at cue 4, with drive 5 at fault. -/
theorem test_scene_ended_payload :
    payloadOf (.sceneEnded ⟨9, some (.request 0x1234#16), .guardAbort, ⟨false, false, false, true⟩, 7, some 4, 0x01020304, some (5, ⟨8#8, 0#8, 0#8, 0#8⟩)⟩)
      = [201, 5, 0x34, 0x12, 7, 0, 4, 4, 3, 2, 1, 8] := by decide +kernel

theorem meets_MirrorWordsAreTheEntriesNow :
    let word : Posting := ⟨0x4102, 1#32, 0xF#4, true⟩
    (transparent.running = false ∧ live.running = true ∧ live.port.resetDrain = false ∧ live.port.noticeBacklog = [] ∧ live.port.posts = [])
    ∧ (createPosting live.port.posts word = some [word] ∧ createPosting (List.replicate 32 post5) word = none)
    ∧ ({ live.port with noticeBacklog := [word] } : Port).noticeBacklog ≠ []
    ∧ (∀ c ∈ [live, heldBy .settled true], (lampOf none none .none c).isHeld = c.isHeld
        ∧ (lampOf none none .none c).lamp.lamps[(7 : LampId)].copy = some 0x02000100#32)
    ∧ houseBay 0x02000100#32 = some 0
    ∧ (live.slots[(2 : SlotId)].state ≠ .checking ∧ (driveAt .idle live).drives[(5 : DriveId)].state ≠ .moving
        ∧ live.drives[(5 : DriveId)].position ≠ (⟨0#8, 0#8, 4#8, 176#8⟩ : Sense).position) := by
  refine ⟨?_, ?_, ?_, ?_, ?_, ?_⟩ <;> decide +kernel

end Sys2Proof.Tests
end

