-- ==== Sys2Proof/Proofs/Lamps.lean ====
section
/-!
PROOFS. The lamp channels: frames and fades (O38), and the captured writes of the lamp house table (O14). A host write that is granted in its step is
said once for every word (`hostWrite_granted`).
-/

namespace Sys2Proof.LampProofs

open Sys2Proof.Machine Sys2Proof.Safety

/-! ## The commands of the lamps -/

theorem exec_lampFrameStart (s : State) : exec .lampFrameStart s = execLampFrameStart s := rfl

theorem exec_lampFadeEnd (l : LampId) (s : State) : exec (.lampFadeEnd l) s = execLampFadeEnd l s := rfl

theorem exec_lampHouseTableWrite (l : LampId) (d : Word) (be : Enables) (s : State) :
    exec (.lampHouseTableWrite l d be) s = execLampHouseTableWrite l d be s := rfl

/-! ## The parts of a lamp's record -/

/-- A mirror update leaves the lamp unit as it is. -/
@[simp] theorem mirrorLamp_lamp (l : LampId) (c : Chip) : (c.mirrorLamp l).lamp = c.lamp :=
  Within.mirrorLamp (ps := [.postings]) l (by decide) (Within.refl _ c) .lamp (by decide)

theorem disabled_of_copy {x : Lamp} {w : Word} (h : x.copy = some w) :
    x.disabled = true ↔ houseEnable w = false ∨ houseBay w = none := by
  simp [Lamp.disabled, h]

theorem bay_of_copy {x : Lamp} {w : Word} (h : x.copy = some w) : x.bay = houseBay w := by simp [Lamp.bay, h]

theorem house_of_copy {x : Lamp} {w : Word} (h : x.copy = some w) : x.house = houseLevel w := by simp [Lamp.house, h]

/-! ## Fades (R84) -/

/-- What has been travelled of `n` is at most `n`. -/
theorem travelled_le {n t d : Nat} (ht : t ≤ d) : n * t / d ≤ n :=
  Nat.div_le_of_le_mul (Nat.mul_comm d n ▸ Nat.mul_le_mul_left n ht)

theorem value_rising {f : LampFade} (hd : 0 < f.dur) (h : f.start ≤ f.target) :
    f.value = f.start + (f.target - f.start) * f.time / (f.dur * 1000) := by
  simp [LampFade.value, Nat.ne_of_gt hd, h]

theorem value_falling {f : LampFade} (hd : 0 < f.dur) (h : f.target < f.start) :
    f.value = f.start - (f.start - f.target) * f.time / (f.dur * 1000) := by
  simp [LampFade.value, Nat.ne_of_gt hd, Nat.not_le.2 h]

theorem time_eq (f : LampFade) : f.time = min (f.elapsed / 4) (f.dur * 1000) := rfl

theorem time_le (f : LampFade) : f.time ≤ f.dur * 1000 := Nat.min_le_right _ _

theorem time_at_start {f : LampFade} (h : f.elapsed = 0) : f.time = 0 := by simp [time_eq, h]

theorem time_at_end {f : LampFade} (h : Config.ms f.dur ≤ f.elapsed) : f.time = f.dur * 1000 := by
  unfold Config.ms at h
  rw [time_eq]
  omega

/-- A fade stands at its start when it begins. -/
theorem value_at_start {f : LampFade} (hd : 0 < f.dur) (h : f.elapsed = 0) : f.value = f.start := by
  rcases Nat.lt_or_ge f.target f.start with hlt | hge
  · simp [value_falling hd hlt, time_at_start h]
  · simp [value_rising hd hge, time_at_start h]

/-- It stands at its target once its duration has passed. -/
theorem value_at_end {f : LampFade} (hd : 0 < f.dur) (h : Config.ms f.dur ≤ f.elapsed) : f.value = f.target := by
  have hpos : 0 < f.dur * 1000 := by omega
  rcases Nat.lt_or_ge f.target f.start with hlt | hge
  · rw [value_falling hd hlt, time_at_end h, Nat.mul_div_cancel _ hpos]
    omega
  · rw [value_rising hd hge, time_at_end h, Nat.mul_div_cancel _ hpos]
    omega

/-- It never leaves the levels between the two. -/
theorem value_between {f : LampFade} (hd : 0 < f.dur) :
    min f.start f.target ≤ f.value ∧ f.value ≤ max f.start f.target := by
  rcases Nat.lt_or_ge f.target f.start with hlt | hge
  · have := travelled_le (n := f.start - f.target) (time_le f)
    rw [value_falling hd hlt]
    exact ⟨Nat.le_trans (Nat.min_le_right _ _) (by omega), Nat.le_trans (Nat.sub_le _ _) (Nat.le_max_left _ _)⟩
  · have := travelled_le (n := f.target - f.start) (time_le f)
    rw [value_rising hd hge]
    exact ⟨Nat.le_trans (Nat.min_le_left _ _) (Nat.le_add_right _ _), Nat.le_trans (by omega) (Nat.le_max_right f.start f.target)⟩

/-! ## Frames (R81) -/

/-- The level a lamp shows, by the lamp's fields: while HELD its bay's safe level, else where its fade or its level stands (R76, R91; log 18). -/
theorem shown_eq (c : Chip) (l : LampId) :
    c.shown l = if c.isHeld then (match c.lamp.lamps[l].bay with
        | some b => c.lamp.bays[b].safe
        | none => 0)
      else (match c.lamp.lamps[l].fade with
        | some f => f.value
        | none => c.lamp.lamps[l].level) := by
  unfold Chip.shown
  split
  · unfold Chip.safeLevel
    cases c.lamp.lamps[l].bay <;> rfl
  · unfold Lamp.momentary
    cases c.lamp.lamps[l].fade <;> rfl

/-- An output over the frame, by the lamp's house word. -/
theorem frameOutput_eq (l : LampId) (c : Chip) :
    c.frameOutput l = match c.lamp.lamps[l].copy with
      | none => .undriven
      | some w => .driven (houseActiveLow w) (if houseEnable w = false ∨ houseBay w = none then 0 else c.shown l * c.lamp.period / 1023) := by
  unfold Chip.frameOutput onTime
  split
  · next h => rw [h]
  · next w h => simp only [h, disabled_of_copy h]

/-- With the time to the frame start known, that time passes and the frame starts (R81; log 2). -/
theorem exec_lampFrameStart_running {s : State} {r : Nat} (hrun : runs s) (hr : s.chip.lamp.frame = some r) :
    exec .lampFrameStart s = .next { s with chip := (s.chip.advance r).lampFrame } := by
  rw [exec_lampFrameStart, execLampFrameStart, State.local_, if_neg (by simp [show s.chip.port.resetLine = false from hrun])]
  simp only [State.mapChip, Chip.expire, hr]

/-! ## Fade ends (R84, R91) -/

/-- While HELD no fade ends. -/
theorem exec_lampFadeEnd_held {s : State} (l : LampId) (hrun : runs s) (hh : s.chip.isHeld = true) :
    EndsAs (exec (.lampFadeEnd l) s) s s.chip := by
  rw [EndsAs, exec_lampFadeEnd, execLampFadeEnd, event_run hrun, State.mapChip, if_pos hh]

/-- Outside HELD the time that is left passes and the fade ends (R84; log 2). -/
theorem exec_lampFadeEnd_fading {s : State} {l : LampId} {f : LampFade} (hrun : runs s) (hf : s.chip.lamp.lamps[l].fade = some f)
    (hh : s.chip.isHeld = false) :
    EndsAs (exec (.lampFadeEnd l) s) s ((s.chip.advance (Config.ms f.dur - f.elapsed)).lampFadeDone l f.target) := by
  rw [EndsAs, exec_lampFadeEnd, execLampFadeEnd, event_run hrun, State.mapChip, if_neg (by simp [hh])]
  simp only [Chip.lampFadeEnd, Chip.expire, hf, LampFade.left]

/-- The lamp stands at its target, and nothing else changes but the posting buffer. -/
theorem lampFadeDone_spec (l : LampId) (target : Nat) (c : Chip) :
    (c.lampFadeDone l target).lamp = { c.lamp with lamps := updAt c.lamp.lamps l fun x => { x with level := target, fade := none } }
      ∧ Same [.lamp, .postings] (c.lampFadeDone l target) c := by
  refine ⟨?_, ?_⟩
  · rw [Chip.lampFadeDone, mirrorLamp_lamp]
    rfl
  · exact Within.same (Within.lampFadeDone l target (by decide) (by decide) (Within.refl _ c))

/-- Settles O38: the frame and the fade's end from the operations' own lemmas, the fade's value by whether it rises or falls. -/
theorem lampFramesAndFades : Obligations.LampFramesAndFades := by
  unfold Obligations.LampFramesAndFades
  refine ⟨fun s r hrun hr => ?_, shown_eq, fun s l f hrun hf => ⟨exec_lampFadeEnd_held l hrun, fun hh => ?_⟩, fun f hd => ?_⟩
  · rw [exec_lampFrameStart_running hrun hr]
    simp only [Chip.lampFrame, Chip.modLampUnit, frameOutput_eq] <;> rfl
  · exact ⟨_, exec_lampFadeEnd_fading hrun hf hh, lampFadeDone_spec l f.target _⟩
  · exact ⟨value_rising hd, value_falling hd, value_at_start hd, value_at_end hd, value_between hd⟩

/-! ## A host write granted in its step (R175, R186, R189) -/

/-- A grant to the host moves the arbiter's own state alone (R182, R183). -/
theorem passed_cases (c : Chip) (w : Nat) (be : Enables) : ∃ a b n, passed c w be = { c with
    port := { c.port with bus := none, clipPtr := a, cuePtr := b, hostCount := n, posts := cancelPostings c.port.posts w be } } := by
  unfold passed Chip.granted
  split
  · exact ⟨_, _, _, rfl⟩
  · obtain ⟨a, b, n, -, e⟩ := grantBus_cases .host c
    rw [e]
    exact ⟨a, b, n, rfl⟩

/-- The part after the grant, in the words of the port. -/
theorem passed_eq (c : Chip) (w : Nat) (be : Enables) :
    passed c w be = (c.granted .host).modPort fun p => { p with posts := cancelPostings p.posts w be } := by
  have hposts : (c.granted .host).port.posts = c.port.posts :=
    (Within.granted (ps := [.arbiter]) .host (by decide) (Within.refl _ c) .postings (by decide)).1
  simp only [Chip.modPort, hposts, passed]

/-- The write is in memory, the block that owns the word has captured it, and the cycle is acknowledged. -/
theorem hostWrite_granted {s : State} {w : WordNo} {d : Word} {be : Enables} (h : grants s w d be) :
    s.hostWrite w d be =
      { mem := s.mem.write w.toNat d be
        chip := Chip.settle (((passed (taken s w d be) w.toNat be).capture w.toNat d be).modPort Port.acknowledge)
        pending := s.pending } := by
  obtain ⟨hrun, hfree, hturn, hfence⟩ := h
  have htaken : (s.mapChip fun c => c.modPort (Port.takeCycle (.write w d be))).mapChip Chip.settle = { s with chip := taken s w d be } := by
    simp [State.mapChip, Chip.modPort, Port.takeCycle, hfree, taken]
  have hhost : (taken s w d be).port.host = some (.write w d be) := settle_host _
  rw [State.hostWrite, State.pin, if_neg (by simp [show s.chip.port.resetLine = false from hrun]), State.settle, htaken, State.serveWrite]
  simp only [hhost, hturn, if_true, State.judgeWrite, hfence, Bool.false_eq_true, if_false, State.grantWrite, State.mapChip, passed_eq]

/-- A granted write ends its step with what the capture makes of the part. -/
theorem writes_of_granted {s : State} {w : WordNo} {d : Word} {be : Enables} (h : grants s w d be) {p : Chip → Prop}
    (hp : p ((passed (taken s w d be) w.toNat be).capture w.toNat d be)) : Writes (.next (s.hostWrite w d be)) s w d be p :=
  ⟨_, congrArg _ (hostWrite_granted h), hp⟩

/-! ## The captured write of a house entry (R79, R80) -/

/-- Outside TRANSPARENT a write of an entry that is neither captured index goes to the lamp unit (R184). -/
theorem capture_lamp {c : Chip} {w : Nat} {l : LampId} (d : Word) (be : Enables) (hm : c.port.mode ≠ .transparent)
    (hl : c.lampOfWord w = some l) (hi : c.running = true → c.isControl 0 w = false ∧ c.isControl 3 w = false) :
    c.capture w d be = c.lampCapture l d be := by
  have hindex : (c.running && c.isControl 0 w) = false ∧ (c.running && c.isControl 3 w) = false := by
    cases hr : c.running
    · exact ⟨rfl, rfl⟩
    · exact hi hr
  simp [Chip.capture, hm, hindex, hl]

/-- A new house level that acts: the lamp's source is HOUSE and the device not HELD (R80). -/
def HouseActs (l : LampId) (old new : Word) (c : Chip) : Prop :=
  houseLevel new ≠ houseLevel old ∧ c.lampOwner l = none ∧ c.lamp.lamps[l].demand = .none ∧ c.isHeld = false

/-- The restore fade of the bay a house word names; at once without a bay (R78). -/
def restoreOf (w : Word) (c : Chip) : Nat := match houseBay w with
  | some b => c.lamp.bays[b].restore
  | none => 0

theorem underlying_house_iff {c : Chip} {l : LampId} {w : Word} (h : c.lamp.lamps[l].copy = some w) :
    c.underlying l = .house ↔ c.lampOwner l = none ∧ c.lamp.lamps[l].demand = .none := by
  unfold Chip.underlying
  rw [if_neg (by rw [h]; exact Bool.false_ne_true)]
  cases c.lampOwner l with
  | some i => simp
  | none => cases c.lamp.lamps[l].demand <;> simp

theorem underlyingTarget_house {c : Chip} {l : LampId} {w : Word} (h : c.lamp.lamps[l].copy = some w) (hu : c.underlying l = .house) :
    c.underlyingTarget l = houseLevel w := by
  rw [Chip.underlyingTarget, hu, house_of_copy h]

theorem restoreFade_of_copy {c : Chip} {l : LampId} {w : Word} (h : c.lamp.lamps[l].copy = some w) :
    c.restoreFade l = restoreOf w c := by
  have hbay := bay_of_copy h
  unfold Chip.restoreFade restoreOf
  cases hw : houseBay w <;> rw [hbay, hw]

/-- A lamp whose source is HOUSE fades to its house level; `faded` is `Lamp.startFade` in the words of the statements (R84, R85). -/
theorem restoreLamp_house {c : Chip} {l : LampId} {w : Word} (h : c.lamp.lamps[l].copy = some w) (hu : c.underlying l = .house) :
    (c.restoreLamp l).lamp = { c.lamp with lamps := updAt c.lamp.lamps l fun x => faded x (houseLevel w) (restoreOf w c) } := by
  rw [Chip.restoreLamp, mirrorLamp_lamp, Chip.modLamp_lamp, underlyingTarget_house h hu, restoreFade_of_copy h]
  rfl

/-- The lamp unit after a captured write whose level acts: the copy is new, and the lamp fades to its level. -/
theorem lampCapture_acts {c : Chip} {l : LampId} {d : Word} {be : Enables} {old : Word} (h : c.lamp.lamps[l].copy = some old)
    (ha : HouseActs l old (old.merge d be) c) :
    (c.lampCapture l d be).lamp = { c.lamp with
      lamps := updAt c.lamp.lamps l fun x =>
        faded { x with copy := some (old.merge d be) } (houseLevel (old.merge d be)) (restoreOf (old.merge d be) c) } := by
  obtain ⟨hlevel, howner, hdemand, hheld⟩ := ha
  let b := c.modLamp l fun x => { x with copy := some (old.merge d be) }
  have hx : b.lamp.lamps[l] = { c.lamp.lamps[l] with copy := some (old.merge d be) } := updAt_self _ _ _
  have hcopy : b.lamp.lamps[l].copy = some (old.merge d be) := by rw [hx]
  have hu : b.underlying l = .house := (underlying_house_iff hcopy).2 ⟨howner, by rw [hx]; exact hdemand⟩
  have hcapture : c.lampCapture l d be = b.restoreLamp l := by
    simp only [Chip.lampCapture, h]
    rw [if_neg (by exact ne_true_of_eq_false hheld), if_pos ⟨hlevel.symm, hu⟩]
  rw [hcapture, restoreLamp_house hcopy hu]
  simp only [b, Chip.modLamp_lamp, updAt_updAt]
  rfl

/-- One whose level does not act changes the copy alone. -/
theorem lampCapture_rests {c : Chip} {l : LampId} {d : Word} {be : Enables} {old : Word} (h : c.lamp.lamps[l].copy = some old)
    (ha : ¬HouseActs l old (old.merge d be) c) :
    (c.lampCapture l d be).lamp = { c.lamp with lamps := updAt c.lamp.lamps l fun x => { x with copy := some (old.merge d be) } } := by
  let b := c.modLamp l fun x => { x with copy := some (old.merge d be) }
  have hx : b.lamp.lamps[l] = { c.lamp.lamps[l] with copy := some (old.merge d be) } := updAt_self _ _ _
  have hcopy : b.lamp.lamps[l].copy = some (old.merge d be) := by rw [hx]
  simp only [Chip.lampCapture, h]
  split
  · split
    · rfl
    · exact mirrorLamp_lamp l b
  · next hheld =>
    rw [if_neg]
    · rfl
    · rintro ⟨hlevel, hu⟩
      obtain ⟨howner, hdemand⟩ := (underlying_house_iff hcopy).1 hu
      rw [hx] at hdemand
      exact ha ⟨hlevel.symm, howner, hdemand, eq_false_of_ne_true hheld⟩

/-- Either way the bays and every other lamp stay as they are. -/
theorem lampCapture_others {c : Chip} {l : LampId} {d : Word} {be : Enables} {old : Word} (h : c.lamp.lamps[l].copy = some old) :
    (∀ k : LampId, k ≠ l → (c.lampCapture l d be).lamp.lamps[k] = c.lamp.lamps[k]) ∧ (c.lampCapture l d be).lamp.bays = c.lamp.bays := by
  by_cases ha : HouseActs l old (old.merge d be) c
  · rw [lampCapture_acts h ha]
    exact ⟨fun k hk => updAt_other _ _ _ _ hk.symm, rfl⟩
  · rw [lampCapture_rests h ha]
    exact ⟨fun k hk => updAt_other _ _ _ _ hk.symm, rfl⟩

/-- Settles O14: the granted write is captured by the lamp unit, and the capture acts by the lamp's source, the mode and the level. -/
theorem lampHouseTableWriteIsCaptured : Obligations.LampHouseTableWriteIsCaptured := by
  unfold Obligations.LampHouseTableWriteIsCaptured
  intro s l d be old w a hdec _ hgrants hmode hword hindex hcopy new x y dur acts
  obtain ⟨p, q, n, hp⟩ := passed_cases a w.toNat be
  have hcapture : (passed a w.toNat be).capture w.toNat d be = (passed a w.toNat be).lampCapture l d be := by
    apply capture_lamp <;> rw [hp]
    · exact hmode
    · exact hword
    · exact hindex
  have hpcopy : (passed a w.toNat be).lamp.lamps[l].copy = some old := by rw [hp]; exact hcopy
  have hacts : HouseActs l old new (passed a w.toNat be) ↔ acts := by rw [hp]; rfl
  have hlamp : (passed a w.toNat be).lamp = a.lamp := by rw [hp]
  have hdur : restoreOf new (passed a w.toNat be) = dur := by rw [hp]; rfl
  have hx : ∀ f : Lamp → Lamp, (updAt (passed a w.toNat be).lamp.lamps l f)[l] = f x := fun f => by rw [updAt_self, hlamp]
  have hact (ha : acts) : ((passed a w.toNat be).lampCapture l d be).lamp.lamps[l] = faded y (houseLevel new) dur := by
    rw [lampCapture_acts hpcopy (hacts.2 ha), hx, hdur]
  rw [exec_lampHouseTableWrite, execLampHouseTableWrite, State.decodedWrite, if_pos hdec]
  refine writes_of_granted hgrants ?_
  rw [hcapture]
  refine ⟨fun ha => ?_, fun ha hnow => ?_, fun ha hdur' hlevel => ?_, ?_, ?_, ?_⟩
  · rw [lampCapture_rests hpcopy (mt hacts.1 ha), hx]
  · exact (hact ha).trans (if_pos hnow)
  · exact (hact ha).trans (if_neg (not_or.2 ⟨hdur', hlevel⟩))
  · rw [← hlamp]
    exact (lampCapture_others hpcopy).1
  · rw [← hlamp]
    exact (lampCapture_others hpcopy).2
  · exact Within.same (Within.lampCapture l d be (by decide) (by decide) (Within.refl _ _))

end Sys2Proof.LampProofs
end

