-- ==== Sys2Proof/Proofs/Voices.lean ====
section
/-!
PROOFS. The voice channels: the directory read (O40), the bursts (O41), the samples and the fade's end (O42). What the arrival of a read or of a burst and
a sample time make of the part is said once for each case of the operation; the statements are put together from these cases.
-/

namespace Sys2Proof.VoiceProofs

open Sys2Proof.Machine Sys2Proof.Safety

/-! ## The commands of the channels -/

theorem exec_directoryReadReturn (v : VoiceId) (s : State) : exec (.directoryReadReturn v) s = .next (s.event (Chip.directoryArrives s.mem v)) := rfl

theorem exec_burstArrives (v : VoiceId) (s : State) : exec (.burstArrives v) s = .next (s.event (Chip.burstArrives s.mem v)) := rfl

theorem exec_sampleTime (v : VoiceId) (s : State) :
    exec (.sampleTime v) s = .next (s.event fun c => (c.advance c.voices[v].sample).sampleAt v) := rfl

theorem exec_voiceFadeEnd (v : VoiceId) (s : State) : exec (.voiceFadeEnd v) s = .next (s.event (Chip.gainFadeEnd v)) := rfl

/-- Outside a reset an event ends its step with what it makes of the part. -/
theorem event_endsAs {s : State} {f : Chip → Chip} {c : Chip} (hrun : runs s) (h : f s.chip = c) : EndsAs (.next (s.event f)) s c := by
  rw [EndsAs, event_run hrun, State.mapChip, h]

/-! ## Changes of one channel -/

theorem modVoice_modVoice (v : VoiceId) (f g : Channel → Channel) (c : Chip) : (c.modVoice v f).modVoice v g = c.modVoice v fun x => g (f x) := by
  simp [Chip.modVoice, updAt_updAt]

theorem modVoice_congr {v : VoiceId} {f g : Channel → Channel} {c : Chip} (h : f c.voices[v] = g c.voices[v]) : c.modVoice v f = c.modVoice v g := by
  simp only [Chip.modVoice, updAt_congr _ _ _ _ h]

theorem modVoice_self (v : VoiceId) (f : Channel → Channel) (c : Chip) : (c.modVoice v f).voices[v] = f c.voices[v] := updAt_self _ _ _

theorem modVoice_others (v : VoiceId) (f : Channel → Channel) (c : Chip) : OtherVoices v (c.modVoice v f) c :=
  fun u hu => updAt_other c.voices v u f hu.symm

/-- A report to the owner joins the reports under way, and nothing else changes (R98). -/
theorem tellVoice_eq (v : VoiceId) (r : VoiceReport) (c : Chip) : c.tellVoice v r = { c with signals := c.signals ++ toldOwner v r c } := by
  unfold Chip.tellVoice toldOwner
  cases c.voiceOwner v with
  | some i => rfl
  | none => simp

/-- The mirror shows the channel as it is. -/
theorem mirrorVoice_voices (v : VoiceId) (c : Chip) : (c.mirrorVoice v).voices = c.voices := mirror_voices _ _

/-! ## The grant of the bus (R181 to R183) -/

/-- A grant leaves every channel as it is. -/
theorem granted_voices (r : Requester) (c : Chip) : (c.granted r).voices = c.voices :=
  Within.granted (ps := [.arbiter]) r (by decide) (Within.refl _ c) .voices (by decide)

/-- It leaves the decoder of the regions as it is. -/
theorem granted_decoder (r : Requester) (c : Chip) : (c.granted r).port.decoder = c.port.decoder := by
  have hport : Port.core (c.granted r).port = Port.core c.port :=
    Within.granted (ps := [.arbiter]) r (by decide) (Within.refl _ c) .port (by decide)
  exact (congrArg Port.decoder hport :)

/-- A clip's entry is read where the decoder has it, before and after the grant. -/
theorem granted_clipEntry (r : Requester) (m : Memory) (clip : Nat) (c : Chip) :
    (c.granted r).clipEntry m clip = parseClip (c.base rClipData) (c.regionLen rClipData) m (c.base rClips + 32 * clip) := by
  simp only [Chip.clipEntry, Chip.base, Chip.regionLen, granted_decoder]

/-! ## The return of a directory read (R99, R100) -/

/-- The channel's request has been served: it waits no more, urgently or not (R99, R104). -/
def readDone (v : VoiceId) : Chip → Chip := Chip.modVoice v fun x => { x with urgent := false, dirRead := none }

/-- At its turn the read of a channel with no burst in flight returns the entry as memory holds it. -/
theorem directoryArrives_eq {c : Chip} {v : VoiceId} {d : DirRead} (m : Memory) (hb : c.voices[v].burst = none) (hd : c.voices[v].dirRead = some d)
    (ht : c.turn (.clip v) = true) :
    c.directoryArrives m v = ((c.granted (.clip v)).modVoice v fun x => { x with urgent := false }).dirReturn v d
      (parseClip (c.base rClipData) (c.regionLen rClipData) m (c.base rClips + 32 * d.clip)) := by
  unfold Chip.directoryArrives
  simp only [hb, hd, Chip.onGrant, ht, if_true, granted_clipEntry]

theorem dirReturn_abandoned {d : DirRead} (v : VoiceId) (e : Option ClipEntry) (c : Chip) (h : d.abandoned = true) :
    (c.modVoice v fun x => { x with urgent := false }).dirReturn v d e = readDone v c := by
  rw [Chip.dirReturn, if_pos h, modVoice_modVoice]
  rfl

theorem dirReturn_replaced {d : DirRead} (v : VoiceId) (e : Option ClipEntry) (c : Chip) (ha : d.abandoned = false) (h : d.replaced = true) :
    (c.modVoice v fun x => { x with urgent := false }).dirReturn v d e =
      (readDone v c).modVoice v fun x => { x with dirRead := some { d with replaced := false } } := by
  rw [Chip.dirReturn, if_neg (by simp [ha]), if_pos h, readDone, modVoice_modVoice, modVoice_modVoice]

theorem dirReturn_missing {d : DirRead} (v : VoiceId) (c : Chip) (ha : d.abandoned = false) (hr : d.replaced = false) :
    (c.modVoice v fun x => { x with urgent := false }).dirReturn v d none = (readDone v c).tellVoice v .missing := by
  rw [Chip.dirReturn, if_neg (by simp [ha]), if_neg (by simp [hr]), modVoice_modVoice]
  rfl

theorem dirReturn_valid {d : DirRead} (v : VoiceId) (e : ClipEntry) (c : Chip) (ha : d.abandoned = false) (hr : d.replaced = false) :
    (c.modVoice v fun x => { x with urgent := false }).dirReturn v d (some e) = (readDone v c).takeClip v e d := by
  rw [Chip.dirReturn, if_neg (by simp [ha]), if_neg (by simp [hr]), modVoice_modVoice]
  rfl

/-- The frame of a clip that takes the channel. -/
theorem takeClip_same (v : VoiceId) (e : ClipEntry) (d : DirRead) (b : Chip) : Same [.voices, .spans, .signals, .postings] (b.takeClip v e d) b :=
  Within.same (Within.takeClip v e d (by decide) (by decide) (by decide) (by decide) (Within.refl _ b))

/-- The owner of a channel is the same before and after its clip has taken it. -/
theorem toldOwner_takeClip (v : VoiceId) (r : VoiceReport) (e : ClipEntry) (d : DirRead) (b : Chip) :
    toldOwner v r (b.takeClip v e d) = toldOwner v r b :=
  toldOwner_congr (takeClip_same v e d b .claims (by decide)) v r

/-- A stop that was pending empties the channel its clip has just taken, the first burst left in flight, abandoned (R100, R103, R111). -/
theorem takeClip_stopped (v : VoiceId) (e : ClipEntry) (d : DirRead) (b : Chip) (hs : d.stopPending = true) :
    let c := b.takeClip v e d
    c.voices[v] = (Channel.take e { d with stopPending := false } b.voices[v]).settle.idled ∧ OtherVoices v c b
      ∧ c.port.clipSpan = updAt b.port.clipSpan v (fun _ => none)
      ∧ c.port.sceneSpan = b.port.sceneSpan ∧ c.port.cueSpan = b.port.cueSpan
      ∧ c.signals = b.signals ++ toldOwner v .started b ++ toldOwner v (.idle .stop) b := by
  intro c
  let a := b.takeClip v e { d with stopPending := false }
  have hc : c = a.voiceIdle v .stop := takeClip_stopPending v e d b hs
  obtain ⟨hvoice, hothers, hclip, hscene, hcue, hsignals⟩ := takeClip_spec v e { d with stopPending := false } b rfl
  obtain ⟨ivoice, iothers, iclip, iscene, icue, isignals⟩ := voiceIdle_spec v .stop a
  rw [hc]
  refine ⟨?_, fun u hu => (iothers u hu).trans (hothers u hu), ?_, iscene.trans hscene, icue.trans hcue, ?_⟩
  · rw [ivoice, hvoice]
  · rw [iclip, hclip, updAt_updAt]
  · rw [isignals, hsignals, toldOwner_takeClip]

/-! ## The clip directory entry (R96, R97) -/

/-- The copy made of the entry at `x`, its fields where section 11.3 has them. -/
def entryAt (m : Memory) (x : Nat) : ClipEntry where
  base := numberAt m (x + 4) 4
  len := numberAt m (x + 8) 4
  rate32 := decide (m.nat8 (x + 1) = 1)
  markCount := m.nat8 (x + 2)
  marks := tabulate 4 fun k => numberAt m (x + (12 + 4 * k.val)) 4

theorem entryAt_mark (m : Memory) (x : Nat) (k : Fin 4) : (entryAt m x).marks[k] = numberAt m (x + (12 + 4 * k.val)) 4 := tabulate_get _ k

/-- R97's tests of the entry at `x`, for a clip data region of `len` bytes at `base`. -/
def EntryValid (base len : Nat) (m : Memory) (x : Nat) : Prop :=
  let e := entryAt m x
  (m.byte x).getLsbD 0 = true ∧ m.nat8 (x + 1) ≤ 1 ∧ e.markCount ≤ 4 ∧ e.base % 4 = 0 ∧ 1 ≤ e.len ∧ e.len ≤ 4194304 ∧ base ≤ e.base
    ∧ e.base + 4 * e.len ≤ base + len ∧ ∀ k : Fin 4, k.val < e.markCount → e.marks[k] < e.len

/-- The copy with its fields read one by one. -/
theorem entryAt_eq (m : Memory) (x : Nat) :
    (⟨m.nat32 (x + 4), m.nat32 (x + 8), m.nat8 (x + 1) == 1, m.nat8 (x + 2),
      ⟨#[m.nat32 (x + 12), m.nat32 (x + 16), m.nat32 (x + 20), m.nat32 (x + 24)], rfl⟩⟩ : ClipEntry) = entryAt m x := by
  simp only [nat32_eq]
  rfl

/-- An entry is taken exactly when R97's tests hold of its fields, and the copy holds these fields (R96, R97). -/
theorem parseClip_eq_some {base len : Nat} {m : Memory} {x : Nat} {e : ClipEntry} :
    parseClip base len m x = some e ↔ EntryValid base len m x ∧ entryAt m x = e := by
  rw [parseClip, entryAt_eq]
  simp only [Option.ite_none_right_eq_some, Bool.and_eq_true, decide_eq_true_eq, beq_iff_eq, List.all_eq_true, Bool.or_eq_true, List.mem_finRange,
    forall_const, Option.some.injEq]
  refine and_congr_left fun _ => ?_
  constructor
  · rintro ⟨⟨⟨⟨⟨⟨⟨⟨hvalid, hrate⟩, halign⟩, hfirst⟩, hlast⟩, hbelow⟩, habove⟩, hcount⟩, hmarks⟩
    exact ⟨hvalid, hrate, hcount, halign, hfirst, hlast, hbelow, habove, fun k hk => (hmarks k).resolve_left (Nat.not_le.2 hk)⟩
  · rintro ⟨hvalid, hrate, hcount, halign, hfirst, hlast, hbelow, habove, hmarks⟩
    exact ⟨⟨⟨⟨⟨⟨⟨⟨hvalid, hrate⟩, halign⟩, hfirst⟩, hlast⟩, hbelow⟩, habove⟩, hcount⟩, fun k => (Nat.lt_or_ge _ _).symm.imp_right (hmarks k)⟩

/-- An entry that fails a test is none; one that passes them all is its copy (R97). -/
theorem parseClip_cases (base len : Nat) (m : Memory) (x : Nat) :
    (¬EntryValid base len m x → parseClip base len m x = none) ∧ (EntryValid base len m x → parseClip base len m x = some (entryAt m x)) :=
  ⟨fun h => Option.eq_none_iff_forall_ne_some.2 fun _ he => h (parseClip_eq_some.1 he).1, fun h => parseClip_eq_some.2 ⟨h, rfl⟩⟩

/-- The tests in the words of the statement: each counted mark is below the length. -/
theorem entryValid_iff (base len : Nat) (m : Memory) (x : Nat) :
    EntryValid base len m x ↔ (m.byte x).getLsbD 0 = true ∧ m.nat8 (x + 1) ≤ 1 ∧ m.nat8 (x + 2) ≤ 4 ∧ numberAt m (x + 4) 4 % 4 = 0
      ∧ 1 ≤ numberAt m (x + 8) 4 ∧ numberAt m (x + 8) 4 ≤ 4194304 ∧ base ≤ numberAt m (x + 4) 4
      ∧ numberAt m (x + 4) 4 + 4 * numberAt m (x + 8) 4 ≤ base + len
      ∧ ∀ k : Fin 4, k.val < m.nat8 (x + 2) → numberAt m (x + (12 + 4 * k.val)) 4 < numberAt m (x + 8) 4 := by
  simp only [EntryValid, entryAt_mark]
  rfl

/-- Settles O40: the read's return by what has become of the read, and the entry by R97's tests. -/
theorem directoryReadTakesTheChannel : Obligations.DirectoryReadTakesTheChannel := by
  unfold Obligations.DirectoryReadTakesTheChannel
  constructor
  · intro s v d hrun hburst hdir hturn b entry
    have harrive := directoryArrives_eq s.mem hburst hdir hturn
    have hvoice : b.voices[v] = { s.chip.voices[v] with urgent := false, dirRead := none } := by
      rw [show b = readDone v (s.chip.granted (.clip v)) from rfl, readDone, modVoice_self, granted_voices]
    have htaken (e : ClipEntry) (ha : d.abandoned = false) (hr : d.replaced = false) (he : entry = some e) :
        EndsAs (exec (.directoryReadReturn v) s) s (b.takeClip v e d) ∧ ∀ r, (Channel.take e r b.voices[v]).settle =
          { Channel.take e r b.voices[v] with
            fetchPos := min 8 e.len, filling := min 8 e.len != e.len, burst := some ⟨0, min 8 e.len, false⟩, urgent := true } := by
      refine ⟨event_endsAs hrun (harrive.trans ?_), fun r => ?_⟩
      · rw [show parseClip _ _ _ _ = some e from he, dirReturn_valid v e _ ha hr]
        rfl
      · exact settle_take e r _ (parseClip_len he) (by rw [hvoice]; exact hburst) (by rw [hvoice])
    refine ⟨fun ha => ?_, fun ha hr => ?_, fun ha hr he => ?_, fun e ha hr he hs => ?_, fun e ha hr he hs => ?_⟩
    · exact event_endsAs hrun (harrive.trans (dirReturn_abandoned v _ _ ha))
    · exact event_endsAs hrun (harrive.trans (dirReturn_replaced v _ _ ha hr))
    · refine event_endsAs hrun (harrive.trans ?_)
      rw [show parseClip _ _ _ _ = none from he, dirReturn_missing v _ ha hr, tellVoice_eq]
      rfl
    · obtain ⟨hends, hsettle⟩ := htaken e ha hr he
      obtain ⟨htake, hothers, hclip, hscene, hcue, hsignals⟩ := takeClip_spec v e d b hs
      exact ⟨_, hends, htake.trans (hsettle d), hclip, hsignals, hothers, hscene, hcue, takeClip_same v e d b⟩
    · obtain ⟨hends, hsettle⟩ := htaken e ha hr he
      obtain ⟨htake, hothers, hclip, hscene, hcue, hsignals⟩ := takeClip_stopped v e d b hs
      exact ⟨_, hends, htake.trans (congrArg Channel.idled (hsettle _)), hclip, hsignals, hothers, hscene, hcue, takeClip_same v e d b⟩
  · intro base len m x n w valid
    obtain ⟨hnone, hsome⟩ := parseClip_cases base len m x
    have hvalid : EntryValid base len m x ↔ valid := entryValid_iff base len m x
    exact ⟨fun h => hnone (mt hvalid.1 h), fun h => ⟨_, hsome (hvalid.2 h), rfl, rfl, rfl, rfl, entryAt_mark m x⟩⟩

/-! ## The arrival of a burst (R103, R105, R107) -/

/-- At its turn the channel's burst brings the words of its clip. -/
theorem burstArrives_eq {c : Chip} {v : VoiceId} {u : Burst} (m : Memory) (hu : c.voices[v].burst = some u) (ht : c.turn (.clip v) = true) :
    c.burstArrives m v = (c.granted (.clip v)).burstReturn v u ((c.granted (.clip v)).voices[v].burstWords m u) := by
  unfold Chip.burstArrives
  simp only [hu, Chip.onGrant, ht, if_true]

/-- The words a burst brings are those of the clip from its first word on (R103). -/
theorem burstWords_of_copy {x : Channel} {e : ClipEntry} (m : Memory) (u : Burst) (h : x.copy = some e) :
    x.burstWords m u = (List.range u.count).map fun k => m.word (e.base / 4 + u.first + k) := by
  rw [Channel.burstWords, h]
  rfl

/-- What a burst that is not abandoned makes of its channel: the words join the FIFO, and it plays on, plays, pauses or goes on as it was (R105, R107,
R112). -/
def afterBurst (held : Bool) (ws : List Word) (x : Channel) : Channel :=
  let y := x.receive ws
  if y.state = .starved then y.play
  else if y.primed = true then if held = true then { y with state := .paused, filling := true } else y.play
  else y

section
variable {x : Channel} {held : Bool} {ws : List Word}

theorem afterBurst_starved (h : x.state = .starved) : afterBurst held ws x = (x.receive ws).play := if_pos h

/-- A PRIMING channel is not STARVED. -/
theorem not_starved_of_primed (h : (x.receive ws).primed = true) : x.state ≠ .starved := by
  intro hs
  simp [Channel.primed, Channel.receive, hs] at h

theorem afterBurst_primed (h : (x.receive ws).primed = true) (hh : held = false) : afterBurst held ws x = (x.receive ws).play :=
  (if_neg (not_starved_of_primed h)).trans ((if_pos h).trans (if_neg (by simp [hh])))

theorem afterBurst_primed_held (h : (x.receive ws).primed = true) (hh : held = true) :
    afterBurst held ws x = { x.receive ws with state := .paused, filling := true } :=
  (if_neg (not_starved_of_primed h)).trans ((if_pos h).trans (if_pos hh))

theorem afterBurst_filling (hs : x.state ≠ .starved) (h : ¬(x.receive ws).primed = true) : afterBurst held ws x = x.receive ws :=
  (if_neg hs).trans (if_neg h)

end

/-- The arrival changes the channel so, and every other channel not at all. -/
theorem burstReturn_voices {u : Burst} (v : VoiceId) (ws : List Word) (c : Chip) (h : u.abandoned = false) :
    (c.burstReturn v u ws).voices = updAt c.voices v (afterBurst c.isHeld ws) := by
  let a := c.modVoice v (Channel.receive ws)
  have hself : a.voices[v] = c.voices[v].receive ws := modVoice_self _ _ _
  have hchange (f : Channel → Channel) (hf : afterBurst c.isHeld ws c.voices[v] = f (c.voices[v].receive ws)) :
      ((a.modVoice v f).mirrorVoice v).voices = updAt c.voices v (afterBurst c.isHeld ws) := by
    rw [mirrorVoice_voices, modVoice_modVoice]
    exact updAt_congr _ _ (fun x => f (x.receive ws)) _ hf.symm
  rw [Chip.burstReturn, if_neg (by simp [h])]
  simp only [show c.modVoice v (Channel.receive ws) = a from rfl, hself, show a.isHeld = c.isHeld from rfl, beq_iff_eq]
  split
  · next hstarved => exact hchange _ (afterBurst_starved hstarved)
  · next hstarved =>
    split
    · next hprimed =>
      split
      · next hh => exact hchange _ (afterBurst_primed_held hprimed hh)
      · next hh => exact hchange _ (afterBurst_primed hprimed (eq_false_of_ne_true hh))
    · next hprimed => exact updAt_congr _ _ _ _ (afterBurst_filling (x := c.voices[v]) hstarved hprimed).symm

/-- With the burst's words in it the channel has primed once the FIFO holds 224 words or the clip is fetched (R105). -/
theorem receive_primed_iff {x : Channel} {e : ClipEntry} (ws : List Word) (h : x.copy = some e) :
    (x.receive ws).primed = true ↔ x.state = .priming ∧ (224 ≤ (x.fifo ++ ws).length ∨ x.fetchPos = e.len) := by
  simp [Channel.primed, Channel.receive, Channel.length, h, Config.fifoHigh]

/-- A channel that enters PLAYING takes its clip's rate (R114; log 28). -/
theorem play_of_copy {x : Channel} {e : ClipEntry} (h : x.copy = some e) :
    x.play = { x with state := .playing, rate32 := e.rate32, sample := min x.sample (if e.rate32 then 125 else 250) } := by
  simp only [Channel.play, h, samplePeriod]

/-- Settles O41: an abandoned burst's words are dropped; else by the channel's state, its FIFO and the mode. -/
theorem burstsFillTheFifo : Obligations.BurstsFillTheFifo := by
  unfold Obligations.BurstsFillTheFifo
  intro s v u hrun hburst hturn b x
  have harrive := burstArrives_eq s.mem hburst hturn
  rw [exec_burstArrives]
  refine ⟨fun ha => event_endsAs hrun (harrive.trans (if_pos ha)), fun e ha hcopy => ?_⟩
  let ws := (List.range u.count).map fun k => s.mem.word (e.base / 4 + u.first + k)
  have hvoices := burstReturn_voices v ws b ha
  have hself : (b.burstReturn v u ws).voices[v] = afterBurst b.isHeld ws x := by rw [hvoices, updAt_self]
  have hprimed := receive_primed_iff ws hcopy
  have hplay := play_of_copy (x := x.receive ws) hcopy
  refine ⟨b.burstReturn v u ws, event_endsAs hrun (by rw [harrive, burstWords_of_copy s.mem u hcopy]), fun hs => ?_, fun hp hh => ?_, fun hp hh => ?_,
    fun hs hp => ?_, fun w hw => ?_, ?_⟩
  · exact hself.trans ((afterBurst_starved hs).trans hplay)
  · exact hself.trans ((afterBurst_primed (hprimed.2 hp) hh).trans hplay)
  · exact hself.trans (afterBurst_primed_held (hprimed.2 hp) hh)
  · exact hself.trans (afterBurst_filling hs (mt hprimed.1 hp))
  · rw [hvoices]
    exact updAt_other _ _ _ _ hw.symm
  · exact Within.same (Within.burstReturn v u ws (by decide) (by decide) (Within.refl _ b))

/-! ## The sample and its frame (R110, R114) -/

/-- A sample scaled by a gain of at most 255 is again a sample. -/
theorem scaled_fits (x : Half) {gain : Nat} (h : gain ≤ 255) :
    -32768 ≤ (x.toInt * (gain : Int)).tdiv 255 ∧ (x.toInt * (gain : Int)).tdiv 255 ≤ 32767 := by
  have hlow : -32768 ≤ x.toInt := BitVec.le_toInt x
  have hhigh : x.toInt ≤ 32767 := Int.le_of_lt_add_one BitVec.toInt_lt
  have hbelow : -32768 * (gain : Int) ≤ x.toInt * (gain : Int) := Int.mul_le_mul_of_nonneg_right hlow (Int.natCast_nonneg gain)
  have habove : x.toInt * (gain : Int) ≤ 32767 * (gain : Int) := Int.mul_le_mul_of_nonneg_right hhigh (Int.natCast_nonneg gain)
  have hleast : -32768 * 255 ≤ x.toInt * (gain : Int) := by omega
  have hmost : x.toInt * (gain : Int) ≤ 32767 * 255 := by omega
  exact ⟨Int.tdiv_le_tdiv (c := 255) (by decide) hleast, Int.tdiv_le_tdiv (c := 255) (by decide) hmost⟩

/-- So scaling loses nothing but the fraction, which is dropped toward zero (R110). -/
theorem scaleSample_toInt (x : Half) {gain : Nat} (h : gain ≤ 255) : (scaleSample x gain).toInt = (x.toInt * (gain : Int)).tdiv 255 := by
  obtain ⟨hlow, hhigh⟩ := scaled_fits x h
  exact BitVec.toInt_ofInt_eq_self (by decide) hlow (Int.lt_of_le_of_lt hhigh (by decide))

/-- The frame's bits, from the most or from the least significant bit on (R114). -/
theorem frameBits_get (lsb : Bool) (x : Half) (k : Fin 16) : (frameBits lsb x)[k] = if lsb then x.getLsbD k.val else x.getMsbD k.val := by
  rw [frameBits, tabulate_get]
  cases lsb
  · simp [BitVec.getMsbD, k.isLt]
  · rfl

/-! ## A sample time (R106 to R109, R111) -/

/-- The channel is in PLAYING or FADING. -/
def Sounds (x : Channel) : Prop := x.state = .playing ∨ x.state = .fading

theorem sounds_iff (x : Channel) : (x.state == .playing || x.state == .fading) = true ↔ Sounds x := by simp [Sounds]

section
variable {v : VoiceId} {a : Chip}

/-- Outside PLAYING and FADING the sample is 0. -/
theorem sampleAt_silent (h : ¬Sounds a.voices[v]) : a.sampleAt v = a.modVoice v (Channel.send 0#16) := if_neg (mt (sounds_iff _).1 h)

/-- The second half of a word is output after the first (R106). -/
theorem sampleAt_held {s : Half} (hp : Sounds a.voices[v]) (hs : a.voices[v].held = some s) :
    a.sampleAt v = a.modVoice v fun x => { x.send (scaleSample s x.gain) with held := none } := by
  rw [Chip.sampleAt, if_pos ((sounds_iff _).2 hp), hs]

theorem sampleAt_first (hp : Sounds a.voices[v]) (hh : a.voices[v].held = none) : a.sampleAt v = a.firstSample v := by
  rw [Chip.sampleAt, if_pos ((sounds_iff _).2 hp), hh]

/-- The first half of a word is output, and marks pass (R106, R108). -/
theorem firstSample_word {w : Word} {rest : List Word} (hf : a.voices[v].fifo = w :: rest) :
    a.firstSample v = (a.modVoice v (Channel.playWord w rest)).passMarks v (a.voices[v].marksAt a.voices[v].playPos) := by
  simp only [Chip.firstSample, hf]

/-- With words of the clip still to come an empty FIFO starves a PLAYING channel (R107). -/
theorem firstSample_starves (hf : a.voices[v].fifo = []) (hlen : a.voices[v].playPos < a.voices[v].length) (hs : a.voices[v].state = .playing) :
    a.firstSample v = a.starve v := by
  simp only [Chip.firstSample, hf, if_pos hlen, hs]
  rfl

/-- It silences a FADING one (R107). -/
theorem firstSample_silent (hf : a.voices[v].fifo = []) (hlen : a.voices[v].playPos < a.voices[v].length) (hs : a.voices[v].state = .fading) :
    a.firstSample v = a.modVoice v (Channel.send 0#16) := by
  simp only [Chip.firstSample, hf, if_pos hlen, hs]
  rfl

/-- Behind the clip's last word the channel is IDLE (R109, R111). -/
theorem firstSample_ends (hf : a.voices[v].fifo = []) (hlen : a.voices[v].length ≤ a.voices[v].playPos) :
    a.firstSample v = (a.modVoice v (Channel.send 0#16)).voiceIdle v .clipEnd := by
  simp only [Chip.firstSample, hf, if_neg (Nat.not_lt.2 hlen)]

end

/-! ## Marks (R108) -/

/-- The clip has its mark `k` at word offset `p`. -/
def markAt (x : Channel) (p : Nat) (k : Fin 4) : Bool := match x.copy with
  | some e => decide (k.val < e.markCount) && e.marks[k] == p
  | none => false

theorem marksAt_eq (x : Channel) (p : Nat) : x.marksAt p = indices fun k => markAt x p k && !x.marks[k] := by
  unfold Channel.marksAt markAt
  cases x.copy with
  | some e => rfl
  | none => simp [indices]

/-- The marks that pass with the word at the head of the FIFO (R106, R108). -/
theorem playWord_marks (w : Word) (rest : List Word) (v : VoiceId) (a : Chip) :
    let x := a.voices[v]
    let c := (a.modVoice v (Channel.playWord w rest)).passMarks v (x.marksAt x.playPos)
    c.voices[v] = { x.playWord w rest with marks := tabulate 4 fun k => x.marks[k] || markAt x x.playPos k }
      ∧ c.signals = a.signals ++ ((List.finRange 4).filter fun k => c.voices[v].marks[k] && !x.marks[k]).flatMap (fun k => toldOwner v (.mark k) a)
      ∧ OtherVoices v c a := by
  intro x c
  obtain ⟨hsignals, -, hothers, hvoice⟩ := passMarks_spec v (x.marksAt x.playPos) (a.modVoice v (Channel.playWord w rest))
  have hmarks (k : Fin 4) : (x.marks[k] || decide (k ∈ x.marksAt x.playPos)) = (x.marks[k] || markAt x x.playPos k) := by
    rw [marksAt_eq]
    simp only [mem_indices]
    cases x.marks[k] <;> simp
  have hself : c.voices[v] = { x.playWord w rest with marks := tabulate 4 fun k => x.marks[k] || markAt x x.playPos k } := by
    rw [hvoice, modVoice_self]
    simp only [show (x.playWord w rest).marks = x.marks from rfl, hmarks, x]
  refine ⟨hself, ?_, fun u hu => (hothers u hu).trans (modVoice_others v _ a u hu)⟩
  have hnew (k : Fin 4) : (c.voices[v].marks[k] && !x.marks[k]) = (markAt x x.playPos k && !x.marks[k]) := by
    rw [hself]
    simp only [tabulate_get]
    cases x.marks[k] <;> simp
  rw [hsignals, marksAt_eq]
  simp only [hnew]
  rfl

/-! ## An underrun (R107) -/

/-- A notice handed to a source is pending there (R202). -/
theorem hand_handed (k : Fin 77) (n : NoticeBody) (c : Chip) : Handed k n (c.hand k n) c := by
  intro hdrain hmode
  rw [Chip.hand, if_neg (by simp [hdrain, hmode])]
  exact updAt_self _ _ _

/-- A notice changes the sources alone. -/
theorem hand_same (k : Fin 77) (n : NoticeBody) (c : Chip) : Same [.sources] (c.hand k n) c := Within.same (Within.hand k n (by decide) (Within.refl _ c))

/-- A report to the owner and a mirror update leave the notices as they are. -/
theorem toldMirrored_sources (v : VoiceId) (r : VoiceReport) (c : Chip) : ((c.tellVoice v r).mirrorVoice v).notice.sources = c.notice.sources :=
  Within.mirrorVoice (ps := [.signals, .postings]) v (by decide) (Within.tellVoice v r (by decide) (Within.refl _ c)) .sources (by decide)

/-- The channel's record on entry to STARVED, its underrun counted (R107). -/
def starved (x : Channel) : Channel := { x.send 0#16 with state := .starved, underruns := min 65535 (x.underruns + 1) }

/-- The notice of an underrun that the channel's record is about to take (R107). -/
def underrunOf (v : VoiceId) (a : Chip) : NoticeBody :=
  .underrun v (a.voices[v].clip.getD 0) (a.voiceOwner v) a.voices[v].playPos (min 65535 (a.voices[v].underruns + 1))

/-- Record, notice, report and mirror, in this order. -/
theorem starve_eq (v : VoiceId) (a : Chip) :
    a.starve v = (((a.modVoice v starved).hand (srcVoice v) (underrunOf v a)).tellVoice v .underrun).mirrorVoice v := by
  have hnotice : underrunOf v a = .underrun v ((a.modVoice v starved).voices[v].clip.getD 0) (a.voiceOwner v)
      (a.modVoice v starved).voices[v].playPos (a.modVoice v starved).voices[v].underruns := by
    rw [modVoice_self]
    rfl
  rw [hnotice]
  rfl

/-- The channel is STARVED, the notice handed and the owner told. -/
theorem starve_spec (v : VoiceId) (a : Chip) :
    let c := a.starve v
    c.voices[v] = starved a.voices[v] ∧ Handed (srcVoice v) (underrunOf v a) c a
      ∧ c.signals = a.signals ++ toldOwner v .underrun a ∧ OtherVoices v c a := by
  intro c
  have hc : c = _ := starve_eq v a
  have hhand := hand_same (srcVoice v) (underrunOf v a) (a.modVoice v starved)
  have hvoices : c.voices = (a.modVoice v starved).voices := by
    rw [hc, mirrorVoice_voices, (tellVoice_rest _ _ _).1]
    exact hhand .voices (by decide)
  have hsignals : c.signals = (a.modVoice v starved).signals ++ toldOwner v .underrun (a.modVoice v starved) := by
    rw [hc, Chip.mirrorVoice, mirror_signals, tellVoice_signals, toldOwner_congr (hhand .claims (by decide))]
    exact congrArg (· ++ _) (hhand .signals (by decide))
  refine ⟨?_, fun hdrain hmode => ?_, hsignals, fun u hu => ?_⟩
  · rw [hvoices, modVoice_self]
  · rw [hc, toldMirrored_sources]
    exact hand_handed (srcVoice v) (underrunOf v a) (a.modVoice v starved) hdrain hmode
  · rw [hvoices]
    exact modVoice_others v _ a u hu

/-! ## The commands at their time (log 2) -/

theorem sampleTime_endsAs {s : State} {v : VoiceId} {c : Chip} (hrun : runs s) (h : (s.chip.advance s.chip.voices[v].sample).sampleAt v = c) :
    EndsAs (exec (.sampleTime v) s) s c := by
  rw [exec_sampleTime]
  exact event_endsAs hrun h

/-- A channel in FADING is IDLE once the time its fade has left has passed (R110, R111). -/
theorem voiceFadeEnd_endsAs {s : State} {v : VoiceId} {f : GainFade} (hrun : runs s) (hs : s.chip.voices[v].state = .fading)
    (hf : s.chip.voices[v].fade = some f) :
    EndsAs (exec (.voiceFadeEnd v) s) s ((s.chip.advance (Config.ms f.dur - f.elapsed)).voiceIdle v .stop) := by
  rw [exec_voiceFadeEnd]
  refine event_endsAs hrun ?_
  simp only [Chip.gainFadeEnd, hs, hf, Chip.expire]

/-- Settles O42: the scaling and the frame by themselves, a sample time by the channel's state, its second sample, its FIFO and the clip's length. -/
theorem samplesAreOutput : Obligations.SamplesAreOutput := by
  unfold Obligations.SamplesAreOutput
  refine ⟨fun x gain h => scaleSample_toInt x h, frameBits_get, fun s v hrun => ?_, fun s v f hrun hs hf => ?_⟩
  · intro a x period sent plays
    have hends {c : Chip} (h : a.sampleAt v = c) : EndsAs (exec (.sampleTime v) s) s c := sampleTime_endsAs hrun h
    refine ⟨fun hp => hends ?_, fun h hp hh => hends ?_, fun w rest hp hh hfifo => ?_, fun hp hh hfifo hlen => ?_, fun hp hh hfifo hlen => hends ?_,
      fun hp hh hfifo hlen => ?_⟩
    · rw [sampleAt_silent hp]
      exact modVoice_congr rfl
    · rw [sampleAt_held hp hh]
      exact modVoice_congr rfl
    · obtain ⟨hvoice, hsignals, hothers⟩ := playWord_marks w rest v a
      exact ⟨_, hends ((sampleAt_first hp hh).trans (firstSample_word hfifo)), hvoice, hsignals, hothers,
        Within.same (Within.passMarks v _ (by decide) (by decide) (Within.modVoice v _ (by decide) (Within.refl _ a)))⟩
    · obtain ⟨hvoice, hhanded, hsignals, hothers⟩ := starve_spec v a
      exact ⟨_, hends ((sampleAt_first (.inl hp) hh).trans (firstSample_starves hfifo hlen hp)), hvoice, hhanded, hsignals, hothers,
        Within.same (Within.starve v (by decide) (by decide) (by decide) (by decide) (Within.refl _ a))⟩
    · rw [sampleAt_first (.inr hp) hh, firstSample_silent hfifo hlen hp]
      exact modVoice_congr rfl
    · obtain ⟨hvoice, hothers, hclip, -, -, hsignals⟩ := voiceIdle_spec v .clipEnd (a.modVoice v (Channel.send 0#16))
      exact ⟨_, hends ((sampleAt_first hp hh).trans (firstSample_ends hfifo hlen)), hvoice.trans (congrArg Channel.idled (modVoice_self _ _ _)), hclip,
        hsignals, fun u hu => (hothers u hu).trans (modVoice_others v _ a u hu),
        Within.same (Within.voiceIdle v .clipEnd (by decide) (by decide) (by decide) (by decide) (Within.modVoice v _ (by decide) (Within.refl _ a)))⟩
  · obtain ⟨hvoice, hothers, hclip, -, -, hsignals⟩ := voiceIdle_spec v .stop (s.chip.advance (Config.ms f.dur - f.elapsed))
    exact ⟨_, voiceFadeEnd_endsAs hrun hs hf, hvoice, hclip, hsignals, hothers,
      Within.same (Within.voiceIdle v .stop (by decide) (by decide) (by decide) (by decide) (Within.refl _ _))⟩

end Sys2Proof.VoiceProofs
end
